-- ==== Sys2Proof/Word.lean ====
section
/-!
DEFINITION. The words of the part and the small index types: bytes, 32-bit window words, 40-bit agent memory
addresses, port, slot, tag and channel numbers, and a family of one value per port (or per slot).
-/
namespace Sys2Proof

/-- A byte of agent memory, of the window or of the map image. -/
abbrev Byte := BitVec 8
/-- A 32-bit window place or entry field. -/
abbrev Word := BitVec 32
/-- An agent memory address, 40 bits (00_scope.md, Conventions). -/
abbrev Addr := BitVec 40
/-- Ports are numbered 0 to 3. -/
abbrev PortId := Fin 4
/-- A port has four request slots (R159). -/
abbrev SlotId := Fin 4
/-- Yield tags are numbered 0 to 7 (R116). -/
abbrev TagId := Fin 8
/-- The Mover's channels are numbered 0 and 1 (R130). -/
abbrev ChanId := Fin 2
/-- A buffer id: 0 to 4095 across all pools (R13). -/
abbrev BufId := Nat
/-- A pool number: 0 to 15. -/
abbrev PoolId := Nat

/-- One value for each of four numbered things: the ports, or the request slots of one port. -/
structure Four (α : Type) where
  p0 : α
  p1 : α
  p2 : α
  p3 : α
deriving DecidableEq, Repr

/-- The value of number `i`. -/
def Four.get {α : Type} (x : Four α) (i : Fin 4) : α :=
  match i with
  | 0 => x.p0
  | 1 => x.p1
  | 2 => x.p2
  | 3 => x.p3

/-- `x` with the value of number `i` replaced. -/
def Four.set {α : Type} (x : Four α) (i : Fin 4) (a : α) : Four α :=
  match i with
  | 0 => { x with p0 := a }
  | 1 => { x with p1 := a }
  | 2 => { x with p2 := a }
  | 3 => { x with p3 := a }

/-- The same value for all four. -/
def Four.fill {α : Type} (a : α) : Four α := ⟨a, a, a, a⟩

/-- Every value replaced by a function of its number and itself. -/
def Four.mapIdx {α β : Type} (f : Fin 4 → α → β) (x : Four α) : Four β :=
  ⟨f 0 x.p0, f 1 x.p1, f 2 x.p2, f 3 x.p3⟩

/-- The four numbers in ascending order. -/
def fourIds : List (Fin 4) := [0, 1, 2, 3]

/-- A count of 8 bits that stays at 255 once it has reached it (R165, R168). -/
def satInc (x : Byte) : Byte := if x = 255 then x else x + 1

end Sys2Proof
end

