-- ==== Sys2Proof/Syntax.lean ====
section
/-!
DEFINITION. The commands the block takes: one constructor of `Instr` per row of spec/opcode_table.json, with the row's
operands. A window write carries the whole word written; a response of an agent carries what the link carries (R148).
-/
namespace Sys2Proof

/-- The three registers of a ring: base low half, base high half, size (R44, R99). -/
inductive RingReg where
  | baseLo
  | baseHi
  | size
deriving DecidableEq, Repr

/-- Any window access: its byte offset in the 64-byte window, its size in bits, and the word written, if it is a write. -/
structure WindowAccess where
  offset : BitVec 6
  bits   : Nat
  write  : Option Word
deriving DecidableEq, Repr

/-- The code of a response (R113, R148). -/
inductive AnswerCode where
  | ack
  | error
deriving DecidableEq, Repr

/-- The answer to a burst read: ACK with the data, or ERROR (R140). -/
inductive ReadAnswer where
  | ack (data : List Byte)
  | error
deriving DecidableEq, Repr

/-- The commands of the block. -/
inductive Instr where
  /-- DEVICE_RESET (R177). -/
  | deviceReset
  /-- MAP_LOAD_END (R6): the read of the ROM ends; `rom` is what the ROM holds from offset 0. -/
  | mapLoadEnd (rom : List Byte)
  /-- LINK_LOSS (R174). -/
  | linkLoss (p : PortId)
  /-- CONTROL_RESET (R174): the word `w` is written to CONTROL, its RESET bit set. -/
  | controlReset (p : PortId) (w : Word)
  /-- ENABLE (R150): `w` is written to CONTROL, ENABLE set and RESET clear. -/
  | enable (p : PortId) (w : Word)
  /-- CMD_START (R48): `w` is written to CONTROL with the command run field set. -/
  | cmdStart (p : PortId) (w : Word)
  /-- CMD_STOP (R56): `w` is written to CONTROL with the command run field clear. -/
  | cmdStop (p : PortId) (w : Word)
  /-- ARR_START (R101): `w` is written to CONTROL with the arrival run field set. -/
  | arrStart (p : PortId) (w : Word)
  /-- ARR_STOP (R106): `w` is written to CONTROL with the arrival run field clear. -/
  | arrStop (p : PortId) (w : Word)
  /-- COMMAND_POLL_DEMAND (R53): `w` is written to POLL, the command demand set. -/
  | commandPollDemand (p : PortId) (w : Word)
  /-- ARRIVAL_POLL_DEMAND (R105): `w` is written to POLL, the arrival demand set. -/
  | arrivalPollDemand (p : PortId) (w : Word)
  /-- CRING_REGISTER_WRITE (R44); a write of CRING_BASE hi is a write of the place at 24h (R182). -/
  | cringRegisterWrite (p : PortId) (r : RingReg) (w : Word)
  /-- ARING_REGISTER_WRITE (R99); a write of ARING_BASE hi is a write of the place at 24h (R182). -/
  | aringRegisterWrite (p : PortId) (r : RingReg) (w : Word)
  /-- EVENTS_WRITE (R155). -/
  | eventsWrite (p : PortId) (w : Word)
  /-- MASK_WRITE (R157). -/
  | maskWrite (p : PortId) (w : Word)
  /-- ATTN_RELEASE_END (R158). -/
  | attnReleaseEnd (p : PortId)
  /-- FAULT_WRITE (R167). -/
  | faultWrite (p : PortId) (w : Word)
  /-- BAD_WINDOW (R151). -/
  | badWindow (p : PortId) (a : WindowAccess)
  /-- ARBITER_GRANT (R161): port `p`'s arbiter grants one request, into the FREE slot `k`. -/
  | arbiterGrant (p : PortId) (k : SlotId)
  /-- CMD_LOAD_RESPONSE (R47): an ACK naming slot `k`, with the 32 bytes of the entry. -/
  | cmdLoadResponse (p : PortId) (k : SlotId) (data : List Byte)
  /-- RING_LOAD_ERROR (R57): an ERROR naming slot `k`. -/
  | ringLoadError (p : PortId) (k : SlotId)
  /-- COMPLETION_STORE_ACK (R55). -/
  | completionStoreAck (p : PortId) (k : SlotId)
  /-- COMPLETION_STORE_ERROR (R58). -/
  | completionStoreError (p : PortId) (k : SlotId)
  /-- RING_REQUEST_EXPIRY (R60): the deadline of the ring load or completion store in slot `k` expires. -/
  | ringRequestExpiry (p : PortId) (k : SlotId)
  /-- COMMAND_AUTO_POLL_EXPIRY (R53). -/
  | commandAutoPollExpiry (p : PortId)
  /-- ALLOCATE (R68): the Custody Table takes port `p`'s oldest handed-over command, an ALLOCATE. So too the ten below. -/
  | allocate (p : PortId)
  /-- FREE (R70). -/
  | free (p : PortId)
  /-- SEND (R72). -/
  | send (p : PortId)
  /-- WITHDRAW (R78). -/
  | withdraw (p : PortId)
  /-- LEND (R80). -/
  | lend (p : PortId)
  /-- RETURN (R82). -/
  | returnView (p : PortId)
  /-- RECALL (R84). -/
  | recallViews (p : PortId)
  /-- RECLAIM (R88). -/
  | reclaim (p : PortId)
  /-- UNFENCE (R89). -/
  | unfence (p : PortId)
  /-- QUERY (R90). -/
  | query (p : PortId)
  /-- MARKER (R91). -/
  | marker (p : PortId)
  /-- ARRIVAL_LOAD_RESPONSE (R102): an ACK naming slot `k`, with the 16 bytes of the entry. -/
  | arrivalLoadResponse (p : PortId) (k : SlotId) (data : List Byte)
  /-- ARRIVAL_STORE_ACK (R104). -/
  | arrivalStoreAck (p : PortId) (k : SlotId)
  /-- ARRIVAL_REQUEST_ERROR (R107). -/
  | arrivalRequestError (p : PortId) (k : SlotId)
  /-- ARRIVAL_REQUEST_EXPIRY (R108). -/
  | arrivalRequestExpiry (p : PortId) (k : SlotId)
  /-- ARRIVAL_AUTO_POLL_EXPIRY (R105). -/
  | arrivalAutoPollExpiry (p : PortId)
  /-- YIELD_RESPONSE (R119): a yield response on port `p`'s link, its tag field as received. -/
  | yieldResponse (p : PortId) (tag : Word) (code : AnswerCode)
  /-- YIELD_DEADLINE_EXPIRY (R122): a non-final expiry of the entry with this tag. -/
  | yieldDeadlineExpiry (t : TagId)
  /-- YIELD_FINAL_EXPIRY (R123). -/
  | yieldFinalExpiry (t : TagId)
  /-- UNSOLICITED_DATA_RESPONSE (R160): a data response naming a slot that holds no request awaiting one. -/
  | unsolicitedDataResponse (p : PortId) (slot : Word)
  /-- BURST_READ_RESPONSE (R140). -/
  | burstReadResponse (p : PortId) (k : SlotId) (answer : ReadAnswer)
  /-- BURST_WRITE_RESPONSE (R141). -/
  | burstWriteResponse (p : PortId) (k : SlotId) (code : AnswerCode)
  /-- BURST_EXPIRY (R142): the deadline of the channel's issued burst request expires. -/
  | burstExpiry (c : ChanId)
  /-- LANDING_WAIT_EXPIRY (R137). -/
  | landingWaitExpiry (c : ChanId)
deriving DecidableEq, Repr

end Sys2Proof
end

