-- ==== Sys2Proof/Decode.lean ====
section
/-!
DEFINITION. The command that a word of the opcode table spells. The table's rows give no bits (every row's "fields" is
empty), so no word spells a command.
-/
namespace Sys2Proof

/-- The command read from a word by the table's bits: none, since no row of the table gives any. -/
def decodeTableWord (_nbits _w : Nat) : Option Instr := none

end Sys2Proof
end

