-- ==== Sys2Proof/Config.lean ====
section
/-!
DEFINITION. What the manual leaves open and no command's operand supplies: the free values, opaque constants of
which no proof can see a value.
-/
namespace Sys2Proof

/-- The order in which a port reset's sweep takes the buffers concerned (R38 to R41) is not given: "They are taken as
one step at the Custody Table". `Config.sweepKey n b` is a free number, `n` counting the sweeps made; buffers are taken
in ascending order of it (log 7). -/
opaque Config.sweepKey : Nat → Nat → Nat

end Sys2Proof
end

