-- ==== Sys2Proof/Machine/State.lean ====
section
/-!
DEFINITION. The state of the part as plain data: everything the spec gives it, the value of each piece after device
reset, and the reasons a step could stop (there are none but a row not yet modelled).
-/
namespace Sys2Proof.Machine
open Sys2Proof

/-! ### The custody map (chapter 1) -/

/-- The map state (R8). -/
inductive MapState where
  | loading
  | ready
  | failed
deriving DecidableEq, Repr

/-- The failure reason (R6). -/
inductive FailReason where
  | none
  | noImage
  | badCheck
  | badContent
deriving DecidableEq, Repr

/-- The grant order of every port's arbiter (R1, R162). -/
inductive ArbMode where
  | fixed
  | rotating
deriving DecidableEq, Repr

/-- A port entry of the map (R2). Times are in microseconds. -/
structure PortEntry where
  present    : Bool
  caching    : Bool
  recovery   : Bool
  inboxLimit : Nat
  respLimit  : Nat
  retries    : Nat
  cmdPoll    : Nat
  arrPoll    : Nat
deriving DecidableEq, Repr

/-- A pool entry of the map (R3). `landing` is absent where the image holds 0FFh. -/
structure PoolEntry where
  home     : PortId
  sizeCode : Nat
  count    : Nat
  base     : Addr
  reach    : Four Bool
  quota    : Four Nat
  landing  : Four (Option PoolId)
deriving DecidableEq, Repr

/-- The custody map, as handed to the other blocks (R1 to R3, R8). -/
structure CustodyMap where
  arbMode     : ArbMode
  landingWait : Nat
  ports       : Four PortEntry
  pools       : List PoolEntry
deriving DecidableEq, Repr

/-! ### Custody records (chapter 2) -/

/-- A reader of a SHARED buffer, with its returning flag (R19). -/
structure Reader where
  port      : PortId
  returning : Bool
deriving DecidableEq, Repr

/-- The holder-side operation in progress on a HELD or SHARED buffer (R21). A pending SEND carries its destination (R19);
a pending RECALL carries the mark that it will end OK_FENCED (R86). -/
inductive HolderOp where
  | none
  | send (dest : PortId)
  | free
  | lend
  | recallViews (degraded : Bool)
deriving DecidableEq, Repr

/-- The fields of a buffer some port holds: HELD when it has no reader, SHARED when it has (R20, R22). -/
structure Owned where
  holder  : PortId
  readers : List Reader
  leases  : List PortId
  op      : HolderOp
  orphan  : Bool
deriving DecidableEq, Repr

/-- Where a buffer stands, with the fields present there (R19). -/
inductive Custody where
  | free
  | owned (o : Owned)
  | queued (sender dest : PortId)
  | source (sender dest : PortId) (orphan : Bool)
  | landing (sender dest : PortId)
  | stranded (lastHolder : PortId) (reclaiming : Bool)
deriving DecidableEq, Repr

/-- A custody record (R19). -/
structure Record where
  custody : Custody
  gen     : Byte
  length  : Nat
  tag     : Word
deriving DecidableEq, Repr

/-- The record of a buffer when the map becomes READY (R42). -/
def Record.fresh : Record := { custody := .free, gen := 0, length := 0, tag := 0 }

/-- The six custody states by name (R20). -/
inductive CustodyState where
  | free
  | held
  | shared
  | queued
  | moving
  | stranded
deriving DecidableEq, Repr

/-- The values of the pending field (R21). -/
inductive Pending where
  | none
  | send
  | free
  | lend
  | ret
  | recallViews
  | reclaim
deriving DecidableEq, Repr

/-- What the Custody Table keeps for one pool: its free list (R30), the channels waiting on it (R31) and the charge of
each port (R32). -/
structure PoolState where
  free    : List BufId
  waiting : List ChanId
  charge  : Four Nat
deriving DecidableEq, Repr

/-- An open destination reservation: of the SEND of buffer `buf`, for `port` in `pool` (R32). -/
structure DestReservation where
  buf  : BufId
  port : PortId
  pool : PoolId
deriving DecidableEq, Repr

/-! ### Commands (chapters 3 and 4) -/

/-- The known command codes (R45, R181). -/
inductive CmdOp where
  | allocate
  | free
  | send
  | withdraw
  | lend
  | ret
  | recallViews
  | reclaim
  | unfence
  | query
  | marker
deriving DecidableEq, Repr

/-- The result codes (section 3.8). -/
inductive ResultCode where
  | ok
  | okFenced
  | notReady
  | noMap
  | noPool
  | denied
  | empty
  | quota
  | stale
  | notHeld
  | inTransit
  | leased
  | full
  | fenced
  | tooLate
  | yieldTimeout
  | yieldRefused
  | moveFailed
  | noRight
  | badCommand
deriving DecidableEq, Repr

/-- The reasons of MOVE_FAILED (section 3.8, R145). -/
inductive MoveReason where
  | noLanding
  | sourceError
  | destError
deriving DecidableEq, Repr

/-- The snapshot of a QUERY (R90). -/
structure Snapshot where
  state   : CustodyState
  holder  : Option PortId
  readers : List PortId
  gen     : Byte
  length  : Nat
deriving DecidableEq, Repr

/-- The result detail (R46). -/
inductive Detail where
  | zero
  | query (q : Snapshot)
  | move (r : MoveReason)
deriving DecidableEq, Repr

/-- A command's result: code, handle ("none" absent), detail (R46). -/
structure Result where
  code   : ResultCode
  handle : Option Word
  detail : Detail
deriving DecidableEq, Repr

/-- How far an outstanding command has come. NOT_ENDED is `handed` (given to the Custody Table, not yet taken, R50) or
`waiting` (accepted, R64); WRITING is `presented` (its completion store not yet granted) or `issued` in a slot (R55, R163). -/
inductive CmdPhase where
  | handed
  | waiting
  | presented
  | issued (slot : SlotId)
deriving DecidableEq, Repr

/-- An outstanding command record (R43). `raw` is the entry as fetched; `addr` is the address of its entry, by the ring base
it was taken under (R44; log 19). -/
structure CmdRec where
  index   : Nat
  addr    : Addr
  raw     : List Byte
  phase   : CmdPhase
  result  : Option Result
  discard : Bool
deriving DecidableEq, Repr

/-- A ring load presented (no slot) or issued: its index, whether an auto-poll brought it (R52), and whether its answer is
to be discarded (R56, R106). -/
structure RingLoad where
  index   : Nat
  slot    : Option SlotId
  auto    : Bool
  discard : Bool
deriving DecidableEq, Repr

/-- An entry loaded with its wait flag set and not yet taken (R51). -/
structure HeldEntry where
  index : Nat
  raw   : List Byte
deriving DecidableEq, Repr

/-- The states of a Command Process (R48). -/
inductive CmdState where
  | stopped
  | running
  | suspended
  | stopping
  | halted
deriving DecidableEq, Repr

/-- A Command Process (R43). -/
structure CmdProc where
  state       : CmdState
  run         : Bool
  base        : Addr
  size        : Nat
  next        : Nat
  load        : Option RingLoad
  held        : Option HeldEntry
  deadline    : Option Nat
  outstanding : List CmdRec
deriving DecidableEq, Repr

/-! ### Inboxes and Arrival Processes (chapter 5) -/

/-- The two lanes of an inbox (R92). -/
inductive Lane where
  | urgent
  | routine
deriving DecidableEq, Repr

/-- What an item brings; a DELIVERY has a length and a tag (R93). -/
inductive ItemKind where
  | delivery (length : Nat) (tag : Word)
  | lease
  | revoked
deriving DecidableEq, Repr

/-- An inbox item (R93). Its lane is the list it stands in. -/
structure Item where
  kind       : ItemKind
  buf        : BufId
  gen        : Byte
  source     : PortId
  delivering : Bool
deriving DecidableEq, Repr

/-- The kinds of reservation (R96). -/
inductive ResKind where
  | send
  | lend
  | standing
deriving DecidableEq, Repr

/-- A reservation in an inbox, of a buffer (R96). -/
structure Reservation where
  kind : ResKind
  buf  : BufId
deriving DecidableEq, Repr

/-- An inbox (R92). -/
structure Inbox where
  urgent       : List Item
  routine      : List Item
  reservations : List Reservation
deriving DecidableEq, Repr

/-- The states of an Arrival Process (R101). -/
inductive ArrState where
  | stopped
  | running
  | suspended
  | halted
deriving DecidableEq, Repr

/-- The arrival record store in flight: its entry's index, and the slot once issued (R99, R163). Its item is the one of the
inbox with the delivering flag set. -/
structure RingStore where
  index : Nat
  slot  : Option SlotId
deriving DecidableEq, Repr

/-- An Arrival Process (R99). -/
structure ArrProc where
  state       : ArrState
  run         : Bool
  base        : Addr
  size        : Nat
  next        : Nat
  load        : Option RingLoad
  store       : Option RingStore
  stopWaiting : Bool
  deadline    : Option Nat
deriving DecidableEq, Repr

/-! ### Yields (chapter 6) -/

/-- The two yields (R112). -/
inductive YieldKind where
  | clean
  | drop
deriving DecidableEq, Repr

/-- The operation a yield is asked for (R115). -/
inductive YieldOp where
  | send
  | free
  | lend
  | ret
  | recallViews
  | reclaim
deriving DecidableEq, Repr

/-- What one asked yield is about: the fields of a waiting place (R116). -/
structure YieldAsk where
  buf    : BufId
  target : PortId
  kind   : YieldKind
  op     : YieldOp
deriving DecidableEq, Repr

/-- The phase of a live entry; ISSUED names the slot the request holds (R116, R118). -/
inductive YieldPhase where
  | presented
  | issued (slot : SlotId)
deriving DecidableEq, Repr

/-- A live entry of the yield table (R116). Its deadline stands in its slot. -/
structure YieldEntry where
  tag      : TagId
  ask      : YieldAsk
  phase    : YieldPhase
  attempts : Nat
deriving DecidableEq, Repr

/-- The Yield Unit: live entries in order of installation, free tags in the order they were freed, waiting places oldest
first (R116). -/
structure YieldUnit where
  live     : List YieldEntry
  freeTags : List TagId
  waiting  : List YieldAsk
deriving DecidableEq, Repr

/-! ### The Mover (chapter 7) -/

/-- The states of a job (R133). -/
inductive JobState where
  | waiting
  | landing
  | copying
deriving DecidableEq, Repr

/-- A job (R132). Its issuing command is the waiting SEND of `source` at port `sender` (log 14). -/
structure Job where
  source   : BufId
  srcPool  : PoolId
  landPool : PoolId
  landing  : Option BufId
  sender   : PortId
  dest     : PortId
  lane     : Lane
  length   : Nat
  tag      : Word
  progress : Nat
  state    : JobState
deriving DecidableEq, Repr

/-- A burst request of a channel: a read or a write, the home port it goes through, and its slot once issued (R139). -/
structure BurstReq where
  write : Bool
  port  : PortId
  slot  : Option SlotId
deriving DecidableEq, Repr

/-- A channel: the job it serves (by its source buffer), its burst store, request and landing deadline (R130). -/
structure Chan where
  serving  : Option BufId
  data     : List Byte
  req      : Option BurstReq
  deadline : Option Nat
deriving DecidableEq, Repr

/-- The Mover (R130). `reserved` lists the buffers whose SENDs hold a RESERVED place; each job holds one more of the sixteen
places. `presented` lists the channels with a presented request, in the order of presenting (R139). -/
structure Mover where
  reserved  : List BufId
  jobs      : List Job
  chan0     : Chan
  chan1     : Chan
  presented : List ChanId
deriving DecidableEq, Repr

/-! ### Ports (chapters 8 and 9) -/

/-- The port states (R149). -/
inductive PortState where
  | down
  | active
  | fenced
deriving DecidableEq, Repr

/-- The ten events, by their bits in EVENTS (R155, R182). -/
inductive Event where
  | arrival
  | completion
  | cmdSuspended
  | arrSuspended
  | cmdHalted
  | arrHalted
  | fencedSelf
  | fenceNotice
  | stranded
  | mapDone
deriving DecidableEq, Repr

/-- The fault kinds and NONE (R164, section 9.2). -/
inductive FaultKind where
  | none
  | badWindow
  | windowRefused
  | badEntry
  | fetchError
  | writebackError
  | arrivalError
  | yieldRefused
  | yieldExpired
  | responseExpired
  | unsolicited
deriving DecidableEq, Repr

/-- The source mark of an UNSOLICITED fault (R166). -/
inductive UnsolSource where
  | yield
  | data
deriving DecidableEq, Repr

/-- A first-fault record (R164). -/
structure FaultRecord where
  kind     : FaultKind
  info     : Addr
  source   : UnsolSource
  count    : Byte
  discards : Byte
deriving DecidableEq, Repr

/-- A request as sent on the link (R112, R148, R159). -/
inductive LinkReq where
  | ringLoad (addr : Addr)
  | completionStore (addr : Addr) (bytes : List Byte)
  | arrivalLoad (addr : Addr)
  | arrivalStore (addr : Addr) (bytes : List Byte)
  | yield (tag : TagId) (kind : YieldKind) (addr : Addr) (size : Nat)
  | burstRead (c : ChanId) (addr : Addr) (length : Nat)
  | burstWrite (c : ChanId) (addr : Addr) (bytes : List Byte)
deriving DecidableEq, Repr

/-- What an ISSUED slot holds: the request and its deadline (R159). -/
structure SlotReq where
  req      : LinkReq
  deadline : Nat
deriving DecidableEq, Repr

/-- The three sources of an arbiter (R161). -/
inductive Source where
  | yield
  | record
  | move
deriving DecidableEq, Repr

/-- The two processes that share RECORD (R163). -/
inductive RecordSide where
  | command
  | arrival
deriving DecidableEq, Repr

/-- An agent port with its two processes and its inbox. -/
structure Port where
  state       : PortState
  events      : BitVec 10
  mask        : BitVec 10
  attnRelease : Option Nat
  fault       : FaultRecord
  slots       : Four (Option SlotReq)
  rotation    : List Source
  recordTurn  : RecordSide
  cmd         : CmdProc
  arr         : ArrProc
  inbox       : Inbox
deriving DecidableEq, Repr

/-! ### The part -/

/-- The state of the part. `freeCount` is the model's own: the counter to which the free order of a sweep is applied
(log 7); `pending` is the queue of commands waiting. -/
structure State where
  mapState  : MapState
  reason    : FailReason
  map       : Option CustodyMap
  ports     : Four Port
  records   : List Record
  pools     : List PoolState
  destRes   : List DestReservation
  yields    : YieldUnit
  mover     : Mover
  now       : Nat
  freeCount : Nat
  pending   : List Instr
deriving DecidableEq, Repr

/-- The reasons for a stop with a fault. There is none: what the spec calls a fault is recorded in a port's first-fault
record and the part goes on (R165), and no rule of the spec stops the machine. -/
inductive Fault where
deriving DecidableEq, Repr

/-- The reasons for a refusal. -/
inductive Refusal where
  /-- Raised by an arm of `exec` whose row has no meaning yet (none has it). Safe: the model stops. -/
  | notModelled (mnemonic : String)
deriving DecidableEq, Repr

/-! ### Device reset -/

/-- A clear first-fault record (R164). -/
def FaultRecord.clear : FaultRecord :=
  { kind := .none, info := 0, source := .yield, count := 0, discards := 0 }

/-- A Command Process after device reset (R43). -/
def CmdProc.reset : CmdProc :=
  { state := .stopped, run := false, base := 0, size := 4, next := 0, load := none, held := none, deadline := none,
    outstanding := [] }

/-- An Arrival Process after device reset (R99). -/
def ArrProc.reset : ArrProc :=
  { state := .stopped, run := false, base := 0, size := 4, next := 0, load := none, store := none, stopWaiting := false,
    deadline := none }

/-- An inbox after device reset (R92). -/
def Inbox.reset : Inbox := { urgent := [], routine := [], reservations := [] }

/-- The order YIELD, RECORD, MOVE (R162). -/
def sourceOrder : List Source := [.yield, .record, .move]

/-- A port after device reset (R177). -/
def Port.reset : Port :=
  { state := .down, events := 0, mask := 0, attnRelease := none, fault := .clear, slots := .fill none,
    rotation := sourceOrder, recordTurn := .command, cmd := .reset, arr := .reset, inbox := .reset }

/-- The Yield Unit after device reset (R128). -/
def YieldUnit.reset : YieldUnit := { live := [], freeTags := [0, 1, 2, 3, 4, 5, 6, 7], waiting := [] }

/-- An idle channel (R130). -/
def Chan.idle : Chan := { serving := none, data := [], req := none, deadline := none }

/-- The Mover after device reset (R130). -/
def Mover.reset : Mover := { reserved := [], jobs := [], chan0 := .idle, chan1 := .idle, presented := [] }

/-- The part right after device reset (R177, R5, R42): the map LOADING, every port reset, no custody. The Time Base's count
and the model's counter start at 0 (DESIGN CHOICE, logs 3 and 7); no command waits. -/
def State.reset : State :=
  { mapState := .loading, reason := .none, map := none, ports := .fill .reset, records := [], pools := [], destRes := [],
    yields := .reset, mover := .reset, now := 0, freeCount := 0, pending := [] }

end Sys2Proof.Machine
end

