-- ==== Sys2Proof/Machine/Operands.lean ====
section
/-!
DEFINITION. The layouts of what an agent reads and writes (chapter 11): the command entry and its fields, the handle word,
the completion image and the arrival record.
-/
namespace Sys2Proof.Machine
open Sys2Proof

/-! ### Little-endian bytes -/

/-- Byte `k` of a byte string; a byte it does not have reads 0 (a well-formed answer has every byte). -/
def byteAt (l : List Byte) (k : Nat) : Byte := l.getD k 0

/-- The 16-bit value at offset `k`. -/
def word16At (l : List Byte) (k : Nat) : BitVec 16 := byteAt l (k + 1) ++ byteAt l k

/-- The 32-bit value at offset `k`. -/
def word32At (l : List Byte) (k : Nat) : Word := word16At l (k + 2) ++ word16At l k

/-- The four bytes of a word, lowest address first. -/
def wordBytes (w : Word) : List Byte :=
  [w.extractLsb' 0 8, w.extractLsb' 8 8, w.extractLsb' 16 8, w.extractLsb' 24 8]

/-! ### Handles (R28, R180) -/

/-- The handle word of a buffer id and a generation: id in bits 11:0, generation in bits 19:12. -/
def handleWord (b : BufId) (g : Byte) : Word := (0 : BitVec 12) ++ (g ++ BitVec.ofNat 12 b)

/-- The buffer id of a handle. -/
def handleId (w : Word) : BufId := (w.extractLsb' 0 12).toNat

/-- The generation of a handle. -/
def handleGen (w : Word) : Byte := w.extractLsb' 12 8

/-- Bits 31:20 of a handle, which must be zero. -/
def handleUnused (w : Word) : BitVec 12 := w.extractLsb' 20 12

/-- The word written where a result handle is "none". -/
def noneHandle : Word := 0xFFFFFFFF

/-! ### The command entry (R45, R181) -/

/-- The owner byte reads 01h for PART; any other value is AGENT (R47). -/
def ownerIsPart (l : List Byte) : Bool := byteAt l 0 == 1

/-- The wait flag. -/
def entryWait (l : List Byte) : Bool := (byteAt l 1).getLsbD 0

/-- The command of a code byte, if the part knows it. -/
def cmdOpOfCode (c : Byte) : Option CmdOp :=
  match c.toNat with
  | 0x01 => some .allocate
  | 0x02 => some .free
  | 0x03 => some .send
  | 0x04 => some .withdraw
  | 0x05 => some .lend
  | 0x06 => some .ret
  | 0x07 => some .recallViews
  | 0x08 => some .reclaim
  | 0x09 => some .unfence
  | 0x0A => some .query
  | 0x0B => some .marker
  | _ => none

/-- The command the entry asks for. -/
def entryOp (l : List Byte) : Option CmdOp := cmdOpOfCode (byteAt l 2)

/-- The lane of a lane byte: 00h ROUTINE, 01h URGENT; SEND refuses any other. -/
def laneOfByte (b : Byte) : Option Lane := if b = 0 then some .routine else if b = 1 then some .urgent else none

/-- The lane field as SEND reads it. -/
def entryLane (l : List Byte) : Option Lane := laneOfByte (byteAt l 3)

/-- The lane field as LEND reads it: ROUTINE for any value but URGENT's (R80). -/
def entryLendLane (l : List Byte) : Lane := if byteAt l 3 = 1 then .urgent else .routine

/-- The sequence. -/
def entrySeq (l : List Byte) : BitVec 16 := word16At l 4

/-- The pool field. -/
def entryPool (l : List Byte) : PoolId := (byteAt l 6).toNat

/-- The port field, 0 to 255. -/
def entryPort (l : List Byte) : Nat := (byteAt l 7).toNat

/-- The port field as a port, if it names one. -/
def entryPortId (l : List Byte) : Option PortId :=
  if h : entryPort l < 4 then some ⟨entryPort l, h⟩ else none

/-- The handle field. -/
def entryHandle (l : List Byte) : Word := word32At l 8

/-- The buffer the entry names. -/
def entryBuf (l : List Byte) : BufId := handleId (entryHandle l)

/-- The length field. -/
def entryLength (l : List Byte) : Nat := (word32At l 12).toNat

/-- The tag field. -/
def entryTag (l : List Byte) : Word := word32At l 16

/-! ### The completion (R46, R181) -/

/-- The code of a result. -/
def ResultCode.byte : ResultCode → Byte
  | .ok => 0x00
  | .okFenced => 0x01
  | .notReady => 0x02
  | .noMap => 0x03
  | .noPool => 0x04
  | .denied => 0x05
  | .empty => 0x06
  | .quota => 0x07
  | .stale => 0x08
  | .notHeld => 0x09
  | .inTransit => 0x0A
  | .leased => 0x0B
  | .full => 0x0C
  | .fenced => 0x0D
  | .tooLate => 0x0E
  | .yieldTimeout => 0x0F
  | .yieldRefused => 0x10
  | .moveFailed => 0x11
  | .noRight => 0x12
  | .badCommand => 0x13

/-- The code of a custody state in a snapshot. -/
def CustodyState.byte : CustodyState → Byte
  | .free => 0
  | .held => 1
  | .shared => 2
  | .queued => 3
  | .moving => 4
  | .stranded => 5

/-- The code of a MOVE_FAILED reason. -/
def MoveReason.byte : MoveReason → Byte
  | .noLanding => 1
  | .sourceError => 2
  | .destError => 3

/-- A port in a byte field, 0FFh where it is absent (R180). -/
def portByte : Option PortId → Byte
  | some p => BitVec.ofNat 8 p.val
  | none => 0xFF

/-- A set of ports as a mask, bit n for port n (R180). -/
def portMask (l : List PortId) : Byte := l.foldr (fun p m => m ||| (1#8 <<< p.val)) 0

/-- The seven detail bytes: bytes 21 to 23, then 28 to 31. -/
def Detail.bytes : Detail → List Byte
  | .zero => [0, 0, 0, 0, 0, 0, 0]
  | .move r => [r.byte, 0, 0, 0, 0, 0, 0]
  | .query q => [q.state.byte, portByte q.holder, portMask q.readers, q.gen] ++ (wordBytes (BitVec.ofNat 32 q.length)).take 3

/-- The 32 bytes of a completion store: bytes 1 to 19 as loaded, owner AGENT, and the result fields. -/
def completionBytes (raw : List Byte) (r : Result) : List Byte :=
  [0] ++ (List.range 19).map (fun i => byteAt raw (i + 1)) ++ [r.code.byte] ++ r.detail.bytes.take 3 ++
    wordBytes (r.handle.getD noneHandle) ++ r.detail.bytes.drop 3

/-! ### The arrival record (R100, R181) -/

/-- The code of a lane. -/
def Lane.byte : Lane → Byte
  | .routine => 0
  | .urgent => 1

/-- The code of an item's kind. -/
def ItemKind.byte : ItemKind → Byte
  | .delivery _ _ => 1
  | .lease => 2
  | .revoked => 3

/-- The length an item's record carries. -/
def ItemKind.length : ItemKind → Nat
  | .delivery n _ => n
  | .lease => 0
  | .revoked => 0

/-- The tag an item's record carries. -/
def ItemKind.tag : ItemKind → Word
  | .delivery _ t => t
  | .lease => 0
  | .revoked => 0

/-- The 16 bytes of an item's arrival record, owner AGENT. -/
def arrivalBytes (lane : Lane) (it : Item) : List Byte :=
  [0, it.kind.byte, lane.byte, portByte (some it.source)] ++ wordBytes (handleWord it.buf it.gen) ++
    wordBytes (BitVec.ofNat 32 it.kind.length) ++ wordBytes it.kind.tag

/-! ### Ring entry addresses -/

/-- The address of command ring entry `i` (R44). -/
def cringAddr (base : Addr) (i : Nat) : Addr := base + BitVec.ofNat 40 (32 * i)

/-- The address of arrival ring entry `i` (R99). -/
def aringAddr (base : Addr) (i : Nat) : Addr := base + BitVec.ofNat 40 (16 * i)

end Sys2Proof.Machine
end

