-- ==== Sys2Proof/Machine/Flags.lean ====
section
/-!
DEFINITION. The flags of a port: events, MASK and the attention line (R155 to R158), the first-fault record (R164 to R168)
and the codes their registers show (R182).
-/
namespace Sys2Proof.Machine
open Sys2Proof

/-- The bit of an event in EVENTS and MASK (R182). -/
def Event.bit : Event → BitVec 10
  | .arrival => 0x001
  | .completion => 0x002
  | .cmdSuspended => 0x004
  | .arrSuspended => 0x008
  | .cmdHalted => 0x010
  | .arrHalted => 0x020
  | .fencedSelf => 0x040
  | .fenceNotice => 0x080
  | .stranded => 0x100
  | .mapDone => 0x200

/-- Raise an event: its flag is set, in every port state (R155). -/
def Port.raise (e : Event) (P : Port) : Port := { P with events := P.events ||| e.bit }

/-- The flags that are both set and enabled (R157). -/
def Port.flagged (P : Port) : BitVec 10 := P.events &&& P.mask

/-- The attention line is asserted (driven low) while a flag is set and enabled and no release runs (R157, R158). -/
def Port.attnAsserted (P : Port) : Bool := P.flagged != 0 && P.attnRelease.isNone

/-- What a window write that brought `flagged` from `before` to `after` does to the release of ATTN (R158). -/
def attnAfterWrite (now : Nat) (before after : BitVec 10) (release : Option Nat) : Option Nat :=
  if after = 0 then none
  else if before &&& ~~~after ≠ 0 then some (now + 1)
  else release

/-- A window write to EVENTS: each flag written as one is cleared (R155). -/
def Port.writeEvents (now : Nat) (w : Word) (P : Port) : Port :=
  let events := P.events &&& ~~~(w.extractLsb' 0 10)
  { P with events := events, attnRelease := attnAfterWrite now P.flagged (events &&& P.mask) P.attnRelease }

/-- A window write to MASK: it replaces the whole set of enables (R157). -/
def Port.writeMask (now : Nat) (w : Word) (P : Port) : Port :=
  let mask := w.extractLsb' 0 10
  { P with mask := mask, attnRelease := attnAfterWrite now P.flagged (P.events &&& mask) P.attnRelease }

/-- The end of a release whose time has come (R158). -/
def Port.endRelease (now : Nat) (P : Port) : Port :=
  match P.attnRelease with
  | some t => if t ≤ now then { P with attnRelease := none } else P
  | none => P

/-! ### The first-fault record -/

/-- A record after a fault (R165): a clear record takes its kind and info; the count rises, and stays at 255. -/
def FaultRecord.record (k : FaultKind) (info : Addr) (src : UnsolSource) (f : FaultRecord) : FaultRecord :=
  if f.kind = .none then { f with kind := k, info := info, source := src, count := satInc f.count }
  else { f with count := satInc f.count }

/-- Record a fault on the port. -/
def Port.recordFault (k : FaultKind) (info : Addr) (P : Port) : Port :=
  { P with fault := P.fault.record k info .yield }

/-- Record an UNSOLICITED fault, with the number received and its source mark (R166). -/
def Port.recordUnsolicited (src : UnsolSource) (n : Word) (P : Port) : Port :=
  { P with fault := P.fault.record .unsolicited (n.zeroExtend 40) src }

/-- Count one discarded completion (R168). -/
def Port.countDiscard (P : Port) : Port := { P with fault := { P.fault with discards := satInc P.fault.discards } }

/-- Count `n` discarded completions. -/
def Port.countDiscards : Nat → Port → Port
  | 0, P => P
  | n + 1, P => (Port.countDiscards n P).countDiscard

/-! ### Codes of the status registers (R182) -/

/-- STATUS bits 1:0. -/
def PortState.code : PortState → Word
  | .down => 0
  | .active => 1
  | .fenced => 2

/-- STATUS bits 6:4. -/
def CmdState.code : CmdState → Word
  | .stopped => 0
  | .running => 1
  | .suspended => 2
  | .stopping => 3
  | .halted => 4

/-- STATUS bits 9:8. -/
def ArrState.code : ArrState → Word
  | .stopped => 0
  | .running => 1
  | .suspended => 2
  | .halted => 3

/-- STATUS bits 13:12. -/
def MapState.code : MapState → Word
  | .loading => 0
  | .ready => 1
  | .failed => 2

/-- STATUS bits 17:16. -/
def FailReason.code : FailReason → Word
  | .none => 0
  | .noImage => 1
  | .badCheck => 2
  | .badContent => 3

/-- FAULT bits 3:0. -/
def FaultKind.code : FaultKind → Word
  | .none => 0
  | .badWindow => 1
  | .windowRefused => 2
  | .badEntry => 3
  | .fetchError => 4
  | .writebackError => 5
  | .arrivalError => 6
  | .yieldRefused => 7
  | .yieldExpired => 8
  | .responseExpired => 9
  | .unsolicited => 10

/-- The three kinds whose info is a 40-bit address (R166). -/
def FaultKind.isAddress : FaultKind → Bool
  | .fetchError => true
  | .arrivalError => true
  | .responseExpired => true
  | .none => false
  | .badWindow => false
  | .windowRefused => false
  | .badEntry => false
  | .writebackError => false
  | .yieldRefused => false
  | .yieldExpired => false
  | .unsolicited => false

/-- A flag as a bit of a word. -/
def boolBit (b : Bool) : Word := if b then 1 else 0

/-- The FAULT register. -/
def FaultRecord.faultWord (f : FaultRecord) : Word :=
  f.kind.code ||| (boolBit (f.kind == .unsolicited && f.source == .data) <<< 4) ||| (f.count.zeroExtend 32 <<< 8) |||
    (f.discards.zeroExtend 32 <<< 16) |||
    (if f.kind.isAddress then (f.info.extractLsb' 32 8).zeroExtend 32 <<< 24 else 0)

/-- The FAULT_INFO register. -/
def FaultRecord.infoWord (f : FaultRecord) : Word := f.info.extractLsb' 0 32

end Sys2Proof.Machine
end

