-- ==== Sys2Proof/Machine/Ops.lean ====
section
/-!
DEFINITION. The named operations on the state's parts: one home for every write of a port, a record, a pool or the map's
values, and the operations of a Command Process, an Arrival Process and an inbox that several commands share.
-/
namespace Sys2Proof.Machine
open Sys2Proof

/-! ### Writes of one part of the state -/

/-- Port `p`. -/
def State.port (s : State) (p : PortId) : Port := s.ports.get p

/-- Port `p` changed by `f`. -/
def State.modPort (p : PortId) (f : Port → Port) (s : State) : State :=
  { s with ports := s.ports.set p (f (s.ports.get p)) }

/-- Every port changed by `f`. -/
def State.mapPorts (f : PortId → Port → Port) (s : State) : State := { s with ports := s.ports.mapIdx f }

/-- The record of buffer `b` (of an id that names no buffer: a FREE one). -/
def State.record (s : State) (b : BufId) : Record := s.records.getD b .fresh

/-- The record of buffer `b` changed by `f`. -/
def State.modRecord (b : BufId) (f : Record → Record) (s : State) : State := { s with records := s.records.modify b f }

/-- The record of buffer `b` given the custody `c`. -/
def State.setCustody (b : BufId) (c : Custody) (s : State) : State := s.modRecord b (fun r => { r with custody := c })

/-- A pool's state where there is no such pool. -/
def PoolState.none : PoolState := { free := [], waiting := [], charge := .fill 0 }

/-- The state of pool `q`. -/
def State.pool (s : State) (q : PoolId) : PoolState := s.pools.getD q .none

/-- The state of pool `q` changed by `f`. -/
def State.modPool (q : PoolId) (f : PoolState → PoolState) (s : State) : State := { s with pools := s.pools.modify q f }

/-- The Yield Unit changed by `f`. -/
def State.modYields (f : YieldUnit → YieldUnit) (s : State) : State := { s with yields := f s.yields }

/-- The Mover changed by `f`. -/
def State.modMover (f : Mover → Mover) (s : State) : State := { s with mover := f s.mover }

/-- A microsecond of the Time Base passes (log 2). -/
def State.tick (s : State) : State := { s with now := s.now + 1 }

/-! ### The map's values as in effect (R9) -/

/-- The values of a port that is not present, or of any port while the map is not READY (R9). -/
def PortEntry.fixed : PortEntry :=
  { present := false, caching := false, recovery := false, inboxLimit := 1, respLimit := 1000, retries := 0,
    cmdPoll := 0, arrPoll := 0 }

/-- The device-wide values while the map is not READY (R9), with no pools (R10). -/
def CustodyMap.fixed : CustodyMap :=
  { arbMode := .fixed, landingWait := 1000, ports := .fill .fixed, pools := [] }

/-- The map in effect. -/
def State.theMap (s : State) : CustodyMap := s.map.getD .fixed

/-- The values port `p` runs with (R2, R9). -/
def State.cfg (s : State) (p : PortId) : PortEntry :=
  if (s.theMap.ports.get p).present then s.theMap.ports.get p else .fixed

/-- A pool entry where there is no such pool. -/
def PoolEntry.none : PoolEntry :=
  { home := 0, sizeCode := 8, count := 0, base := 0, reach := .fill false, quota := .fill 0, landing := .fill Option.none }

/-- The entry of pool `q`. -/
def State.poolEntry (s : State) (q : PoolId) : PoolEntry := s.theMap.pools.getD q .none

/-- The buffer size of a pool (R3). -/
def PoolEntry.size (e : PoolEntry) : Nat := 2 ^ e.sizeCode

/-- The number of buffers of all pools (R13). -/
def totalBuffers (ps : List PoolEntry) : Nat := (ps.map PoolEntry.count).sum

/-- The pool of a buffer id, counting the pools' ids one after another (R13). -/
def poolIndex : List PoolEntry → BufId → PoolId
  | [], _ => 0
  | e :: es, b => if b < e.count then 0 else poolIndex es (b - e.count) + 1

/-- The index of a buffer id within its pool (R13). -/
def indexInPool : List PoolEntry → BufId → Nat
  | [], b => b
  | e :: es, b => if b < e.count then b else indexInPool es (b - e.count)

/-- The pool buffer `b` belongs to. -/
def State.poolOf (s : State) (b : BufId) : PoolId := poolIndex s.theMap.pools b

/-- The entry of the pool buffer `b` belongs to. -/
def State.entryOf (s : State) (b : BufId) : PoolEntry := s.poolEntry (s.poolOf b)

/-- The address of buffer `b` (R14). -/
def State.bufAddr (s : State) (b : BufId) : Addr :=
  (s.entryOf b).base + BitVec.ofNat 40 (indexInPool s.theMap.pools b * (s.entryOf b).size)

/-- quota(p, q) (R16). -/
def State.quota (s : State) (p : PortId) (q : PoolId) : Nat := (s.poolEntry q).quota.get p

/-- Port `p` is ACTIVE. -/
def State.active (s : State) (p : PortId) : Bool := (s.port p).state == .active

/-- Port `p` is FENCED. -/
def State.fenced (s : State) (p : PortId) : Bool := (s.port p).state == .fenced

/-- Port `p`'s caching flag in effect. -/
def State.caching (s : State) (p : PortId) : Bool := (s.cfg p).caching

/-! ### Views of a record (R19 to R21) -/

/-- The custody state by name. -/
def Custody.state : Custody → CustodyState
  | .free => .free
  | .owned o => if o.readers = [] then .held else .shared
  | .queued _ _ => .queued
  | .source _ _ _ => .moving
  | .landing _ _ => .moving
  | .stranded _ _ => .stranded

/-- The pending field of a HELD or SHARED buffer (R21). -/
def Owned.pending (o : Owned) : Pending :=
  match o.op with
  | .send _ => .send
  | .free => .free
  | .lend => .lend
  | .recallViews _ => .recallViews
  | .none => if o.readers.any Reader.returning then .ret else .none

/-- The pending field (R21). -/
def Custody.pending : Custody → Pending
  | .owned o => o.pending
  | .stranded _ r => if r then .reclaim else .none
  | .free => .none
  | .queued _ _ => .none
  | .source _ _ _ => .none
  | .landing _ _ => .none

/-- The fields of a buffer that `p` holds, if it does. -/
def Custody.heldBy (p : PortId) : Custody → Option Owned
  | .owned o => if o.holder = p then some o else none
  | .free => none
  | .queued _ _ => none
  | .source _ _ _ => none
  | .landing _ _ => none
  | .stranded _ _ => none

/-- Port `p` is among the readers. -/
def Owned.hasReader (o : Owned) (p : PortId) : Bool := o.readers.any (fun r => r.port == p)

/-- The buffer is lent: it has a reader or a lease outstanding. -/
def Owned.lent (o : Owned) : Bool := !o.readers.isEmpty || !o.leases.isEmpty

/-- The buffer without reader `p`. -/
def Owned.dropReader (p : PortId) (o : Owned) : Owned := { o with readers := o.readers.filter (fun r => r.port != p) }

/-- The buffer without a lease outstanding to `p`. -/
def Owned.dropLease (p : PortId) (o : Owned) : Owned := { o with leases := o.leases.filter (· != p) }

/-- HELD by `p` with nothing pending and nothing lent (R23, R24). -/
def Custody.heldPlain (p : PortId) : Custody :=
  .owned { holder := p, readers := [], leases := [], op := .none, orphan := false }

/-- The handle of buffer `b` with its current generation. -/
def State.handleOf (s : State) (b : BufId) : Word := handleWord b (s.record b).gen

/-! ### Lists -/

/-- The first member of a list that satisfies `p`, and the list without it. -/
def extractFirst {α : Type} (p : α → Bool) : List α → Option (α × List α)
  | [] => none
  | a :: l =>
    if p a then some (a, l)
    else match extractFirst p l with
      | some (x, r) => some (x, a :: r)
      | none => none

/-- A list without the first member that satisfies `p`. -/
def removeFirst {α : Type} (p : α → Bool) (l : List α) : List α :=
  match extractFirst p l with
  | some (_, r) => r
  | none => l

/-! ### Request slots (R159) -/

/-- Slot `k` holds `r`, or is FREE. -/
def Port.setSlot (k : SlotId) (r : Option SlotReq) (P : Port) : Port := { P with slots := P.slots.set k r }

/-- All four slots FREE. -/
def Port.clearSlots (P : Port) : Port := { P with slots := .fill none }

/-- A request is ISSUED in slot `k` with a deadline. -/
def Port.issue (k : SlotId) (req : LinkReq) (deadline : Nat) (P : Port) : Port :=
  P.setSlot k (some { req := req, deadline := deadline })

/-- The request in slot `k`, other than a yield: what a data response naming the slot matches (R160). -/
def Port.dataReq (P : Port) (k : SlotId) : Option LinkReq :=
  match P.slots.get k with
  | some r => match r.req with
    | .yield _ _ _ _ => none
    | .ringLoad a => some (.ringLoad a)
    | .completionStore a b => some (.completionStore a b)
    | .arrivalLoad a => some (.arrivalLoad a)
    | .arrivalStore a b => some (.arrivalStore a b)
    | .burstRead c a n => some (.burstRead c a n)
    | .burstWrite c a b => some (.burstWrite c a b)
  | none => none

/-- The deadline of slot `k` has passed. -/
def Port.slotDue (now : Nat) (k : SlotId) (P : Port) : Bool :=
  match P.slots.get k with
  | some r => decide (r.deadline ≤ now)
  | none => false

/-! ### The Command Process (chapter 3) -/

/-- The port's Command Process changed by `f`. -/
def Port.modCmd (f : CmdProc → CmdProc) (P : Port) : Port := { P with cmd := f P.cmd }

/-- The command is NOT_ENDED (R43). -/
def CmdRec.notEnded (r : CmdRec) : Bool :=
  match r.phase with
  | .handed => true
  | .waiting => true
  | .presented => false
  | .issued _ => false

/-- The process may issue a load of the entry at the next index (R49). -/
def CmdProc.mayLoad (c : CmdProc) : Bool :=
  c.state == .running && c.load.isNone && c.held.isNone && decide (c.outstanding.length < 4) &&
    !c.outstanding.any (fun r => !r.discard && r.index == c.next)

/-- Present a load of the entry at the next index, if R49 allows. -/
def Port.cmdPresent (auto : Bool) (P : Port) : Port :=
  if P.cmd.mayLoad then
    P.modCmd (fun c => { c with load := some { index := c.next, slot := none, auto := auto, discard := false } })
  else P

/-- The result of a command that the Custody Table never sees (R54). -/
def Result.badEntry : Result := { code := .badCommand, handle := none, detail := .zero }

/-- Take a loaded entry (R50): an outstanding record, the next index advanced, the command handed to the Custody Table. An
unknown code ends BAD_COMMAND at once and records BAD_ENTRY (R54). -/
def Port.takeEntry (raw : List Byte) (P : Port) : Port :=
  let c := P.cmd
  let next := (c.next + 1) % c.size
  if (entryOp raw).isSome then
    { P with cmd := { c with next := next, outstanding := c.outstanding ++
        [{ index := c.next, addr := cringAddr c.base c.next, raw := raw, phase := .handed, result := none, discard := false }] } }
  else
    Port.recordFault .badEntry ((entrySeq raw).zeroExtend 40)
      { P with cmd := { c with next := next, outstanding := c.outstanding ++
          [{ index := c.next, addr := cringAddr c.base c.next, raw := raw, phase := .presented, result := some .badEntry, discard := false }] } }

/-- Take the held entry once nothing is outstanding (R51). -/
def Port.takeHeld (P : Port) : Port :=
  match P.cmd.held with
  | some h => if P.cmd.outstanding = [] then (P.modCmd (fun c => { c with held := none })).takeEntry h.raw else P
  | none => P

/-- What a fall of the outstanding count, or a start, opens the way for: the end of STOPPING (R56), the held entry (R51), a
load (R49). -/
def Port.cmdAdvance (P : Port) : Port :=
  match P.cmd.state with
  | .stopping => if P.cmd.outstanding = [] then P.modCmd (fun c => { c with state := .stopped }) else P
  | .running => P.takeHeld.cmdPresent false
  | .stopped => P
  | .suspended => P
  | .halted => P

/-- A load whose answer will not be acted on: a presented one is withdrawn (R163), an issued one is left in flight with its
answer to be discarded (R56, R106). -/
def RingLoad.abandon (l : RingLoad) : Option RingLoad :=
  match l.slot with
  | none => none
  | some _ => some { l with discard := true }

/-- A stop request to a RUNNING or SUSPENDED process (R56). -/
def CmdProc.stop (c : CmdProc) : CmdProc :=
  { c with
    state := if c.outstanding = [] then .stopped else .stopping
    run := false
    deadline := none
    held := none
    load := c.load.bind RingLoad.abandon }

/-- The discard mark on every command that has not ended (R61). -/
def markNotEnded (l : List CmdRec) : List CmdRec := l.map (fun r => if r.notEnded then { r with discard := true } else r)

/-- The process enters HALTED (R58, R59). -/
def CmdProc.halt (c : CmdProc) : CmdProc :=
  { c with
    state := .halted
    deadline := none
    held := none
    load := c.load.bind RingLoad.abandon
    outstanding := markNotEnded c.outstanding }

/-- The process is stopped by a fence (R63), or, with `zero`, by a port reset (R62): commands not ended take the discard
mark; completion stores presented or in flight are abandoned and counted (R61, R168). -/
def Port.cmdShut (zero : Bool) (P : Port) : Port :=
  let c := P.cmd
  Port.countDiscards (c.outstanding.filter (fun r => !r.notEnded)).length
    { P with cmd := { c with
        state := .stopped
        run := false
        next := if zero then 0 else c.next
        load := none
        held := none
        deadline := none
        outstanding := markNotEnded (c.outstanding.filter CmdRec.notEnded) } }

/-- The Custody Table ends the first outstanding command that satisfies `sel` (R55): its completion store is presented,
behind those of commands that ended before; with the discard mark the result is dropped and counted (R61). -/
def Port.endCommand (sel : CmdRec → Bool) (res : Result) (P : Port) : Port :=
  match extractFirst sel P.cmd.outstanding with
  | none => P
  | some (r, rest) =>
    if r.discard then ((P.modCmd (fun c => { c with outstanding := rest })).countDiscard).cmdAdvance
    else P.modCmd (fun c => { c with outstanding := rest ++ [{ r with phase := .presented, result := some res }] })

/-- The command the Custody Table takes next from this port: the oldest handed over (R50, R64). -/
def CmdProc.nextHanded (c : CmdProc) : Option CmdRec := c.outstanding.find? (fun r => r.phase == .handed)

/-- The oldest handed-over command now waits: the Custody Table has accepted it and it has not ended (R64). -/
def acceptFirst : List CmdRec → List CmdRec
  | [] => []
  | r :: l => if r.phase == .handed then { r with phase := .waiting } :: l else r :: acceptFirst l

/-- Is this the accepted command `op` on buffer `b`? A port has at most one (log 14). -/
def CmdRec.isWaiting (op : CmdOp) (b : BufId) (r : CmdRec) : Bool :=
  r.phase == .waiting && entryOp r.raw == some op && entryBuf r.raw == b

/-- The accepted command `op` of port `p` on buffer `b`, as its entry was fetched; an empty entry if there is none. -/
def State.waitingEntry (s : State) (p : PortId) (op : CmdOp) (b : BufId) : List Byte :=
  match (s.port p).cmd.outstanding.find? (CmdRec.isWaiting op b) with
  | some r => r.raw
  | none => []

/-- End port `p`'s accepted command `op` on buffer `b` with a result whose handle is the buffer's as it now stands (R46, R67). -/
def State.endWaiting (p : PortId) (op : CmdOp) (b : BufId) (code : ResultCode) (d : Detail) (s : State) : State :=
  s.modPort p (Port.endCommand (CmdRec.isWaiting op b) { code := code, handle := some (s.handleOf b), detail := d })

/-- End the accepted RECLAIM of buffer `b`, on whichever port issued it. -/
def State.endReclaim (b : BufId) (code : ResultCode) (s : State) : State :=
  s.mapPorts (fun _ => Port.endCommand (CmdRec.isWaiting .reclaim b) { code := code, handle := some (s.handleOf b), detail := .zero })

/-- End the command of port `p` that the Custody Table is taking. -/
def State.endTaken (p : PortId) (r : Result) (s : State) : State :=
  s.modPort p (Port.endCommand (fun c => c.phase == .handed) r)

/-- End it with a code, the handle of buffer `b` as it now stands, and no detail. -/
def State.endTakenOn (p : PortId) (b : BufId) (code : ResultCode) (s : State) : State :=
  s.endTaken p { code := code, handle := some (s.handleOf b), detail := .zero }

/-- The command of port `p` that the Custody Table is taking is accepted and waits. -/
def State.acceptTaken (p : PortId) (s : State) : State :=
  s.modPort p (Port.modCmd (fun c => { c with outstanding := acceptFirst c.outstanding }))

/-! ### The inbox (chapter 5) -/

/-- The items of both lanes. -/
def Inbox.items (x : Inbox) : List Item := x.urgent ++ x.routine

/-- The places a reservation takes: two for a pending LEND (R96). -/
def Reservation.places (r : Reservation) : Nat :=
  match r.kind with
  | .lend => 2
  | .send => 1
  | .standing => 1

/-- The number of reserved places (R95). -/
def Inbox.reserved (x : Inbox) : Nat := (x.reservations.map Reservation.places).sum

/-- The occupancy (R95). -/
def Inbox.occupancy (x : Inbox) : Nat := x.items.length + x.reserved

/-- The inbox holds no item. -/
def Inbox.isEmpty (x : Inbox) : Bool := x.urgent.isEmpty && x.routine.isEmpty

/-- One more reservation. -/
def Inbox.reserve (k : ResKind) (b : BufId) (x : Inbox) : Inbox :=
  { x with reservations := x.reservations ++ [{ kind := k, buf := b }] }

/-- The reservation of kind `k` of buffer `b`, if there is one, released. -/
def Inbox.release (k : ResKind) (b : BufId) (x : Inbox) : Inbox :=
  { x with reservations := removeFirst (fun r => r.kind == k && r.buf == b) x.reservations }

/-- The item joins the tail of its lane (R92). -/
def Inbox.push (l : Lane) (it : Item) (x : Inbox) : Inbox :=
  match l with
  | .urgent => { x with urgent := x.urgent ++ [it] }
  | .routine => { x with routine := x.routine ++ [it] }

/-- The items that satisfy `p`, removed from both lanes. -/
def Inbox.remove (p : Item → Bool) (x : Inbox) : Inbox :=
  { x with urgent := x.urgent.filter (fun i => !p i), routine := x.routine.filter (fun i => !p i) }

/-- The item that the Arrival Process picks: the head of URGENT if it holds one, of ROUTINE otherwise (R103). -/
def Inbox.pick (x : Inbox) : Inbox :=
  match x.urgent with
  | it :: l => { x with urgent := { it with delivering := true } :: l }
  | [] => match x.routine with
    | it :: l => { x with routine := { it with delivering := true } :: l }
    | [] => x

/-- The item being delivered, with its lane. -/
def Inbox.delivering (x : Inbox) : Option (Lane × Item) :=
  match x.urgent.find? Item.delivering with
  | some it => some (.urgent, it)
  | none => match x.routine.find? Item.delivering with
    | some it => some (.routine, it)
    | none => none

/-- The delivering flags cleared (at most one is set, R99). -/
def Inbox.clearDelivering (x : Inbox) : Inbox :=
  { x with urgent := x.urgent.map (fun i => { i with delivering := false }),
           routine := x.routine.map (fun i => { i with delivering := false }) }

/-- A DELIVERY item of buffer `b`. -/
def Item.isDeliveryOf (b : BufId) (i : Item) : Bool :=
  match i.kind with
  | .delivery _ _ => i.buf == b
  | .lease => false
  | .revoked => false

/-- A LEASE item of buffer `b`. -/
def Item.isLeaseOf (b : BufId) (i : Item) : Bool := i.kind == .lease && i.buf == b

/-- The port's inbox changed by `f`. -/
def Port.modInbox (f : Inbox → Inbox) (P : Port) : Port := { P with inbox := f P.inbox }

/-! ### The Arrival Process (chapter 5) -/

/-- The port's Arrival Process changed by `f`. -/
def Port.modArr (f : ArrProc → ArrProc) (P : Port) : Port := { P with arr := f P.arr }

/-- The process may issue a load (R102). -/
def Port.arrMayLoad (P : Port) : Bool :=
  P.arr.state == .running && P.arr.load.isNone && P.arr.store.isNone && !P.arr.stopWaiting && !P.inbox.isEmpty

/-- Present a load of the entry at the next index, if R102 allows. -/
def Port.arrPresent (auto : Bool) (P : Port) : Port :=
  if P.arrMayLoad then
    P.modArr (fun a => { a with load := some { index := a.next, slot := none, auto := auto, discard := false } })
  else P

/-- Enqueue an item, converting the reservation of kind `k` of its buffer (R95, R97); a waiting process may then load. -/
def Port.enqueue (k : ResKind) (l : Lane) (it : Item) (P : Port) : Port :=
  (P.modInbox (fun x => (x.release k it.buf).push l it)).arrPresent false

/-- A stop request to a RUNNING, SUSPENDED or HALTED process (R106). -/
def ArrProc.stop (a : ArrProc) : ArrProc :=
  match a.state with
  | .halted => { a with state := .stopped, run := false }
  | .stopped => { a with run := false }
  | .running =>
    if a.store.isSome then { a with run := false, stopWaiting := true }
    else { a with state := .stopped, run := false, deadline := none, load := a.load.bind RingLoad.abandon }
  | .suspended => { a with state := .stopped, run := false, deadline := none, load := a.load.bind RingLoad.abandon }

/-- The process after the response to its store, if it failed or not, ends a waiting stop (R106). -/
def ArrProc.endStopWaiting (a : ArrProc) : ArrProc :=
  if a.stopWaiting then { a with state := .stopped, stopWaiting := false } else a

/-- The process stopped by a fence (R109) or, with `zero`, by a port reset (R110): what is in flight is abandoned. -/
def ArrProc.shut (zero : Bool) (a : ArrProc) : ArrProc :=
  { a with
    state := .stopped
    run := false
    stopWaiting := false
    load := none
    store := none
    deadline := none
    next := if zero then 0 else a.next }

/-! ### Charges and destination reservations (R32, R33) -/

/-- charge(p, q). -/
def State.charge (s : State) (p : PortId) (q : PoolId) : Nat := (s.pool q).charge.get p

/-- charge(p, q) + 1. -/
def State.chargeUp (p : PortId) (q : PoolId) (s : State) : State :=
  s.modPool q (fun P => { P with charge := P.charge.set p (P.charge.get p + 1) })

/-- charge(p, q) - 1. -/
def State.chargeDown (p : PortId) (q : PoolId) (s : State) : State :=
  s.modPool q (fun P => { P with charge := P.charge.set p (P.charge.get p - 1) })

/-- A destination reservation opens for the SEND of `b`: it is counted in the charge (R33). -/
def State.openDest (b : BufId) (p : PortId) (q : PoolId) (s : State) : State :=
  { s.chargeUp p q with destRes := s.destRes ++ [{ buf := b, port := p, pool := q }] }

/-- The destination reservation of the SEND of `b` closes into a queued buffer: the charge stays as it was (R33). -/
def State.convertDest (b : BufId) (s : State) : State :=
  { s with destRes := removeFirst (fun r => r.buf == b) s.destRes }

/-- The destination reservation of the SEND of `b` closes without a queued buffer: its charge falls by one (R32, R33). -/
def State.closeDest (b : BufId) (s : State) : State :=
  match extractFirst (fun r => r.buf == b) s.destRes with
  | some (r, rest) => { s.chargeDown r.port r.pool with destRes := rest }
  | none => s

/-! ### Events on several ports -/

/-- Raise an event on every port whose recovery right is in effect (R35, R156). -/
def State.raiseRecovery (e : Event) (s : State) : State :=
  s.mapPorts (fun p P => if (s.cfg p).recovery then P.raise e else P)

end Sys2Proof.Machine
end

