-- ==== Sys2Proof/Machine/YieldUnit.lean ====
section
/-!
DEFINITION. The Yield Unit (chapter 6): the yield table, the free tags and the waiting list; asking, retiring, and ending
every yield of a port.
-/
namespace Sys2Proof.Machine
open Sys2Proof

/-- The outcome of a yield, as handed to the Custody Table (R114, R119, R123). -/
inductive YieldOutcome where
  | acked
  | refused
  | expired
deriving DecidableEq, Repr

/-- A live entry has this pair of buffer and target port (R115). -/
def YieldUnit.pairLive (y : YieldUnit) (a : YieldAsk) : Bool :=
  y.live.any (fun e => e.ask.buf == a.buf && e.ask.target == a.target)

/-- Install an entry with the tag at the head of the free-tag list (R116); with no free tag, nothing. -/
def YieldUnit.install (a : YieldAsk) (y : YieldUnit) : YieldUnit :=
  match y.freeTags with
  | [] => y
  | t :: ts => { y with freeTags := ts, live := y.live ++ [{ tag := t, ask := a, phase := .presented, attempts := 0 }] }

/-- Take a yield that is asked: installed at once, or behind the waiting places (R116, R117). -/
def YieldUnit.take (a : YieldAsk) (y : YieldUnit) : YieldUnit :=
  if y.freeTags = [] || y.pairLive a then { y with waiting := y.waiting ++ [a] } else y.install a

/-- Give one free tag to the oldest waiting place that `ok` admits and whose pair has no live entry (R117). -/
def YieldUnit.serveOne (ok : YieldAsk → Bool) (y : YieldUnit) : YieldUnit :=
  if y.freeTags = [] then y
  else match extractFirst (fun a => ok a && !y.pairLive a) y.waiting with
    | some (a, rest) => { y with waiting := rest }.install a
    | none => y

/-- Give free tags to waiting places, oldest first, until no place can take one (R117). -/
def YieldUnit.serve (ok : YieldAsk → Bool) : Nat → YieldUnit → YieldUnit
  | 0, y => y
  | n + 1, y => YieldUnit.serve ok n (y.serveOne ok)

/-- Serve every waiting place that can be served. -/
def YieldUnit.serveAll (ok : YieldAsk → Bool) (y : YieldUnit) : YieldUnit := y.serve ok y.waiting.length

/-- The entry with tag `t` is retired: its tag joins the tail of the free-tag list (R119, R123). -/
def YieldUnit.retire (t : TagId) (y : YieldUnit) : YieldUnit :=
  match extractFirst (fun e : YieldEntry => e.tag == t) y.live with
  | some (_, rest) => { y with live := rest, freeTags := y.freeTags ++ [t] }
  | none => y

/-- The live entry with tag `t`. -/
def YieldUnit.entry (y : YieldUnit) (t : TagId) : Option YieldEntry := y.live.find? (fun e => e.tag == t)

/-- Every yield with target `p` leaves the table and the waiting list; their tags are freed in order of installation, and
go to the oldest waiting places with other targets (R125, R126). -/
def YieldUnit.endFor (p : PortId) (y : YieldUnit) : YieldUnit :=
  let gone := y.live.filter (fun e => e.ask.target == p)
  YieldUnit.serveAll (fun _ => true)
    { live := y.live.filter (fun e => e.ask.target != p)
      freeTags := y.freeTags ++ gone.map YieldEntry.tag
      waiting := y.waiting.filter (fun a => a.target != p) }

/-- The yields with target `p`: entries in order of installation, then places by age (R125). -/
def YieldUnit.asksFor (y : YieldUnit) (p : PortId) : List YieldAsk :=
  (y.live.filter (fun e => e.ask.target == p)).map YieldEntry.ask ++ y.waiting.filter (fun a => a.target == p)

/-- The entry with tag `t` changed by `f`. -/
def YieldUnit.modEntry (t : TagId) (f : YieldEntry → YieldEntry) (y : YieldUnit) : YieldUnit :=
  { y with live := y.live.map (fun e => if e.tag = t then f e else e) }

/-- The outcome known in the step of the asking, if there is one (R114): a non-caching target's yield is skipped, a FENCED
target's has expired. A DOWN target's agent was reset and caches nothing; no rule asks a yield of one (log 18). -/
def State.askOutcome (s : State) (target : PortId) : Option YieldOutcome :=
  if !s.caching target then some .acked
  else match (s.port target).state with
    | .active => none
    | .fenced => some .expired
    | .down => some .acked

/-- Ask the Yield Unit for a yield whose outcome is not known at once. -/
def State.askYield (a : YieldAsk) (s : State) : State := s.modYields (YieldUnit.take a)

end Sys2Proof.Machine
end

