-- ==== Sys2Proof/Machine/Custody.lean ====
section
/-!
DEFINITION. The Custody Table's work that commands, yield outcomes, copy outcomes, deliveries and resets share: entering a
free list, the hand-off of a SEND, the recall of views, stranding, and what each yield outcome does (chapters 2 and 4); the
Mover's channels and jobs as far as the Custody Table hands them buffers and takes their outcomes (R134 to R137, R144, R145).
-/
namespace Sys2Proof.Machine
open Sys2Proof

/-! ### Channels and jobs -/

/-- Channel `c`. -/
def Mover.chan (m : Mover) (c : ChanId) : Chan :=
  match c with
  | 0 => m.chan0
  | 1 => m.chan1

/-- Channel `c` changed by `f`. -/
def Mover.modChan (c : ChanId) (f : Chan → Chan) (m : Mover) : Mover :=
  match c with
  | 0 => { m with chan0 := f m.chan0 }
  | 1 => { m with chan1 := f m.chan1 }

/-- The job with source buffer `b` changed by `f`. -/
def Mover.modJob (b : BufId) (f : Job → Job) (m : Mover) : Mover :=
  { m with jobs := m.jobs.map (fun j => if j.source = b then f j else j) }

/-- The job that channel `c` serves. -/
def Mover.jobOf (m : Mover) (c : ChanId) : Option Job :=
  match (m.chan c).serving with
  | some b => m.jobs.find? (fun j => j.source == b)
  | none => none

/-- Places RESERVED or holding jobs (R131). -/
def Mover.usedPlaces (m : Mover) : Nat := m.reserved.length + m.jobs.length

/-- The number of places (R130). -/
def moverPlaces : Nat := 16

/-- Channel `c` has its landing buffer `l` (R31, R136): the record is MOVING with role LANDING, and the job COPYING. -/
def State.giveLanding (c : ChanId) (l : BufId) (s : State) : State :=
  match s.mover.jobOf c with
  | some j =>
    (s.setCustody l (.landing j.sender j.dest)).modMover (fun m =>
      (m.modJob j.source (fun j => { j with landing := some l, state := .copying })).modChan c (fun x => { x with deadline := none }))
  | none => s

/-- The fields of buffer `b` where it is HELD or SHARED. -/
def State.owned (s : State) (b : BufId) : Option Owned :=
  match (s.record b).custody with
  | .owned o => some o
  | _ => none

/-! ### Free lists (R27, R30, R31) -/

/-- What entering the free list does to a record (R27). -/
def Record.enterFree (r : Record) : Record := { custody := .free, gen := r.gen + 1, length := 0, tag := 0 }

/-- The oldest channel waiting on pool `q` takes the buffer at the head of its list, if there are both (R31). -/
def State.serveLanding (q : PoolId) (s : State) : State :=
  match (s.pool q).waiting, (s.pool q).free with
  | c :: cs, b :: bs => (s.modPool q (fun P => { P with free := bs, waiting := cs })).giveLanding c b
  | [], _ => s
  | _ :: _, [] => s

/-- Buffer `b` enters its pool's free list (R27); a waiting landing channel takes the head at once (R31). -/
def State.enterFreeList (b : BufId) (s : State) : State :=
  ((s.modRecord b Record.enterFree).modPool (s.poolOf b) (fun P => { P with free := P.free ++ [b] })).serveLanding (s.poolOf b)

/-- A buffer held by, or sent across memories by, port `p` enters its free list, and `p`'s charge falls by one (R33). -/
def State.freeFrom (b : BufId) (p : PortId) (s : State) : State := (s.enterFreeList b).chargeDown p (s.poolOf b)

/-! ### Inbox work -/

/-- The reservation of kind `k` of buffer `b` in port `p`'s inbox is released (R96). -/
def State.releaseRes (p : PortId) (k : ResKind) (b : BufId) (s : State) : State := s.modPort p (Port.modInbox (Inbox.release k b))

/-- A REVOKED item goes into the standing reservation of port `p`'s lease on `b` (R85, R94). -/
def State.revoke (b : BufId) (src p : PortId) (s : State) : State :=
  s.modPort p (Port.enqueue .standing .urgent
    { kind := .revoked, buf := b, gen := (s.record b).gen, source := src, delivering := false })

/-- The LEASE item of `b` that is not being delivered is removed from port `p`'s inbox, with its standing reservation, and
`p` leaves the leases outstanding (R85); a LEASE item being delivered is passed over (R98). -/
def State.removeLease (b : BufId) (p : PortId) (s : State) : State :=
  if (s.port p).inbox.items.any (fun i => i.isLeaseOf b && !i.delivering) then
    (s.modPort p (Port.modInbox (fun x => (x.remove (fun i => i.isLeaseOf b && !i.delivering)).release .standing b))).modRecord b
      (fun r => match r.custody with
        | .owned o => { r with custody := .owned (o.dropLease p) }
        | _ => r)
  else s

/-! ### SEND: hand-off, undoing, stranding (R74 to R76, R35) -/

/-- The landing pool of a port in a pool's entry, pool 0 where there is none (the SEND was then refused DENIED). -/
def PoolEntry.landPool (e : PoolEntry) (p : PortId) : PoolId := (e.landing.get p).getD 0

/-- The pool in which a SEND of `b` to `d` reserves (R32). -/
def State.reservingPool (s : State) (b : BufId) (d : PortId) : PoolId :=
  if (s.entryOf b).reach.get d then s.poolOf b else (s.entryOf b).landPool d

/-- The DELIVERY item of a buffer that becomes QUEUED, into the SEND's inbox reservation (which belongs to buffer `sent`). -/
def State.deliver (sent b : BufId) (src dest : PortId) (lane : Lane) (length : Nat) (tag : Word) (s : State) : State :=
  s.modPort dest (fun P => (P.modInbox (fun x => (x.release .send sent).push lane
    { kind := .delivery length tag, buf := b, gen := (s.record b).gen, source := src, delivering := false })).arrPresent false)

/-- Buffer `b` becomes QUEUED (R24). -/
def State.toQueued (b : BufId) (src dest : PortId) (length : Nat) (tag : Word) (s : State) : State :=
  s.modRecord b (fun r => { r with custody := .queued src dest, length := length, tag := tag })

/-- The direct hand-off (R74). `raw` is the SEND's entry. -/
def State.handOff (b : BufId) (h d : PortId) (raw : List Byte) (s : State) : State :=
  ((((s.toQueued b h d (entryLength raw) (entryTag raw)).deliver b b h d ((entryLane raw).getD .routine) (entryLength raw)
    (entryTag raw)).chargeDown h (s.poolOf b)).convertDest b).endWaiting h .send b .ok .zero

/-- The job of a SEND of buffer `b` by `h` to `d` with the entry `raw`, as it enters the queue (R132). -/
def State.newJob (s : State) (b : BufId) (h d : PortId) (raw : List Byte) : Job where
  source := b
  srcPool := s.poolOf b
  landPool := (s.entryOf b).landPool d
  landing := none
  sender := h
  dest := d
  lane := (entryLane raw).getD .routine
  length := entryLength raw
  tag := entryTag raw
  progress := 0
  state := .waiting

/-- The source becomes MOVING and the job enters its reserved place (R75, R132). -/
def State.enterJob (b : BufId) (h d : PortId) (orphan : Bool) (raw : List Byte) (s : State) : State :=
  (s.setCustody b (.source h d orphan)).modMover (fun m =>
    { m with reserved := removeFirst (· == b) m.reserved, jobs := m.jobs ++ [s.newJob b h d raw] })

/-- Every reservation a SEND took is released: the destination reservation, the inbox reservation and the Mover place (R76). -/
def State.releaseSend (b : BufId) (d : PortId) (s : State) : State :=
  ((s.closeDest b).releaseRes d .send b).modMover (fun m => { m with reserved := removeFirst (· == b) m.reserved })

/-- A buffer becomes STRANDED (R35), and its holder's charge is released. -/
def State.strand (b : BufId) (h : PortId) (s : State) : State :=
  ((s.setCustody b (.stranded h false)).chargeDown h (s.poolOf b)).raiseRecovery .stranded

/-! ### Recall (R84 to R86, R38) -/

/-- A RECALL, or a sweep recall, ends once the buffer has no reader and no lease outstanding (R86): the buffer is HELD again,
or enters its free list if its holder was reset (R39). -/
def State.recallCheck (b : BufId) (s : State) : State :=
  match s.owned b with
  | some o =>
    match o.op with
    | .recallViews degraded =>
      if o.readers = [] ∧ o.leases = [] then
        let code := if degraded then ResultCode.okFenced else ResultCode.ok
        if o.orphan then (s.freeFrom b o.holder).endWaiting o.holder .recallViews b code .zero
        else (s.setCustody b (.owned { o with op := .none })).endWaiting o.holder .recallViews b code .zero
      else s
    | _ => s
  | none => s

/-- Mark a pending RECALL to end OK_FENCED (R86). -/
def HolderOp.degrade (yes : Bool) : HolderOp → HolderOp
  | .recallViews d => .recallViews (d || yes)
  | .none => .none
  | .send d => .send d
  | .free => .free
  | .lend => .lend

/-- Reader `r` leaves the readers of `b` (R22), its standing reservation released where it has not become its REVOKED item
(R86); `degrade` marks a pending RECALL. -/
def State.readerOut (b : BufId) (r : PortId) (degrade : Bool) (s : State) : State :=
  match s.owned b with
  | some o =>
    if o.hasReader r then
      (s.setCustody b (.owned { o.dropReader r with op := o.op.degrade degrade })).releaseRes r .standing b
    else s
  | none => s

/-- A reader taken over is asked a DROP: it is caching and ACTIVE. Any other leaves at once (R85, R86, R38, R114). -/
def State.askable (s : State) (r : PortId) : Bool := s.caching r && s.active r

/-- The readers of `b` that a recall takes over: those whose returning flag is clear, in ascending order (R85, R115). -/
def Owned.takenOver (o : Owned) : List PortId :=
  fourIds.filter (fun p => o.readers.any (fun r => r.port == p && !r.returning))

/-- The recall of every view of `b`, but for its DROPs (R85, R38): pending becomes RECALL, with `orphan` for the sweep;
undelivered LEASE items are removed; every returning flag is set; each reader taken over gets its REVOKED item; those that
are sent no DROP leave. -/
def State.recallBegin (b : BufId) (orphan : Bool) (s : State) : State :=
  match s.owned b with
  | some o =>
    let taken := o.takenOver
    let s1 := s.setCustody b (.owned { o with
      op := .recallViews (taken.any (fun r => s.fenced r))
      orphan := o.orphan || orphan
      readers := o.readers.map (fun r => { r with returning := true }) })
    let s2 := o.leases.foldl (fun t p => t.removeLease b p) s1
    let s3 := taken.foldl (fun t r => t.revoke b o.holder r) s2
    (taken.filter (fun r => !s.askable r)).foldl (fun t r => t.readerOut b r false) s3
  | none => s

/-- The readers that a recall of `b` beginning now is to ask a DROP of, in ascending order. -/
def State.recallAsks (b : BufId) (s : State) : List PortId :=
  match s.owned b with
  | some o => o.takenOver.filter (fun r => s.askable r)
  | none => []

/-- Ask the DROP of a recall of reader `r`. -/
def State.askRecall (b : BufId) (r : PortId) (s : State) : State :=
  s.askYield { buf := b, target := r, kind := .drop, op := .recallViews }

/-- A recall of one buffer, with its DROPs (R85). -/
def State.recallWhole (b : BufId) (orphan : Bool) (s : State) : State :=
  ((s.recallAsks b).foldl (fun t r => t.askRecall b r) (s.recallBegin b orphan)).recallCheck b

/-- A LEASE item's store failed or was abandoned: if a recall waits on it, the port leaves the leases outstanding and the
item goes, with its standing reservation (R86). The item's delivering flag has been cleared. -/
def State.leaseFailed (b : BufId) (p : PortId) (s : State) : State :=
  match s.owned b with
  | some o =>
    match o.op with
    | .recallViews _ => (s.removeLease b p).recallCheck b
    | _ => s
  | none => s

/-- The store of port `p`'s item `d` failed or was abandoned: a LEASE item that a recall waits on goes (R86). -/
def State.leaseAbandoned (d : Option (Lane × Item)) (p : PortId) (s : State) : State :=
  match d with
  | some (_, it) => if it.kind = .lease then s.leaseFailed it.buf p else s
  | none => s

/-! ### Yield outcomes at the Custody Table -/

/-- The result code of a yield that was refused or finally expired, for the operations it undoes (R71, R76, R81, R88). -/
def YieldOutcome.code : YieldOutcome → ResultCode
  | .acked => .ok
  | .refused => .yieldRefused
  | .expired => .yieldTimeout

/-- The DROP of a FREE has ended (R71). -/
def State.freeOutcome (b : BufId) (oc : YieldOutcome) (s : State) : State :=
  match s.owned b with
  | some o =>
    match o.op with
    | .free =>
      (match oc with
        | .acked => s.freeFrom b o.holder
        | .refused => if o.orphan then s.freeFrom b o.holder else s.setCustody b (.owned { o with op := .none })
        | .expired => s.strand b o.holder).endWaiting o.holder .free b oc.code .zero
    | _ => s
  | none => s

/-- The DROP of a SEND has ended (R74, R75, R76). -/
def State.sendOutcome (b : BufId) (oc : YieldOutcome) (s : State) : State :=
  match s.owned b with
  | some o =>
    match o.op with
    | .send d =>
      match oc with
      | .acked =>
        let raw := s.waitingEntry o.holder .send b
        if (s.entryOf b).reach.get d then s.handOff b o.holder d raw
        else s.enterJob b o.holder d o.orphan raw
      | .refused =>
        let t := s.releaseSend b d
        (if o.orphan then t.freeFrom b o.holder else t.setCustody b (.owned { o with op := .none })).endWaiting
          o.holder .send b .yieldRefused .zero
      | .expired => ((s.releaseSend b d).strand b o.holder).endWaiting o.holder .send b .yieldTimeout .zero
    | _ => s
  | none => s

/-- The LEASE item of a LEND whose CLEAN ended well, and the lease's standing reservation (R81). -/
def State.queueLease (b : BufId) (h r : PortId) (lane : Lane) (s : State) : State :=
  s.modPort r (fun P => (P.modInbox (fun x => (((x.release .lend b).reserve .standing b).push lane
    { kind := .lease, buf := b, gen := (s.record b).gen, source := h, delivering := false }))).arrPresent false)

/-- What becomes of a buffer whose orphaned LEND has ended (R39): recalled and freed if it is lent, freed if it is not. -/
def State.orphanLent (b : BufId) (s : State) : State :=
  match s.owned b with
  | some o => if o.orphan then s.recallWhole b true else s
  | none => s

/-- The CLEAN of a LEND has ended (R81). -/
def State.lendOutcome (b : BufId) (oc : YieldOutcome) (s : State) : State :=
  match s.owned b with
  | some o =>
    match o.op with
    | .lend =>
      let raw := s.waitingEntry o.holder .lend b
      let r := (entryPortId raw).getD 0
      (match oc with
        | .acked =>
          ((s.setCustody b (.owned { o with op := .none, leases := o.leases ++ [r] })).queueLease b o.holder r
            (entryLendLane raw)).endWaiting o.holder .lend b .ok .zero
        | .refused =>
          ((s.setCustody b (.owned { o with op := .none })).releaseRes r .lend b).endWaiting o.holder .lend b .yieldRefused .zero
        | .expired =>
          ((s.setCustody b (.owned { o with op := .none })).releaseRes r .lend b).endWaiting o.holder .lend b .yieldTimeout
            .zero).orphanLent b
    | _ => s
  | none => s

/-- The DROP of reader `r`'s RETURN has ended: the lease ends whatever the outcome (R83). -/
def State.returnOutcome (b : BufId) (r : PortId) (oc : YieldOutcome) (s : State) : State :=
  ((s.readerOut b r false).endWaiting r .ret b (if oc = .acked then .ok else .okFenced) .zero).recallCheck b

/-- The DROP of a recall of reader `r` has ended (R86). -/
def State.recallOutcome (b : BufId) (r : PortId) (oc : YieldOutcome) (s : State) : State :=
  (s.readerOut b r (oc != .acked)).recallCheck b

/-- The DROP of a RECLAIM has ended (R88). -/
def State.reclaimOutcome (b : BufId) (oc : YieldOutcome) (s : State) : State :=
  match (s.record b).custody with
  | .stranded h true =>
    (match oc with
      | .acked => s.enterFreeList b
      | .refused => s.setCustody b (.stranded h false)
      | .expired => s.setCustody b (.stranded h false)).endReclaim b oc.code
  | _ => s

/-- The Custody Table takes the outcome of a yield as a later step of the operation that asked for it (R67, R119). -/
def State.yieldOutcome (a : YieldAsk) (oc : YieldOutcome) (s : State) : State :=
  match a.op with
  | .send => s.sendOutcome a.buf oc
  | .free => s.freeOutcome a.buf oc
  | .lend => s.lendOutcome a.buf oc
  | .ret => s.returnOutcome a.buf a.target oc
  | .recallViews => s.recallOutcome a.buf a.target oc
  | .reclaim => s.reclaimOutcome a.buf oc

/-- Ask for a yield; an outcome known at once is taken in the same step (R67, R114). -/
def State.ask (a : YieldAsk) (s : State) : State :=
  match s.askOutcome a.target with
  | some oc => s.yieldOutcome a oc
  | none => s.askYield a

/-! ### Outcomes of a move (R75, R144, R145) -/

/-- The job of source `b` leaves the queue, its place is FREE, and the channel that served it is idle. -/
def State.dropJob (c : ChanId) (b : BufId) (s : State) : State :=
  s.modMover (fun m => { m.modChan c (fun _ => .idle) with
    jobs := m.jobs.filter (fun j => j.source != b), presented := m.presented.filter (· != c) })

/-- The source of a move that failed: HELD by the sender again, or freed if orphaned (R145). -/
def State.sourceBack (b : BufId) (s : State) : State :=
  match (s.record b).custody with
  | .source h _ orphan => if orphan then s.freeFrom b h else s.setCustody b (.heldPlain h)
  | _ => s

/-- The landing buffer of a job that failed enters its pool's free list (R145). -/
def State.freeLanding (l : Option BufId) (s : State) : State :=
  match l with
  | some b => s.enterFreeList b
  | none => s

/-- The job of channel `c` fails (R145). -/
def State.moveFail (c : ChanId) (reason : MoveReason) (s : State) : State :=
  match s.mover.jobOf c with
  | some j =>
    (((((s.dropJob c j.source).freeLanding j.landing).closeDest j.source).releaseRes j.dest .send j.source).sourceBack
      j.source).endWaiting j.sender .send j.source .moveFailed (.move reason)
  | none => s

/-- The landing buffer of a job that succeeded becomes QUEUED, with its DELIVERY item (R144). -/
def State.queueLanding (j : Job) (s : State) : State :=
  match j.landing with
  | some l => (s.toQueued l j.sender j.dest j.length j.tag).deliver j.source l j.sender j.dest j.lane j.length j.tag
  | none => s

/-- The job of channel `c` succeeds (R144). -/
def State.moveSucceed (c : ChanId) (s : State) : State :=
  match s.mover.jobOf c with
  | some j =>
    ((((s.dropJob c j.source).freeFrom j.source j.sender).queueLanding j).convertDest j.source).endWaiting
      j.sender .send j.source .ok .zero
  | none => s

end Sys2Proof.Machine
end

