-- ==== Sys2Proof/Machine/Mover.lean ====
section
/-!
DEFINITION. The Mover's own steps (chapter 7): an idle channel taking a job, the landing buffer, presenting a burst, and
the ending of the bursts on a port.
-/
namespace Sys2Proof.Machine
open Sys2Proof

/-- The two channels, channel 0 first. -/
def chanIds : List ChanId := [0, 1]

/-- The bytes of a burst at most (R138). -/
def burstMax : Nat := 256

/-- The length of the burst at a job's progress (R138). -/
def Job.burstLength (j : Job) : Nat := min burstMax (j.length - j.progress)

/-- Ask for a landing buffer for the job of channel `c` (R136), or begin a landing wait (R137). -/
def State.askLanding (c : ChanId) (r : PoolId) (s : State) : State :=
  match (s.pool r).free with
  | b :: bs => (s.modPool r (fun P => { P with free := bs })).giveLanding c b
  | [] => (s.modPool r (fun P => { P with waiting := P.waiting ++ [c] })).modMover (fun m =>
      m.modChan c (fun x => { x with deadline := some (s.now + s.theMap.landingWait) }))

/-- Idle channel `c` takes job `j`; a job longer than the landing pool's buffers fails at once (R134). -/
def State.takeJob (c : ChanId) (j : Job) (s : State) : State :=
  let t := s.modMover (fun m => (m.modChan c (fun x => { x with serving := some j.source })).modJob j.source
    (fun i => { i with state := .landing }))
  if (s.poolEntry j.landPool).size < j.length then t.moveFail c .destError else t.askLanding c j.landPool

/-- Channel `c` presents a burst request to home port `p`, or fails its job if the port is not ACTIVE (R139). -/
def State.presentBurst (c : ChanId) (write : Bool) (p : PortId) (s : State) : State :=
  if s.active p then
    s.modMover (fun m => { m.modChan c (fun x => { x with req := some { write := write, port := p, slot := none } }) with
      presented := m.presented ++ [c] })
  else s.moveFail c (if write then .destError else .sourceError)

/-- What channel `c`, copying job `j` with no request, does next (R135): report success, present the write of the burst it
has read, or present the next read. -/
def State.proceed (c : ChanId) (j : Job) (s : State) : State :=
  if j.length ≤ j.progress then s.moveSucceed c
  else if (s.mover.chan c).data ≠ [] then s.presentBurst c true (s.poolEntry j.landPool).home
  else s.presentBurst c false (s.poolEntry j.srcPool).home

/-- What channel `c` has to do in this step, if anything. -/
def State.chanStep (c : ChanId) (s : State) : Option State :=
  match (s.mover.chan c).serving with
  | none =>
    match s.mover.jobs.find? (fun j => j.state == .waiting) with
    | some j => some (s.takeJob c j)
    | none => none
  | some _ =>
    match s.mover.jobOf c with
    | some j => if j.state = .copying ∧ (s.mover.chan c).req = none then some (s.proceed c j) else none
    | none => none

/-- The channels go on until both wait: channel 0 first (R134), at most `n` moves. -/
def State.moverSteps : Nat → State → State
  | 0, s => s
  | n + 1, s =>
    match s.chanStep 0 with
    | some t => State.moverSteps n t
    | none =>
      match s.chanStep 1 with
      | some t => State.moverSteps n t
      | none => s

/-- The channels go on until both wait. Each job is taken once, presents at most one request in a step and ends once, so
three moves a job are enough (log 16). -/
def State.settle (s : State) : State := s.moverSteps (3 * s.mover.jobs.length + 2)

/-- The request of channel `c`, if it goes through port `p`. -/
def Mover.reqOn (m : Mover) (p : PortId) (c : ChanId) : Option BurstReq :=
  match (m.chan c).req with
  | some r => if r.port = p then some r else none
  | none => none

/-- The jobs that fail when port `p` is fenced or reset, with their reasons, channel 0 first (R143). -/
def Mover.failsOn (m : Mover) (p : PortId) : List (ChanId × MoveReason) :=
  chanIds.filterMap (fun c => (m.reqOn p c).map (fun r => (c, if r.write then MoveReason.destError else MoveReason.sourceError)))

/-- The requests on port `p` end: withdrawn or abandoned, the burst stores emptied (R143). -/
def Mover.endOn (p : PortId) (m : Mover) : Mover :=
  chanIds.foldl (fun m c => match m.reqOn p c with
    | some _ => { m.modChan c (fun x => { x with req := none, data := [] }) with presented := m.presented.filter (· != c) }
    | none => m) m

/-- The channel leaves its pool's waiting channels (R137). -/
def State.leaveWaiting (c : ChanId) (s : State) : State :=
  { s with pools := s.pools.map (fun P => { P with waiting := P.waiting.filter (· != c) }) }

end Sys2Proof.Machine
end

