-- ==== Sys2Proof/Machine/Recovery.lean ====
section
/-!
DEFINITION. The fence (R170), the port reset (R175, R176) with the Custody Table's sweep (R38 to R41), and the expired
requests' own handling.
-/
namespace Sys2Proof.Machine
open Sys2Proof

/-! ### The Arrival Process at a fence or port reset -/

/-- The Arrival Process is stopped (R109), or with `zero` reset (R110); the delivering flag of an abandoned store's item is
cleared. -/
def Port.arrShut (zero : Bool) (P : Port) : Port := (P.modArr (ArrProc.shut zero)).modInbox Inbox.clearDelivering

/-! ### Ends of yields and bursts -/

/-- Hand the outcome `oc` of each of these yields to the Custody Table, in order. -/
def State.yieldOutcomes (l : List YieldAsk) (oc : YieldOutcome) (s : State) : State :=
  l.foldl (fun t a => t.yieldOutcome a oc) s

/-- Hand the failures of these channels' jobs to the Custody Table, in order. -/
def State.moveFails (l : List (ChanId × MoveReason)) (s : State) : State :=
  l.foldl (fun t x => t.moveFail x.1 x.2) s

/-! ### The fence -/

/-- What an expired request brings to the Custody Table in part 8 of the fence (R170). -/
inductive Expired where
  | ring
  | yield (a : YieldAsk)
  | burst (c : ChanId) (r : MoveReason)
deriving DecidableEq, Repr

/-- The Custody Table takes the outcome of the expired request itself. -/
def State.expiredOutcome (e : Expired) (s : State) : State :=
  match e with
  | .ring => s
  | .yield a => s.yieldOutcome a .expired
  | .burst c r => s.moveFail c r

/-- The port-level parts 2 to 5 of the fence: FENCED, FENCED_SELF raised, every slot FREE, both processes stopped. -/
def Port.fence (P : Port) : Port :=
  ((Port.clearSlots { P.raise .fencedSelf with state := .fenced }).cmdShut false).arrShut false

/-- Port `p` is fenced (R170); the expired request has ended already (part 1). Parts 2 to 7, then the outcomes in the order of
part 8. -/
def State.fence (p : PortId) (e : Expired) (s : State) : State :=
  let item := (s.port p).inbox.delivering
  let s := ((s.modPort p Port.fence).raiseRecovery .fenceNotice).leaseAbandoned item p
  let asks := s.yields.asksFor p
  let s := s.modYields (YieldUnit.endFor p)
  let fails := s.mover.failsOn p
  let s := s.modMover (Mover.endOn p)
  (((s.expiredOutcome e).yieldOutcomes asks .expired).moveFails fails).settle

/-! ### The sweep of a port reset -/

/-- Insert a buffer into a list kept in ascending order of a free key (log 7). -/
def insertByKey (key : Nat → Nat) (b : BufId) : List BufId → List BufId
  | [] => [b]
  | x :: l => if key b ≤ key x then b :: x :: l else x :: insertByKey key b l

/-- A list of buffers in the free order of this sweep. -/
def freeOrder (key : Nat → Nat) (l : List BufId) : List BufId := l.foldr (insertByKey key) []

/-- The buffers whose record satisfies `f`, in the free order of this sweep. -/
def State.sweepList (s : State) (f : Record → Bool) : List BufId :=
  freeOrder (Config.sweepKey s.freeCount) ((List.range s.records.length).filter (fun b => f (s.record b)))

/-- Held by `p` with no holder-side operation pending (R38, pending NONE or RETURN). -/
def Record.idleOf (p : PortId) (r : Record) : Bool :=
  match r.custody.heldBy p with
  | some o => o.op == .none
  | none => false

/-- Held by `p` with a holder-side operation pending (R39). -/
def Record.busyOf (p : PortId) (r : Record) : Bool :=
  match r.custody.heldBy p with
  | some o => o.op != .none
  | none => false

/-- Read by `p` (R40). -/
def Record.readBy (p : PortId) (r : Record) : Bool :=
  match r.custody with
  | .owned o => o.hasReader p
  | _ => false

/-- R38 for one buffer, but for its DROPs: freed, or recalled before it is freed. -/
def State.sweepHeld (b : BufId) (p : PortId) (s : State) : State :=
  match s.owned b with
  | some o => if o.lent then (s.recallBegin b true).recallCheck b else s.freeFrom b p
  | none => s

/-- The orphan flag is set on an operation of `p` that goes on (R39), and on the source of a move `p` sent (R41). -/
def Record.orphaned (p : PortId) (r : Record) : Record :=
  match r.custody with
  | .owned o => if r.busyOf p then { r with custody := .owned { o with orphan := true } } else r
  | .source h d _ => if h = p then { r with custody := .source h d true } else r
  | _ => r

/-- R40 for one buffer: the view of `p` ends at once, and a recall waiting on it is satisfied. -/
def State.sweepReader (b : BufId) (p : PortId) (s : State) : State := (s.readerOut b p false).recallCheck b

/-- The DROPs that the sweep asks, in ascending order of target port, then in the order of the sweep (R115). -/
def State.sweepAsks (s : State) (l : List BufId) : List (BufId × PortId) :=
  fourIds.flatMap (fun r => (l.filter (fun b => r ∈ s.recallAsks b)).map (fun b => (b, r)))

/-- The Custody Table's sweep at the reset of `p` (R38 to R41), in the order of R176 part 3. -/
def State.sweep (p : PortId) (s : State) : State :=
  let held := s.sweepList (Record.idleOf p)
  let asks := s.sweepAsks held
  let s1 := held.foldl (fun t b => t.sweepHeld b p) s
  let s2 := asks.foldl (fun t x => t.askRecall x.1 x.2) s1
  let s3 := { s2 with records := s2.records.map (Record.orphaned p) }
  let s4 := (s3.sweepList (Record.readBy p)).foldl (fun t b => t.sweepReader b p) s3
  { s4 with freeCount := s4.freeCount + 1 }

/-! ### The port reset -/

/-- What a port reset does to the port itself and to its processes (R175, R62, R110). -/
def Port.doReset (P : Port) : Port :=
  Port.arrShut true <| Port.cmdShut true
    { P with
      state := .down
      slots := .fill none
      rotation := sourceOrder
      recordTurn := .command
      events := P.events &&& Event.mapDone.bit }

/-- The port reset of `p` (R175, R176). -/
def State.portReset (p : PortId) (s : State) : State :=
  let item := (s.port p).inbox.delivering
  let s := ((s.modPort p Port.doReset).leaseAbandoned item p).sweep p
  let asks := s.yields.asksFor p
  let s := (s.modYields (YieldUnit.endFor p)).yieldOutcomes asks .acked
  let fails := s.mover.failsOn p
  ((s.modMover (Mover.endOn p)).moveFails fails).settle

end Sys2Proof.Machine
end

