-- ==== Sys2Proof/WellFormed.lean ====
section
/-!
DEFINITION. Which operands a command may carry: the fields by which a CONTROL or POLL write is the row's, the sizes of
what a load brings, and which accesses are bad ones.
-/
namespace Sys2Proof

/-- CONTROL bit 0: ENABLE (R182). -/
def ctlEnable (w : Word) : Bool := w.getLsbD 0
/-- CONTROL bit 1: RESET. -/
def ctlReset (w : Word) : Bool := w.getLsbD 1
/-- CONTROL bit 4: the command run field. -/
def ctlCmdRun (w : Word) : Bool := w.getLsbD 4
/-- CONTROL bit 5: the arrival run field. -/
def ctlArrRun (w : Word) : Bool := w.getLsbD 5
/-- POLL bit 0: the command demand. -/
def pollCmd (w : Word) : Bool := w.getLsbD 0
/-- POLL bit 1: the arrival demand. -/
def pollArr (w : Word) : Bool := w.getLsbD 1

/-- The accesses that R151 answers ERROR: a size other than 32 bits, an address that is no multiple of 4, one of the three
undefined places 34h, 38h, 3Ch, or a write to STATUS (04h), FAULT_INFO (2Ch) or INBOX (30h). -/
def WindowAccess.bad (a : WindowAccess) : Bool :=
  a.bits != 32 || a.offset.toNat % 4 != 0 ||
  a.offset.toNat == 0x34 || a.offset.toNat == 0x38 || a.offset.toNat == 0x3C ||
  (a.write.isSome && (a.offset.toNat == 0x04 || a.offset.toNat == 0x2C || a.offset.toNat == 0x30))

/-- The offset of the window place that an access falls in, one of the sixteen 0 to 60: what R166 has as the info of a BAD_WINDOW
(log 17). -/
def WindowAccess.place (a : WindowAccess) : BitVec 6 := a.offset &&& 0x3C

/-- A command's operands are ones its row admits. -/
def Instr.wellFormed : Instr → Bool
  | .deviceReset => true
  | .mapLoadEnd _ => true
  | .linkLoss _ => true
  | .controlReset _ w => ctlReset w
  | .enable _ w => ctlEnable w && !ctlReset w
  | .cmdStart _ w => ctlCmdRun w && !ctlReset w
  | .cmdStop _ w => !ctlCmdRun w && !ctlReset w
  | .arrStart _ w => ctlArrRun w && !ctlReset w
  | .arrStop _ w => !ctlArrRun w && !ctlReset w
  | .commandPollDemand _ w => pollCmd w
  | .arrivalPollDemand _ w => pollArr w
  | .cringRegisterWrite _ _ _ => true
  | .aringRegisterWrite _ _ _ => true
  | .eventsWrite _ _ => true
  | .maskWrite _ _ => true
  | .attnReleaseEnd _ => true
  | .faultWrite _ _ => true
  | .badWindow _ a => a.bad
  | .arbiterGrant _ _ => true
  | .cmdLoadResponse _ _ d => d.length == 32
  | .ringLoadError _ _ => true
  | .completionStoreAck _ _ => true
  | .completionStoreError _ _ => true
  | .ringRequestExpiry _ _ => true
  | .commandAutoPollExpiry _ => true
  | .allocate _ => true
  | .free _ => true
  | .send _ => true
  | .withdraw _ => true
  | .lend _ => true
  | .returnView _ => true
  | .recallViews _ => true
  | .reclaim _ => true
  | .unfence _ => true
  | .query _ => true
  | .marker _ => true
  | .arrivalLoadResponse _ _ d => d.length == 16
  | .arrivalStoreAck _ _ => true
  | .arrivalRequestError _ _ => true
  | .arrivalRequestExpiry _ _ => true
  | .arrivalAutoPollExpiry _ => true
  | .yieldResponse _ _ _ => true
  | .yieldDeadlineExpiry _ => true
  | .yieldFinalExpiry _ => true
  | .unsolicitedDataResponse _ _ => true
  | .burstReadResponse _ _ (.ack d) => decide (1 ≤ d.length ∧ d.length ≤ 256)
  | .burstReadResponse _ _ .error => true
  | .burstWriteResponse _ _ _ => true
  | .burstExpiry _ => true
  | .landingWaitExpiry _ => true

end Sys2Proof
end

