-- ==== Sys2Proof/Machine/Window.lean ====
section
/-!
DEFINITION. The port window (R150 to R158, R167, R182): what a write of each register does, what a read of each shows, and
the meanings of the rows that are window accesses.
-/
namespace Sys2Proof.Machine
open Sys2Proof

/-- A write that passes R151 and is refused records WINDOW_REFUSED with the register's offset (R151, R152). -/
def Port.refuseWrite (offset : Nat) (P : Port) : Port := P.recordFault .windowRefused (BitVec.ofNat 40 offset)

/-! ### CONTROL (R150) -/

/-- The command run field of a CONTROL write (R48). -/
def Port.cmdRunField (run : Bool) (P : Port) : Port :=
  if run then
    if P.cmd.run then P
    else if P.cmd.state = .stopped ∧ P.state = .active then
      Port.cmdAdvance (P.modCmd (fun c => { c with run := true, state := .running }))
    else P.refuseWrite 0x00
  else
    match P.cmd.state with
    | .halted => P.modCmd (fun c => { c with run := false, state := .stopped })
    | .running => if P.cmd.run then P.modCmd CmdProc.stop else P
    | .suspended => if P.cmd.run then P.modCmd CmdProc.stop else P
    | .stopped => P.modCmd (fun c => { c with run := false })
    | .stopping => P.modCmd (fun c => { c with run := false })

/-- The arrival run field of a CONTROL write (R101). -/
def Port.arrRunField (run : Bool) (P : Port) : Port :=
  if run then
    if P.arr.run then P
    else if P.arr.state = .stopped ∧ P.arr.stopWaiting = false ∧ P.state = .active then
      Port.arrPresent false (P.modArr (fun a => { a with run := true, state := .running }))
    else P.refuseWrite 0x00
  else if P.arr.run then P.modArr ArrProc.stop else P

/-- Steps 3 to 5 of a CONTROL write, on a port that is not FENCED (R150). -/
def Port.controlFields (w : Word) (P : Port) : Port :=
  let P1 := if ctlEnable w ∧ P.state = .down then { P with state := .active } else P
  (P1.cmdRunField (ctlCmdRun w)).arrRunField (ctlArrRun w)

/-- A write to CONTROL, in the order of R150. -/
def State.controlWrite (p : PortId) (w : Word) (s : State) : State :=
  if ctlReset w then s.portReset p
  else if s.fenced p then s.modPort p (Port.refuseWrite 0x00)
  else s.modPort p (Port.controlFields w)

/-! ### POLL (R154) -/

/-- A SUSPENDED Command Process returns to RUNNING (R53). -/
def Port.cmdWake (auto : Bool) (P : Port) : Port :=
  if P.cmd.state = .suspended then
    Port.cmdPresent auto (P.modCmd (fun c => { c with state := .running, deadline := none }))
  else P

/-- A SUSPENDED Arrival Process returns to RUNNING (R105). -/
def Port.arrWake (auto : Bool) (P : Port) : Port :=
  if P.arr.state = .suspended then
    Port.arrPresent auto (P.modArr (fun a => { a with state := .running, deadline := none }))
  else P

/-- A write to POLL (R154): refused while FENCED, otherwise each demand that is set is made. -/
def Port.pollWrite (w : Word) (P : Port) : Port :=
  if P.state = .fenced then P.refuseWrite 0x10
  else
    let P1 := if pollCmd w then P.cmdWake false else P
    if pollArr w then P1.arrWake false else P1

/-! ### Ring registers (R44, R99, R182) -/

/-- The command ring's registers may be written (R44). -/
def Port.cringOpen (P : Port) : Bool := P.cmd.state == .stopped && P.state != .fenced

/-- The arrival ring's registers may be written (R99). -/
def Port.aringOpen (P : Port) : Bool := P.arr.state == .stopped && P.state != .fenced

/-- The 40-bit base with bits 39:32 kept and bits 31:5 from `w`; bits 4:0 are zero (R44). -/
def cringBaseLo (base : Addr) (w : Word) : Addr := base.extractLsb' 32 8 ++ (w.extractLsb' 5 27 ++ 0#5)

/-- The 40-bit base with bits 39:32 kept and bits 31:4 from `w`; bits 3:0 are zero (R99). -/
def aringBaseLo (base : Addr) (w : Word) : Addr := base.extractLsb' 32 8 ++ (w.extractLsb' 4 28 ++ 0#4)

/-- The base with bits 39:32 replaced. -/
def ringBaseHi (base : Addr) (b : Byte) : Addr := b ++ base.extractLsb' 0 32

/-- A ring size is 4 to 1024 (R44, R99). -/
def ringSizeOk (n : Nat) : Bool := decide (4 ≤ n ∧ n ≤ 1024)

/-- Bits 10:0 of a size register's word. -/
def sizeField (w : Word) : Nat := (w.extractLsb' 0 11).toNat

/-- A write to CRING_BASE lo. -/
def Port.writeCringLo (w : Word) (P : Port) : Port :=
  if P.cringOpen then P.modCmd (fun c => { c with base := cringBaseLo c.base w, next := 0 }) else P.refuseWrite 0x14

/-- A write to CRING_SIZE. -/
def Port.writeCringSize (w : Word) (P : Port) : Port :=
  if P.cringOpen ∧ ringSizeOk (sizeField w) then P.modCmd (fun c => { c with size := sizeField w, next := 0 })
  else P.refuseWrite 0x18

/-- A write to ARING_BASE lo. -/
def Port.writeAringLo (w : Word) (P : Port) : Port :=
  if P.aringOpen then P.modArr (fun a => { a with base := aringBaseLo a.base w, next := 0 }) else P.refuseWrite 0x1C

/-- A write to ARING_SIZE. -/
def Port.writeAringSize (w : Word) (P : Port) : Port :=
  if P.aringOpen ∧ ringSizeOk (sizeField w) then P.modArr (fun a => { a with size := sizeField w, next := 0 })
  else P.refuseWrite 0x20

/-- The half of a write to 24h that is CRING_BASE hi; a half equal to what it holds is no write (R182). -/
def Port.writeCringHi (b : Byte) (P : Port) : Port :=
  if b = P.cmd.base.extractLsb' 32 8 then P
  else if P.cringOpen then P.modCmd (fun c => { c with base := ringBaseHi c.base b, next := 0 })
  else P.refuseWrite 0x24

/-- The half of a write to 24h that is ARING_BASE hi. -/
def Port.writeAringHi (b : Byte) (P : Port) : Port :=
  if b = P.arr.base.extractLsb' 32 8 then P
  else if P.aringOpen then P.modArr (fun a => { a with base := ringBaseHi a.base b, next := 0 })
  else P.refuseWrite 0x24

/-- A write to 24h: the command register first (R182). -/
def Port.writeHigh (w : Word) (P : Port) : Port :=
  (P.writeCringHi (w.extractLsb' 0 8)).writeAringHi (w.extractLsb' 16 8)

/-- A write to a command ring register. -/
def Port.writeCring (r : RingReg) (w : Word) (P : Port) : Port :=
  match r with
  | .baseLo => P.writeCringLo w
  | .size => P.writeCringSize w
  | .baseHi => P.writeHigh w

/-- A write to an arrival ring register. -/
def Port.writeAring (r : RingReg) (w : Word) (P : Port) : Port :=
  match r with
  | .baseLo => P.writeAringLo w
  | .size => P.writeAringSize w
  | .baseHi => P.writeHigh w

/-! ### FAULT (R167) -/

/-- A write to FAULT clears the record, whatever is written, unless the port is FENCED. -/
def Port.writeFault (P : Port) : Port :=
  if P.state = .fenced then P.refuseWrite 0x28 else { P with fault := .clear }

/-! ### Any access -/

/-- A window write that passes R151, by its offset. -/
def State.windowWrite (p : PortId) (offset : Nat) (w : Word) (s : State) : State :=
  match offset with
  | 0x00 => s.controlWrite p w
  | 0x08 => s.modPort p (Port.writeEvents s.now w)
  | 0x0C => s.modPort p (Port.writeMask s.now w)
  | 0x10 => s.modPort p (Port.pollWrite w)
  | 0x14 => s.modPort p (Port.writeCring .baseLo w)
  | 0x18 => s.modPort p (Port.writeCring .size w)
  | 0x1C => s.modPort p (Port.writeAring .baseLo w)
  | 0x20 => s.modPort p (Port.writeAring .size w)
  | 0x24 => s.modPort p (Port.writeHigh w)
  | 0x28 => s.modPort p Port.writeFault
  | _ => s

/-- Any window access (R151): a bad one records BAD_WINDOW with the offset of its place (R166), a read changes nothing, a write is dealt with by
its register. -/
def State.windowAccess (p : PortId) (a : WindowAccess) (s : State) : State :=
  if a.bad then s.modPort p (Port.recordFault .badWindow (a.place.zeroExtend 40))
  else match a.write with
    | some w => s.windowWrite p a.offset.toNat w
    | none => s

/-- The ports that are FENCED, as a mask (R153, R156). -/
def State.fencedMask (s : State) : Byte := portMask (fourIds.filter (fun p => s.fenced p))

/-- STATUS of port `p` (R153, R182). -/
def State.statusWord (s : State) (p : PortId) : Word :=
  (s.port p).state.code ||| ((s.port p).cmd.state.code <<< 4) ||| ((s.port p).arr.state.code <<< 8) |||
    (s.mapState.code <<< 12) ||| (s.reason.code <<< 16) ||| (boolBit (s.cfg p).present <<< 20) |||
    (boolBit (s.cfg p).caching <<< 21) ||| (boolBit (s.cfg p).recovery <<< 22) ||| (s.fencedMask.zeroExtend 32 <<< 24)

/-- INBOX (R111, R182). -/
def Inbox.word (x : Inbox) : Word :=
  BitVec.ofNat 32 x.urgent.length ||| (BitVec.ofNat 32 x.routine.length <<< 10) ||| (BitVec.ofNat 32 x.reserved <<< 20)

/-- What a 32-bit read of the window shows; none at an undefined place (R151, R182). A read changes nothing. -/
def State.windowRead (s : State) (p : PortId) (offset : Nat) : Option Word :=
  let P := s.port p
  match offset with
  | 0x00 => some ((boolBit P.cmd.run <<< 4) ||| (boolBit P.arr.run <<< 5))
  | 0x04 => some (s.statusWord p)
  | 0x08 => some (P.events.zeroExtend 32)
  | 0x0C => some (P.mask.zeroExtend 32)
  | 0x10 => some 0
  | 0x14 => some (P.cmd.base.extractLsb' 0 32)
  | 0x18 => some (BitVec.ofNat 32 P.cmd.size)
  | 0x1C => some (P.arr.base.extractLsb' 0 32)
  | 0x20 => some (BitVec.ofNat 32 P.arr.size)
  | 0x24 => some ((P.cmd.base.extractLsb' 32 8).zeroExtend 32 ||| ((P.arr.base.extractLsb' 32 8).zeroExtend 32 <<< 16))
  | 0x28 => some P.fault.faultWord
  | 0x2C => some P.fault.infoWord
  | 0x30 => some P.inbox.word
  | _ => none

/-! ### The rows -/

/-- CONTROL_RESET (R150 step 1, R174). -/
def execControlReset (p : PortId) (w : Word) (s : State) : Host.Outcome State Fault Refusal := .next (s.controlWrite p w)

/-- ENABLE (R150). -/
def execEnable (p : PortId) (w : Word) (s : State) : Host.Outcome State Fault Refusal := .next (s.controlWrite p w)

/-- CMD_START (R48, R150). -/
def execCmdStart (p : PortId) (w : Word) (s : State) : Host.Outcome State Fault Refusal := .next (s.controlWrite p w)

/-- CMD_STOP (R48, R56, R59, R150). -/
def execCmdStop (p : PortId) (w : Word) (s : State) : Host.Outcome State Fault Refusal := .next (s.controlWrite p w)

/-- ARR_START (R101, R150). -/
def execArrStart (p : PortId) (w : Word) (s : State) : Host.Outcome State Fault Refusal := .next (s.controlWrite p w)

/-- ARR_STOP (R101, R106, R150). -/
def execArrStop (p : PortId) (w : Word) (s : State) : Host.Outcome State Fault Refusal := .next (s.controlWrite p w)

/-- COMMAND_POLL_DEMAND (R53, R154). -/
def execCommandPollDemand (p : PortId) (w : Word) (s : State) : Host.Outcome State Fault Refusal :=
  .next (s.modPort p (Port.pollWrite w))

/-- ARRIVAL_POLL_DEMAND (R105, R154). -/
def execArrivalPollDemand (p : PortId) (w : Word) (s : State) : Host.Outcome State Fault Refusal :=
  .next (s.modPort p (Port.pollWrite w))

/-- CRING_REGISTER_WRITE (R44, R182). -/
def execCringRegisterWrite (p : PortId) (r : RingReg) (w : Word) (s : State) : Host.Outcome State Fault Refusal :=
  .next (s.modPort p (Port.writeCring r w))

/-- ARING_REGISTER_WRITE (R99, R182). -/
def execAringRegisterWrite (p : PortId) (r : RingReg) (w : Word) (s : State) : Host.Outcome State Fault Refusal :=
  .next (s.modPort p (Port.writeAring r w))

/-- EVENTS_WRITE (R155, R158). -/
def execEventsWrite (p : PortId) (w : Word) (s : State) : Host.Outcome State Fault Refusal :=
  .next (s.modPort p (Port.writeEvents s.now w))

/-- MASK_WRITE (R157, R158). -/
def execMaskWrite (p : PortId) (w : Word) (s : State) : Host.Outcome State Fault Refusal :=
  .next (s.modPort p (Port.writeMask s.now w))

/-- ATTN_RELEASE_END (R158). -/
def execAttnReleaseEnd (p : PortId) (s : State) : Host.Outcome State Fault Refusal :=
  .next (s.modPort p (Port.endRelease s.now))

/-- FAULT_WRITE (R167): the value written has no effect. -/
def execFaultWrite (p : PortId) (_w : Word) (s : State) : Host.Outcome State Fault Refusal :=
  .next (s.modPort p Port.writeFault)

/-- BAD_WINDOW (R151). -/
def execBadWindow (p : PortId) (a : WindowAccess) (s : State) : Host.Outcome State Fault Refusal :=
  .next (s.windowAccess p a)

end Sys2Proof.Machine
end

