-- ==== Sys2Proof/Machine/Initiator.lean ====
section
/-!
DEFINITION. The initiator side (R159 to R163): what each source presents, the arbiter's grant, and responses that match
nothing.
-/
namespace Sys2Proof.Machine
open Sys2Proof

/-! ### What the sources present (R161, R163) -/

/-- The Yield Unit presents the oldest-installed PRESENTED entry for the port (R118). -/
def YieldUnit.offer (y : YieldUnit) (p : PortId) : Option YieldEntry :=
  y.live.find? (fun e => e.ask.target == p && e.phase == .presented)

/-- The Mover presents the first-presented burst request of its channels (R139). -/
def Mover.offer (m : Mover) (p : PortId) : Option ChanId := m.presented.find? (fun c => (m.reqOn p c).isSome)

/-- The Command Process's first request: the oldest waiting completion store if there is one, the load otherwise (R163). -/
inductive CmdOffer where
  | store (r : CmdRec)
  | load (l : RingLoad)
deriving DecidableEq, Repr

/-- The load presented and not granted, if there is one. -/
def presentedLoad (l : Option RingLoad) : Option RingLoad := l.bind (fun x => if x.slot = none then some x else none)

/-- What the Command Process has ready for RECORD. -/
def CmdProc.offer (c : CmdProc) : Option CmdOffer :=
  match c.outstanding.find? (fun r => r.phase == .presented) with
  | some r => some (.store r)
  | none => (presentedLoad c.load).map CmdOffer.load

/-- What the Arrival Process has ready for RECORD: a load or a record store (R163). -/
inductive ArrOffer where
  | load (l : RingLoad)
  | store (t : RingStore)
deriving DecidableEq, Repr

/-- What the Arrival Process has ready for RECORD. -/
def ArrProc.offer (a : ArrProc) : Option ArrOffer :=
  match presentedLoad a.load with
  | some l => some (.load l)
  | none => a.store.bind (fun t => if t.slot = none then some (.store t) else none)

/-- The side whose request RECORD presents (R163): the side not granted last when both are ready. -/
def Port.recordSide (P : Port) : Option RecordSide :=
  match P.cmd.offer, P.arr.offer with
  | some _, some _ => some P.recordTurn
  | some _, none => some .command
  | none, some _ => some .arrival
  | none, none => none

/-- A source presents a request to port `p`'s arbiter (R161). -/
def State.presents (s : State) (p : PortId) (x : Source) : Bool :=
  match x with
  | .yield => (s.yields.offer p).isSome
  | .record => (s.port p).recordSide.isSome
  | .move => (s.mover.offer p).isSome

/-- The order in which the arbiter weighs the sources (R162). -/
def State.grantOrder (s : State) (p : PortId) : List Source :=
  match s.theMap.arbMode with
  | .fixed => sourceOrder
  | .rotating => (s.port p).rotation

/-- The source that the arbiter of port `p` grants next, if it may grant (R161, R162). -/
def State.granted (s : State) (p : PortId) (k : SlotId) : Option Source :=
  if s.active p ∧ ((s.port p).slots.get k) = none then (s.grantOrder p).find? (s.presents p) else none

/-! ### Issuing (R159) -/

/-- The deadline of a request issued now on port `p`. -/
def State.respDeadline (s : State) (p : PortId) : Nat := s.now + (s.cfg p).respLimit

/-- The oldest presented completion store becomes issued in slot `k`. -/
def issueFirst (k : SlotId) : List CmdRec → List CmdRec
  | [] => []
  | r :: l => if r.phase == .presented then { r with phase := .issued k } :: l else r :: issueFirst k l

/-- Issue the Command Process's first request in slot `k`. -/
def Port.issueCmd (k : SlotId) (deadline : Nat) (P : Port) : Port :=
  match P.cmd.offer with
  | some (.store r) =>
    (P.modCmd (fun c => { c with outstanding := issueFirst k c.outstanding })).issue k
      (.completionStore r.addr (completionBytes r.raw (r.result.getD .badEntry))) deadline
  | some (.load l) =>
    (P.modCmd (fun c => { c with load := some { l with slot := some k } })).issue k
      (.ringLoad (cringAddr P.cmd.base l.index)) deadline
  | none => P

/-- Issue the Arrival Process's request in slot `k`. -/
def Port.issueArr (k : SlotId) (deadline : Nat) (P : Port) : Port :=
  match P.arr.offer with
  | some (.load l) =>
    (P.modArr (fun a => { a with load := some { l with slot := some k } })).issue k
      (.arrivalLoad (aringAddr P.arr.base l.index)) deadline
  | some (.store t) =>
    match P.inbox.delivering with
    | some (lane, it) =>
      (P.modArr (fun a => { a with store := some { t with slot := some k } })).issue k
        (.arrivalStore (aringAddr P.arr.base t.index) (arrivalBytes lane it)) deadline
    | none => P
  | none => P

/-- Issue RECORD's request in slot `k`; the other process goes first next time both are ready (R163). -/
def Port.issueRecord (k : SlotId) (deadline : Nat) (P : Port) : Port :=
  match P.recordSide with
  | some .command => { P.issueCmd k deadline with recordTurn := .arrival }
  | some .arrival => { P.issueArr k deadline with recordTurn := .command }
  | none => P

/-- The request of a yield entry (R112). -/
def State.yieldReq (s : State) (e : YieldEntry) : LinkReq :=
  .yield e.tag e.ask.kind (s.bufAddr e.ask.buf) (s.entryOf e.ask.buf).size

/-- Issue the yield offered to port `p` in slot `k` (R118). -/
def State.issueYield (p : PortId) (k : SlotId) (s : State) : State :=
  match s.yields.offer p with
  | some e =>
    (s.modYields (YieldUnit.modEntry e.tag (fun e => { e with phase := .issued k, attempts := 1 }))).modPort p
      (Port.issue k (s.yieldReq e) (s.respDeadline p))
  | none => s

/-- The request of channel `c`'s burst: from the source's address, or to the landing buffer's, at the job's progress (R138). -/
def State.burstReq (s : State) (c : ChanId) (j : Job) (write : Bool) : LinkReq :=
  if write then .burstWrite c (s.bufAddr (j.landing.getD 0) + BitVec.ofNat 40 j.progress) (s.mover.chan c).data
  else .burstRead c (s.bufAddr j.source + BitVec.ofNat 40 j.progress) j.burstLength

/-- Issue the burst offered to port `p` in slot `k` (R139). -/
def State.issueBurst (p : PortId) (k : SlotId) (s : State) : State :=
  match s.mover.offer p with
  | some c =>
    match s.mover.reqOn p c, s.mover.jobOf c with
    | some r, some j =>
      (s.modMover (fun m => { m.modChan c (fun x => { x with req := some { r with slot := some k } }) with
        presented := m.presented.filter (· != c) })).modPort p (Port.issue k (s.burstReq c j r.write) (s.respDeadline p))
    | _, _ => s
  | none => s

/-- In ROTATING mode the granted source moves to the end of the list (R162). -/
def State.rotate (p : PortId) (x : Source) (s : State) : State :=
  match s.theMap.arbMode with
  | .fixed => s
  | .rotating => s.modPort p (fun P => { P with rotation := P.rotation.filter (· != x) ++ [x] })

/-- Grant the request of source `x` on port `p` in slot `k`. -/
def State.grant (p : PortId) (k : SlotId) (x : Source) (s : State) : State :=
  (match x with
    | .yield => s.issueYield p k
    | .record => s.modPort p (Port.issueRecord k (s.respDeadline p))
    | .move => s.issueBurst p k).rotate p x

/-- ARBITER_GRANT (R161): where the arbiter may grant and slot `k` is FREE, the first source of the order that presents a
request gets slot `k`. Which FREE slot is taken is not given; the command names it (log 6). -/
def execArbiterGrant (p : PortId) (k : SlotId) (s : State) : Host.Outcome State Fault Refusal :=
  .next (match s.granted p k with
    | some x => s.grant p k x
    | none => s)

/-! ### Responses that match nothing (R160) -/

/-- A data response naming slot `k`: with a request there, other than a yield, `f` takes the answer; with none it is
unsolicited. -/
def State.dataResponse (p : PortId) (k : SlotId) (f : LinkReq → State → State) (s : State) : State :=
  match (s.port p).dataReq k with
  | some r => f r s
  | none => s.modPort p (Port.recordUnsolicited .data (BitVec.ofNat 32 k.val))

/-- The slot a number names, if there is one. -/
def slotOf (n : Word) : Option SlotId := if h : n.toNat < 4 then some ⟨n.toNat, h⟩ else none

/-- UNSOLICITED_DATA_RESPONSE (R160): ignored, and recorded on the port with the slot number as info. A number of a slot that
holds a matching request is not this event, and changes nothing (log 11). -/
def execUnsolicitedDataResponse (p : PortId) (n : Word) (s : State) : Host.Outcome State Fault Refusal :=
  .next (match (slotOf n).bind (s.port p).dataReq with
    | some _ => s
    | none => s.modPort p (Port.recordUnsolicited .data n))

end Sys2Proof.Machine
end

