-- ==== Sys2Proof/Machine/CommandRing.lean ====
section
/-!
DEFINITION. The command ring (chapter 3): the answers, errors and expiries of ring loads and completion stores, and the
auto-poll.
-/
namespace Sys2Proof.Machine
open Sys2Proof

/-! ### Ring loads -/

/-- The process enters SUSPENDED (R52): the auto-poll deadline, and CMD_SUSPENDED unless an auto-poll brought the load. -/
def Port.cmdSuspend (now interval : Nat) (auto : Bool) (P : Port) : Port :=
  let P1 := P.modCmd (fun c => { c with state := .suspended, deadline := if interval = 0 then none else some (now + interval) })
  if auto then P1 else P1.raise .cmdSuspended

/-- What the process does with the entry its load brought (R47). -/
def Port.cmdLoaded (now interval : Nat) (auto : Bool) (raw : List Byte) (P : Port) : Port :=
  if ownerIsPart raw then
    if entryWait raw ∧ P.cmd.outstanding ≠ [] then P.modCmd (fun c => { c with held := some { index := c.next, raw := raw } })
    else (P.takeEntry raw).cmdAdvance
  else P.cmdSuspend now interval auto

/-- An ACK to the process's load in slot `k` (R47, R56): the slot is freed; an answer to be discarded is not looked at. -/
def Port.cmdLoadAck (now interval : Nat) (k : SlotId) (raw : List Byte) (P : Port) : Port :=
  let P1 := (P.setSlot k none).modCmd (fun c => { c with load := none })
  match P.cmd.load with
  | some l => if l.discard then P1.cmdAdvance else P1.cmdLoaded now interval l.auto raw
  | none => P1

/-- CMD_LOAD_RESPONSE (R47). A slot holding another request's store or load is not this event (log 11). -/
def execCmdLoadResponse (p : PortId) (k : SlotId) (data : List Byte) (s : State) : Host.Outcome State Fault Refusal :=
  .next (s.dataResponse p k (fun r s => match r with
    | .ringLoad _ => s.modPort p (Port.cmdLoadAck s.now (s.cfg p).cmdPoll k data)
    | _ => s))

/-- The load of the entry at `a` in slot `k` has failed: the slot is freed, FETCH_ERROR recorded and CMD_HALTED raised (R57, R60). -/
def Port.cmdLoadLost (k : SlotId) (a : Addr) (P : Port) : Port :=
  (((P.setSlot k none).modCmd (fun c => { c with load := none })).recordFault .fetchError a).raise .cmdHalted

/-- An ERROR answer to the load of the entry at `a` (R57): FETCH_ERROR, CMD_HALTED, and HALTED; a load whose answer is to be
discarded leaves a STOPPED or RUNNING process as it is. A process that has since been started again and stopped to STOPPING is
made HALTED: DESIGN CHOICE, the spec names no state for it (log 31). -/
def Port.cmdLoadFail (k : SlotId) (a : Addr) (P : Port) : Port :=
  match P.cmd.load with
  | some l =>
    if l.discard ∧ (P.cmd.state = .stopped ∨ P.cmd.state = .running) then (P.cmdLoadLost k a).cmdAdvance
    else (P.cmdLoadLost k a).modCmd CmdProc.halt
  | none => P.cmdLoadLost k a

/-- RING_LOAD_ERROR (R57). -/
def execRingLoadError (p : PortId) (k : SlotId) (s : State) : Host.Outcome State Fault Refusal :=
  .next (s.dataResponse p k (fun r s => match r with
    | .ringLoad a => s.modPort p (Port.cmdLoadFail k a)
    | _ => s))

/-! ### Completion stores -/

/-- The record whose completion store is issued in slot `k`. -/
def CmdRec.isIssued (k : SlotId) (r : CmdRec) : Bool := r.phase == .issued k

/-- The completion store in slot `k` is acknowledged (R55). -/
def Port.completionAck (k : SlotId) (P : Port) : Port :=
  (((P.setSlot k none).modCmd (fun c => { c with outstanding := removeFirst (CmdRec.isIssued k) c.outstanding })).raise
    .completion).cmdAdvance

/-- COMPLETION_STORE_ACK (R55). -/
def execCompletionStoreAck (p : PortId) (k : SlotId) (s : State) : Host.Outcome State Fault Refusal :=
  .next (s.dataResponse p k (fun r s => match r with
    | .completionStore _ _ => s.modPort p (Port.completionAck k)
    | _ => s))

/-- The sequence of the command whose completion store is in slot `k`. -/
def Port.storeSeq (k : SlotId) (P : Port) : BitVec 16 :=
  match P.cmd.outstanding.find? (CmdRec.isIssued k) with
  | some r => entrySeq r.raw
  | none => 0

/-- The completion in slot `k` is lost: the slot is freed, the record removed, and WRITEBACK_ERROR recorded (R58). -/
def Port.completionLost (k : SlotId) (P : Port) : Port :=
  ((P.setSlot k none).modCmd (fun c => { c with outstanding := removeFirst (CmdRec.isIssued k) c.outstanding })).recordFault
    .writebackError ((P.storeSeq k).zeroExtend 40)

/-- An ERROR answer to the completion store in slot `k` (R58): the completion is lost; a RUNNING, SUSPENDED or STOPPING process
becomes HALTED. -/
def Port.completionFail (k : SlotId) (P : Port) : Port :=
  let P1 := P.completionLost k
  match P.cmd.state with
  | .halted => P1
  | .stopped => P1
  | .running => (P1.modCmd CmdProc.halt).raise .cmdHalted
  | .suspended => (P1.modCmd CmdProc.halt).raise .cmdHalted
  | .stopping => (P1.modCmd CmdProc.halt).raise .cmdHalted

/-- COMPLETION_STORE_ERROR (R58). -/
def execCompletionStoreError (p : PortId) (k : SlotId) (s : State) : Host.Outcome State Fault Refusal :=
  .next (s.dataResponse p k (fun r s => match r with
    | .completionStore _ _ => s.modPort p (Port.completionFail k)
    | _ => s))

/-! ### Expiries -/

/-- RING_REQUEST_EXPIRY (R60): the process takes it as an ERROR, its fault recorded and CMD_HALTED raised (log 15), and the fence
of the same step stops the process, so that it is STOPPED, not HALTED. -/
def execRingRequestExpiry (p : PortId) (k : SlotId) (s : State) : Host.Outcome State Fault Refusal :=
  .next (if (s.port p).slotDue s.now k then
    match (s.port p).dataReq k with
    | some (.ringLoad a) => (s.modPort p (Port.cmdLoadLost k a)).fence p .ring
    | some (.completionStore _ _) => (s.modPort p (fun P => (P.completionLost k).raise .cmdHalted)).fence p .ring
    | _ => s
  else s)

/-- The auto-poll deadline of a SUSPENDED process has passed (R53). -/
def Port.cmdPollDue (now : Nat) (P : Port) : Bool :=
  P.cmd.state == .suspended && (match P.cmd.deadline with
    | some t => decide (t ≤ now)
    | none => false)

/-- COMMAND_AUTO_POLL_EXPIRY (R53). -/
def execCommandAutoPollExpiry (p : PortId) (s : State) : Host.Outcome State Fault Refusal :=
  .next (if (s.port p).cmdPollDue s.now then s.modPort p (Port.cmdWake true) else s)

end Sys2Proof.Machine
end

