-- ==== Sys2Proof/Machine/ArrivalRing.lean ====
section
/-!
DEFINITION. The arrival ring (chapter 5): the answers, errors and expiries of arrival loads and record stores, what a
delivery does, and the auto-poll.
-/
namespace Sys2Proof.Machine
open Sys2Proof

/-! ### Loads -/

/-- The process picks an item and presents the store of its record (R103). -/
def Port.arrPick (P : Port) : Port :=
  (P.modInbox Inbox.pick).modArr (fun a => { a with store := some { index := a.next, slot := none } })

/-- The process enters SUSPENDED (R105). -/
def Port.arrSuspend (now interval : Nat) (auto : Bool) (P : Port) : Port :=
  let P1 := P.modArr (fun a => { a with state := .suspended, deadline := if interval = 0 then none else some (now + interval) })
  if auto then P1 else P1.raise .arrSuspended

/-- What the process does with the owner its load found (R102): with an empty inbox the answer is discarded. -/
def Port.arrLoaded (now interval : Nat) (auto : Bool) (raw : List Byte) (P : Port) : Port :=
  if P.inbox.isEmpty then P
  else if ownerIsPart raw then P.arrPick
  else P.arrSuspend now interval auto

/-- An ACK to the process's load in slot `k` (R102, R106). -/
def Port.arrLoadAck (now interval : Nat) (k : SlotId) (raw : List Byte) (P : Port) : Port :=
  let P1 := (P.setSlot k none).modArr (fun a => { a with load := none })
  match P.arr.load with
  | some l => if l.discard then P1.arrPresent false else P1.arrLoaded now interval l.auto raw
  | none => P1

/-- ARRIVAL_LOAD_RESPONSE (R102). -/
def execArrivalLoadResponse (p : PortId) (k : SlotId) (data : List Byte) (s : State) : Host.Outcome State Fault Refusal :=
  .next (s.dataResponse p k (fun r s => match r with
    | .arrivalLoad _ => s.modPort p (Port.arrLoadAck s.now (s.cfg p).arrPoll k data)
    | _ => s))

/-! ### Record stores -/

/-- A DELIVERY to port `p` is complete (R104): the buffer becomes HELD by `p`. -/
def State.delivered (b : BufId) (p : PortId) (s : State) : State :=
  match (s.record b).custody with
  | .queued _ _ => s.setCustody b (.heldPlain p)
  | _ => s

/-- Port `p` joins the readers of a buffer, with the returning flag set where a recall waits (R22, R104). -/
def Owned.join (p : PortId) (o : Owned) : Owned :=
  { o.dropLease p with readers := o.readers ++ [{ port := p, returning := match o.op with
      | .recallViews _ => true
      | _ => false }] }

/-- A reader that joined while a recall waits is taken over at once (R86): a REVOKED item, and a DROP if it is caching and
ACTIVE, else it leaves. -/
def State.takeOver (b : BufId) (h p : PortId) (s : State) : State :=
  let t := s.revoke b h p
  (if t.askable p then t.askRecall b p else t.readerOut b p false).recallCheck b

/-- A LEASE of `b` to port `p` is delivered (R104). -/
def State.leased (b : BufId) (p : PortId) (s : State) : State :=
  match s.owned b with
  | some o =>
    let t := s.setCustody b (.owned (o.join p))
    match o.op with
    | .recallViews _ => t.takeOver b o.holder p
    | _ => t
  | none => s

/-- The custody effect of a delivered item (R104). -/
def State.itemEffect (it : Item) (p : PortId) (s : State) : State :=
  match it.kind with
  | .delivery _ _ => s.delivered it.buf p
  | .lease => s.leased it.buf p
  | .revoked => s

/-- The process after an acknowledged record store (R104, R106). -/
def ArrProc.stored (a : ArrProc) : ArrProc :=
  ({ a with store := none, next := (a.next + 1) % a.size } : ArrProc).endStopWaiting

/-- The port after an acknowledged record store: the item gone, the index advanced, ARRIVAL raised (R104). -/
def Port.arrStored (k : SlotId) (P : Port) : Port :=
  (((P.setSlot k none).modInbox (Inbox.remove Item.delivering)).modArr ArrProc.stored).raise .arrival

/-- The record store in slot `k` is acknowledged (R104): then the next load, if R102 allows. -/
def State.arrivalAck (p : PortId) (k : SlotId) (s : State) : State :=
  let t := s.modPort p (Port.arrStored k)
  (match (s.port p).inbox.delivering with
    | some (_, it) => t.itemEffect it p
    | none => t).modPort p (Port.arrPresent false)

/-- ARRIVAL_STORE_ACK (R104). The Mover is given its turn, since the end of a recall may free a buffer. -/
def execArrivalStoreAck (p : PortId) (k : SlotId) (s : State) : Host.Outcome State Fault Refusal :=
  .next (s.dataResponse p k (fun r s => match r with
    | .arrivalStore _ _ => (s.arrivalAck p k).settle
    | _ => s))

/-! ### Errors -/

/-- ARRIVAL_ERROR with the entry's address, and ARR_HALTED (R106, R107). -/
def Port.arrFault (a : Addr) (P : Port) : Port := (P.recordFault .arrivalError a).raise .arrHalted

/-- An ERROR answer to the load of the entry at `a` (R106, R107). -/
def Port.arrLoadFail (k : SlotId) (a : Addr) (P : Port) : Port :=
  let P1 := ((P.setSlot k none).modArr (fun x => { x with load := none })).arrFault a
  match P.arr.load with
  | some l =>
    if l.discard then P1.arrPresent false else P1.modArr (fun x => { x with state := .halted, deadline := none })
  | none => P1

/-- The process after a failed record store: HALTED, or STOPPED where a stop waits (R106, R107). -/
def ArrProc.storeFailed (a : ArrProc) : ArrProc :=
  if a.stopWaiting then { a with store := none, deadline := none, state := .stopped, stopWaiting := false }
  else { a with store := none, deadline := none, state := .halted }

/-- An ERROR answer to the store of the entry at `a` (R107): the item keeps its place, its flag cleared. -/
def Port.arrStoreFail (k : SlotId) (a : Addr) (P : Port) : Port :=
  (((P.setSlot k none).modArr ArrProc.storeFailed).modInbox Inbox.clearDelivering).arrFault a

/-- A record store failed (R107): a LEASE item that a recall waits on is then removed (R86). -/
def State.arrivalStoreFailed (p : PortId) (k : SlotId) (a : Addr) (s : State) : State :=
  (s.modPort p (Port.arrStoreFail k a)).leaseAbandoned (s.port p).inbox.delivering p

/-- ARRIVAL_REQUEST_ERROR (R107). -/
def execArrivalRequestError (p : PortId) (k : SlotId) (s : State) : Host.Outcome State Fault Refusal :=
  .next (s.dataResponse p k (fun r s => match r with
    | .arrivalLoad a => s.modPort p (Port.arrLoadFail k a)
    | .arrivalStore a _ => (s.arrivalStoreFailed p k a).settle
    | _ => s))

/-- The load or store of the entry at `a` in slot `k` has expired: the slot is freed, ARRIVAL_ERROR recorded and ARR_HALTED
raised (R108). -/
def Port.arrLost (k : SlotId) (a : Addr) (P : Port) : Port := (P.setSlot k none).arrFault a

/-- ARRIVAL_REQUEST_EXPIRY (R108): taken as an ERROR, and the fence of the same step stops the process: the load or store is gone,
a store's item keeps its place with its flag cleared, and a LEASE item that a recall waits on goes (R86, R109). -/
def execArrivalRequestExpiry (p : PortId) (k : SlotId) (s : State) : Host.Outcome State Fault Refusal :=
  .next (if (s.port p).slotDue s.now k then
    match (s.port p).dataReq k with
    | some (.arrivalLoad a) => (s.modPort p (Port.arrLost k a)).fence p .ring
    | some (.arrivalStore a _) => (s.modPort p (Port.arrLost k a)).fence p .ring
    | _ => s
  else s)

/-- The auto-poll deadline of a SUSPENDED process has passed (R105). -/
def Port.arrPollDue (now : Nat) (P : Port) : Bool :=
  P.arr.state == .suspended && (match P.arr.deadline with
    | some t => decide (t ≤ now)
    | none => false)

/-- ARRIVAL_AUTO_POLL_EXPIRY (R105). -/
def execArrivalAutoPollExpiry (p : PortId) (s : State) : Host.Outcome State Fault Refusal :=
  .next (if (s.port p).arrPollDue s.now then s.modPort p (Port.arrWake true) else s)

end Sys2Proof.Machine
end

