-- ==== Sys2Proof/Machine/MapLoad.lean ====
section
/-!
DEFINITION. The Map Loader (chapter 1) and the events of the whole part: reading the image by its layout (R179), its CRC (R4),
its checks (R6, R7), the passage to READY or FAILED (R8, R11), device reset (R177) and link loss (R174).
-/
namespace Sys2Proof.Machine
open Sys2Proof

/-! ### Reading the image (R179) -/

/-- Byte `k` of the ROM; a byte of an absent or unprogrammed ROM reads as all ones (R5). -/
def romByte (rom : List Byte) (k : Nat) : Byte := rom.getD k 0xFF

/-- The 16-bit field at offset `k`. -/
def rom16 (rom : List Byte) (k : Nat) : Nat := (romByte rom k).toNat + 256 * (romByte rom (k + 1)).toNat

/-- The 32-bit field at offset `k`. -/
def rom32 (rom : List Byte) (k : Nat) : Nat := rom16 rom k + 65536 * rom16 rom (k + 2)

/-- The 40-bit field at offset `k`. -/
def rom40 (rom : List Byte) (k : Nat) : Nat := rom32 rom k + 4294967296 * (romByte rom (k + 4)).toNat

/-- The signature of a custody map image. -/
def mapSignature : Nat := 0x55A4C316

/-- The pool count field. -/
def poolCount (rom : List Byte) : Nat := (romByte rom 5).toNat

/-- The length of the image of `n` pools. -/
def imageLength (n : Nat) : Nat := 16 + 64 + 32 * n + 4

/-- Offset of port entry `p`. -/
def portOffset (p : Nat) : Nat := 16 + 16 * p

/-- Offset of pool entry `q`. -/
def poolOffset (q : Nat) : Nat := 80 + 32 * q

/-! ### The read of the ROM (R5) -/

/-- What the Map Loader sends on the serial ROM's line before it clocks in bytes: an instruction and a byte address. -/
structure SpiRead where
  instruction : Byte
  address     : BitVec 24
deriving DecidableEq, Repr

/-- The sequential read from offset 0: instruction 03h and byte address 000000h (R5). -/
def mapRead : SpiRead := { instruction := 0x03, address := 0 }

/-- The read under way on the ROM's line, from device reset until the load ends; with none the ROM is deselected and the line
idle (R5). -/
def State.spiRead (s : State) : Option SpiRead := if s.mapState = .loading then some mapRead else none

/-- The number of bytes clocked in when the read ends (R5): 16 where the signature does not match or the pool count is outside 1
to 16, and the length of the image otherwise. -/
def romReadEnd (rom : List Byte) : Nat :=
  if rom32 rom 0 ≠ mapSignature ∨ poolCount rom = 0 ∨ 16 < poolCount rom then 16 else imageLength (poolCount rom)

/-- The bytes clocked in by the read, from offset 0 upward (R5). -/
def romClocked (rom : List Byte) : List Byte := (List.range (romReadEnd rom)).map (romByte rom)

/-! ### The CRC (R4) -/

/-- One bit of the reflected CRC-32 with generator 04C11DB7h, whose bit reversal is 0EDB88320h. -/
def crcBit (c : Word) : Word := if c.getLsbD 0 then (c >>> 1) ^^^ 0xEDB88320#32 else c >>> 1

/-- One byte of the CRC, its least significant bit first. -/
def crcByte (c : Word) (b : Byte) : Word :=
  crcBit (crcBit (crcBit (crcBit (crcBit (crcBit (crcBit (crcBit (c ^^^ b.zeroExtend 32))))))))

/-- The CRC-32 of a byte string: initial value and final exclusive-or 0FFFFFFFFh. -/
def crc32 (l : List Byte) : Word := (l.foldl crcByte 0xFFFFFFFF#32) ^^^ 0xFFFFFFFF#32

/-- The stage 3 check: the CRC of bytes 0 to L - 5 equals the value in bytes L - 4 to L - 1 (R6). -/
def crcOk (rom : List Byte) : Bool :=
  let l := imageLength (poolCount rom)
  (crc32 ((List.range (l - 4)).map (romByte rom))).toNat == rom32 rom (l - 4)

/-! ### Fields -/

/-- The four of something, by port number. -/
def fourOf {α : Type} (f : Nat → α) : Four α := ⟨f 0, f 1, f 2, f 3⟩

/-- Port entry `p` of the image. -/
def romPort (rom : List Byte) (p : Nat) : PortEntry :=
  let o := portOffset p
  { present := (romByte rom o).getLsbD 0
    caching := (romByte rom o).getLsbD 1
    recovery := (romByte rom o).getLsbD 2
    retries := (romByte rom (o + 1)).toNat
    inboxLimit := rom16 rom (o + 2)
    respLimit := rom16 rom (o + 4)
    cmdPoll := rom16 rom (o + 6)
    arrPoll := rom16 rom (o + 8) }

/-- A landing byte: 0FFh is none. -/
def landingOf (b : Byte) : Option PoolId := if b = 0xFF then none else some b.toNat

/-- Pool entry `q` of the image; its home port is read by its low bits, and checked to be one of four by `poolOk`. -/
def romPool (rom : List Byte) (q : Nat) : PoolEntry :=
  let o := poolOffset q
  { home := Fin.ofNat 4 (romByte rom o).toNat
    sizeCode := (romByte rom (o + 1)).toNat
    count := rom16 rom (o + 2)
    base := BitVec.ofNat 40 (rom40 rom (o + 4))
    reach := fourOf (fun p => (romByte rom (o + 9)).getLsbD p)
    quota := fourOf (fun p => rom16 rom (o + 12 + 2 * p))
    landing := fourOf (fun p => landingOf (romByte rom (o + 20 + p))) }

/-- The map of an image. -/
def romMap (rom : List Byte) : CustodyMap :=
  { arbMode := if romByte rom 6 = 1 then .rotating else .fixed
    landingWait := rom16 rom 8
    ports := fourOf (romPort rom)
    pools := (List.range (poolCount rom)).map (romPool rom) }

/-! ### The content checks (R7) -/

/-- The checks of a present port's entry. -/
def portOk (e : PortEntry) : Bool :=
  !e.present || (decide (1 ≤ e.inboxLimit ∧ e.inboxLimit ≤ 256) && e.respLimit != 0 && decide (e.retries ≤ 3))

/-- The quota checks of port `p` in a pool. -/
def quotaOk (m : CustodyMap) (e : PoolEntry) (p : PortId) : Bool :=
  (e.quota.get p == 0 || ((m.ports.get p).present && e.reach.get p)) && decide (e.quota.get p ≤ e.count)

/-- The landing check of port `p` in a pool: made for a present port outside its reach mask. -/
def landingOk (m : CustodyMap) (e : PoolEntry) (p : PortId) : Bool :=
  !(m.ports.get p).present || e.reach.get p ||
    match e.landing.get p with
    | none => true
    | some r => match m.pools[r]? with
      | some f => f.reach.get p && f.quota.get p != 0
      | none => false

/-- The checks of a pool entry whose home port byte is `home`. -/
def poolOk (m : CustodyMap) (home : Nat) (e : PoolEntry) : Bool :=
  decide (1 ≤ e.count ∧ e.count ≤ 4096) && decide (8 ≤ e.sizeCode ∧ e.sizeCode ≤ 16) &&
  e.base.toNat % e.size == 0 && decide (e.base.toNat + e.count * e.size ≤ 2 ^ 40) &&
  decide (home ≤ 3) && (m.ports.get e.home).present && e.reach.get e.home &&
  fourIds.all (fun p => quotaOk m e p && landingOk m e p)

/-- The checks of the header's fields. -/
def headerOk (rom : List Byte) : Bool :=
  romByte rom 4 == 1 && rom16 rom 10 == imageLength (poolCount rom) && decide ((romByte rom 6).toNat ≤ 1) && rom16 rom 8 != 0

/-- Every content check of stage 4 (R7). -/
def contentOk (rom : List Byte) : Bool :=
  let m := romMap rom
  headerOk rom && fourIds.all (fun p => portOk (m.ports.get p)) && decide (totalBuffers m.pools ≤ 4096) &&
  (List.range (poolCount rom)).all (fun q => poolOk m (romByte rom (poolOffset q)).toNat (romPool rom q))

/-- The stages of the load, in their order (R6): the reason of the first that fails, NONE if all pass. -/
def loadReason (rom : List Byte) : FailReason :=
  if rom32 rom 0 ≠ mapSignature then .noImage
  else if poolCount rom = 0 ∨ 16 < poolCount rom then .badContent
  else if !crcOk rom then .badCheck
  else if !contentOk rom then .badContent
  else .none

/-! ### The end of the load (R8, R11, R42) -/

/-- The free lists: each pool's ids in ascending order, from `base` on (R13, R30); nothing charged (R42). -/
def buildPools : BufId → List PoolEntry → List PoolState
  | _, [] => []
  | base, e :: es =>
    { free := (List.range e.count).map (· + base), waiting := [], charge := .fill 0 } :: buildPools (base + e.count) es

/-- A port at the passage to READY: the ROTATING list afresh (R162), and the auto-poll interval of a SUSPENDED process starts
where it is not 0 (R9). -/
def Port.atReady (now : Nat) (e : PortEntry) (P : Port) : Port :=
  let P1 := { P with rotation := sourceOrder }
  let P2 := if P1.cmd.state = .suspended ∧ e.cmdPoll ≠ 0 then P1.modCmd (fun c => { c with deadline := some (now + e.cmdPoll) }) else P1
  if P2.arr.state = .suspended ∧ e.arrPoll ≠ 0 then P2.modArr (fun a => { a with deadline := some (now + e.arrPoll) }) else P2

/-- The map is accepted (R8): READY, the records FREE with generation 0, MAP_DONE on every present port (R11). -/
def State.mapReady (m : CustodyMap) (s : State) : State :=
  let t := { s with
    mapState := .ready
    reason := .none
    map := some m
    records := List.replicate (totalBuffers m.pools) .fresh
    pools := buildPools 0 m.pools }
  t.mapPorts (fun p P =>
    let P1 := P.atReady s.now (t.cfg p)
    if (m.ports.get p).present then P1.raise .mapDone else P1)

/-- The map is refused (R8): FAILED with its reason, MAP_DONE on all four ports (R11). -/
def State.mapFailed (r : FailReason) (s : State) : State :=
  ({ s with mapState := .failed, reason := r } : State).mapPorts (fun _ => Port.raise .mapDone)

/-- The read of the ROM ends (R5, R6). -/
def State.endLoad (rom : List Byte) (s : State) : State :=
  match loadReason rom with
  | .none => s.mapReady (romMap rom)
  | .noImage => s.mapFailed .noImage
  | .badCheck => s.mapFailed .badCheck
  | .badContent => s.mapFailed .badContent

/-- The part drives the serial ROM's line: from device reset until the load ends (R5). -/
def State.spiDriven (s : State) : Bool := s.spiRead.isSome

/-- MAP_LOAD_END (R5, R6): the read has ended, and the load is judged by the bytes that were clocked in. Unless the
map is LOADING the line is idle and no read ends (R5, log 11). -/
def execMapLoadEnd (rom : List Byte) (s : State) : Host.Outcome State Fault Refusal :=
  .next (if s.mapState = .loading then s.endLoad (romClocked rom) else s)

/-- DEVICE_RESET (R177): everything to its reset state, and the map load starts (R5). The Time Base runs on (log 3), and so
does the counter of the free orders. -/
def execDeviceReset (s : State) : Host.Outcome State Fault Refusal :=
  .next { State.reset with now := s.now, freeCount := s.freeCount, pending := s.pending }

/-- LINK_LOSS (R148, R174): a port reset. -/
def execLinkLoss (p : PortId) (s : State) : Host.Outcome State Fault Refusal := .next (s.portReset p)

end Sys2Proof.Machine
end

