-- ==== Sys2Proof/Machine/CustodyCommands.lean ====
section
/-!
DEFINITION. The custody commands (chapter 4): the Custody Table's taking of a port's oldest handed-over command, the common
checks, and each command's own checks and effects. The arguments are the fields of the entry as fetched.
-/
namespace Sys2Proof.Machine
open Sys2Proof

/-! ### Taking a command (R64, R65) -/

/-- The first check of a table that fails, with its result code: each row says whether it fails. -/
def firstRefusal : List (Bool × ResultCode) → Option ResultCode
  | [] => none
  | (fails, code) :: l => if fails then some code else firstRefusal l

/-- Which of the common checks of the handle a command makes (R65): none, its form only (QUERY), or form and generation. -/
inductive HandleUse where
  | none
  | form
  | full
deriving DecidableEq, Repr

/-- The handle's id is below the total buffer count and its unused bits are zero (R28). -/
def State.handleOk (s : State) (h : Word) : Bool :=
  decide (handleId h < s.records.length) && handleUnused h == 0

/-- The common checks of steps 1 to 3, whose refusals carry no handle (R65, R66, R12). -/
def State.earlyChecks (s : State) (p : PortId) (u : HandleUse) (raw : List Byte) : List (Bool × ResultCode) :=
  [(s.mapState == .loading, .notReady), (s.mapState == .failed, .noMap), (!s.active p, .fenced),
    (u != .none && !s.handleOk (entryHandle raw), .badCommand)]

/-- The common check of step 4 (R29). -/
def State.staleCheck (s : State) (u : HandleUse) (raw : List Byte) : List (Bool × ResultCode) :=
  [(u == .full && handleGen (entryHandle raw) != (s.record (entryBuf raw)).gen, .stale)]

/-- The Custody Table takes port `p`'s command with the entry `raw` (R64): the first check that fails gives the result, and
custody is unchanged; if all pass, `accept`. A refusal from step 4 on carries the buffer's handle as it now stands (R65). -/
def State.judge (p : PortId) (u : HandleUse) (raw : List Byte) (own : List (Bool × ResultCode)) (accept : State → State)
    (s : State) : State :=
  match firstRefusal (s.earlyChecks p u raw) with
  | some c => s.endTaken p { code := c, handle := none, detail := .zero }
  | none =>
    match firstRefusal (s.staleCheck u raw ++ own) with
    | some c =>
      s.endTaken p { code := c, handle := if u = .none then none else some (s.handleOf (entryBuf raw)), detail := .zero }
    | none => accept s

/-- Port `p`'s oldest handed-over command, where it is the command `op`: `f` of its entry. Where it is not, or there is none,
the Custody Table is not taking such a command, and nothing happens (log 11). -/
def State.taking (p : PortId) (op : CmdOp) (f : List Byte → State → State) (s : State) : State :=
  match (s.port p).cmd.nextHanded with
  | some r => if entryOp r.raw = some op then f r.raw s else s
  | none => s

/-- The record of buffer `b` is HELD or SHARED with holder `p` (own check 1 of FREE, SEND, LEND, RECALL). -/
def State.holds (s : State) (p : PortId) (b : BufId) : Bool := ((s.record b).custody.heldBy p).isSome

/-- The pending field of buffer `b`. -/
def State.pendingOf (s : State) (b : BufId) : Pending := (s.record b).custody.pending

/-- Buffer `b` is lent: SHARED, or with leases outstanding. -/
def State.lent (s : State) (b : BufId) : Bool :=
  match s.owned b with
  | some o => o.lent
  | none => false

/-- A holder-side operation begins (R21). -/
def State.beginOp (b : BufId) (op : HolderOp) (s : State) : State :=
  match s.owned b with
  | some o => s.setCustody b (.owned { o with op := op })
  | none => s

/-! ### ALLOCATE (R68) -/

/-- The head of pool `q`'s list leaves it, and becomes HELD by `p` (R68). -/
def State.allocateFrom (p : PortId) (q : PoolId) (s : State) : State :=
  match (s.pool q).free with
  | b :: bs =>
    ((((s.modPool q (fun P => { P with free := bs })).setCustody b (.heldPlain p)).chargeUp p q).endTakenOn p b .ok)
  | [] => s

/-- ALLOCATE's own checks (R68). -/
def State.allocateChecks (s : State) (p : PortId) (q : PoolId) : List (Bool × ResultCode) :=
  [(decide (s.theMap.pools.length ≤ q), .noPool), (s.quota p q == 0, .denied),
    (decide (s.quota p q ≤ s.charge p q), .quota), ((s.pool q).free.isEmpty, .empty)]

/-- ALLOCATE (R68). -/
def execAllocate (p : PortId) (s : State) : Host.Outcome State Fault Refusal :=
  .next (s.taking p .allocate (fun raw s =>
    s.judge p .none raw (s.allocateChecks p (entryPool raw)) (State.allocateFrom p (entryPool raw))))

/-! ### FREE (R70) -/

/-- FREE's own checks (R70). -/
def State.freeChecks (s : State) (p : PortId) (b : BufId) : List (Bool × ResultCode) :=
  [(!s.holds p b, .notHeld), (s.pendingOf b != .none, .inTransit), (s.lent b, .leased)]

/-- FREE accepted: pending FREE, and a DROP of the issuer (R70). -/
def State.freeAccept (p : PortId) (b : BufId) (s : State) : State :=
  ((s.acceptTaken p).beginOp b .free).ask { buf := b, target := p, kind := .drop, op := .free }

/-- FREE (R70). -/
def execFree (p : PortId) (s : State) : Host.Outcome State Fault Refusal :=
  .next (s.taking p .free (fun raw s =>
    s.judge p .full raw (s.freeChecks p (entryBuf raw)) (fun s => (s.freeAccept p (entryBuf raw)).settle)))

/-! ### SEND (R72) -/

/-- SEND's own checks 4 to 8, with the destination `d` (R72). -/
def State.sendDestChecks (s : State) (p : PortId) (b : BufId) (raw : List Byte) (d : PortId) : List (Bool × ResultCode) :=
  [(d == p || decide ((s.entryOf b).size < entryLength raw) || (entryLane raw).isNone, .badCommand),
    (!(s.cfg d).present || (if (s.entryOf b).reach.get d then s.quota d (s.poolOf b) == 0
      else ((s.entryOf b).landing.get d).isNone), .denied),
    (!s.active d, .fenced),
    (decide (s.quota d (s.reservingPool b d) ≤ s.charge d (s.reservingPool b d)), .quota),
    (decide ((s.cfg d).inboxLimit ≤ (s.port d).inbox.occupancy) ||
      (!(s.entryOf b).reach.get d && decide (moverPlaces ≤ s.mover.usedPlaces)), .full)]

/-- SEND's own checks (R72). -/
def State.sendChecks (s : State) (p : PortId) (b : BufId) (raw : List Byte) : List (Bool × ResultCode) :=
  s.freeChecks p b ++
    match entryPortId raw with
    | some d => s.sendDestChecks p b raw d
    | none => [(true, .badCommand)]

/-- The reservations a SEND takes at its acceptance (R73). -/
def State.sendReserve (b : BufId) (d : PortId) (s : State) : State :=
  let t := (s.openDest b d (s.reservingPool b d)).modPort d (Port.modInbox (Inbox.reserve .send b))
  if (s.entryOf b).reach.get d then t else t.modMover (fun m => { m with reserved := m.reserved ++ [b] })

/-- SEND accepted (R73): the reservations, pending SEND with its destination, and a DROP of the issuer. -/
def State.sendAccept (p : PortId) (b : BufId) (d : PortId) (s : State) : State :=
  (((s.acceptTaken p).sendReserve b d).beginOp b (.send d)).ask { buf := b, target := p, kind := .drop, op := .send }

/-- SEND (R72). -/
def execSend (p : PortId) (s : State) : Host.Outcome State Fault Refusal :=
  .next (s.taking p .send (fun raw s =>
    s.judge p .full raw (s.sendChecks p (entryBuf raw) raw)
      (fun s => (s.sendAccept p (entryBuf raw) ((entryPortId raw).getD 0)).settle)))

/-! ### WITHDRAW (R78) -/

/-- The sender and destination of a QUEUED buffer. -/
def State.queuedOf (s : State) (b : BufId) : Option (PortId × PortId) :=
  match (s.record b).custody with
  | .queued h d => some (h, d)
  | _ => none

/-- The DELIVERY item of `b` in port `d`'s inbox is being delivered. -/
def State.beingDelivered (s : State) (b : BufId) (d : PortId) : Bool :=
  (s.port d).inbox.items.any (fun i => i.isDeliveryOf b && i.delivering)

/-- WITHDRAW's own checks (R78). -/
def State.withdrawChecks (s : State) (p : PortId) (b : BufId) : List (Bool × ResultCode) :=
  match s.queuedOf b with
  | some (h, d) =>
    [(h != p, .notHeld), (s.beingDelivered b d, .tooLate), (decide (s.quota p (s.poolOf b) ≤ s.charge p (s.poolOf b)), .quota)]
  | none => [(true, .notHeld)]

/-- WITHDRAW accepted (R78): the item is removed, and the buffer is HELD by its sender. -/
def State.withdrawAccept (p : PortId) (b : BufId) (s : State) : State :=
  match s.queuedOf b with
  | some (_, d) =>
    ((((s.modPort d (Port.modInbox (Inbox.remove (Item.isDeliveryOf b)))).setCustody b (.heldPlain p)).chargeDown d
      (s.poolOf b)).chargeUp p (s.poolOf b)).endTakenOn p b .ok
  | none => s

/-- WITHDRAW (R78). -/
def execWithdraw (p : PortId) (s : State) : Host.Outcome State Fault Refusal :=
  .next (s.taking p .withdraw (fun raw s =>
    s.judge p .full raw (s.withdrawChecks p (entryBuf raw)) (State.withdrawAccept p (entryBuf raw))))

/-! ### LEND (R80) -/

/-- The readers and leases outstanding of buffer `b` number three, or `r` is among them (own check 6 of R80). -/
def State.lendFull (s : State) (b : BufId) (r : PortId) : Bool :=
  match s.owned b with
  | some o => o.hasReader r || o.leases.contains r || decide (3 ≤ o.readers.length + o.leases.length)
  | none => false

/-- LEND's own checks 3 to 7, with the reader `r` (R80). -/
def State.lendReaderChecks (s : State) (p : PortId) (b : BufId) (r : PortId) : List (Bool × ResultCode) :=
  [(r == p, .badCommand), (!(s.cfg r).present || !(s.entryOf b).reach.get r, .denied), (!s.active r, .fenced),
    (s.lendFull b r, .leased), (decide ((s.cfg r).inboxLimit < (s.port r).inbox.occupancy + 2), .full)]

/-- LEND's own checks (R80). -/
def State.lendChecks (s : State) (p : PortId) (b : BufId) (raw : List Byte) : List (Bool × ResultCode) :=
  [(!s.holds p b, .notHeld), (s.pendingOf b != .none, .inTransit)] ++
    match entryPortId raw with
    | some r => s.lendReaderChecks p b r
    | none => [(true, .badCommand)]

/-- LEND accepted (R81): two reservations at the reader, pending LEND, and a CLEAN of the holder. -/
def State.lendAccept (p : PortId) (b : BufId) (r : PortId) (s : State) : State :=
  (((s.acceptTaken p).modPort r (Port.modInbox (Inbox.reserve .lend b))).beginOp b .lend).ask
    { buf := b, target := p, kind := .clean, op := .lend }

/-- LEND (R80). -/
def execLend (p : PortId) (s : State) : Host.Outcome State Fault Refusal :=
  .next (s.taking p .lend (fun raw s =>
    s.judge p .full raw (s.lendChecks p (entryBuf raw) raw)
      (fun s => (s.lendAccept p (entryBuf raw) ((entryPortId raw).getD 0)).settle)))

/-! ### RETURN (R82) -/

/-- Port `p` reads buffer `b`. -/
def State.reads (s : State) (p : PortId) (b : BufId) : Bool :=
  match s.owned b with
  | some o => o.hasReader p
  | none => false

/-- Reader `p`'s returning flag is set. -/
def State.isReturning (s : State) (p : PortId) (b : BufId) : Bool :=
  match s.owned b with
  | some o => o.readers.any (fun r => r.port == p && r.returning)
  | none => false

/-- RETURN's own checks (R82). -/
def State.returnChecks (s : State) (p : PortId) (b : BufId) : List (Bool × ResultCode) :=
  [(!s.reads p b, .notHeld), (s.isReturning p b, .inTransit)]

/-- Reader `p`'s returning flag set (R82). -/
def Owned.setReturning (p : PortId) (o : Owned) : Owned :=
  { o with readers := o.readers.map (fun r => if r.port = p then { r with returning := true } else r) }

/-- RETURN accepted (R82): the returning flag, and a DROP of the reader. -/
def State.returnAccept (p : PortId) (b : BufId) (s : State) : State :=
  let t := s.acceptTaken p
  (match t.owned b with
    | some o => t.setCustody b (.owned (o.setReturning p))
    | none => t).ask { buf := b, target := p, kind := .drop, op := .ret }

/-- RETURN (R82). -/
def execReturnView (p : PortId) (s : State) : Host.Outcome State Fault Refusal :=
  .next (s.taking p .ret (fun raw s =>
    s.judge p .full raw (s.returnChecks p (entryBuf raw)) (fun s => (s.returnAccept p (entryBuf raw)).settle)))

/-! ### RECALL (R84) -/

/-- RECALL's own checks (R84). -/
def State.recallChecks (s : State) (p : PortId) (b : BufId) : List (Bool × ResultCode) :=
  [(!s.holds p b, .notHeld), (s.pendingOf b != .none && s.pendingOf b != .ret, .inTransit), (!s.lent b, .notHeld)]

/-- RECALL (R84, R85). -/
def execRecall (p : PortId) (s : State) : Host.Outcome State Fault Refusal :=
  .next (s.taking p .recallViews (fun raw s =>
    s.judge p .full raw (s.recallChecks p (entryBuf raw))
      (fun s => ((s.acceptTaken p).recallWhole (entryBuf raw) false).settle)))

/-! ### RECLAIM (R88) -/

/-- The last holder of a STRANDED buffer. -/
def State.lastHolder (s : State) (b : BufId) : Option PortId :=
  match (s.record b).custody with
  | .stranded h _ => some h
  | _ => none

/-- RECLAIM's own checks (R88). -/
def State.reclaimChecks (s : State) (p : PortId) (b : BufId) : List (Bool × ResultCode) :=
  (!(s.cfg p).recovery, ResultCode.noRight) ::
    match s.lastHolder b with
    | some h => [(s.pendingOf b != .none, .inTransit), (s.fenced h, .fenced)]
    | none => [(true, .notHeld)]

/-- RECLAIM accepted, by the last holder's state (R37, R88): pending RECLAIM and a DROP where it is ACTIVE and caching, freed at
once where it is not caching or DOWN. -/
def State.reclaimAccept (p : PortId) (b : BufId) (s : State) : State :=
  match s.lastHolder b with
  | some h =>
    if s.active h && s.caching h then
      ((s.acceptTaken p).setCustody b (.stranded h true)).ask { buf := b, target := h, kind := .drop, op := .reclaim }
    else (s.enterFreeList b).endTakenOn p b .ok
  | none => s

/-- RECLAIM (R88). -/
def execReclaim (p : PortId) (s : State) : Host.Outcome State Fault Refusal :=
  .next (s.taking p .reclaim (fun raw s =>
    s.judge p .full raw (s.reclaimChecks p (entryBuf raw)) (fun s => (s.reclaimAccept p (entryBuf raw)).settle)))

/-! ### UNFENCE (R89) -/

/-- UNFENCE's own checks (R89). -/
def State.unfenceChecks (s : State) (p : PortId) (raw : List Byte) : List (Bool × ResultCode) :=
  [(!(s.cfg p).recovery, .noRight),
    (match entryPortId raw with
      | some d => !s.fenced d
      | none => true, .badCommand)]

/-- A port leaves FENCED by UNFENCE (R172): ACTIVE, both next indices 0, everything else as the fence left it. -/
def Port.unfence (P : Port) : Port :=
  { P with state := .active, cmd := { P.cmd with next := 0 }, arr := { P.arr with next := 0 } }

/-- UNFENCE (R89). -/
def execUnfence (p : PortId) (s : State) : Host.Outcome State Fault Refusal :=
  .next (s.taking p .unfence (fun raw s =>
    s.judge p .none raw (s.unfenceChecks p raw) (fun s =>
      (s.modPort ((entryPortId raw).getD 0) Port.unfence).endTaken p { code := .ok, handle := none, detail := .zero })))

/-! ### QUERY (R90) -/

/-- The holder a snapshot shows (R90). -/
def Custody.shownHolder : Custody → Option PortId
  | .owned o => some o.holder
  | .stranded h _ => some h
  | _ => none

/-- The readers a snapshot shows (R90). -/
def Custody.shownReaders : Custody → List PortId
  | .owned o => o.readers.map Reader.port
  | _ => []

/-- The snapshot of a record (R90). -/
def Record.snapshot (r : Record) : Snapshot :=
  { state := r.custody.state, holder := r.custody.shownHolder, readers := r.custody.shownReaders, gen := r.gen, length := r.length }

/-- QUERY (R90). -/
def execQuery (p : PortId) (s : State) : Host.Outcome State Fault Refusal :=
  .next (s.taking p .query (fun raw s =>
    s.judge p .form raw [] (fun s => s.endTaken p
      { code := .ok, handle := some (s.handleOf (entryBuf raw)), detail := .query (s.record (entryBuf raw)).snapshot })))

/-! ### MARKER (R91) -/

/-- MARKER (R91). -/
def execMarker (p : PortId) (s : State) : Host.Outcome State Fault Refusal :=
  .next (s.taking p .marker (fun raw s =>
    s.judge p .none raw [] (fun s => s.endTaken p { code := .ok, handle := none, detail := .zero })))

end Sys2Proof.Machine
end

