-- ==== Sys2Proof/Machine/YieldEvents.lean ====
section
/-!
DEFINITION. The events of the Yield Unit (R119 to R124): a response, a non-final and a final expiry.
-/
namespace Sys2Proof.Machine
open Sys2Proof

/-- The tag a number names, if there is one. -/
def tagOf (n : Word) : Option TagId := if h : n.toNat < 8 then some ⟨n.toNat, h⟩ else none

/-- The live ISSUED entry with this tag, with its slot. -/
def State.issuedEntry (s : State) (t : TagId) : Option (YieldEntry × SlotId) :=
  match s.yields.entry t with
  | some e => match e.phase with
    | .issued k => some (e, k)
    | .presented => none
  | none => none

/-- The entry that a response on port `p` with this tag matches (R119). -/
def State.matched (s : State) (p : PortId) (n : Word) : Option (YieldEntry × SlotId) :=
  match (tagOf n).bind s.issuedEntry with
  | some (e, k) => if e.ask.target = p then some (e, k) else none
  | none => none

/-- The entry with tag `t`, issued in slot `k` of port `p`, is retired: slot freed, tag freed, the oldest eligible waiting place
that `ok` admits installed (R119, R123). -/
def State.retireYield (t : TagId) (p : PortId) (k : SlotId) (ok : YieldAsk → Bool) (s : State) : State :=
  (s.modPort p (Port.setSlot k none)).modYields (fun y => (y.retire t).serveAll ok)

/-- YIELD_REFUSED is recorded on the target port for an ERROR (R120). -/
def State.recordRefusal (p : PortId) (t : TagId) (code : AnswerCode) (s : State) : State :=
  match code with
  | .ack => s
  | .error => s.modPort p (Port.recordFault .yieldRefused (BitVec.ofNat 40 t.val))

/-- The outcome of a response's code (R119). -/
def outcomeOf : AnswerCode → YieldOutcome
  | .ack => .acked
  | .error => .refused

/-- YIELD_RESPONSE (R119 to R121). -/
def execYieldResponse (p : PortId) (n : Word) (code : AnswerCode) (s : State) : Host.Outcome State Fault Refusal :=
  .next (match s.matched p n with
    | some (e, k) =>
      (((s.retireYield e.tag p k (fun _ => true)).recordRefusal p e.tag code).yieldOutcome e.ask (outcomeOf code)).settle
    | none => s.modPort p (Port.recordUnsolicited .yield n))

/-- The attempts a yield to port `p` may make: 1 + its retries (R122). -/
def State.maxAttempts (s : State) (p : PortId) : Nat := 1 + (s.cfg p).retries

/-- The entry with this tag whose deadline has passed, with its slot. -/
def State.dueEntry (s : State) (t : TagId) : Option (YieldEntry × SlotId) :=
  match s.issuedEntry t with
  | some (e, k) => if (s.port e.ask.target).slotDue s.now k then some (e, k) else none
  | none => none

/-- The request is reissued in the slot it holds, with a new deadline (R122). -/
def State.reissue (e : YieldEntry) (k : SlotId) (s : State) : State :=
  (s.modYields (YieldUnit.modEntry e.tag (fun e => { e with attempts := e.attempts + 1 }))).modPort e.ask.target
    (Port.issue k (s.yieldReq e) (s.respDeadline e.ask.target))

/-- YIELD_DEADLINE_EXPIRY (R122): the expiry of an attempt that is not the last. -/
def execYieldDeadlineExpiry (t : TagId) (s : State) : Host.Outcome State Fault Refusal :=
  .next (match s.dueEntry t with
    | some (e, k) => if e.attempts < s.maxAttempts e.ask.target then s.reissue e k else s
    | none => s)

/-- YIELD_FINAL_EXPIRY (R123): the entry retires, YIELD_EXPIRED is recorded, the target is fenced, and the Custody Table takes
the outcome. -/
def execYieldFinalExpiry (t : TagId) (s : State) : Host.Outcome State Fault Refusal :=
  .next (match s.dueEntry t with
    | some (e, k) =>
      if e.attempts < s.maxAttempts e.ask.target then s
      else ((s.retireYield t e.ask.target k (fun a => a.target != e.ask.target)).modPort e.ask.target
        (Port.recordFault .yieldExpired (BitVec.ofNat 40 t.val))).fence e.ask.target (.yield e.ask)
    | none => s)

end Sys2Proof.Machine
end

