-- ==== Sys2Proof/Machine/BurstEvents.lean ====
section
/-!
DEFINITION. The events of the Mover (R137, R140 to R142): the answers and expiry of a burst, and the end of a landing wait.
-/
namespace Sys2Proof.Machine
open Sys2Proof

/-- Channel `c`'s request in slot `k` of port `p` is answered: the slot and the channel are free of it (R140, R141). -/
def State.endBurst (p : PortId) (k : SlotId) (c : ChanId) (s : State) : State :=
  (s.modPort p (Port.setSlot k none)).modMover (Mover.modChan c (fun x => { x with req := none }))

/-- The data of a burst read is kept; the part keeps no more than the burst's length (R140, log 20). -/
def State.keepData (c : ChanId) (n : Nat) (data : List Byte) (s : State) : State :=
  s.modMover (Mover.modChan c (fun x => { x with data := data.take n }))

/-- BURST_READ_RESPONSE (R140). -/
def execBurstReadResponse (p : PortId) (k : SlotId) (answer : ReadAnswer) (s : State) : Host.Outcome State Fault Refusal :=
  .next (s.dataResponse p k (fun r s => match r with
    | .burstRead c _ n =>
      match answer with
      | .ack data => ((s.endBurst p k c).keepData c n data).settle
      | .error => ((s.endBurst p k c).moveFail c .sourceError).settle
    | _ => s))

/-- Channel `c`'s write is acknowledged: its job's progress rises by the burst's length and the burst store is emptied (R141). -/
def State.burstWritten (c : ChanId) (s : State) : State :=
  match s.mover.jobOf c with
  | some j => s.modMover (fun m => (m.modJob j.source (fun i => { i with progress := i.progress + i.burstLength })).modChan c
      (fun x => { x with data := [] }))
  | none => s

/-- BURST_WRITE_RESPONSE (R141). -/
def execBurstWriteResponse (p : PortId) (k : SlotId) (code : AnswerCode) (s : State) : Host.Outcome State Fault Refusal :=
  .next (s.dataResponse p k (fun r s => match r with
    | .burstWrite c _ _ =>
      match code with
      | .ack => ((s.endBurst p k c).burstWritten c).settle
      | .error => ((s.endBurst p k c).moveFail c .destError).settle
    | _ => s))

/-- The issued request of channel `c` whose deadline has passed, with its port, its slot and its address. -/
def State.dueBurst (s : State) (c : ChanId) : Option (BurstReq × SlotId × Addr) :=
  match (s.mover.chan c).req with
  | some r =>
    match r.slot with
    | some k =>
      if (s.port r.port).slotDue s.now k then
        match (s.port r.port).dataReq k with
        | some (.burstRead _ a _) => some (r, k, a)
        | some (.burstWrite _ a _) => some (r, k, a)
        | _ => none
      else none
    | none => none
  | none => none

/-- BURST_EXPIRY (R142): the slot freed and the burst store emptied, RESPONSE_EXPIRED on the home port, which is fenced, and the
job fails. -/
def execBurstExpiry (c : ChanId) (s : State) : Host.Outcome State Fault Refusal :=
  .next (match s.dueBurst c with
    | some (r, k, a) =>
      ((s.endBurst r.port k c).modPort r.port (Port.recordFault .responseExpired a)).fence r.port
        (.burst c (if r.write then .destError else .sourceError))
    | none => s)

/-- The landing deadline of channel `c` has passed. -/
def Mover.landingDue (m : Mover) (now : Nat) (c : ChanId) : Bool :=
  match (m.chan c).deadline with
  | some t => decide (t ≤ now)
  | none => false

/-- LANDING_WAIT_EXPIRY (R137): the channel leaves the pool's waiting channels, and the job fails NO_LANDING. -/
def execLandingWaitExpiry (c : ChanId) (s : State) : Host.Outcome State Fault Refusal :=
  .next (if s.mover.landingDue s.now c then
    (((s.leaveWaiting c).modMover (Mover.modChan c (fun x => { x with deadline := none }))).moveFail c .noLanding).settle
  else s)

end Sys2Proof.Machine
end

