-- ==== Sys2Proof/Machine/Dispatch.lean ====
section
/-!
DEFINITION. What each command does: one arm per row of spec/opcode_table.json.
-/
namespace Sys2Proof.Machine
open Sys2Proof

def exec (i : Instr) (s : State) : Host.Outcome State Fault Refusal :=
  match i with
  | .deviceReset => Sys2Proof.Machine.execDeviceReset s
  | .mapLoadEnd rom => Sys2Proof.Machine.execMapLoadEnd rom s
  | .linkLoss p => Sys2Proof.Machine.execLinkLoss p s
  | .controlReset p w => Sys2Proof.Machine.execControlReset p w s
  | .enable p w => Sys2Proof.Machine.execEnable p w s
  | .cmdStart p w => Sys2Proof.Machine.execCmdStart p w s
  | .cmdStop p w => Sys2Proof.Machine.execCmdStop p w s
  | .arrStart p w => Sys2Proof.Machine.execArrStart p w s
  | .arrStop p w => Sys2Proof.Machine.execArrStop p w s
  | .commandPollDemand p w => Sys2Proof.Machine.execCommandPollDemand p w s
  | .arrivalPollDemand p w => Sys2Proof.Machine.execArrivalPollDemand p w s
  | .cringRegisterWrite p r w => Sys2Proof.Machine.execCringRegisterWrite p r w s
  | .aringRegisterWrite p r w => Sys2Proof.Machine.execAringRegisterWrite p r w s
  | .eventsWrite p w => Sys2Proof.Machine.execEventsWrite p w s
  | .maskWrite p w => Sys2Proof.Machine.execMaskWrite p w s
  | .attnReleaseEnd p => Sys2Proof.Machine.execAttnReleaseEnd p s
  | .faultWrite p w => Sys2Proof.Machine.execFaultWrite p w s
  | .badWindow p a => Sys2Proof.Machine.execBadWindow p a s
  | .arbiterGrant p k => Sys2Proof.Machine.execArbiterGrant p k s
  | .cmdLoadResponse p k data => Sys2Proof.Machine.execCmdLoadResponse p k data s
  | .ringLoadError p k => Sys2Proof.Machine.execRingLoadError p k s
  | .completionStoreAck p k => Sys2Proof.Machine.execCompletionStoreAck p k s
  | .completionStoreError p k => Sys2Proof.Machine.execCompletionStoreError p k s
  | .ringRequestExpiry p k => Sys2Proof.Machine.execRingRequestExpiry p k s
  | .commandAutoPollExpiry p => Sys2Proof.Machine.execCommandAutoPollExpiry p s
  | .allocate p => Sys2Proof.Machine.execAllocate p s
  | .free p => Sys2Proof.Machine.execFree p s
  | .send p => Sys2Proof.Machine.execSend p s
  | .withdraw p => Sys2Proof.Machine.execWithdraw p s
  | .lend p => Sys2Proof.Machine.execLend p s
  | .returnView p => Sys2Proof.Machine.execReturnView p s
  | .recallViews p => Sys2Proof.Machine.execRecall p s
  | .reclaim p => Sys2Proof.Machine.execReclaim p s
  | .unfence p => Sys2Proof.Machine.execUnfence p s
  | .query p => Sys2Proof.Machine.execQuery p s
  | .marker p => Sys2Proof.Machine.execMarker p s
  | .arrivalLoadResponse p k data => Sys2Proof.Machine.execArrivalLoadResponse p k data s
  | .arrivalStoreAck p k => Sys2Proof.Machine.execArrivalStoreAck p k s
  | .arrivalRequestError p k => Sys2Proof.Machine.execArrivalRequestError p k s
  | .arrivalRequestExpiry p k => Sys2Proof.Machine.execArrivalRequestExpiry p k s
  | .arrivalAutoPollExpiry p => Sys2Proof.Machine.execArrivalAutoPollExpiry p s
  | .yieldResponse p tag code => Sys2Proof.Machine.execYieldResponse p tag code s
  | .yieldDeadlineExpiry t => Sys2Proof.Machine.execYieldDeadlineExpiry t s
  | .yieldFinalExpiry t => Sys2Proof.Machine.execYieldFinalExpiry t s
  | .unsolicitedDataResponse p slot => Sys2Proof.Machine.execUnsolicitedDataResponse p slot s
  | .burstReadResponse p k answer => Sys2Proof.Machine.execBurstReadResponse p k answer s
  | .burstWriteResponse p k code => Sys2Proof.Machine.execBurstWriteResponse p k code s
  | .burstExpiry c => Sys2Proof.Machine.execBurstExpiry c s
  | .landingWaitExpiry c => Sys2Proof.Machine.execLandingWaitExpiry c s

end Sys2Proof.Machine
end

