-- ==== Sys2Proof/Safety.lean ====
section
/-!
DEFINITION. The invariants of the part that the statements speak of, each read from a rule of the spec: the yield tags, the
quiet of a port that is not ACTIVE, the legal values of the processes, what is empty until the map is READY, and the Mover
having nothing left to do between commands.
-/
namespace Sys2Proof.Machine
open Sys2Proof

/-! ### Words the statements use -/

/-- The conditions of R49 on a Command Process, RUNNING apart. -/
def CmdProc.freeToLoad (c : CmdProc) : Bool :=
  c.load.isNone && c.held.isNone && decide (c.outstanding.length < 4) &&
    !c.outstanding.any (fun r => !r.discard && r.index == c.next)

/-- The ring load of a process that is RUNNING: presented now for the next index where R49 allows it, else the one it has. -/
def CmdProc.nextLoad (auto : Bool) (c : CmdProc) : Option RingLoad :=
  if c.freeToLoad then some { index := c.next, slot := none, auto := auto, discard := false } else c.load

/-- The arrival load of a process that is RUNNING: presented now where R102 allows it, else the one it has. -/
def ArrProc.nextLoad (auto : Bool) (x : Inbox) (a : ArrProc) : Option RingLoad :=
  if a.load = none ∧ a.store = none ∧ a.stopWaiting = false ∧ ¬(x.urgent = [] ∧ x.routine = []) then
    some { index := a.next, slot := none, auto := auto, discard := false }
  else a.load

/-- The port state as step 3 of a CONTROL write that sets no RESET leaves it, on a port that is not FENCED (R150). -/
def Port.stateEnabled (w : Word) (P : Port) : PortState := if ctlEnable w = true ∧ P.state = .down then .active else P.state

/-- The row that is the Custody Table's taking of port `p`'s command `op`. -/
def custodyRow (op : CmdOp) (p : PortId) : Instr :=
  match op with
  | .allocate => .allocate p
  | .free => .free p
  | .send => .send p
  | .withdraw => .withdraw p
  | .lend => .lend p
  | .ret => .returnView p
  | .recallViews => .recallViews p
  | .reclaim => .reclaim p
  | .unfence => .unfence p
  | .query => .query p
  | .marker => .marker p

/-- The commands that name a buffer and check its generation (R29); QUERY names one and does not. -/
def CmdOp.namesCurrent : CmdOp → Bool
  | .allocate => false
  | .free => true
  | .send => true
  | .withdraw => true
  | .lend => true
  | .ret => true
  | .recallViews => true
  | .reclaim => true
  | .unfence => false
  | .query => false
  | .marker => false

/-- A refusal, or an end, with result handle "none" and detail zero. -/
def Result.bare (c : ResultCode) : Result := { code := c, handle := none, detail := .zero }

/-- The item is not a LEASE. -/
def Item.notLease (i : Item) : Bool := i.kind != .lease

/-- Nothing of the record names port `p` as holder, reader or sender of a move (R38 to R41). -/
def Record.apartFrom (r : Record) (p : PortId) : Prop :=
  match r.custody with
  | .owned o => o.holder ≠ p ∧ o.hasReader p = false
  | .source h _ _ => h ≠ p
  | .free => True
  | .queued _ _ => True
  | .landing _ _ => True
  | .stranded _ _ => True

/-- The command `c` is a final expiry of a request issued on port `p` (R169), whose fault has this kind and info (section 9.2). -/
def State.expiresOn (s : State) (c : Instr) (p : PortId) (kind : FaultKind) (info : Addr) : Prop :=
  (∃ k, c = .ringRequestExpiry p k ∧ (s.port p).slotDue s.now k = true ∧ (s.port p).dataReq k = some (.ringLoad info) ∧
    kind = .fetchError) ∨
  (∃ k a bytes, c = .ringRequestExpiry p k ∧ (s.port p).slotDue s.now k = true ∧
    (s.port p).dataReq k = some (.completionStore a bytes) ∧ kind = .writebackError ∧
    info = ((s.port p).storeSeq k).zeroExtend 40) ∨
  (∃ k, c = .arrivalRequestExpiry p k ∧ (s.port p).slotDue s.now k = true ∧
    ((s.port p).dataReq k = some (.arrivalLoad info) ∨ ∃ bytes, (s.port p).dataReq k = some (.arrivalStore info bytes)) ∧
    kind = .arrivalError) ∨
  (∃ t e k, c = .yieldFinalExpiry t ∧ s.dueEntry t = some (e, k) ∧ p = e.ask.target ∧ s.maxAttempts p ≤ e.attempts ∧
    kind = .yieldExpired ∧ info = BitVec.ofNat 40 t.val) ∨
  (∃ ch r k, c = .burstExpiry ch ∧ s.dueBurst ch = some (r, k, info) ∧ p = r.port ∧ kind = .responseExpired)

/-- The list of sources after a grant to `x` (R162). -/
def State.rotated (s : State) (x : Source) (l : List Source) : List Source :=
  match s.theMap.arbMode with
  | .fixed => l
  | .rotating => l.filter (· != x) ++ [x]

/-! ### The invariants -/

/-- The eight yield tags (R116). -/
def allTags : List TagId := [0, 1, 2, 3, 4, 5, 6, 7]

/-- Each of the eight tags is on the free-tag list or names one live entry, and none twice (R115, R116). -/
def YieldUnit.tagsShared (y : YieldUnit) : Prop := (y.live.map YieldEntry.tag ++ y.freeTags).Perm allTags

/-- A command whose completion will never be written: it has not ended and carries the discard mark (R61). -/
def CmdRec.lost (r : CmdRec) : Bool := r.notEnded && r.discard

/-- Nothing is presented or issued on the port and both its processes are STOPPED; its outstanding commands are those that
run on with the discard mark (R161, R62, R63, R109, R110). -/
def Port.quiet (P : Port) : Prop :=
  P.slots = .fill none ∧
  P.cmd.state = .stopped ∧ P.cmd.run = false ∧ P.cmd.load = none ∧ P.cmd.held = none ∧ P.cmd.deadline = none ∧
  P.cmd.outstanding.all CmdRec.lost = true ∧
  P.arr.state = .stopped ∧ P.arr.run = false ∧ P.arr.load = none ∧ P.arr.store = none ∧ P.arr.stopWaiting = false ∧
  P.arr.deadline = none

/-- A port that is DOWN or FENCED is quiet (R161). -/
def Port.quietUnlessActive (P : Port) : Prop := P.state ≠ .active → P.quiet

/-- No request stands on a port that is DOWN or FENCED (R161). -/
def State.quietPorts (s : State) : Prop := ∀ p, (s.port p).quietUnlessActive

/-- A Command Process's values are in their ranges: the ring as R43 and R44 give it, at most four commands outstanding, and
room for the command that a load in flight may bring (R43, R49). -/
def CmdProc.legal (c : CmdProc) : Prop :=
  4 ≤ c.size ∧ c.size ≤ 1024 ∧ c.next < c.size ∧ c.base.toNat % 32 = 0 ∧ c.outstanding.length ≤ 4 ∧
  ∀ l, c.load = some l → l.discard = false → c.outstanding.length < 4

/-- An Arrival Process's values are in their ranges (R99). -/
def ArrProc.legal (a : ArrProc) : Prop := 4 ≤ a.size ∧ a.size ≤ 1024 ∧ a.next < a.size ∧ a.base.toNat % 16 = 0

/-- Both processes of every port have their values in range. -/
def State.processesLegal (s : State) : Prop := ∀ p, (s.port p).cmd.legal ∧ (s.port p).arr.legal

/-- While the map is not READY there is no custody of any kind (R10). -/
def State.closed (s : State) : Prop :=
  s.map = none ∧ s.records = [] ∧ s.pools = [] ∧ s.destRes = [] ∧ s.yields.live = [] ∧ s.yields.waiting = [] ∧
  s.mover.reserved = [] ∧ s.mover.jobs = [] ∧ ∀ p, (s.port p).inbox = .reset

/-- In READY there is one record for each buffer of the map and one pool state for each of its pools (R13, R19, R30). -/
def State.fitsMap (s : State) : Prop :=
  ∃ m, s.map = some m ∧ s.records.length = totalBuffers m.pools ∧ s.pools.length = m.pools.length

/-- Custody agrees with the map state: closed until READY, and as large as the map from then on (R8, R10). -/
def State.mapAgrees (s : State) : Prop := (s.mapState = .ready → s.fitsMap) ∧ (s.mapState ≠ .ready → s.closed)

/-- The channels have nothing left to do: each idle one finds no WAITING job, and each copying one has its request (R134,
R135). -/
def State.moverAtRest (s : State) : Prop := s.chanStep 0 = none ∧ s.chanStep 1 = none

/-- The Custody Table is next to take from port `p` the command `op` of the entry `raw`, the common checks of steps 1 and 2
passing: the map is READY and the port ACTIVE (R64, R65). -/
def State.takes (s : State) (p : PortId) (op : CmdOp) (raw : List Byte) : Prop :=
  s.mapState = .ready ∧ s.active p = true ∧ entryOp raw = some op ∧
  ∃ r, (s.port p).cmd.nextHanded = some r ∧ r.raw = raw

/-- The handle of the entry names a buffer and is current: steps 3 and 4 of the common checks pass (R28, R29). -/
def State.handleCurrent (s : State) (raw : List Byte) : Prop :=
  s.handleOk (entryHandle raw) = true ∧ handleGen (entryHandle raw) = (s.record (entryBuf raw)).gen

end Sys2Proof.Machine
end

