-- ==== Sys2Proof/Certificates/Slice0/Obligations.lean ====
section
/-!
DEFINITION. The statements for the provers, in the order of spec/. Most say, for states and operands that meet stated
conditions, the whole next state a command leads to: what is not written in it is unchanged.
-/
open Sys2Proof Sys2Proof.Machine

/-! ## The queue -/

/-- A step takes the command at the front of the queue and runs it on the state with the queue's rest (the model's own
convention, log 1); on an empty queue a microsecond passes and nothing else happens (log 2). -/
def Obligations.StepRunsTheFrontCommand : Prop :=
  ∀ (s : State) (c : Instr) (rest : List Instr),
    step { s with pending := c :: rest } = exec c { s with pending := rest } ∧
    step { s with pending := [] } = .next { s with pending := [], now := s.now + 1 }

/-- Every command answers a next state in every state: nothing in the spec stops the part (it refuses commands and window
writes, and records faults, by results and registers). -/
def Obligations.EveryCommandAnswersANextState : Prop :=
  ∀ (c : Instr) (s : State), ∃ t, exec c s = .next t

/-! ## Reset and the map (chapter 1, R177) -/

/-- DEVICE_RESET (R177): every port to its reset values, the fixed values of R9 in effect, no custody, yields or jobs left, and
the map LOADING, with the sequential read of the ROM from offset 0 begun (R5). The Time Base, the model's counter and the queue stand
apart from it (logs 3 and 7). -/
def Obligations.DeviceResetResetsEveryPort : Prop :=
  ∀ s : State, ∃ t, exec .deviceReset s = .next t ∧
    (∀ p, (t.port p).state = .down ∧ (∀ k, (t.port p).slots.get k = none) ∧
      (t.port p).rotation = [.yield, .record, .move] ∧ (t.port p).recordTurn = .command ∧ (∀ x, t.presents p x = false) ∧
      (t.port p).events = 0 ∧ (t.port p).mask = 0 ∧ (t.port p).attnRelease = none ∧ (t.port p).attnAsserted = false ∧
      (t.port p).fault = { kind := .none, info := 0, source := .yield, count := 0, discards := 0 } ∧
      (t.port p).cmd =
        { state := .stopped, run := false, base := 0, size := 4, next := 0, load := none, held := none,
          deadline := none, outstanding := [] } ∧
      (t.port p).arr =
        { state := .stopped, run := false, base := 0, size := 4, next := 0, load := none, store := none,
          stopWaiting := false, deadline := none } ∧
      (t.port p).inbox = { urgent := [], routine := [], reservations := [] } ∧ t.windowRead p 0x30 = some 0 ∧
      t.cfg p =
        { present := false, caching := false, recovery := false, inboxLimit := 1, respLimit := 1000, retries := 0,
          cmdPoll := 0, arrPoll := 0 }) ∧
    t.fencedMask = 0 ∧ t.theMap.arbMode = .fixed ∧ t.theMap.landingWait = 1000 ∧
    t.mapState = .loading ∧ t.reason = .none ∧ t.spiRead = some { instruction := 0x03, address := 0x000000 } ∧ t.map = none ∧
    t.records = [] ∧ t.pools = [] ∧ t.destRes = [] ∧
    t.yields = { live := [], freeTags := [0, 1, 2, 3, 4, 5, 6, 7], waiting := [] } ∧
    t.mover =
      { reserved := [], jobs := [], presented := [],
        chan0 := { serving := none, data := [], req := none, deadline := none },
        chan1 := { serving := none, data := [], req := none, deadline := none } } ∧
    t.now = s.now ∧ t.freeCount = s.freeCount ∧ t.pending = s.pending

/-- The state after reset has every invariant stated below. -/
def Obligations.ResetMeetsTheInvariants : Prop :=
  State.reset.yields.tagsShared ∧ State.reset.quietPorts ∧ State.reset.processesLegal ∧ State.reset.mapAgrees ∧
  State.reset.moverAtRest

/-- MAP_LOAD_END while LOADING (R5, R6): the stages in their order, and the reason of the first that fails, or none. The read has ended after
16 bytes where the signature or the pool count is wrong and at the image's length else, so the bytes behind do not count; the line is idle.
The ROM's bytes are the command's operand; the bytes of a ROM beyond its last read as FFh (log 10). -/
def Obligations.MapLoadStagesInOrder : Prop :=
  ∀ (s : State) (rom : List Byte), s.mapState = .loading →
    let n := (romByte rom 5).toNat
    let l := 16 + 64 + 32 * n + 4
    let signed := rom32 rom 0 = 0x55A4C316
    let counted := 1 ≤ n ∧ n ≤ 16
    let checked := (crc32 ((List.range (l - 4)).map (romByte rom))).toNat = rom32 rom (l - 4)
    let good := contentOk rom = true
    (∀ other, (∀ k, k < 16 ∨ (signed ∧ counted ∧ k < l) → romByte other k = romByte rom k) →
      exec (.mapLoadEnd other) s = exec (.mapLoadEnd rom) s) ∧
    ∃ t, exec (.mapLoadEnd rom) s = .next t ∧ t.spiRead = none ∧
      (¬signed → t.mapState = .failed ∧ t.reason = .noImage) ∧
      (signed → ¬counted → t.mapState = .failed ∧ t.reason = .badContent) ∧
      (signed → counted → ¬checked → t.mapState = .failed ∧ t.reason = .badCheck) ∧
      (signed → counted → checked → ¬good → t.mapState = .failed ∧ t.reason = .badContent) ∧
      (signed → counted → checked → good → t.mapState = .ready ∧ t.reason = .none)

/-- MAP_LOAD_END by its outcome (R8, R9, R11, R42, R162). An image that passes every stage: the map in effect, a fresh FREE record for
each buffer, the free lists, MAP_DONE on each present port, and an auto-poll interval started for a process found SUSPENDED. One that fails a
stage: FAILED with the reason, MAP_DONE on all four ports, nothing else. With the map not LOADING no load ends (the model's choice, log 11). -/
def Obligations.MapLoadEndHandsOutTheMap : Prop :=
  (∀ (s : State) (rom : List Byte), s.mapState = .loading → loadReason rom = .none →
     let m := romMap rom
     let values := fun p => if (m.ports.get p).present then m.ports.get p else PortEntry.fixed
     ∃ t, exec (.mapLoadEnd rom) s = .next t ∧ t.mapState = .ready ∧ t.reason = .none ∧ t.map = some m ∧
       t.records = List.replicate ((m.pools.map PoolEntry.count).sum) { custody := .free, gen := 0, length := 0, tag := 0 } ∧
       t.pools = buildPools 0 m.pools ∧ (∀ p, t.cfg p = values p) ∧
       (∀ p, t.port p = { s.port p with
         rotation := [.yield, .record, .move]
         events := if (m.ports.get p).present then (s.port p).events ||| 0x200 else (s.port p).events
         cmd := if (s.port p).cmd.state = .suspended ∧ (values p).cmdPoll ≠ 0 then
           { (s.port p).cmd with deadline := some (s.now + (values p).cmdPoll) } else (s.port p).cmd
         arr := if (s.port p).arr.state = .suspended ∧ (values p).arrPoll ≠ 0 then
           { (s.port p).arr with deadline := some (s.now + (values p).arrPoll) } else (s.port p).arr }) ∧
       t.destRes = s.destRes ∧ t.yields = s.yields ∧ t.mover = s.mover ∧ t.now = s.now ∧ t.freeCount = s.freeCount ∧
       t.pending = s.pending) ∧
  (∀ (s : State) (rom : List Byte),
     (s.mapState = .loading → loadReason rom ≠ .none →
       exec (.mapLoadEnd rom) s = .next { s with
         mapState := .failed
         reason := loadReason rom
         ports := s.ports.mapIdx (fun _ P => { P with events := P.events ||| 0x200 }) }) ∧
     (s.mapState ≠ .loading → exec (.mapLoadEnd rom) s = .next s))

/-- Buffer ids run pool after pool without gaps (R13): the id that is `k` places behind the ids of the pools before pool `q` is
index `k` of pool `q`, at base address + k * size (R14); ids at or beyond the total are no buffer's (R28); and a map just accepted
has each pool's ids on its free list in ascending order (R42). -/
def Obligations.BufferIdsFollowThePools : Prop :=
  ∀ (s : State) (m : CustodyMap), s.map = some m → s.records.length = (m.pools.map PoolEntry.count).sum →
    (∀ q e k, m.pools[q]? = some e → k < e.count →
      let first := ((m.pools.take q).map PoolEntry.count).sum
      s.poolOf (first + k) = q ∧ s.bufAddr (first + k) = e.base + BitVec.ofNat 40 (k * 2 ^ e.sizeCode)) ∧
    (∀ w, (m.pools.map PoolEntry.count).sum ≤ handleId w → s.handleOk w = false) ∧
    (∀ q e, m.pools[q]? = some e → ∃ x, (buildPools 0 m.pools)[q]? = some x ∧ x.waiting = [] ∧ x.charge = .fill 0 ∧
      x.free = (List.range e.count).map (fun k => k + ((m.pools.take q).map PoolEntry.count).sum))

/-! ## The port window (chapters 3, 5, 8 and 9) -/

/-- ENABLE (R149, R150, R48, R101): a DOWN port becomes ACTIVE and an ACTIVE one is unchanged, where neither run field of the
write asks anything of its process: each equals the run value held, and the process is not HALTED with CMD_RUN 0. -/
def Obligations.EnableMakesADownPortActive : Prop :=
  ∀ (s : State) (p : PortId) (w : Word),
    ctlEnable w = true → ctlReset w = false → (s.port p).state ≠ .fenced →
    ctlCmdRun w = (s.port p).cmd.run → ctlArrRun w = (s.port p).arr.run →
    ¬((s.port p).cmd.state = .halted ∧ (s.port p).cmd.run = false) →
    exec (.enable p w) s = .next (s.modPort p (fun P => { P with state := .active }))

/-- A FENCED port refuses every CONTROL write without RESET, and every write of POLL, a ring register or FAULT: nothing changes but
its fault record, which takes WINDOW_REFUSED with the register's offset (R150, R152); a write of 24h is two register writes, refused
apart where each changes its register (R182). -/
def Obligations.FencedPortRefusesWrites : Prop :=
  ∀ (s : State) (p : PortId) (w : Word), (s.port p).state = .fenced →
    let refused := fun (offset : Addr) => Host.Outcome.next (φ := Fault) (ρ := Refusal)
      (s.modPort p (Port.recordFault .windowRefused offset))
    (ctlReset w = false → exec (.enable p w) s = refused 0x00 ∧ exec (.cmdStart p w) s = refused 0x00 ∧
      exec (.cmdStop p w) s = refused 0x00 ∧ exec (.arrStart p w) s = refused 0x00 ∧ exec (.arrStop p w) s = refused 0x00) ∧
    exec (.commandPollDemand p w) s = refused 0x10 ∧ exec (.arrivalPollDemand p w) s = refused 0x10 ∧
    exec (.cringRegisterWrite p .baseLo w) s = refused 0x14 ∧ exec (.cringRegisterWrite p .size w) s = refused 0x18 ∧
    exec (.aringRegisterWrite p .baseLo w) s = refused 0x1C ∧ exec (.aringRegisterWrite p .size w) s = refused 0x20 ∧
    (w.extractLsb' 0 8 ≠ (s.port p).cmd.base.extractLsb' 32 8 → w.extractLsb' 16 8 = (s.port p).arr.base.extractLsb' 32 8 →
      exec (.cringRegisterWrite p .baseHi w) s = refused 0x24) ∧
    (w.extractLsb' 0 8 = (s.port p).cmd.base.extractLsb' 32 8 → w.extractLsb' 16 8 ≠ (s.port p).arr.base.extractLsb' 32 8 →
      exec (.aringRegisterWrite p .baseHi w) s = refused 0x24) ∧
    exec (.faultWrite p w) s = refused 0x28

/-- CMD_START and CMD_STOP (R48, R49, R56, R59, R150, R163), the arrival run field of the write asking nothing. A start accepted on a
STOPPED process of an ACTIVE port, one the same write enables among them, sets CMD_RUN, makes the process RUNNING and presents a load of the
next entry where R49 allows; any other start is refused WINDOW_REFUSED. A stop makes a RUNNING or SUSPENDED process STOPPED, or STOPPING while
commands are outstanding; its deadline and held entry go, a presented load is withdrawn and an issued one left with its answer to be discarded.
A HALTED process becomes STOPPED, whatever CMD_RUN was. -/
def Obligations.CommandRunFieldStartsAndStops : Prop :=
  (∀ (s : State) (p : PortId) (w : Word),
     ctlCmdRun w = true → ctlReset w = false → (s.port p).state ≠ .fenced → (s.port p).cmd.run = false →
     ctlArrRun w = (s.port p).arr.run →
     ((s.port p).stateEnabled w = .active → (s.port p).cmd.state = .stopped → (s.port p).cmd.held = none →
       exec (.cmdStart p w) s = .next (s.modPort p (fun P => { P with
         state := .active
         cmd := { P.cmd with state := .running, run := true, load := P.cmd.nextLoad false } }))) ∧
     ((s.port p).stateEnabled w ≠ .active ∨ (s.port p).cmd.state ≠ .stopped →
       exec (.cmdStart p w) s = .next (s.modPort p (fun P =>
         Port.recordFault .windowRefused 0x00 { P with state := P.stateEnabled w })))) ∧
  (∀ (s : State) (p : PortId) (w : Word),
     ctlCmdRun w = false → ctlReset w = false → (s.port p).state ≠ .fenced → ctlArrRun w = (s.port p).arr.run →
     (((s.port p).cmd.state = .running ∨ (s.port p).cmd.state = .suspended) → (s.port p).cmd.run = true →
       exec (.cmdStop p w) s = .next (s.modPort p (fun P => { P with
         state := P.stateEnabled w
         cmd := { P.cmd with
           state := if P.cmd.outstanding = [] then .stopped else .stopping
           run := false
           deadline := none
           held := none
           load := match P.cmd.load with
             | some l => if l.slot = none then none else some { l with discard := true }
             | none => none } }))) ∧
     ((s.port p).cmd.state = .halted →
       exec (.cmdStop p w) s = .next (s.modPort p (fun P => { P with
         state := P.stateEnabled w
         cmd := { P.cmd with state := .stopped, run := false } }))))

/-- ARR_START and ARR_STOP (R101, R102, R106, R150, R163), the command run field of the write asking nothing. A start accepted on a STOPPED
process of an ACTIVE port sets ARR_RUN, makes the process RUNNING and presents a load where R102 allows; any other start is refused
WINDOW_REFUSED. A stop with no store in flight makes the process STOPPED, its deadline gone, a presented load withdrawn and an issued one left
with its answer to be discarded; with a store in flight a RUNNING process goes on with stop waiting set; a HALTED process becomes STOPPED. -/
def Obligations.ArrivalRunFieldStartsAndStops : Prop :=
  (∀ (s : State) (p : PortId) (w : Word),
     ctlArrRun w = true → ctlReset w = false → (s.port p).state ≠ .fenced → (s.port p).arr.run = false →
     ctlCmdRun w = (s.port p).cmd.run → ¬((s.port p).cmd.state = .halted ∧ (s.port p).cmd.run = false) →
     ((s.port p).stateEnabled w = .active → (s.port p).arr.state = .stopped → (s.port p).arr.stopWaiting = false →
       exec (.arrStart p w) s = .next (s.modPort p (fun P => { P with
         state := .active
         arr := { P.arr with state := .running, run := true, load := P.arr.nextLoad false P.inbox } }))) ∧
     ((s.port p).stateEnabled w ≠ .active ∨ (s.port p).arr.state ≠ .stopped →
       exec (.arrStart p w) s = .next (s.modPort p (fun P =>
         Port.recordFault .windowRefused 0x00 { P with state := P.stateEnabled w })))) ∧
  (∀ (s : State) (p : PortId) (w : Word),
     ctlArrRun w = false → ctlReset w = false → (s.port p).state ≠ .fenced → (s.port p).arr.run = true →
     ctlCmdRun w = (s.port p).cmd.run → ¬((s.port p).cmd.state = .halted ∧ (s.port p).cmd.run = false) →
     (((s.port p).arr.state = .running ∨ (s.port p).arr.state = .suspended) → (s.port p).arr.store = none →
       exec (.arrStop p w) s = .next (s.modPort p (fun P => { P with
         state := P.stateEnabled w
         arr := { P.arr with
           state := .stopped
           run := false
           deadline := none
           load := match P.arr.load with
             | some l => if l.slot = none then none else some { l with discard := true }
             | none => none } }))) ∧
     ((s.port p).arr.state = .running → (s.port p).arr.store ≠ none →
       exec (.arrStop p w) s = .next (s.modPort p (fun P => { P with
         state := P.stateEnabled w
         arr := { P.arr with run := false, stopWaiting := true } }))) ∧
     ((s.port p).arr.state = .halted →
       exec (.arrStop p w) s = .next (s.modPort p (fun P => { P with
         state := P.stateEnabled w
         arr := { P.arr with state := .stopped, run := false } }))))

/-- COMMAND_POLL_DEMAND and ARRIVAL_POLL_DEMAND are writes to POLL (R154): each demand that is set returns its process from
SUSPENDED to RUNNING, its deadline removed, with a load of the next entry where R49 or R102 allows (R53, R105); a demand of a process
in another state is ignored, without a fault; a write with both clear changes nothing; POLL reads 0; a FENCED port refuses the write. -/
def Obligations.PollDemandsWakeSuspendedProcesses : Prop :=
  ∀ (s : State) (p : PortId) (w : Word) (c : Instr),
    c = .commandPollDemand p w ∨ c = .arrivalPollDemand p w →
    s.windowRead p 0x10 = some 0 ∧
    ((s.port p).state = .fenced → exec c s = .next (s.modPort p (Port.recordFault .windowRefused 0x10))) ∧
    ((s.port p).state ≠ .fenced → exec c s = .next (s.modPort p (fun P => { P with
      cmd := if pollCmd w = true ∧ P.cmd.state = .suspended then
        { P.cmd with state := .running, deadline := none, load := P.cmd.nextLoad false } else P.cmd
      arr := if pollArr w = true ∧ P.arr.state = .suspended then
        { P.arr with state := .running, deadline := none, load := P.arr.nextLoad false P.inbox } else P.arr })))

/-- CRING_REGISTER_WRITE and ARING_REGISTER_WRITE (R44, R99, R182): accepted while the ring's process is STOPPED and the port not
FENCED, each stores its value (the low address bits as zero; a size only from 4 to 1024) and sets that ring's next index to 0; else the
register and index stay and WINDOW_REFUSED is recorded. A write of the place at 24h, whichever ring's row it is (log 25), is a write of each
high half that it changes, the command register first, and each is accepted or refused by its own register's rule, a refusal recording
WINDOW_REFUSED with 24h; a half written as it stands is no write. -/
def Obligations.RingRegisterWrites : Prop :=
  ∀ (s : State) (p : PortId) (w : Word),
    let refused := fun (offset : Addr) => Host.Outcome.next (φ := Fault) (ρ := Refusal)
      (s.modPort p (Port.recordFault .windowRefused offset))
    let cmdOpen := (s.port p).cmd.state = .stopped ∧ (s.port p).state ≠ .fenced
    let arrOpen := (s.port p).arr.state = .stopped ∧ (s.port p).state ≠ .fenced
    let size := (w.extractLsb' 0 11).toNat
    let cmdHi := w.extractLsb' 0 8
    let arrHi := w.extractLsb' 16 8
    (cmdOpen → exec (.cringRegisterWrite p .baseLo w) s = .next (s.modPort p (fun P => { P with cmd := { P.cmd with
      base := P.cmd.base.extractLsb' 32 8 ++ (w.extractLsb' 5 27 ++ 0#5), next := 0 } }))) ∧
    (¬cmdOpen → exec (.cringRegisterWrite p .baseLo w) s = refused 0x14) ∧
    (cmdOpen → 4 ≤ size → size ≤ 1024 → exec (.cringRegisterWrite p .size w) s = .next (s.modPort p (fun P =>
      { P with cmd := { P.cmd with size := size, next := 0 } }))) ∧
    (¬cmdOpen ∨ size < 4 ∨ 1024 < size → exec (.cringRegisterWrite p .size w) s = refused 0x18) ∧
    (cmdOpen → cmdHi ≠ (s.port p).cmd.base.extractLsb' 32 8 → arrHi = (s.port p).arr.base.extractLsb' 32 8 →
      exec (.cringRegisterWrite p .baseHi w) s = .next (s.modPort p (fun P => { P with cmd := { P.cmd with
        base := cmdHi ++ P.cmd.base.extractLsb' 0 32, next := 0 } }))) ∧
    (arrOpen → exec (.aringRegisterWrite p .baseLo w) s = .next (s.modPort p (fun P => { P with arr := { P.arr with
      base := P.arr.base.extractLsb' 32 8 ++ (w.extractLsb' 4 28 ++ 0#4), next := 0 } }))) ∧
    (¬arrOpen → exec (.aringRegisterWrite p .baseLo w) s = refused 0x1C) ∧
    (arrOpen → 4 ≤ size → size ≤ 1024 → exec (.aringRegisterWrite p .size w) s = .next (s.modPort p (fun P =>
      { P with arr := { P.arr with size := size, next := 0 } }))) ∧
    (¬arrOpen ∨ size < 4 ∨ 1024 < size → exec (.aringRegisterWrite p .size w) s = refused 0x20) ∧
    (arrOpen → cmdHi = (s.port p).cmd.base.extractLsb' 32 8 → arrHi ≠ (s.port p).arr.base.extractLsb' 32 8 →
      exec (.aringRegisterWrite p .baseHi w) s = .next (s.modPort p (fun P => { P with arr := { P.arr with
        base := arrHi ++ P.arr.base.extractLsb' 0 32, next := 0 } }))) ∧
    (∀ c, c = .cringRegisterWrite p .baseHi w ∨ c = .aringRegisterWrite p .baseHi w →
      let cmdSame := cmdHi = (s.port p).cmd.base.extractLsb' 32 8
      let arrSame := arrHi = (s.port p).arr.base.extractLsb' 32 8
      let cmdHalf := fun (P : Port) => if cmdOpen then { P with cmd := { P.cmd with
        base := cmdHi ++ P.cmd.base.extractLsb' 0 32, next := 0 } } else P.recordFault .windowRefused 0x24
      let arrHalf := fun (P : Port) => if arrOpen then { P with arr := { P.arr with
        base := arrHi ++ P.arr.base.extractLsb' 0 32, next := 0 } } else P.recordFault .windowRefused 0x24
      (cmdSame → arrSame → exec c s = .next s) ∧
      (¬cmdSame → arrSame → exec c s = .next (s.modPort p cmdHalf)) ∧
      (cmdSame → ¬arrSame → exec c s = .next (s.modPort p arrHalf)) ∧
      (¬cmdSame → ¬arrSame → exec c s = .next (s.modPort p (fun P => arrHalf (cmdHalf P)))))

/-- EVENTS_WRITE, MASK_WRITE and ATTN_RELEASE_END (R155, R157, R158): a write of EVENTS clears each flag written as one, a write of
MASK replaces the enables; either, if it takes away a flag both set and enabled and leaves another, releases ATTN for 1 microsecond, and
ends a release if it leaves none. At the end of the release the line is asserted exactly if a flag is then set and enabled. -/
def Obligations.EventsMaskAndTheAttentionLine : Prop :=
  ∀ (s : State) (p : PortId) (w : Word),
    let P := s.port p
    let release := fun (after : BitVec 10) =>
      if after = 0 then none
      else if P.events &&& P.mask &&& ~~~after ≠ 0 then some (s.now + 1)
      else P.attnRelease
    let cleared := P.events &&& ~~~(w.extractLsb' 0 10)
    let enables := w.extractLsb' 0 10
    exec (.eventsWrite p w) s = .next (s.modPort p (fun P => { P with
      events := cleared, attnRelease := release (cleared &&& P.mask) })) ∧
    exec (.maskWrite p w) s = .next (s.modPort p (fun P => { P with
      mask := enables, attnRelease := release (P.events &&& enables) })) ∧
    (∀ at_, P.attnRelease = some at_ → P.attnAsserted = false ∧
      (at_ ≤ s.now → ∃ t, exec (.attnReleaseEnd p) s = .next t ∧
        t = s.modPort p (fun P => { P with attnRelease := none }) ∧
        (t.port p).attnAsserted = (P.events &&& P.mask != 0)))

/-- FAULT_WRITE (R167): the record cleared whatever is written, on a DOWN or ACTIVE port; on a FENCED port the record stays and
itself takes the WINDOW_REFUSED. -/
def Obligations.FaultWriteClearsTheRecord : Prop :=
  ∀ (s : State) (p : PortId) (w : Word),
    ((s.port p).state ≠ .fenced → ∃ t, exec (.faultWrite p w) s = .next t ∧
      t = s.modPort p (fun P => { P with fault := (t.port p).fault }) ∧
      (t.port p).fault.kind = .none ∧ (t.port p).fault.info = 0 ∧ (t.port p).fault.count = 0 ∧ (t.port p).fault.discards = 0) ∧
    ((s.port p).state = .fenced → (s.port p).fault.kind ≠ .none → ∃ t, exec (.faultWrite p w) s = .next t ∧
      t = s.modPort p (fun P => { P with fault := { P.fault with count := satInc P.fault.count } })) ∧
    ((s.port p).state = .fenced → (s.port p).fault.kind = .none → ∃ t, exec (.faultWrite p w) s = .next t ∧
      t = s.modPort p (fun P => { P with fault :=
        { P.fault with kind := .windowRefused, info := 0x28, source := .yield, count := satInc P.fault.count } }))

/-- BAD_WINDOW (R151): an access of another size than 32 bits or at no multiple of 4, at one of the three undefined places, or a write
to STATUS, FAULT_INFO or INBOX, changes nothing but the fault record, which takes BAD_WINDOW with the access's offset (R166; for a misaligned
access the offset of the place it falls in, log 17). -/
def Obligations.BadAccessOnlyRecordsAFault : Prop :=
  ∀ (s : State) (p : PortId) (a : WindowAccess),
    (a.bits ≠ 32 ∨ a.offset.toNat % 4 ≠ 0 ∨ a.offset = 0x34 ∨ a.offset = 0x38 ∨ a.offset = 0x3C ∨
      (a.write ≠ none ∧ (a.offset = 0x04 ∨ a.offset = 0x2C ∨ a.offset = 0x30))) →
    exec (.badWindow p a) s = .next (s.modPort p (Port.recordFault .badWindow (BitVec.ofNat 40 (4 * (a.offset.toNat / 4)))))

/-- Recording a fault (R165): a clear record takes its kind and info, any other keeps its own; the count rises by one up to 255. -/
def Obligations.RecordingAFaultKeepsTheFirst : Prop :=
  ∀ (P : Port) (k : FaultKind) (info : Addr),
    let F := (P.recordFault k info).fault
    (P.fault.kind = .none → F.kind = k ∧ F.info = info) ∧
    (P.fault.kind ≠ .none → F.kind = P.fault.kind ∧ F.info = P.fault.info) ∧
    F.count.toNat = min 255 (P.fault.count.toNat + 1) ∧ F.discards = P.fault.discards ∧
    P.recordFault k info = { P with fault := F }

/-! ## Port resets and fences (chapters 2, 3, 5, 6, 7 and 9) -/

/-- LINK_LOSS and CONTROL_RESET (R174, R175, R62, R110), in every state: the port is DOWN with every slot FREE and its arbiter as after
reset; MASK, a running release of ATTN, the first fault, its count and the ring registers are kept; both processes are STOPPED at index
0 with nothing in flight, and the commands still outstanding all run on with the discard mark. EVENTS keeps MAP_DONE alone. In the inbox no
item is being delivered, and the items but for LEASE items keep their places (R110). Where no record concerns the port and no yield or burst is
on it, all of its inbox is kept; where it reads one buffer, that lease's standing reservation goes and the port is no longer a reader (R40); and
a LEASE item under way that a RECALL waits on goes with its standing reservation (R86). -/
def Obligations.PortResetLeavesThePortDown : Prop :=
  ∀ (s : State) (p : PortId) (w : Word) (c : Instr), c = .linkLoss p ∨ (c = .controlReset p w ∧ ctlReset w = true) →
    ∃ t, exec c s = .next t ∧
      let P := s.port p
      let R := t.port p
      let kept := P.inbox.clearDelivering
      let idle := s.yields.asksFor p = [] ∧ (∀ x, s.mover.reqOn p x = none) ∧ s.moverAtRest
      R.events = P.events &&& 0x200 ∧
      (∀ i ∈ R.inbox.urgent ++ R.inbox.routine, i.delivering = false) ∧
      kept.urgent.filter Item.notLease <+: R.inbox.urgent.filter Item.notLease ∧
      kept.routine.filter Item.notLease <+: R.inbox.routine.filter Item.notLease ∧
      (idle → (∀ x, (s.record x).apartFrom p) → P.inbox.delivering = none → R.inbox = kept) ∧
      (∀ b o, idle → (∀ x, x ≠ b → (s.record x).apartFrom p) → P.inbox.delivering = none →
        (s.record b).custody = .owned o → o.holder ≠ p → o.hasReader p = true → (∀ x, o.op ≠ .recallViews x) →
        R.inbox = kept.release .standing b ∧
        ∃ u, (t.record b).custody = .owned u ∧ u.readers = o.readers.filter (fun r => r.port != p) ∧ u.holder = o.holder) ∧
      (∀ b h x lane it, idle → (∀ x, (s.record x).apartFrom p) → P.inbox.delivering = some (lane, it) → it.kind = .lease → it.buf = b →
        (s.record b).custody = .owned { holder := h, readers := [], leases := [p], op := .recallViews x, orphan := false } →
        R.inbox = { kept with
          urgent := kept.urgent.filter (fun i => !i.isLeaseOf b)
          routine := kept.routine.filter (fun i => !i.isLeaseOf b)
          reservations := (kept.release .standing b).reservations } ∧
        (t.record b).custody = .heldPlain h) ∧
      R.state = .down ∧ R.slots = .fill none ∧ R.rotation = [.yield, .record, .move] ∧ R.recordTurn = .command ∧
      R.mask = P.mask ∧ R.attnRelease = P.attnRelease ∧
      R.fault.kind = P.fault.kind ∧ R.fault.info = P.fault.info ∧ R.fault.source = P.fault.source ∧ R.fault.count = P.fault.count ∧
      R.cmd.state = .stopped ∧ R.cmd.run = false ∧ R.cmd.base = P.cmd.base ∧ R.cmd.size = P.cmd.size ∧ R.cmd.next = 0 ∧
      R.cmd.load = none ∧ R.cmd.held = none ∧ R.cmd.deadline = none ∧ R.cmd.outstanding.all CmdRec.lost = true ∧
      R.arr.state = .stopped ∧ R.arr.run = false ∧ R.arr.base = P.arr.base ∧ R.arr.size = P.arr.size ∧ R.arr.next = 0 ∧
      R.arr.load = none ∧ R.arr.store = none ∧ R.arr.stopWaiting = false ∧ R.arr.deadline = none

/-- LINK_LOSS and CONTROL_RESET at a port that holds one buffer and has nothing else under way (R38, R175, R176): the buffer enters
its pool's free list with the next generation and the port's charge falls by one; every flag but MAP_DONE is cleared; every other port,
record, pool and block is as it was. (The counter of sweeps is the model's own, log 7.) -/
def Obligations.PortResetFreesAHeldBuffer : Prop :=
  ∀ (s : State) (p : PortId) (w : Word) (c : Instr) (b : BufId) (r : Record),
    c = .linkLoss p ∨ (c = .controlReset p w ∧ ctlReset w = true) →
    s.records[b]? = some r → r.custody = .heldPlain p →
    (∀ x, x ≠ b → (s.record x).apartFrom p) → (s.pool (s.poolOf b)).waiting = [] →
    (s.port p).cmd.outstanding = [] → (∀ i ∈ (s.port p).inbox.urgent ++ (s.port p).inbox.routine, i.delivering = false) →
    s.yields.live = [] → s.yields.waiting = [] → (∀ x, s.mover.reqOn p x = none) → s.moverAtRest →
    exec c s = .next
      { (((s.modPort p (fun P => { P with
          state := .down
          slots := .fill none
          rotation := [.yield, .record, .move]
          recordTurn := .command
          events := P.events &&& 0x200
          cmd := { P.cmd with state := .stopped, run := false, next := 0, load := none, held := none, deadline := none }
          arr := { P.arr with
            state := .stopped, run := false, next := 0, load := none, store := none, stopWaiting := false, deadline := none } })).modRecord
        b (fun r => { r with custody := .free, gen := r.gen + 1, length := 0, tag := 0 })).modPool (s.poolOf b) (fun q =>
          { q with free := q.free ++ [b], charge := q.charge.set p (q.charge.get p - 1) })) with
        freeCount := s.freeCount + 1 }

/-- The four final expiries fence a port (R60, R108, R123, R142, R156, R169, R170), in every state: the expired request's fault is
recorded on it; it is FENCED with every slot FREE, FENCED_SELF raised, and FENCE_NOTICE raised on each port with the recovery right;
both processes are STOPPED with nothing in flight, their ring registers and next indices kept; and the commands still outstanding all
run on with the discard mark. (That the expiry of a ring request of a process already HALTED or STOPPED raises CMD_HALTED is log 15.) -/
def Obligations.FinalExpiryFencesThePort : Prop :=
  ∀ (s : State) (p : PortId) (c : Instr) (kind : FaultKind) (info : Addr),
    s.expiresOn c p kind info →
    ∃ t, exec c s = .next t ∧
      let P := s.port p
      let R := t.port p
      let F := P.fault.record kind info .yield
      R.state = .fenced ∧ R.slots = .fill none ∧ R.mask = P.mask ∧ R.attnRelease = P.attnRelease ∧
      R.events &&& Event.fencedSelf.bit ≠ 0 ∧
      (kind = .fetchError ∨ kind = .writebackError → R.events &&& Event.cmdHalted.bit ≠ 0) ∧
      (kind = .arrivalError → R.events &&& Event.arrHalted.bit ≠ 0) ∧
      (∀ q, (s.cfg q).recovery = true → (t.port q).events &&& Event.fenceNotice.bit ≠ 0) ∧
      R.fault.kind = F.kind ∧ R.fault.info = F.info ∧ R.fault.source = F.source ∧ R.fault.count = F.count ∧
      R.cmd.state = .stopped ∧ R.cmd.run = false ∧ R.cmd.base = P.cmd.base ∧ R.cmd.size = P.cmd.size ∧
      R.cmd.next = P.cmd.next ∧ R.cmd.load = none ∧ R.cmd.held = none ∧ R.cmd.deadline = none ∧ R.cmd.outstanding.all CmdRec.lost = true ∧
      R.arr.state = .stopped ∧ R.arr.run = false ∧ R.arr.base = P.arr.base ∧ R.arr.size = P.arr.size ∧ R.arr.next = P.arr.next ∧
      R.arr.load = none ∧ R.arr.store = none ∧ R.arr.stopWaiting = false ∧ R.arr.deadline = none

/-! ## The initiator side (chapter 8) -/

/-- ARBITER_GRANT (R161, R162): nothing is granted on a port that is not ACTIVE, into a slot that is not FREE, or with nothing
presented. In FIXED mode the order is YIELD, RECORD, MOVE; in ROTATING mode the port's list; the grant goes to the first source of the
order that presents, and in ROTATING mode that source moves to the end of the list. (The slot is the command's operand, log 6.) -/
def Obligations.ArbiterTakesTheFirstSource : Prop :=
  ∀ (s : State) (p : PortId) (k : SlotId),
    ((s.port p).state ≠ .active ∨ (s.port p).slots.get k ≠ none ∨ (∀ x, s.presents p x = false) →
      s.granted p k = none ∧ exec (.arbiterGrant p k) s = .next s) ∧
    ((s.port p).state = .active → (s.port p).slots.get k = none →
      (s.theMap.arbMode = .fixed → s.granted p k =
        if s.presents p .yield then some .yield else if s.presents p .record then some .record
        else if s.presents p .move then some .move else none) ∧
      (s.theMap.arbMode = .rotating → ∀ x, s.granted p k = some x ↔ ∃ before after,
        (s.port p).rotation = before ++ x :: after ∧ s.presents p x = true ∧ ∀ y ∈ before, s.presents p y = false) ∧
      (∀ x, s.granted p k = some x → ∃ t, exec (.arbiterGrant p k) s = .next t ∧
        (t.port p).rotation = s.rotated x (s.port p).rotation))

/-- ARBITER_GRANT of a yield (R112, R118, R159): the oldest PRESENTED entry of the port becomes ISSUED, attempt 1, and its request, with
the buffer's address and size and the entry's tag, stands in the slot with a deadline of the port's response limit. -/
def Obligations.GrantedYieldIsIssued : Prop :=
  ∀ (s : State) (p : PortId) (k : SlotId) (e : YieldEntry),
    s.granted p k = some .yield → s.yields.live.find? (fun x => x.ask.target == p && x.phase == .presented) = some e →
    exec (.arbiterGrant p k) s = .next ((s.modPort p (fun P => { P with
      slots := P.slots.set k (some
        { req := .yield e.tag e.ask.kind (s.bufAddr e.ask.buf) (2 ^ (s.entryOf e.ask.buf).sizeCode)
          deadline := s.now + (s.cfg p).respLimit })
      rotation := s.rotated .yield P.rotation })).modYields (fun y => { y with
        live := y.live.map (fun x => if x.tag = e.tag then { x with phase := .issued k, attempts := 1 } else x) }))

/-- ARBITER_GRANT of a RECORD request (R44, R46, R49, R55, R99, R103, R163): the Command Process's oldest presented completion store, else
its presented load; or the Arrival Process's load or record store. The request stands in the slot with a deadline of the response limit,
and the other process goes first the next time both have a request: RECORD presents the request of the one whose turn it is where both have
one ready, and of the one that has else. (A completion store goes to the address its entry was loaded from, log 19.) -/
def Obligations.GrantedRecordIsIssued : Prop :=
  (∀ P : Port,
    let cmdReady := P.cmd.outstanding.any (fun r => r.phase == .presented) || P.cmd.load.any (fun l => l.slot == none)
    let arrReady := P.arr.load.any (fun l => l.slot == none) || P.arr.store.any (fun x => x.slot == none)
    P.recordSide = if cmdReady && arrReady then some P.recordTurn else if cmdReady then some .command
      else if arrReady then some .arrival else none) ∧
  ∀ (s : State) (p : PortId) (k : SlotId), s.granted p k = some .record →
    let P := s.port p
    let issued := fun (req : LinkReq) => some { req := req, deadline := s.now + (s.cfg p).respLimit : SlotReq }
    (P.recordSide = some .command → ∀ before r after res,
      P.cmd.outstanding = before ++ r :: after → (∀ x ∈ before, x.phase ≠ .presented) → r.phase = .presented → r.result = some res →
      exec (.arbiterGrant p k) s = .next (s.modPort p (fun P => { P with
        slots := P.slots.set k (issued (.completionStore r.addr (completionBytes r.raw res)))
        cmd := { P.cmd with outstanding := before ++ { r with phase := .issued k } :: after }
        recordTurn := .arrival
        rotation := s.rotated .record P.rotation }))) ∧
    (P.recordSide = some .command → ∀ l, (∀ x ∈ P.cmd.outstanding, x.phase ≠ .presented) → P.cmd.load = some l → l.slot = none →
      exec (.arbiterGrant p k) s = .next (s.modPort p (fun P => { P with
        slots := P.slots.set k (issued (.ringLoad (P.cmd.base + BitVec.ofNat 40 (32 * l.index))))
        cmd := { P.cmd with load := some { l with slot := some k } }
        recordTurn := .arrival
        rotation := s.rotated .record P.rotation }))) ∧
    (P.recordSide = some .arrival → ∀ l, P.arr.load = some l → l.slot = none →
      exec (.arbiterGrant p k) s = .next (s.modPort p (fun P => { P with
        slots := P.slots.set k (issued (.arrivalLoad (P.arr.base + BitVec.ofNat 40 (16 * l.index))))
        arr := { P.arr with load := some { l with slot := some k } }
        recordTurn := .command
        rotation := s.rotated .record P.rotation }))) ∧
    (P.recordSide = some .arrival → ∀ x lane it, P.arr.load = none → P.arr.store = some x → x.slot = none →
      P.inbox.delivering = some (lane, it) →
      exec (.arbiterGrant p k) s = .next (s.modPort p (fun P => { P with
        slots := P.slots.set k (issued (.arrivalStore (P.arr.base + BitVec.ofNat 40 (16 * x.index)) (arrivalBytes lane it)))
        arr := { P.arr with store := some { x with slot := some k } }
        recordTurn := .command
        rotation := s.rotated .record P.rotation })))

/-- ARBITER_GRANT of a burst (R138, R139): the first-presented request of a channel through the port is issued. A read is of the next
up to 256 bytes of the source buffer at the job's progress, a write of the bytes in the burst store to the landing buffer at the same
offset. -/
def Obligations.GrantedBurstIsIssued : Prop :=
  ∀ (s : State) (p : PortId) (k : SlotId) (c : ChanId) (r : BurstReq) (j : Job) (l : BufId),
    s.granted p k = some .move → s.mover.presented.find? (fun x => (s.mover.reqOn p x).isSome) = some c →
    (s.mover.chan c).req = some r → s.mover.jobOf c = some j → j.landing = some l →
    exec (.arbiterGrant p k) s = .next ((s.modPort p (fun P => { P with
      slots := P.slots.set k (some
        { req := if r.write then .burstWrite c (s.bufAddr l + BitVec.ofNat 40 j.progress) (s.mover.chan c).data
            else .burstRead c (s.bufAddr j.source + BitVec.ofNat 40 j.progress) (min 256 (j.length - j.progress))
          deadline := s.now + (s.cfg p).respLimit })
      rotation := s.rotated .move P.rotation })).modMover (fun m => { m.modChan c (fun x => { x with req := some { r with slot := some k } }) with
        presented := m.presented.filter (· != c) }))

/-- A response that matches nothing (R119, R121, R160): a data response whose slot number is no slot's, or names a slot that holds no
request awaiting data, and a yield response whose tag is not that of an ISSUED entry with this target, change nothing but the port's fault
record, which takes UNSOLICITED with the number received and its source. -/
def Obligations.UnsolicitedResponsesAreRecorded : Prop :=
  ∀ (s : State) (p : PortId) (n : Word) (code : AnswerCode),
    ((∀ k : SlotId, k.val = n.toNat → (s.port p).dataReq k = none) →
      exec (.unsolicitedDataResponse p n) s = .next (s.modPort p (fun P => { P with
        fault := P.fault.record .unsolicited (n.zeroExtend 40) .data }))) ∧
    ((∀ e ∈ s.yields.live, ∀ k, e.tag.val = n.toNat → e.ask.target = p → e.phase ≠ .issued k) →
      exec (.yieldResponse p n code) s = .next (s.modPort p (fun P => { P with
        fault := P.fault.record .unsolicited (n.zeroExtend 40) .yield })))

/-! ## The command ring (chapter 3) -/

/-- CMD_LOAD_RESPONSE with an entry of owner PART that may be taken (R47, R50, R54): the slot is freed; the command joins the outstanding
ones with the entry's index, address and bytes, handed to the Custody Table; the next index advances modulo the ring size; a further load
follows where R49 allows. An unknown code ends at once BAD_COMMAND, its completion store presented and BAD_ENTRY recorded with its sequence. -/
def Obligations.LoadedCommandIsTaken : Prop :=
  ∀ (s : State) (p : PortId) (k : SlotId) (raw : List Byte) (a : Addr) (l : RingLoad),
    (s.port p).dataReq k = some (.ringLoad a) → (s.port p).cmd.load = some l → l.discard = false →
    (s.port p).cmd.state = .running → (s.port p).cmd.held = none → byteAt raw 0 = 0x01 →
    ((byteAt raw 1).getLsbD 0 = false ∨ (s.port p).cmd.outstanding = []) →
    let taken := fun (phase : CmdPhase) (result : Option Result) (c : CmdProc) =>
      { c with
        load := none
        next := (c.next + 1) % c.size
        outstanding := c.outstanding ++ [{ index := c.next, addr := c.base + BitVec.ofNat 40 (32 * c.next), raw := raw,
                                           phase := phase, result := result, discard := false : CmdRec }] }
    ((entryOp raw).isSome = true →
      exec (.cmdLoadResponse p k raw) s = .next (s.modPort p (fun P => { P with
        slots := P.slots.set k none
        cmd := { taken .handed none P.cmd with load := (taken .handed none P.cmd).nextLoad false } }))) ∧
    (entryOp raw = none →
      exec (.cmdLoadResponse p k raw) s = .next (s.modPort p (fun P => { P with
        slots := P.slots.set k none
        fault := P.fault.record .badEntry ((entrySeq raw).zeroExtend 40) .yield
        cmd := { taken .presented (some (Result.bare .badCommand)) P.cmd with
                 load := (taken .presented (some (Result.bare .badCommand)) P.cmd).nextLoad false } })))

/-- CMD_LOAD_RESPONSE otherwise (R47, R51, R52, R56): an entry of owner PART with its wait flag set while commands are outstanding is held;
one of owner AGENT suspends the process, with the auto-poll deadline if the interval is not 0, and CMD_SUSPENDED raised unless an auto-poll
brought the load; an answer to be discarded frees the slot and changes nothing in a process that is STOPPED or HALTED. -/
def Obligations.LoadedEntryIsHeldOrSuspends : Prop :=
  ∀ (s : State) (p : PortId) (k : SlotId) (raw : List Byte) (a : Addr) (l : RingLoad),
    (s.port p).dataReq k = some (.ringLoad a) → (s.port p).cmd.load = some l →
    (l.discard = false → byteAt raw 0 = 0x01 → (byteAt raw 1).getLsbD 0 = true → (s.port p).cmd.outstanding ≠ [] →
      exec (.cmdLoadResponse p k raw) s = .next (s.modPort p (fun P => { P with
        slots := P.slots.set k none
        cmd := { P.cmd with load := none, held := some { index := P.cmd.next, raw := raw } } }))) ∧
    (l.discard = false → byteAt raw 0 ≠ 0x01 →
      exec (.cmdLoadResponse p k raw) s = .next (s.modPort p (fun P => { P with
        slots := P.slots.set k none
        events := if l.auto then P.events else P.events ||| Event.cmdSuspended.bit
        cmd := { P.cmd with
                 state := .suspended
                 load := none
                 deadline := if (s.cfg p).cmdPoll = 0 then none else some (s.now + (s.cfg p).cmdPoll) } }))) ∧
    (l.discard = true → (s.port p).cmd.state = .stopped ∨ (s.port p).cmd.state = .halted →
      exec (.cmdLoadResponse p k raw) s = .next (s.modPort p (fun P => { P with
        slots := P.slots.set k none
        cmd := { P.cmd with load := none } })))

/-- RING_LOAD_ERROR (R57, R59): FETCH_ERROR with the entry's address, CMD_HALTED raised, and the process HALTED at the same index, its
commands that have not ended taking the discard mark; a load whose answer was to be discarded leaves a process already STOPPED as it is.
(A process started again since and stopped to STOPPING is HALTED too, log 31.) -/
def Obligations.RingLoadErrorHaltsTheProcess : Prop :=
  ∀ (s : State) (p : PortId) (k : SlotId) (a : Addr) (l : RingLoad),
    (s.port p).dataReq k = some (.ringLoad a) → (s.port p).cmd.load = some l →
    (l.discard = false ∨ ((s.port p).cmd.state ≠ .stopped ∧ (s.port p).cmd.state ≠ .running) →
      exec (.ringLoadError p k) s = .next (s.modPort p (fun P => { P with
        slots := P.slots.set k none
        fault := P.fault.record .fetchError a .yield
        events := P.events ||| Event.cmdHalted.bit
        cmd := { P.cmd with
                 state := .halted
                 load := none
                 held := none
                 deadline := none
                 outstanding := P.cmd.outstanding.map (fun r => if r.notEnded then { r with discard := true } else r) } }))) ∧
    (l.discard = true → (s.port p).cmd.state = .stopped →
      exec (.ringLoadError p k) s = .next (s.modPort p (fun P => { P with
        slots := P.slots.set k none
        fault := P.fault.record .fetchError a .yield
        events := P.events ||| Event.cmdHalted.bit
        cmd := { P.cmd with load := none } })))

/-- COMPLETION_STORE_ACK (R49, R51, R55, R56): the slot is freed, the command's record removed and COMPLETION raised. A RUNNING process
then takes its held entry if nothing is outstanding, or else loads where R49 allows; a STOPPING one with nothing outstanding is STOPPED; any
other stays as it is. -/
def Obligations.AcknowledgedCompletionEndsTheCommand : Prop :=
  ∀ (s : State) (p : PortId) (k : SlotId) (a : Addr) (bytes : List Byte) (before after : List CmdRec) (r : CmdRec),
    (s.port p).dataReq k = some (.completionStore a bytes) → (s.port p).cmd.outstanding = before ++ r :: after →
    (∀ x ∈ before, x.phase ≠ .issued k) → r.phase = .issued k →
    let ended := fun (P : Port) => { P with
      slots := P.slots.set k none
      events := P.events ||| Event.completion.bit
      cmd := { P.cmd with outstanding := before ++ after } }
    ((s.port p).cmd.state ≠ .running → exec (.completionStoreAck p k) s = .next (s.modPort p (fun P => { ended P with
      cmd := { (ended P).cmd with state := if P.cmd.state = .stopping ∧ before ++ after = [] then .stopped else P.cmd.state } }))) ∧
    ((s.port p).cmd.state = .running → (s.port p).cmd.held = none →
      exec (.completionStoreAck p k) s = .next (s.modPort p (fun P => { ended P with
        cmd := { (ended P).cmd with load := (ended P).cmd.nextLoad false } }))) ∧
    (∀ h, (s.port p).cmd.state = .running → (s.port p).cmd.held = some h → before ++ after ≠ [] →
      exec (.completionStoreAck p k) s = .next (s.modPort p ended)) ∧
    (∀ h, (s.port p).cmd.state = .running → (s.port p).cmd.held = some h → before ++ after = [] → (entryOp h.raw).isSome = true →
      exec (.completionStoreAck p k) s = .next (s.modPort p (fun P => { ended P with
        cmd := (fun (c : CmdProc) => { c with load := c.nextLoad false }) { P.cmd with
          held := none
          next := (P.cmd.next + 1) % P.cmd.size
          outstanding := [{ index := P.cmd.next, addr := P.cmd.base + BitVec.ofNat 40 (32 * P.cmd.next), raw := h.raw,
                            phase := .handed, result := none, discard := false }] } })))

/-- COMPLETION_STORE_ERROR (R58, R59): the completion is lost: the record is removed, WRITEBACK_ERROR recorded with its sequence, no
COMPLETION raised. A RUNNING, SUSPENDED or STOPPING process becomes HALTED with CMD_HALTED raised, its commands not ended taking the discard
mark, a presented load withdrawn and an issued one left to be discarded; a HALTED or STOPPED one stays as it is. -/
def Obligations.LostCompletionHaltsTheProcess : Prop :=
  ∀ (s : State) (p : PortId) (k : SlotId) (a : Addr) (bytes : List Byte) (before after : List CmdRec) (r : CmdRec),
    (s.port p).dataReq k = some (.completionStore a bytes) → (s.port p).cmd.outstanding = before ++ r :: after →
    (∀ x ∈ before, x.phase ≠ .issued k) → r.phase = .issued k →
    ((s.port p).cmd.state = .halted ∨ (s.port p).cmd.state = .stopped →
      exec (.completionStoreError p k) s = .next (s.modPort p (fun P => { P with
        slots := P.slots.set k none
        fault := P.fault.record .writebackError ((entrySeq r.raw).zeroExtend 40) .yield
        cmd := { P.cmd with outstanding := before ++ after } }))) ∧
    ((s.port p).cmd.state = .running ∨ (s.port p).cmd.state = .suspended ∨ (s.port p).cmd.state = .stopping →
      exec (.completionStoreError p k) s = .next (s.modPort p (fun P => { P with
        slots := P.slots.set k none
        fault := P.fault.record .writebackError ((entrySeq r.raw).zeroExtend 40) .yield
        events := P.events ||| Event.cmdHalted.bit
        cmd := { P.cmd with
                 state := .halted
                 held := none
                 deadline := none
                 load := P.cmd.load.bind RingLoad.abandon
                 outstanding := (before ++ after).map (fun r => if r.notEnded then { r with discard := true } else r) } })))

/-- COMMAND_AUTO_POLL_EXPIRY and ARRIVAL_AUTO_POLL_EXPIRY (R53, R105): the deadline of a SUSPENDED process, once passed, is removed, the
process is RUNNING again and presents the load of its next entry where R49 or R102 allows, marked as brought by an auto-poll. Before its
deadline no expiry is (log 4). -/
def Obligations.AutoPollExpiryWakesTheProcess : Prop :=
  ∀ (s : State) (p : PortId) (d : Nat),
    ((s.port p).cmd.state = .suspended → (s.port p).cmd.deadline = some d →
      exec (.commandAutoPollExpiry p) s = .next (if d ≤ s.now then s.modPort p (fun P => { P with
        cmd := { P.cmd with state := .running, deadline := none, load := P.cmd.nextLoad true } }) else s)) ∧
    ((s.port p).arr.state = .suspended → (s.port p).arr.deadline = some d →
      exec (.arrivalAutoPollExpiry p) s = .next (if d ≤ s.now then s.modPort p (fun P => { P with
        arr := { P.arr with state := .running, deadline := none, load := P.arr.nextLoad true P.inbox } }) else s))

/-- When the Custody Table ends a command (R55, R61), one it is taking or one that waited: the record takes the result and its completion store
is presented, behind those of commands that ended before. With the discard mark it is removed instead and counted: a STOPPING process with
nothing outstanding left is then STOPPED, a RUNNING one takes its held entry (R51) or loads where R49 allows, and any other stays as it is. -/
def Obligations.EndedCommandPresentsItsStore : Prop :=
  (∀ (s : State) (p : PortId) (res : Result), s.endTaken p res = s.modPort p (Port.endCommand (fun c => c.phase == .handed) res)) ∧
  ∀ (P : Port) (ends : CmdRec → Bool) (res : Result) (before after : List CmdRec) (r : CmdRec),
    P.cmd.outstanding = before ++ r :: after → (∀ x ∈ before, ends x = false) → ends r = true →
    let dropped : Port := { P with
      fault := { P.fault with discards := satInc P.fault.discards }
      cmd := { P.cmd with outstanding := before ++ after } }
    (r.discard = false → P.endCommand ends res = { P with cmd := { P.cmd with
      outstanding := before ++ after ++ [{ r with phase := .presented, result := some res }] } }) ∧
    (r.discard = true →
      (P.cmd.state = .stopped ∨ P.cmd.state = .suspended ∨ P.cmd.state = .halted → P.endCommand ends res = dropped) ∧
      (P.cmd.state = .stopping → P.endCommand ends res = { dropped with
        cmd := { dropped.cmd with state := if before ++ after = [] then .stopped else .stopping } }) ∧
      (P.cmd.state = .running → P.cmd.held = none → P.endCommand ends res = { dropped with
        cmd := { dropped.cmd with load := dropped.cmd.nextLoad false } }) ∧
      (∀ h, P.cmd.state = .running → P.cmd.held = some h →
        (before ++ after ≠ [] → P.endCommand ends res = dropped) ∧
        (before ++ after = [] →
          let taken := fun (phase : CmdPhase) (result : Option Result) =>
            (fun (c : CmdProc) => { c with load := c.nextLoad false }) { P.cmd with
              held := none
              next := (P.cmd.next + 1) % P.cmd.size
              outstanding := [{ index := P.cmd.next, addr := P.cmd.base + BitVec.ofNat 40 (32 * P.cmd.next), raw := h.raw,
                                phase := phase, result := result, discard := false }] }
          ((entryOp h.raw).isSome = true → P.endCommand ends res = { dropped with cmd := taken .handed none }) ∧
          (entryOp h.raw = none → P.endCommand ends res = { dropped with
            fault := dropped.fault.record .badEntry ((entrySeq h.raw).zeroExtend 40) .yield
            cmd := taken .presented (some (Result.bare .badCommand)) }))))

/-! ## The custody commands (chapters 1, 2 and 4)

In these statements a command is taken with the entry `raw`: `s.takes p op raw` says that the map is READY, port `p` ACTIVE, and its oldest
handed-over command is the command `op` of that entry. A command that ends in its taking step ends with `endTaken`; what that does is stated
above. One that was accepted and ends later is the waiting command `op` on its buffer (log 14). -/

/-- The map state decides every command (R12): while it is LOADING each of the eleven ends NOT_READY, and while it is FAILED, NO_MAP, with
result handle "none" and no effect on custody. In READY the later checks decide: a command of a port that is not ACTIVE ends FENCED (R65,
R66). -/
def Obligations.CommandsWithoutAMapAreRefused : Prop :=
  ∀ (s : State) (p : PortId) (op : CmdOp) (r : CmdRec),
    (s.port p).cmd.nextHanded = some r → entryOp r.raw = some op →
    (s.mapState = .loading → exec (custodyRow op p) s = .next (s.endTaken p (Result.bare .notReady))) ∧
    (s.mapState = .failed → exec (custodyRow op p) s = .next (s.endTaken p (Result.bare .noMap))) ∧
    (s.mapState = .ready → s.active p = false → exec (custodyRow op p) s = .next (s.endTaken p (Result.bare .fenced)))

/-- The common checks of the handle (R28, R29, R65, R67): a command that names a buffer ends BAD_COMMAND with handle "none" where the id is no
buffer's or an unused bit is set; where the generation is not the record's it ends STALE, with the buffer's handle as it stands. Custody is
unchanged. -/
def Obligations.BadHandlesAreRefused : Prop :=
  ∀ (s : State) (p : PortId) (op : CmdOp) (raw : List Byte), s.takes p op raw → (op.namesCurrent = true ∨ op = .query) →
    (s.records.length ≤ handleId (entryHandle raw) ∨ handleUnused (entryHandle raw) ≠ 0 →
      exec (custodyRow op p) s = .next (s.endTaken p (Result.bare .badCommand))) ∧
    (op.namesCurrent = true → s.handleOk (entryHandle raw) = true →
      handleGen (entryHandle raw) ≠ (s.record (entryBuf raw)).gen →
      exec (custodyRow op p) s = .next (s.endTaken p
        { code := .stale, handle := some (handleWord (entryBuf raw) (s.record (entryBuf raw)).gen), detail := .zero }))

/-- ALLOCATE (R68, R33, R34): its checks in their order; accepted, the buffer at the head of the pool's free list leaves it and becomes HELD by
the issuer, whose charge rises by one, and the command ends OK with the buffer's handle. -/
def Obligations.AllocateTakesTheHead : Prop :=
  ∀ (s : State) (p : PortId) (raw : List Byte), s.takes p .allocate raw →
    let q := entryPool raw
    let quota := (s.poolEntry q).quota.get p
    let charge := (s.pool q).charge.get p
    let refused := fun (c : ResultCode) => exec (.allocate p) s = .next (s.endTaken p (Result.bare c))
    (s.theMap.pools.length ≤ q → refused .noPool) ∧
    (q < s.theMap.pools.length → quota = 0 → refused .denied) ∧
    (q < s.theMap.pools.length → quota ≠ 0 → quota ≤ charge → refused .quota) ∧
    (q < s.theMap.pools.length → charge < quota → (s.pool q).free = [] → refused .empty) ∧
    (∀ b rest, q < s.theMap.pools.length → charge < quota → (s.pool q).free = b :: rest →
      exec (.allocate p) s = .next (((s.modPool q (fun x => { x with free := rest, charge := x.charge.set p (charge + 1) })).modRecord b
        (fun r => { r with custody := .heldPlain p })).endTaken p
          { code := .ok, handle := some (handleWord b (s.record b).gen), detail := .zero }))

/-- FREE (R70, R71, R23, R27, R33): refused NOT_HELD, IN_TRANSIT or LEASED, in this order. Accepted from a caching holder, pending becomes FREE
and a DROP to the issuer is asked; from a holder that does not cache, the buffer enters its free list in the same step, at the tail and with
the next generation, the issuer's charge falls by one and the FREE ends OK with the advanced handle. -/
def Obligations.FreeDropsThenFrees : Prop :=
  ∀ (s : State) (p : PortId) (raw : List Byte), s.takes p .free raw → s.handleCurrent raw → s.moverAtRest →
    let b := entryBuf raw
    let refused := fun (c : ResultCode) => exec (.free p) s = .next (s.endTaken p
      { code := c, handle := some (handleWord b (s.record b).gen), detail := .zero })
    (s.holds p b = false → refused .notHeld) ∧
    (s.holds p b = true → s.pendingOf b ≠ .none → refused .inTransit) ∧
    (s.holds p b = true → s.pendingOf b = .none → s.lent b = true → refused .leased) ∧
    ((s.record b).custody = .heldPlain p →
      (s.caching p = true → exec (.free p) s = .next (((s.acceptTaken p).setCustody b
        (.owned { holder := p, readers := [], leases := [], op := .free, orphan := false })).modYields
          (YieldUnit.take { buf := b, target := p, kind := .drop, op := .free }))) ∧
      (s.caching p = false → (s.pool (s.poolOf b)).waiting = [] → exec (.free p) s = .next ((((s.acceptTaken p).modRecord b
        (fun r => { r with custody := .free, gen := r.gen + 1, length := 0, tag := 0 })).modPool (s.poolOf b)
          (fun x => { x with free := x.free ++ [b], charge := x.charge.set p (x.charge.get p - 1) })).modPort p
          (Port.endCommand (CmdRec.isWaiting .free b)
            { code := .ok, handle := some (handleWord b ((s.record b).gen + 1)), detail := .zero }))))

/-- SEND to a port in the pool's reach (R72, R73, R74, R94): the own checks in their order; accepted from a caching holder, a destination and an
inbox reservation are taken, pending becomes SEND and a DROP to the issuer is asked; from a holder that does not cache, the buffer is QUEUED
in the same step with its DELIVERY item at the tail of its lane, the sender's charge falls, the destination's rises, and the SEND ends OK. -/
def Obligations.SendHandsTheBufferOver : Prop :=
  ∀ (s : State) (p : PortId) (raw : List Byte), s.takes p .send raw → s.handleCurrent raw → s.moverAtRest →
    let b := entryBuf raw
    let q := s.poolOf b
    let delivery : Item :=
      { kind := .delivery (entryLength raw) (entryTag raw), buf := b, gen := (s.record b).gen, source := p, delivering := false }
    let refused := fun (c : ResultCode) => exec (.send p) s = .next (s.endTaken p
      { code := c, handle := some (handleWord b (s.record b).gen), detail := .zero })
    (s.holds p b = false → refused .notHeld) ∧
    (s.holds p b = true → s.pendingOf b ≠ .none → refused .inTransit) ∧
    (s.holds p b = true → s.pendingOf b = .none → s.lent b = true → refused .leased) ∧
    ((s.record b).custody = .heldPlain p → 4 ≤ entryPort raw → refused .badCommand) ∧
    (∀ (d : PortId) (lane : Lane), (s.record b).custody = .heldPlain p → entryPort raw = d.val →
      (d = p ∨ 2 ^ (s.poolEntry q).sizeCode < entryLength raw ∨ 1 < (byteAt raw 3).toNat → refused .badCommand) ∧
      (d ≠ p → entryLength raw ≤ 2 ^ (s.poolEntry q).sizeCode → laneOfByte (byteAt raw 3) = some lane →
        (s.poolEntry q).reach.get d = true →
        let quota := (s.poolEntry q).quota.get d
        let charge := (s.pool q).charge.get d
        ((s.cfg d).present = false ∨ quota = 0 → refused .denied) ∧
        ((s.cfg d).present = true → quota ≠ 0 →
          (s.active d = false → refused .fenced) ∧
          (s.active d = true → quota ≤ charge → refused .quota) ∧
          (s.active d = true → charge < quota → (s.cfg d).inboxLimit ≤ (s.port d).inbox.occupancy → refused .full) ∧
          (s.active d = true → charge < quota → (s.port d).inbox.occupancy < (s.cfg d).inboxLimit →
            (s.caching p = true → exec (.send p) s = .next (({ (((s.acceptTaken p).modPool q (fun x =>
              { x with charge := x.charge.set d (charge + 1) })).modPort d (Port.modInbox (Inbox.reserve .send b))).setCustody b
              (.owned { holder := p, readers := [], leases := [], op := .send d, orphan := false }) with
              destRes := s.destRes ++ [{ buf := b, port := d, pool := q }] } : State).modYields
                (YieldUnit.take { buf := b, target := p, kind := .drop, op := .send }))) ∧
            (s.caching p = false → (∀ x ∈ s.destRes, x.buf ≠ b) → (∀ x ∈ (s.port d).inbox.reservations, x.buf ≠ b) →
              (∀ x ∈ (s.port p).cmd.outstanding, x.isWaiting .send b = false) →
              exec (.send p) s = .next (((((s.acceptTaken p).modRecord b (fun r =>
                { r with custody := .queued p d, length := entryLength raw, tag := entryTag raw })).modPool q (fun x =>
                { x with charge := (x.charge.set d (charge + 1)).set p ((x.charge.set d (charge + 1)).get p - 1) })).modPort d (fun P =>
                { P with inbox := P.inbox.push lane delivery }.arrPresent false)).modPort p (Port.endCommand (CmdRec.isWaiting .send b)
                    { code := .ok, handle := some (handleWord b (s.record b).gen), detail := .zero })))))))

/-- SEND to a port outside the pool's reach (R15, R17, R72, R73, R75, R131, R132): refused DENIED where no landing pool is named, and FULL where
the Mover has no free place; accepted, the destination is charged in the landing pool, and an inbox place and a Mover place are reserved. From
a caching holder pending becomes SEND and a DROP is asked; from one that does not cache the buffer is MOVING in the same step and its job
stands WAITING at the queue's tail, the SEND going on, where both channels serve jobs. Where channel `c` is idle (channel 0 first, R134) it
takes the job in the same step: a job longer than the landing pool's buffers ends MOVE_FAILED, destination error, every reservation released
(R134, R145); with no FREE landing buffer it begins a landing wait (R137); else it takes the head of the landing pool's list (R136) and presents
the read of the first burst through the source pool's home port (R135, R139), or ends MOVE_FAILED, source error, where that port is not
ACTIVE; a job of length 0 succeeds with no burst (R135, R144). That all of it falls in the one step is log 16. -/
def Obligations.SendAcrossMemoriesEntersTheMover : Prop :=
  ∀ (s : State) (p d : PortId) (raw : List Byte) (lane : Lane), s.takes p .send raw → s.handleCurrent raw → s.moverAtRest →
    let b := entryBuf raw
    let q := s.poolOf b
    (s.record b).custody = .heldPlain p → entryPort raw = d.val → d ≠ p → entryLength raw ≤ 2 ^ (s.poolEntry q).sizeCode →
    laneOfByte (byteAt raw 3) = some lane → (s.poolEntry q).reach.get d = false → (s.cfg d).present = true →
    let refused := fun (c : ResultCode) => exec (.send p) s = .next (s.endTaken p
      { code := c, handle := some (handleWord b (s.record b).gen), detail := .zero })
    ((s.poolEntry q).landing.get d = none → refused .denied) ∧
    (∀ r, (s.poolEntry q).landing.get d = some r → s.active d = true → (s.pool r).charge.get d < (s.poolEntry r).quota.get d →
      (s.port d).inbox.occupancy < (s.cfg d).inboxLimit →
      let reserved : State := { ((s.acceptTaken p).modPool r (fun x => { x with charge := x.charge.set d (x.charge.get d + 1) })).modPort d
        (Port.modInbox (Inbox.reserve .send b)) with destRes := s.destRes ++ [{ buf := b, port := d, pool := r }] }
      let job : Job :=
        { source := b, srcPool := q, landPool := r, landing := none, sender := p, dest := d, lane := lane, length := entryLength raw,
          tag := entryTag raw, progress := 0, state := .waiting }
      (16 ≤ s.mover.reserved.length + s.mover.jobs.length → refused .full) ∧
      (s.mover.reserved.length + s.mover.jobs.length < 16 → s.caching p = true →
        exec (.send p) s = .next (((reserved.modMover (fun m => { m with reserved := m.reserved ++ [b] })).setCustody b
          (.owned { holder := p, readers := [], leases := [], op := .send d, orphan := false })).modYields
            (YieldUnit.take { buf := b, target := p, kind := .drop, op := .send }))) ∧
      (s.mover.reserved.length + s.mover.jobs.length < 16 → s.caching p = false →
        (∀ c, (s.mover.jobOf c).isSome = true) → b ∉ s.mover.reserved →
        (∀ x ∈ (s.port p).cmd.outstanding, x.isWaiting .send b = false) →
        exec (.send p) s = .next ((reserved.setCustody b (.source p d false)).modMover (fun m => { m with jobs := m.jobs ++ [job] }))) ∧
      (s.mover.reserved.length + s.mover.jobs.length < 16 → s.caching p = false → b ∉ s.mover.reserved →
        (∀ x ∈ (s.port p).cmd.outstanding, x.isWaiting .send b = false) → (∀ j ∈ s.mover.jobs, j.source ≠ b) →
        (∀ x ∈ s.destRes, x.buf ≠ b) → (∀ x ∈ (s.port d).inbox.reservations, x.buf ≠ b) →
        (∀ x, (s.mover.chan x).serving ≠ some b) → ∀ c, s.mover.chan c = .idle → (c = 1 → (s.mover.chan 0).serving ≠ none) →
        let moving := reserved.setCustody b (.source p d false)
        let serve := fun (req : Option BurstReq) (deadline : Option Nat) (m : Mover) =>
          m.modChan c (fun _ => { serving := some b, data := [], req := req, deadline := deadline })
        let leave := fun (m : Mover) => { m.modChan c (fun _ => .idle) with presented := m.presented.filter (· != c) }
        let ended := fun (g : Byte) (code : ResultCode) (x : Detail) =>
          Port.endCommand (CmdRec.isWaiting .send b) { code := code, handle := some (handleWord b g), detail := x }
        let gen := (s.record b).gen
        let home := (s.poolEntry q).home
        let delivery := fun (l : BufId) =>
          { kind := .delivery 0 (entryTag raw), buf := l, gen := (s.record l).gen, source := p, delivering := false : Item }
        (2 ^ (s.poolEntry r).sizeCode < entryLength raw → exec (.send p) s = .next
          (((s.acceptTaken p).modMover leave).modPort p (ended gen .moveFailed (.move .destError)))) ∧
        (entryLength raw ≤ 2 ^ (s.poolEntry r).sizeCode → (s.pool r).free = [] → exec (.send p) s = .next
          ((moving.modPool r (fun x => { x with waiting := x.waiting ++ [c] })).modMover (fun m =>
            { serve none (some (s.now + s.theMap.landingWait)) m with jobs := m.jobs ++ [{ job with state := .landing }] }))) ∧
        (∀ l rest, entryLength raw ≤ 2 ^ (s.poolEntry r).sizeCode → (s.pool r).free = l :: rest → l ≠ b →
          (0 < entryLength raw → s.active home = true → exec (.send p) s = .next
            (((moving.modPool r (fun x => { x with free := rest })).setCustody l (.landing p d)).modMover (fun m =>
              { serve (some { write := false, port := home, slot := none }) none m with
                jobs := m.jobs ++ [{ job with landing := some l, state := .copying }], presented := m.presented ++ [c] }))) ∧
          (0 < entryLength raw → s.active home = false → s.poolOf l = r → (s.pool r).waiting = [] → exec (.send p) s = .next
            (((((s.acceptTaken p).modPool r (fun x => { x with free := rest ++ [l] })).modRecord l (fun x =>
              { custody := .free, gen := x.gen + 1, length := 0, tag := 0 })).modMover leave).modPort p
                (ended gen .moveFailed (.move .sourceError)))) ∧
          (entryLength raw = 0 → (s.pool q).waiting = [] → exec (.send p) s = .next
            ((((((((s.acceptTaken p).modPool r (fun x => { x with free := rest, charge := x.charge.set d (x.charge.get d + 1) })).modPool q
              (fun x => { x with free := x.free ++ [b], charge := x.charge.set p (x.charge.get p - 1) })).modRecord b (fun x =>
              { custody := .free, gen := x.gen + 1, length := 0, tag := 0 })).modRecord l (fun x =>
              { x with custody := .queued p d, length := 0, tag := entryTag raw })).modPort d (fun P =>
              { P with inbox := P.inbox.push lane (delivery l) }.arrPresent false)).modMover leave).modPort p (ended (gen + 1) .ok .zero))))))

/-- WITHDRAW (R78, R33, R98): refused NOT_HELD, TOO_LATE or QUOTA, in this order; accepted, the DELIVERY item is removed, the buffer is HELD by
its sender, whose charge rises as the destination's falls, and the command ends OK. -/
def Obligations.WithdrawTakesTheBufferBack : Prop :=
  ∀ (s : State) (p : PortId) (raw : List Byte), s.takes p .withdraw raw → s.handleCurrent raw →
    let b := entryBuf raw
    let q := s.poolOf b
    let result := fun (c : ResultCode) => { code := c, handle := some (handleWord b (s.record b).gen), detail := .zero : Result }
    let refused := fun (c : ResultCode) => exec (.withdraw p) s = .next (s.endTaken p (result c))
    ((∀ d, (s.record b).custody ≠ .queued p d) → refused .notHeld) ∧
    (∀ d, (s.record b).custody = .queued p d →
      let late := ∃ i ∈ (s.port d).inbox.urgent ++ (s.port d).inbox.routine, i.isDeliveryOf b = true ∧ i.delivering = true
      (late → refused .tooLate) ∧
      (¬late → (s.poolEntry q).quota.get p ≤ (s.pool q).charge.get p → refused .quota) ∧
      (¬late → (s.pool q).charge.get p < (s.poolEntry q).quota.get p →
        exec (.withdraw p) s = .next ((((s.modPort d (fun P => { P with inbox := { P.inbox with
          urgent := P.inbox.urgent.filter (fun i => !i.isDeliveryOf b)
          routine := P.inbox.routine.filter (fun i => !i.isDeliveryOf b) } })).modRecord b (fun r =>
          { r with custody := .heldPlain p })).modPool q (fun x =>
          { x with charge := (x.charge.set d (x.charge.get d - 1)).set p ((x.charge.set d (x.charge.get d - 1)).get p + 1) })).endTaken p
            (result .ok))))

/-- LEND (R80, R81, R94): the own checks in their order; accepted from a caching holder, two places are reserved in the reader's inbox,
pending becomes LEND and a CLEAN to the holder is asked; from a holder that does not cache, the LEASE item stands in its lane and the lease's
standing reservation is held, the reader joins the leases outstanding, and the LEND ends OK, all in the same step. -/
def Obligations.LendQueuesALease : Prop :=
  ∀ (s : State) (p : PortId) (raw : List Byte), s.takes p .lend raw → s.handleCurrent raw → s.moverAtRest →
    let b := entryBuf raw
    let result := fun (c : ResultCode) => { code := c, handle := some (handleWord b (s.record b).gen), detail := .zero : Result }
    let refused := fun (c : ResultCode) => exec (.lend p) s = .next (s.endTaken p (result c))
    let lane := if byteAt raw 3 = 0x01 then Lane.urgent else Lane.routine
    let lease : Item := { kind := .lease, buf := b, gen := (s.record b).gen, source := p, delivering := false }
    (s.holds p b = false → refused .notHeld) ∧
    (s.holds p b = true → s.pendingOf b ≠ .none → refused .inTransit) ∧
    (∀ o, (s.record b).custody = .owned o → o.holder = p → o.pending = .none →
      (4 ≤ entryPort raw → refused .badCommand) ∧
      (∀ r : PortId, entryPort raw = r.val →
        (r = p → refused .badCommand) ∧
        (r ≠ p → (s.cfg r).present = false ∨ (s.entryOf b).reach.get r = false → refused .denied) ∧
        (r ≠ p → (s.cfg r).present = true → (s.entryOf b).reach.get r = true →
          (s.active r = false → refused .fenced) ∧
          (s.active r = true → (o.hasReader r = true ∨ r ∈ o.leases ∨ 3 ≤ o.readers.length + o.leases.length) → refused .leased) ∧
          (s.active r = true → o.hasReader r = false → r ∉ o.leases → o.readers.length + o.leases.length < 3 →
            ((s.cfg r).inboxLimit < (s.port r).inbox.occupancy + 2 → refused .full) ∧
            ((s.port r).inbox.occupancy + 2 ≤ (s.cfg r).inboxLimit →
              (s.caching p = true → exec (.lend p) s = .next ((((s.acceptTaken p).modPort r
                (Port.modInbox (Inbox.reserve .lend b))).setCustody b (.owned { o with op := .lend })).modYields
                  (YieldUnit.take { buf := b, target := p, kind := .clean, op := .lend }))) ∧
              (s.caching p = false → o.orphan = false → (∀ x ∈ (s.port r).inbox.reservations, x.buf ≠ b) →
                (∀ x ∈ (s.port p).cmd.outstanding, x.isWaiting .lend b = false) →
                exec (.lend p) s = .next ((((s.acceptTaken p).setCustody b (.owned { o with leases := o.leases ++ [r] })).modPort r
                  (fun P => { P with inbox := (P.inbox.reserve .standing b).push lane lease }.arrPresent false)).modPort p
                      (Port.endCommand (CmdRec.isWaiting .lend b) (result .ok)))))))))

/-- RETURN (R82, R83, R22): refused NOT_HELD or IN_TRANSIT; accepted from a caching reader, its returning flag is set and a DROP to it is
asked; from one that does not cache, it leaves the readers in the same step, the lease's standing reservation is released and the RETURN ends
OK. -/
def Obligations.ReturnEndsAView : Prop :=
  ∀ (s : State) (p : PortId) (raw : List Byte), s.takes p .ret raw → s.handleCurrent raw → s.moverAtRest →
    let b := entryBuf raw
    let result := fun (c : ResultCode) => { code := c, handle := some (handleWord b (s.record b).gen), detail := .zero : Result }
    let refused := fun (c : ResultCode) => exec (.returnView p) s = .next (s.endTaken p (result c))
    (s.reads p b = false → refused .notHeld) ∧
    (s.isReturning p b = true → refused .inTransit) ∧
    (∀ o, (s.record b).custody = .owned o → o.hasReader p = true → s.isReturning p b = false →
      let returning := o.readers.map (fun r => if r.port = p then { r with returning := true } else r)
      (s.caching p = true → exec (.returnView p) s = .next (((s.acceptTaken p).setCustody b (.owned { o with readers := returning })).modYields
        (YieldUnit.take { buf := b, target := p, kind := .drop, op := .ret }))) ∧
      (s.caching p = false → (∀ d, o.op ≠ .recallViews d) → exec (.returnView p) s = .next ((((s.acceptTaken p).setCustody b
        (.owned { o with readers := o.readers.filter (fun r => r.port != p) })).modPort p
          (Port.modInbox (Inbox.release .standing b))).modPort p (Port.endCommand (CmdRec.isWaiting .ret b) (result .ok)))))

/-- RECALL (R84, R85, R86) of a buffer lent to one port: refused NOT_HELD, IN_TRANSIT, or NOT_HELD where nothing is lent. A caching reader is
asked a DROP and the RECALL waits; one that does not cache leaves at once and the RECALL ends OK. In both cases the reader gets a REVOKED
item in its URGENT lane, into its lease's standing reservation. A lease whose item is not being delivered is taken back and the RECALL ends
OK. -/
def Obligations.RecallEndsTheViews : Prop :=
  ∀ (s : State) (p : PortId) (raw : List Byte), s.takes p .recallViews raw → s.handleCurrent raw → s.moverAtRest →
    let b := entryBuf raw
    let result := fun (c : ResultCode) => { code := c, handle := some (handleWord b (s.record b).gen), detail := .zero : Result }
    let refused := fun (c : ResultCode) => exec (.recallViews p) s = .next (s.endTaken p (result c))
    let revoked := { kind := .revoked, buf := b, gen := (s.record b).gen, source := p, delivering := false : Item }
    let ended := Port.endCommand (CmdRec.isWaiting .recallViews b) (result .ok)
    (s.holds p b = false → refused .notHeld) ∧
    (s.holds p b = true → s.pendingOf b ≠ .none → s.pendingOf b ≠ .ret → refused .inTransit) ∧
    (s.holds p b = true → s.pendingOf b = .none ∨ s.pendingOf b = .ret → s.lent b = false → refused .notHeld) ∧
    (∀ r : PortId, (s.record b).custody = .owned
        { holder := p, readers := [{ port := r, returning := false }], leases := [], op := .none, orphan := false } →
      (s.caching r = true → s.active r = true → exec (.recallViews p) s = .next ((((s.acceptTaken p).setCustody b (.owned
        { holder := p, readers := [{ port := r, returning := true }], leases := [], op := .recallViews false, orphan := false })).modPort r
          (fun P => { P with inbox := (P.inbox.release .standing b).push .urgent revoked }.arrPresent false)).modYields
            (YieldUnit.take { buf := b, target := r, kind := .drop, op := .recallViews }))) ∧
      (s.caching r = false → s.fenced r = false → (∃ x, (s.port r).inbox.reservations.filter (fun x => x.buf == b) = [x] ∧ x.kind = .standing) →
        exec (.recallViews p) s = .next ((((s.acceptTaken p).setCustody b (.heldPlain p)).modPort r
          (fun P => { P with inbox := (P.inbox.release .standing b).push .urgent revoked }.arrPresent false)).modPort p ended))) ∧
    (∀ r : PortId, (s.record b).custody = .owned { holder := p, readers := [], leases := [r], op := .none, orphan := false } →
      (∃ i ∈ (s.port r).inbox.urgent ++ (s.port r).inbox.routine, i.isLeaseOf b = true ∧ i.delivering = false) →
      exec (.recallViews p) s = .next ((((s.acceptTaken p).setCustody b (.heldPlain p)).modPort r (fun P => { P with inbox :=
        { urgent := P.inbox.urgent.filter (fun i => !(i.isLeaseOf b && !i.delivering))
          routine := P.inbox.routine.filter (fun i => !(i.isLeaseOf b && !i.delivering))
          reservations := (P.inbox.release .standing b).reservations } })).modPort p ended))

/-- RECLAIM (R88, R37, R26, R27): refused NO_RIGHT, NOT_HELD, IN_TRANSIT or FENCED, in this order; a last holder that is ACTIVE and caching is
asked a DROP, pending RECLAIM; of one that is DOWN, or ACTIVE and not caching, the buffer enters its free list in the same step with the next
generation and the RECLAIM ends OK. No charge changes. -/
def Obligations.ReclaimReturnsAStrandedBuffer : Prop :=
  ∀ (s : State) (p : PortId) (raw : List Byte), s.takes p .reclaim raw → s.handleCurrent raw → s.moverAtRest →
    let b := entryBuf raw
    let refused := fun (c : ResultCode) => exec (.reclaim p) s = .next (s.endTaken p
      { code := c, handle := some (handleWord b (s.record b).gen), detail := .zero })
    ((s.cfg p).recovery = false → refused .noRight) ∧
    ((s.cfg p).recovery = true →
      ((∀ h x, (s.record b).custody ≠ .stranded h x) → refused .notHeld) ∧
      (∀ h, (s.record b).custody = .stranded h true → refused .inTransit) ∧
      (∀ h, (s.record b).custody = .stranded h false →
        ((s.port h).state = .fenced → refused .fenced) ∧
        ((s.port h).state = .active → s.caching h = true → exec (.reclaim p) s = .next (((s.acceptTaken p).setCustody b
          (.stranded h true)).modYields (YieldUnit.take { buf := b, target := h, kind := .drop, op := .reclaim }))) ∧
        ((s.port h).state = .down ∨ ((s.port h).state = .active ∧ s.caching h = false) → (s.pool (s.poolOf b)).waiting = [] →
          exec (.reclaim p) s = .next (((s.modRecord b (fun r =>
            { r with custody := .free, gen := r.gen + 1, length := 0, tag := 0 })).modPool (s.poolOf b) (fun x =>
            { x with free := x.free ++ [b] })).endTaken p
              { code := .ok, handle := some (handleWord b ((s.record b).gen + 1)), detail := .zero }))))

/-- UNFENCE (R89, R172): refused NO_RIGHT without the recovery right, and BAD_COMMAND where its port field names no FENCED port; accepted, the
named port is ACTIVE in the taking step and leaves the fenced ports that STATUS shows, both its ring indices are 0, no event is raised, and
the command ends OK with result handle "none". -/
def Obligations.UnfenceMakesTheNamedPortActive : Prop :=
  ∀ (s : State) (p : PortId) (raw : List Byte), s.takes p .unfence raw →
    ((s.cfg p).recovery = false → exec (.unfence p) s = .next (s.endTaken p (Result.bare .noRight))) ∧
    ((s.cfg p).recovery = true → (∀ d : PortId, entryPort raw = d.val → (s.port d).state ≠ .fenced) →
      exec (.unfence p) s = .next (s.endTaken p (Result.bare .badCommand))) ∧
    (∀ d : PortId, (s.cfg p).recovery = true → entryPort raw = d.val → (s.port d).state = .fenced → ∃ t,
      exec (.unfence p) s = .next t ∧
      t = (s.modPort d (fun P => { P with
        state := .active
        cmd := { P.cmd with next := 0 }
        arr := { P.arr with next := 0 } })).endTaken p (Result.bare .ok) ∧
      t.fenced d = false ∧ (∀ x, x ≠ d → t.fenced x = s.fenced x) ∧ (∀ x, (t.port x).events = (s.port x).events))

/-- QUERY and MARKER (R90, R91). QUERY, after the common checks of steps 1 to 3, ends OK in its taking step, whatever the handle's generation
and whatever is pending, with the id's current generation and a snapshot of the record: its state; the holder, the last holder, or none; the
readers, returning or not; the generation and the length. MARKER, taken with the map READY and its port ACTIVE, ends OK with result handle
"none" and detail zero. Nothing else changes. -/
def Obligations.QueryAndMarkerEndAtOnce : Prop :=
  (∀ (s : State) (p : PortId) (r : CmdRec), (s.port p).cmd.nextHanded = some r → entryOp r.raw = some .query →
     let b := entryBuf r.raw
     let refused := fun (c : ResultCode) => exec (.query p) s = .next (s.endTaken p (Result.bare c))
     let answers := fun (state : CustodyState) (holder : Option PortId) (readers : List PortId) =>
       exec (.query p) s = .next (s.endTaken p
         { code := .ok
           handle := some (handleWord b (s.record b).gen)
           detail := .query { state := state, holder := holder, readers := readers, gen := (s.record b).gen, length := (s.record b).length } })
     (s.mapState = .loading → refused .notReady) ∧ (s.mapState = .failed → refused .noMap) ∧
     (s.mapState = .ready →
       ((s.port p).state ≠ .active → refused .fenced) ∧
       ((s.port p).state = .active →
         (s.records.length ≤ handleId (entryHandle r.raw) ∨ handleUnused (entryHandle r.raw) ≠ 0 → refused .badCommand) ∧
         (handleId (entryHandle r.raw) < s.records.length → handleUnused (entryHandle r.raw) = 0 →
           ((s.record b).custody = .free → answers .free none []) ∧
           (∀ o, (s.record b).custody = .owned o → o.readers = [] → answers .held (some o.holder) []) ∧
           (∀ o, (s.record b).custody = .owned o → o.readers ≠ [] → answers .shared (some o.holder) (o.readers.map Reader.port)) ∧
           (∀ h d, (s.record b).custody = .queued h d → answers .queued none []) ∧
           (∀ h d x, (s.record b).custody = .source h d x → answers .moving none []) ∧
           (∀ h d, (s.record b).custody = .landing h d → answers .moving none []) ∧
           (∀ h x, (s.record b).custody = .stranded h x → answers .stranded (some h) []))))) ∧
  (∀ (s : State) (p : PortId) (raw : List Byte), s.takes p .marker raw →
     exec (.marker p) s = .next (s.endTaken p { code := .ok, handle := none, detail := .zero }))

/-! ## Arrivals (chapter 5) -/

/-- ARRIVAL_LOAD_RESPONSE (R102, R103, R105, R106): an entry of owner PART brings the head of URGENT, or of ROUTINE where URGENT is empty: its
delivering flag is set and the store of its record presented. One of owner AGENT suspends the process, with the auto-poll deadline if the interval
is not 0, and ARR_SUSPENDED raised unless an auto-poll brought the load. With an empty inbox the answer is discarded. An answer that a stop left
to be discarded only frees the slot, and a process started again may load. -/
def Obligations.ArrivalLoadPicksOrSuspends : Prop :=
  ∀ (s : State) (p : PortId) (k : SlotId) (data : List Byte) (a : Addr) (l : RingLoad),
    (s.port p).dataReq k = some (.arrivalLoad a) → (s.port p).arr.load = some l →
    (∀ it rest, l.discard = false → byteAt data 0 = 0x01 → (s.port p).inbox.urgent = it :: rest →
      exec (.arrivalLoadResponse p k data) s = .next (s.modPort p (fun P => { P with
        slots := P.slots.set k none
        arr := { P.arr with load := none, store := some { index := P.arr.next, slot := none } }
        inbox := { P.inbox with urgent := { it with delivering := true } :: rest } }))) ∧
    (∀ it rest, l.discard = false → byteAt data 0 = 0x01 → (s.port p).inbox.urgent = [] → (s.port p).inbox.routine = it :: rest →
      exec (.arrivalLoadResponse p k data) s = .next (s.modPort p (fun P => { P with
        slots := P.slots.set k none
        arr := { P.arr with load := none, store := some { index := P.arr.next, slot := none } }
        inbox := { P.inbox with routine := { it with delivering := true } :: rest } }))) ∧
    (l.discard = false → byteAt data 0 ≠ 0x01 → ¬((s.port p).inbox.urgent = [] ∧ (s.port p).inbox.routine = []) →
      exec (.arrivalLoadResponse p k data) s = .next (s.modPort p (fun P => { P with
        slots := P.slots.set k none
        events := if l.auto then P.events else P.events ||| Event.arrSuspended.bit
        arr := { P.arr with
                 state := .suspended
                 load := none
                 deadline := if (s.cfg p).arrPoll = 0 then none else some (s.now + (s.cfg p).arrPoll) } }))) ∧
    (l.discard = false → (s.port p).inbox.urgent = [] → (s.port p).inbox.routine = [] →
      exec (.arrivalLoadResponse p k data) s = .next (s.modPort p (fun P => { P with
        slots := P.slots.set k none
        arr := { P.arr with load := none } }))) ∧
    (l.discard = true →
      exec (.arrivalLoadResponse p k data) s = .next (s.modPort p (fun P => { P with
        slots := P.slots.set k none
        arr := { P.arr with load := if P.arr.state = .running then
          (fun (x : ArrProc) => x.nextLoad false P.inbox) { P.arr with load := none } else none } })))

/-- ARRIVAL_STORE_ACK (R104, R106, R86): the item leaves its lane, the next index advances modulo the ring size, ARRIVAL is raised, a stop
that waited ends, and a process still RUNNING loads where R102 allows. The buffer of a DELIVERY becomes HELD by the port. The port joins the
readers of a LEASE's buffer, its lease no longer outstanding; where a recall waits and the port is ACTIVE and caching it is taken over at once:
returning, with a REVOKED item in its standing reservation and a DROP asked. A REVOKED changes no custody. -/
def Obligations.ArrivalStoreAcknowledged : Prop :=
  ∀ (s : State) (p : PortId) (k : SlotId) (a : Addr) (bytes : List Byte) (lane : Lane) (it : Item),
    (s.port p).dataReq k = some (.arrivalStore a bytes) → (s.port p).inbox.delivering = some (lane, it) → s.moverAtRest →
    let without := fun (x : Inbox) => { x with
      urgent := x.urgent.filter (fun i => !i.delivering), routine := x.routine.filter (fun i => !i.delivering) }
    let ended := fun (inbox : Inbox) (P : Port) =>
      let arr : ArrProc := { P.arr with
        state := if P.arr.stopWaiting then .stopped else P.arr.state
        store := none
        next := (P.arr.next + 1) % P.arr.size
        stopWaiting := false }
      { P with
        slots := P.slots.set k none
        events := P.events ||| Event.arrival.bit
        inbox := inbox
        arr := if arr.state = .running then { arr with load := arr.nextLoad false inbox } else arr }
    let plain := s.modPort p (fun P => ended (without P.inbox) P)
    (∀ length tag h d, it.kind = .delivery length tag → (s.record it.buf).custody = .queued h d →
      exec (.arrivalStoreAck p k) s = .next (plain.setCustody it.buf (.heldPlain p))) ∧
    (∀ o, it.kind = .lease → (s.record it.buf).custody = .owned o → (∀ x, o.op ≠ .recallViews x) →
      exec (.arrivalStoreAck p k) s = .next (plain.setCustody it.buf (.owned { o with
        leases := o.leases.filter (· != p), readers := o.readers ++ [{ port := p, returning := false }] }))) ∧
    (∀ o x, it.kind = .lease → (s.record it.buf).custody = .owned o → o.op = .recallViews x → s.caching p = true → s.active p = true →
      exec (.arrivalStoreAck p k) s = .next (((s.modPort p (fun P => ended (((without P.inbox).release .standing it.buf).push .urgent
        { kind := .revoked, buf := it.buf, gen := (s.record it.buf).gen, source := o.holder, delivering := false }) P)).setCustody it.buf
          (.owned { o with
            leases := o.leases.filter (· != p), readers := o.readers ++ [{ port := p, returning := true }] })).modYields
              (YieldUnit.take { buf := it.buf, target := p, kind := .drop, op := .recallViews }))) ∧
    (it.kind = .revoked → exec (.arrivalStoreAck p k) s = .next plain)

/-- ARRIVAL_REQUEST_ERROR (R106, R107): ARRIVAL_ERROR with the entry's address and ARR_HALTED raised. The process is HALTED at the same index;
the item of a failed store keeps its place, its flag cleared, and custody is unchanged (with no recall waiting on its LEASE). A stop that waited
on the store ends, the process STOPPED; a load whose answer was to be discarded leaves a STOPPED process as it is. -/
def Obligations.ArrivalRequestErrorHaltsTheProcess : Prop :=
  ∀ (s : State) (p : PortId) (k : SlotId) (a : Addr),
    (∀ l, (s.port p).dataReq k = some (.arrivalLoad a) → (s.port p).arr.load = some l → l.discard = false →
      exec (.arrivalRequestError p k) s = .next (s.modPort p (fun P => { P with
        slots := P.slots.set k none
        fault := P.fault.record .arrivalError a .yield
        events := P.events ||| Event.arrHalted.bit
        arr := { P.arr with state := .halted, load := none, deadline := none } }))) ∧
    (∀ l, (s.port p).dataReq k = some (.arrivalLoad a) → (s.port p).arr.load = some l → l.discard = true →
      (s.port p).arr.state = .stopped →
      exec (.arrivalRequestError p k) s = .next (s.modPort p (fun P => { P with
        slots := P.slots.set k none
        fault := P.fault.record .arrivalError a .yield
        events := P.events ||| Event.arrHalted.bit
        arr := { P.arr with load := none } }))) ∧
    (∀ bytes lane it, (s.port p).dataReq k = some (.arrivalStore a bytes) → (s.port p).inbox.delivering = some (lane, it) →
      s.moverAtRest → (∀ o x, it.kind = .lease → (s.record it.buf).custody = .owned o → o.op ≠ .recallViews x) →
      exec (.arrivalRequestError p k) s = .next (s.modPort p (fun P => { P with
        slots := P.slots.set k none
        fault := P.fault.record .arrivalError a .yield
        events := P.events ||| Event.arrHalted.bit
        arr := { P.arr with
                 state := if P.arr.stopWaiting then .stopped else .halted
                 store := none
                 stopWaiting := false
                 deadline := none }
        inbox := { P.inbox with
          urgent := P.inbox.urgent.map (fun i => { i with delivering := false })
          routine := P.inbox.routine.map (fun i => { i with delivering := false }) } })))

/-! ## Yields (chapter 6) -/

/-- YIELD_RESPONSE to an ISSUED entry, none waiting for its tag (R119, R120): the slot is freed, the entry leaves the table and its tag joins the
free tags; an ERROR records YIELD_REFUSED with the tag on the target, which stays ACTIVE. Then the operation goes on: a FREE frees its buffer
or is undone (R71); a SEND within reach hands the buffer over (R74); a LEND queues its lease (R81); a RETURN ends the view, OK or OK_FENCED
(R83); a RECALL of one reader ends, OK or OK_FENCED (R86); a RECLAIM frees its buffer or leaves it STRANDED (R88). -/
def Obligations.AnsweredYieldEndsItsOperation : Prop :=
  ∀ (s : State) (p : PortId) (n : Word) (before after : List YieldEntry) (e : YieldEntry) (k : SlotId),
    s.yields.live = before ++ e :: after → (∀ x ∈ before, x.tag ≠ e.tag) → s.yields.waiting = [] → n.toNat = e.tag.val →
    e.ask.target = p → e.phase = .issued k → s.moverAtRest →
    let b := e.ask.buf
    let q := s.poolOf b
    let acked := (s.modPort p (fun P => { P with slots := P.slots.set k none })).modYields (fun _ =>
      { live := before ++ after, freeTags := s.yields.freeTags ++ [e.tag], waiting := [] })
    let refused := acked.modPort p (Port.recordFault .yieldRefused (BitVec.ofNat 40 e.tag.val))
    let handle := some (handleWord b (s.record b).gen)
    let item := fun (h : PortId) (kind : ItemKind) =>
      { kind := kind, buf := b, gen := (s.record b).gen, source := h, delivering := false : Item }
    let done := fun (port : PortId) (op : CmdOp) (code : ResultCode) (h : Option Word) (t : State) =>
      t.modPort port (Port.endCommand (CmdRec.isWaiting op b) { code := code, handle := h, detail := .zero })
    (∀ h, e.ask.op = .free →
      (s.record b).custody = .owned { holder := h, readers := [], leases := [], op := .free, orphan := false } →
      ((s.pool q).waiting = [] → exec (.yieldResponse p n .ack) s = .next (done h .free .ok
        (some (handleWord b (((acked.modRecord b Record.enterFree).record b).gen))) ((acked.modRecord b Record.enterFree).modPool q (fun x =>
          { x with free := x.free ++ [b], charge := x.charge.set h (x.charge.get h - 1) })))) ∧
      exec (.yieldResponse p n .error) s = .next (done h .free .yieldRefused handle (refused.setCustody b (.heldPlain h)))) ∧
    (∀ h d r, e.ask.op = .send →
      (s.record b).custody = .owned { holder := h, readers := [], leases := [], op := .send d, orphan := false } →
      (s.port h).cmd.outstanding.find? (CmdRec.isWaiting .send b) = some r → (s.entryOf b).reach.get d = true →
      exec (.yieldResponse p n .ack) s = .next (done h .send .ok handle
        ({ (((acked.modRecord b (fun x => { x with custody := .queued h d, length := entryLength r.raw, tag := entryTag r.raw })).modPort d
          (fun P => { P with inbox := (P.inbox.release .send b).push ((entryLane r.raw).getD .routine) (item h
            (.delivery (entryLength r.raw) (entryTag r.raw))) }.arrPresent false)).modPool q (fun x =>
          { x with charge := x.charge.set h (x.charge.get h - 1) })) with
            destRes := removeFirst (fun x => x.buf == b) s.destRes } : State))) ∧
    (∀ o r (d : PortId), e.ask.op = .lend → (s.record b).custody = .owned o → o.op = .lend → o.orphan = false →
      (s.port o.holder).cmd.outstanding.find? (CmdRec.isWaiting .lend b) = some r → entryPort r.raw = d.val →
      exec (.yieldResponse p n .ack) s = .next (done o.holder .lend .ok handle ((acked.setCustody b
        (.owned { o with op := .none, leases := o.leases ++ [d] })).modPort d (fun P =>
          { P with inbox := ((P.inbox.release .lend b).reserve .standing b).push (entryLendLane r.raw) (item o.holder .lease) }.arrPresent
            false)))) ∧
    (∀ o code, e.ask.op = .ret → (s.record b).custody = .owned o → o.hasReader p = true → (∀ x, o.op ≠ .recallViews x) →
      exec (.yieldResponse p n code) s = .next (done p .ret (if code = .ack then .ok else .okFenced) handle
        (((if code = .ack then acked else refused).setCustody b
          (.owned { o with readers := o.readers.filter (fun x => x.port != p) })).modPort p
            (Port.modInbox (Inbox.release .standing b))))) ∧
    (∀ h x code, e.ask.op = .recallViews → (s.record b).custody = .owned
        { holder := h, readers := [{ port := p, returning := true }], leases := [], op := .recallViews x, orphan := false } →
      exec (.yieldResponse p n code) s = .next (done h .recallViews (if code = .ack ∧ x = false then .ok else .okFenced) handle
        (((if code = .ack then acked else refused).setCustody b (.heldPlain h)).modPort p
          (Port.modInbox (Inbox.release .standing b))))) ∧
    (∀ h, e.ask.op = .reclaim → (s.record b).custody = .stranded h true →
      let ended := fun (code : ResultCode) (h : Option Word) (t : State) => t.mapPorts (fun _ =>
        Port.endCommand (CmdRec.isWaiting .reclaim b) { code := code, handle := h, detail := .zero })
      ((s.pool q).waiting = [] → exec (.yieldResponse p n .ack) s = .next (ended .ok
        (some (handleWord b (((acked.modRecord b Record.enterFree).record b).gen))) ((acked.modRecord b Record.enterFree).modPool q (fun x =>
          { x with free := x.free ++ [b] })))) ∧
      exec (.yieldResponse p n .error) s = .next (ended .yieldRefused handle (refused.setCustody b (.stranded h false))))

/-- YIELD_DEADLINE_EXPIRY (R122): once the deadline of an ISSUED entry has passed and its attempt number is below 1 + the target's yield
retries, the same request stands in the same slot with a new deadline of the response limit, and the attempt number is one higher; nothing else
changes: no fault is recorded and no event raised. -/
def Obligations.NonFinalExpiryReissuesTheYield : Prop :=
  ∀ (s : State) (t : TagId) (e : YieldEntry) (k : SlotId) (r : SlotReq),
    s.yields.live.find? (fun x => x.tag == t) = some e → e.phase = .issued k → (s.port e.ask.target).slots.get k = some r →
    r.deadline ≤ s.now → e.attempts < 1 + (s.cfg e.ask.target).retries →
    exec (.yieldDeadlineExpiry t) s = .next ((s.modPort e.ask.target (fun P => { P with
      slots := P.slots.set k (some
        { req := .yield e.tag e.ask.kind (s.bufAddr e.ask.buf) (2 ^ (s.entryOf e.ask.buf).sizeCode)
          deadline := s.now + (s.cfg e.ask.target).respLimit }) })).modYields (fun y => { y with
        live := y.live.map (fun x => if x.tag = t then { x with attempts := x.attempts + 1 } else x) }))

/-- YIELD_FINAL_EXPIRY of the DROP of a FREE, the one yield of a port with nothing else under way (R123, R35, R71): beside the fence, the
buffer is STRANDED with the port as last holder, its generation as it was, the port's charge falls by one, STRANDED is raised on every port
with the recovery right, the tag is free, and every other record and pool is as it was. -/
def Obligations.FinalExpiryOfAFreeStrandsTheBuffer : Prop :=
  ∀ (s : State) (t : TagId) (e : YieldEntry) (k : SlotId) (r : SlotReq) (b : BufId) (x : Record) (p : PortId),
    s.yields.live = [e] → s.yields.waiting = [] → e.tag = t → e.phase = .issued k → e.ask = { buf := b, target := p, kind := .drop, op := .free } →
    (s.port p).slots.get k = some r → r.deadline ≤ s.now → 1 + (s.cfg p).retries ≤ e.attempts →
    s.records[b]? = some x → x.custody = .owned { holder := p, readers := [], leases := [], op := .free, orphan := false } →
    (s.port p).inbox.delivering = none → (∀ c, s.mover.reqOn p c = none) → s.moverAtRest →
    ∃ u, exec (.yieldFinalExpiry t) s = .next u ∧
      u.records = s.records.set b { x with custody := .stranded p false } ∧
      u.pools = s.pools.modify (s.poolOf b) (fun q => { q with charge := q.charge.set p (q.charge.get p - 1) }) ∧
      u.yields = { live := [], freeTags := s.yields.freeTags ++ [t], waiting := [] } ∧
      (∀ d, (s.cfg d).recovery = true → (u.port d).events &&& Event.stranded.bit ≠ 0) ∧
      (u.port p).state = .fenced ∧ u.mover = s.mover ∧ u.destRes = s.destRes ∧ u.map = s.map ∧ u.mapState = s.mapState ∧ u.now = s.now

/-! ## The Mover (chapter 7) -/

/-- BURST_READ_RESPONSE and BURST_WRITE_RESPONSE with ACK (R140, R141, R135, R138, R139, R144): the slot is freed. The bytes read are kept and
their write is presented through the landing pool's home port. A write raises the job's progress by the burst and empties the burst store; short
of the length, the next read is presented through the source pool's home port. At the length the move succeeds: the job's place and its channel
are free, the source enters its free list and the sender's charge falls, the landing buffer is QUEUED with its DELIVERY, and the SEND ends OK. -/
def Obligations.AnsweredBurstMovesTheJobOn : Prop :=
  ∀ (s : State) (p : PortId) (k : SlotId) (c : ChanId) (a : Addr) (j : Job) (l : BufId),
    s.moverAtRest → s.mover.jobOf c = some j → j.state = .copying → j.landing = some l →
    let presented := fun (write : Bool) (home : PortId) (data : List Byte) (m : Mover) =>
      { m.modChan c (fun x => { x with data := data, req := some { write := write, port := home, slot := none } }) with
        presented := m.presented ++ [c] }
    let freed := s.modPort p (fun P => { P with slots := P.slots.set k none })
    let progress := j.progress + min 256 (j.length - j.progress)
    let delivery : Item :=
      { kind := .delivery j.length j.tag, buf := l, gen := (s.record l).gen, source := j.sender, delivering := false }
    (∀ length data, (s.port p).dataReq k = some (.burstRead c a length) → data.length = length → 0 < length → j.progress < j.length →
      s.active (s.poolEntry j.landPool).home = true →
      exec (.burstReadResponse p k (.ack data)) s = .next (freed.modMover (presented true (s.poolEntry j.landPool).home data))) ∧
    (∀ bytes, (s.port p).dataReq k = some (.burstWrite c a bytes) → progress < j.length →
      s.active (s.poolEntry j.srcPool).home = true →
      exec (.burstWriteResponse p k .ack) s = .next (freed.modMover (fun m => presented false (s.poolEntry j.srcPool).home []
        { m with jobs := m.jobs.map (fun i => if i.source = j.source then
          { i with progress := i.progress + min 256 (i.length - i.progress) } else i) }))) ∧
    (∀ bytes, (s.port p).dataReq k = some (.burstWrite c a bytes) → j.length ≤ progress → (∀ i ∈ s.mover.jobs, i.state ≠ .waiting) →
      (s.pool (s.poolOf j.source)).waiting = [] → l ≠ j.source → j.source < s.records.length →
      exec (.burstWriteResponse p k .ack) s = .next
        ((({ ((((freed.modMover (fun m => { m.modChan c (fun _ => .idle) with
          jobs := m.jobs.filter (fun i => i.source != j.source), presented := m.presented.filter (· != c) })).modRecord j.source
          Record.enterFree).modPool (s.poolOf j.source) (fun x =>
            { x with free := x.free ++ [j.source], charge := x.charge.set j.sender (x.charge.get j.sender - 1) })).modRecord l (fun x =>
          { x with custody := .queued j.sender j.dest, length := j.length, tag := j.tag })) with
            destRes := removeFirst (fun x => x.buf == j.source) s.destRes } : State).modPort j.dest (fun P =>
          { P with inbox := (P.inbox.release .send j.source).push j.lane delivery }.arrPresent false)).modPort j.sender (Port.endCommand (CmdRec.isWaiting .send j.source)
                { code := .ok, handle := some (handleWord j.source ((s.record j.source).gen + 1)), detail := .zero })))

/-- A move fails by an ERROR to a burst read (reason 2) or write (reason 3), or by LANDING_WAIT_EXPIRY (reason 1), the other channel at rest and no
job WAITING (R137, R140, R141, R145): the job's place and its channel are free; a landing buffer enters its free list; the destination
reservation closes and the inbox reservation is released; the source is HELD by the sender again, its charge unchanged; and the SEND ends
MOVE_FAILED with the reason. An expiry takes the channel off the waiting channels; before the landing deadline there is none (log 4). -/
def Obligations.FailedMoveIsUndone : Prop :=
  ∀ (s : State) (c : ChanId) (j : Job) (h d : PortId) (before after : List DestReservation) (r : DestReservation) (x : Record),
    s.moverAtRest → s.mover.jobOf c = some j → (∀ i ∈ s.mover.jobs, i.state ≠ .waiting) →
    s.records[j.source]? = some x → x.custody = .source h d false →
    s.destRes = before ++ r :: after → (∀ y ∈ before, y.buf ≠ j.source) → r.buf = j.source →
    let undone := fun (reason : MoveReason) (t : State) =>
      ((({ ((t.modMover (fun m => { m.modChan c (fun _ => .idle) with
          jobs := m.jobs.filter (fun i => i.source != j.source), presented := m.presented.filter (· != c) })).modPool r.pool (fun x =>
            { x with charge := x.charge.set r.port (x.charge.get r.port - 1) })) with destRes := before ++ after } : State).modPort j.dest
        (Port.modInbox (Inbox.release .send j.source))).setCustody j.source (.heldPlain h)).modPort j.sender
          (Port.endCommand (CmdRec.isWaiting .send j.source)
            { code := .moveFailed, handle := some (handleWord j.source x.gen), detail := .move reason })
    (∀ l p k a, j.landing = some l → l ≠ j.source → (s.pool (s.poolOf l)).waiting = [] →
      let returned := ((s.modPort p (fun P => { P with slots := P.slots.set k none })).modRecord l Record.enterFree).modPool (s.poolOf l) (fun y =>
        { y with free := y.free ++ [l] })
      (∀ n, (s.port p).dataReq k = some (.burstRead c a n) →
        exec (.burstReadResponse p k .error) s = .next (undone .sourceError returned)) ∧
      (∀ bytes, (s.port p).dataReq k = some (.burstWrite c a bytes) →
        exec (.burstWriteResponse p k .error) s = .next (undone .destError returned))) ∧
    (∀ t, j.landing = none → (s.mover.chan c).deadline = some t →
      exec (.landingWaitExpiry c) s = .next (if t ≤ s.now then undone .noLanding
        { s with pools := s.pools.map (fun y => { y with waiting := y.waiting.filter (· != c) }) } else s))

/-! ## Layouts (chapters 2, 3, 5, 8 and 11) -/

/-- The words and images an agent reads (R28, R46, R100, R180 to R182): the handle word; the 32 bytes of a completion, bytes 1 to 19 as loaded;
the 16 bytes of an arrival record; and what the window reads: the fields of STATUS, of FAULT (the upper info bits for the three address kinds,
R166), of INBOX (counts below 512; R94 keeps them to 256), both high halves at 24h, POLL as 0, and the undefined places as nothing. -/
def Obligations.RecordsAndRegistersAreLaidOut : Prop :=
  (∀ (b : BufId) (g : Byte), b < 4096 →
    (handleWord b g).toNat = b + 4096 * g.toNat ∧ handleId (handleWord b g) = b ∧ handleGen (handleWord b g) = g ∧
    handleUnused (handleWord b g) = 0) ∧
  (∀ (raw : List Byte) (r : Result),
    let out := completionBytes raw r
    out.length = 32 ∧ byteAt out 0 = 0x00 ∧ (∀ i, 1 ≤ i → i ≤ 19 → byteAt out i = byteAt raw i) ∧ byteAt out 20 = r.code.byte ∧
    word32At out 24 = r.handle.getD 0xFFFFFFFF ∧
    (r.detail = .zero → ∀ i ∈ [21, 22, 23, 28, 29, 30, 31], byteAt out i = 0) ∧
    (∀ m, r.detail = .move m → byteAt out 21 = m.byte ∧ ∀ i ∈ [22, 23, 28, 29, 30, 31], byteAt out i = 0) ∧
    (∀ q, r.detail = .query q → byteAt out 21 = q.state.byte ∧ byteAt out 22 = portByte q.holder ∧
      (∀ n : Fin 4, (byteAt out 23).getLsbD n.val = decide (n ∈ q.readers)) ∧ byteAt out 28 = q.gen ∧
      (byteAt out 29).toNat + 2 ^ 8 * (byteAt out 30).toNat + 2 ^ 16 * (byteAt out 31).toNat = q.length % 2 ^ 24)) ∧
  (∀ (lane : Lane) (it : Item),
    let out := arrivalBytes lane it
    out.length = 16 ∧ byteAt out 0 = 0x00 ∧ byteAt out 1 = it.kind.byte ∧ byteAt out 2 = lane.byte ∧
    (byteAt out 3).toNat = it.source.val ∧ word32At out 4 = handleWord it.buf it.gen ∧
    word32At out 8 = BitVec.ofNat 32 it.kind.length ∧ word32At out 12 = it.kind.tag) ∧
  (∀ (s : State) (p : PortId),
    let P := s.port p
    s.windowRead p 0x00 = some (boolBit P.cmd.run <<< 4 ||| boolBit P.arr.run <<< 5) ∧
    s.windowRead p 0x08 = some (P.events.zeroExtend 32) ∧ s.windowRead p 0x0C = some (P.mask.zeroExtend 32) ∧
    s.windowRead p 0x14 = some (P.cmd.base.extractLsb' 0 32) ∧ s.windowRead p 0x18 = some (BitVec.ofNat 32 P.cmd.size) ∧
    s.windowRead p 0x1C = some (P.arr.base.extractLsb' 0 32) ∧ s.windowRead p 0x20 = some (BitVec.ofNat 32 P.arr.size) ∧
    s.windowRead p 0x10 = some 0 ∧ s.windowRead p 0x34 = none ∧ s.windowRead p 0x38 = none ∧ s.windowRead p 0x3C = none ∧
    s.windowRead p 0x2C = some (P.fault.info.extractLsb' 0 32) ∧
    (∃ w, s.windowRead p 0x24 = some w ∧ w.extractLsb' 0 8 = P.cmd.base.extractLsb' 32 8 ∧
      w.extractLsb' 16 8 = P.arr.base.extractLsb' 32 8 ∧ w.extractLsb' 8 8 = 0 ∧ w.extractLsb' 24 8 = 0) ∧
    (∃ w, s.windowRead p 0x28 = some w ∧ (w.extractLsb' 0 4).zeroExtend 32 = P.fault.kind.code ∧
      w.getLsbD 4 = decide (P.fault.kind = .unsolicited ∧ P.fault.source = .data) ∧ w.extractLsb' 5 3 = 0 ∧
      w.extractLsb' 8 8 = P.fault.count ∧ w.extractLsb' 16 8 = P.fault.discards ∧
      w.extractLsb' 24 8 = if P.fault.kind = .fetchError ∨ P.fault.kind = .arrivalError ∨ P.fault.kind = .responseExpired then
        P.fault.info.extractLsb' 32 8 else 0) ∧
    (P.inbox.urgent.length < 512 → P.inbox.routine.length < 512 → P.inbox.reserved < 512 →
      ∃ w, s.windowRead p 0x30 = some w ∧ (w.extractLsb' 0 9).toNat = P.inbox.urgent.length ∧
        (w.extractLsb' 10 9).toNat = P.inbox.routine.length ∧ (w.extractLsb' 20 9).toNat = P.inbox.reserved) ∧
    ∃ w, s.windowRead p 0x04 = some w ∧ (w.extractLsb' 0 2).zeroExtend 32 = P.state.code ∧
      (w.extractLsb' 4 3).zeroExtend 32 = P.cmd.state.code ∧ (w.extractLsb' 8 2).zeroExtend 32 = P.arr.state.code ∧
      (w.extractLsb' 12 2).zeroExtend 32 = s.mapState.code ∧ (w.extractLsb' 16 2).zeroExtend 32 = s.reason.code ∧
      w.getLsbD 20 = (s.cfg p).present ∧ w.getLsbD 21 = (s.cfg p).caching ∧ w.getLsbD 22 = (s.cfg p).recovery ∧
      (∀ n : Fin 4, w.getLsbD (24 + n.val) = s.fenced n))

/-! ## Invariants that every step keeps -/

/-- The eight yield tags stay shared out between the free-tag list and the live entries, none twice (R115, R116, R128). -/
def Obligations.StepKeepsYieldTagsShared : Prop :=
  ∀ s t : State, s.yields.tagsShared → step s = .next t → t.yields.tagsShared

/-- A port that is DOWN or FENCED stays quiet: no request of it is presented or issued, both its processes are STOPPED, and its outstanding
commands are ones whose completion will never be written (R161, R62, R63, R109, R110). -/
def Obligations.StepKeepsInactivePortsQuiet : Prop :=
  ∀ s t : State, s.quietPorts → step s = .next t → t.quietPorts

/-- The processes keep their values in range: rings of 4 to 1024 entries, the next index below the size, the base aligned, and at most four
commands outstanding (R43, R44, R49, R99). -/
def Obligations.StepKeepsProcessesLegal : Prop :=
  ∀ s t : State, s.processesLegal → step s = .next t → t.processesLegal

/-- Custody stays as the map state says: none of any kind until the map is READY, and from then on one record for each buffer of the map and one
free list and set of charges for each pool (R8, R10, R13, R42). -/
def Obligations.StepKeepsCustodyFittingTheMap : Prop :=
  ∀ s t : State, s.mapAgrees → step s = .next t → t.mapAgrees

/-- A map that is READY is READY for good, and the same map, under every command but a device reset (R8, R9). -/
def Obligations.StepKeepsAReadyMap : Prop :=
  ∀ s t : State, s.mapState = .ready → s.pending.head? ≠ some .deviceReset → step s = .next t →
    t.mapState = .ready ∧ t.map = s.map

/-- The channels have nothing left to do after a step (R134, R135): each that is idle finds no WAITING job, and each that is copying has its
request presented or issued (that a step takes them so far is the model's choice, log 16). -/
def Obligations.StepKeepsTheMoverAtRest : Prop :=
  ∀ s t : State, s.moverAtRest → step s = .next t → t.moverAtRest
end

