-- ==== Sys2Proof/Laws/State.lean ====
section
/-!
SUPPORT. What each write of a part of the state leaves of the rest: one lemma per field (and per reading) per update, all by
rfl, so that no proof unfolds a record update; and what a read of the part written gives.
-/
namespace Sys2Proof
open Sys2Proof.Machine

/-! ### A value per port -/

@[simp] theorem Four.get_set_same {α : Type} (x : Four α) (i : Fin 4) (a : α) : (x.set i a).get i = a := by
  fin_cases i <;> rfl

theorem Four.get_set {α : Type} (x : Four α) (i j : Fin 4) (a : α) : (x.set i a).get j = if j = i then a else x.get j := by
  fin_cases i <;> fin_cases j <;> rfl

@[simp] theorem Four.get_set_ne {α : Type} (x : Four α) {i j : Fin 4} (a : α) (h : j ≠ i) : (x.set i a).get j = x.get j := by
  rw [Four.get_set, if_neg h]

@[simp] theorem Four.set_set {α : Type} (x : Four α) (i : Fin 4) (a b : α) : (x.set i a).set i b = x.set i b := by
  fin_cases i <;> rfl

@[simp] theorem Four.set_get {α : Type} (x : Four α) (i : Fin 4) : x.set i (x.get i) = x := by
  fin_cases i <;> rfl

@[simp] theorem Four.get_fill {α : Type} (i : Fin 4) (a : α) : (Four.fill a).get i = a := by
  fin_cases i <;> rfl

@[simp] theorem Four.get_mapIdx {α β : Type} (f : Fin 4 → α → β) (x : Four α) (i : Fin 4) :
    (x.mapIdx f).get i = f i (x.get i) := by
  fin_cases i <;> rfl

theorem Four.eq_of_get {α : Type} {x y : Four α} (h : ∀ i, x.get i = y.get i) : x = y := by
  have h0 := h 0
  have h1 := h 1
  have h2 := h 2
  have h3 := h 3
  cases x
  cases y
  simp_all [Four.get]

namespace Machine

/-! ### modPort -/

@[simp] theorem State.modPort_mapState (p : PortId) (f : Port → Port) (s : State) : (s.modPort p f).mapState = s.mapState := rfl
@[simp] theorem State.modPort_reason (p : PortId) (f : Port → Port) (s : State) : (s.modPort p f).reason = s.reason := rfl
@[simp] theorem State.modPort_map (p : PortId) (f : Port → Port) (s : State) : (s.modPort p f).map = s.map := rfl
@[simp] theorem State.modPort_records (p : PortId) (f : Port → Port) (s : State) : (s.modPort p f).records = s.records := rfl
@[simp] theorem State.modPort_pools (p : PortId) (f : Port → Port) (s : State) : (s.modPort p f).pools = s.pools := rfl
@[simp] theorem State.modPort_destRes (p : PortId) (f : Port → Port) (s : State) : (s.modPort p f).destRes = s.destRes := rfl
@[simp] theorem State.modPort_yields (p : PortId) (f : Port → Port) (s : State) : (s.modPort p f).yields = s.yields := rfl
@[simp] theorem State.modPort_mover (p : PortId) (f : Port → Port) (s : State) : (s.modPort p f).mover = s.mover := rfl
@[simp] theorem State.modPort_now (p : PortId) (f : Port → Port) (s : State) : (s.modPort p f).now = s.now := rfl
@[simp] theorem State.modPort_freeCount (p : PortId) (f : Port → Port) (s : State) : (s.modPort p f).freeCount = s.freeCount := rfl
@[simp] theorem State.modPort_pending (p : PortId) (f : Port → Port) (s : State) : (s.modPort p f).pending = s.pending := rfl
@[simp] theorem State.modPort_record (p : PortId) (f : Port → Port) (s : State) (x : BufId) : (s.modPort p f).record x = s.record x := rfl
@[simp] theorem State.modPort_pool (p : PortId) (f : Port → Port) (s : State) (r : PoolId) : (s.modPort p f).pool r = s.pool r := rfl
@[simp] theorem State.modPort_theMap (p : PortId) (f : Port → Port) (s : State) : (s.modPort p f).theMap = s.theMap := rfl
@[simp] theorem State.modPort_cfg (p : PortId) (f : Port → Port) (s : State) (i : PortId) : (s.modPort p f).cfg i = s.cfg i := rfl
@[simp] theorem State.modPort_poolEntry (p : PortId) (f : Port → Port) (s : State) (r : PoolId) : (s.modPort p f).poolEntry r = s.poolEntry r := rfl
@[simp] theorem State.modPort_poolOf (p : PortId) (f : Port → Port) (s : State) (x : BufId) : (s.modPort p f).poolOf x = s.poolOf x := rfl
@[simp] theorem State.modPort_entryOf (p : PortId) (f : Port → Port) (s : State) (x : BufId) : (s.modPort p f).entryOf x = s.entryOf x := rfl
@[simp] theorem State.modPort_bufAddr (p : PortId) (f : Port → Port) (s : State) (x : BufId) : (s.modPort p f).bufAddr x = s.bufAddr x := rfl
@[simp] theorem State.modPort_quota (p : PortId) (f : Port → Port) (s : State) (i : PortId) (r : PoolId) : (s.modPort p f).quota i r = s.quota i r := rfl
@[simp] theorem State.modPort_caching (p : PortId) (f : Port → Port) (s : State) (i : PortId) : (s.modPort p f).caching i = s.caching i := rfl
@[simp] theorem State.modPort_handleOf (p : PortId) (f : Port → Port) (s : State) (x : BufId) : (s.modPort p f).handleOf x = s.handleOf x := rfl
@[simp] theorem State.modPort_charge (p : PortId) (f : Port → Port) (s : State) (i : PortId) (r : PoolId) : (s.modPort p f).charge i r = s.charge i r := rfl
@[simp] theorem State.modPort_owned (p : PortId) (f : Port → Port) (s : State) (x : BufId) : (s.modPort p f).owned x = s.owned x := rfl

/-! ### mapPorts -/

@[simp] theorem State.mapPorts_mapState (f : PortId → Port → Port) (s : State) : (s.mapPorts f).mapState = s.mapState := rfl
@[simp] theorem State.mapPorts_reason (f : PortId → Port → Port) (s : State) : (s.mapPorts f).reason = s.reason := rfl
@[simp] theorem State.mapPorts_map (f : PortId → Port → Port) (s : State) : (s.mapPorts f).map = s.map := rfl
@[simp] theorem State.mapPorts_records (f : PortId → Port → Port) (s : State) : (s.mapPorts f).records = s.records := rfl
@[simp] theorem State.mapPorts_pools (f : PortId → Port → Port) (s : State) : (s.mapPorts f).pools = s.pools := rfl
@[simp] theorem State.mapPorts_destRes (f : PortId → Port → Port) (s : State) : (s.mapPorts f).destRes = s.destRes := rfl
@[simp] theorem State.mapPorts_yields (f : PortId → Port → Port) (s : State) : (s.mapPorts f).yields = s.yields := rfl
@[simp] theorem State.mapPorts_mover (f : PortId → Port → Port) (s : State) : (s.mapPorts f).mover = s.mover := rfl
@[simp] theorem State.mapPorts_now (f : PortId → Port → Port) (s : State) : (s.mapPorts f).now = s.now := rfl
@[simp] theorem State.mapPorts_freeCount (f : PortId → Port → Port) (s : State) : (s.mapPorts f).freeCount = s.freeCount := rfl
@[simp] theorem State.mapPorts_pending (f : PortId → Port → Port) (s : State) : (s.mapPorts f).pending = s.pending := rfl
@[simp] theorem State.mapPorts_record (f : PortId → Port → Port) (s : State) (x : BufId) : (s.mapPorts f).record x = s.record x := rfl
@[simp] theorem State.mapPorts_pool (f : PortId → Port → Port) (s : State) (r : PoolId) : (s.mapPorts f).pool r = s.pool r := rfl
@[simp] theorem State.mapPorts_theMap (f : PortId → Port → Port) (s : State) : (s.mapPorts f).theMap = s.theMap := rfl
@[simp] theorem State.mapPorts_cfg (f : PortId → Port → Port) (s : State) (i : PortId) : (s.mapPorts f).cfg i = s.cfg i := rfl
@[simp] theorem State.mapPorts_poolEntry (f : PortId → Port → Port) (s : State) (r : PoolId) : (s.mapPorts f).poolEntry r = s.poolEntry r := rfl
@[simp] theorem State.mapPorts_poolOf (f : PortId → Port → Port) (s : State) (x : BufId) : (s.mapPorts f).poolOf x = s.poolOf x := rfl
@[simp] theorem State.mapPorts_entryOf (f : PortId → Port → Port) (s : State) (x : BufId) : (s.mapPorts f).entryOf x = s.entryOf x := rfl
@[simp] theorem State.mapPorts_bufAddr (f : PortId → Port → Port) (s : State) (x : BufId) : (s.mapPorts f).bufAddr x = s.bufAddr x := rfl
@[simp] theorem State.mapPorts_quota (f : PortId → Port → Port) (s : State) (i : PortId) (r : PoolId) : (s.mapPorts f).quota i r = s.quota i r := rfl
@[simp] theorem State.mapPorts_caching (f : PortId → Port → Port) (s : State) (i : PortId) : (s.mapPorts f).caching i = s.caching i := rfl
@[simp] theorem State.mapPorts_handleOf (f : PortId → Port → Port) (s : State) (x : BufId) : (s.mapPorts f).handleOf x = s.handleOf x := rfl
@[simp] theorem State.mapPorts_charge (f : PortId → Port → Port) (s : State) (i : PortId) (r : PoolId) : (s.mapPorts f).charge i r = s.charge i r := rfl
@[simp] theorem State.mapPorts_owned (f : PortId → Port → Port) (s : State) (x : BufId) : (s.mapPorts f).owned x = s.owned x := rfl

/-! ### modRecord -/

@[simp] theorem State.modRecord_mapState (b : BufId) (f : Record → Record) (s : State) : (s.modRecord b f).mapState = s.mapState := rfl
@[simp] theorem State.modRecord_reason (b : BufId) (f : Record → Record) (s : State) : (s.modRecord b f).reason = s.reason := rfl
@[simp] theorem State.modRecord_map (b : BufId) (f : Record → Record) (s : State) : (s.modRecord b f).map = s.map := rfl
@[simp] theorem State.modRecord_ports (b : BufId) (f : Record → Record) (s : State) : (s.modRecord b f).ports = s.ports := rfl
@[simp] theorem State.modRecord_pools (b : BufId) (f : Record → Record) (s : State) : (s.modRecord b f).pools = s.pools := rfl
@[simp] theorem State.modRecord_destRes (b : BufId) (f : Record → Record) (s : State) : (s.modRecord b f).destRes = s.destRes := rfl
@[simp] theorem State.modRecord_yields (b : BufId) (f : Record → Record) (s : State) : (s.modRecord b f).yields = s.yields := rfl
@[simp] theorem State.modRecord_mover (b : BufId) (f : Record → Record) (s : State) : (s.modRecord b f).mover = s.mover := rfl
@[simp] theorem State.modRecord_now (b : BufId) (f : Record → Record) (s : State) : (s.modRecord b f).now = s.now := rfl
@[simp] theorem State.modRecord_freeCount (b : BufId) (f : Record → Record) (s : State) : (s.modRecord b f).freeCount = s.freeCount := rfl
@[simp] theorem State.modRecord_pending (b : BufId) (f : Record → Record) (s : State) : (s.modRecord b f).pending = s.pending := rfl
@[simp] theorem State.modRecord_port (b : BufId) (f : Record → Record) (s : State) (i : PortId) : (s.modRecord b f).port i = s.port i := rfl
@[simp] theorem State.modRecord_pool (b : BufId) (f : Record → Record) (s : State) (r : PoolId) : (s.modRecord b f).pool r = s.pool r := rfl
@[simp] theorem State.modRecord_theMap (b : BufId) (f : Record → Record) (s : State) : (s.modRecord b f).theMap = s.theMap := rfl
@[simp] theorem State.modRecord_cfg (b : BufId) (f : Record → Record) (s : State) (i : PortId) : (s.modRecord b f).cfg i = s.cfg i := rfl
@[simp] theorem State.modRecord_poolEntry (b : BufId) (f : Record → Record) (s : State) (r : PoolId) : (s.modRecord b f).poolEntry r = s.poolEntry r := rfl
@[simp] theorem State.modRecord_poolOf (b : BufId) (f : Record → Record) (s : State) (x : BufId) : (s.modRecord b f).poolOf x = s.poolOf x := rfl
@[simp] theorem State.modRecord_entryOf (b : BufId) (f : Record → Record) (s : State) (x : BufId) : (s.modRecord b f).entryOf x = s.entryOf x := rfl
@[simp] theorem State.modRecord_bufAddr (b : BufId) (f : Record → Record) (s : State) (x : BufId) : (s.modRecord b f).bufAddr x = s.bufAddr x := rfl
@[simp] theorem State.modRecord_quota (b : BufId) (f : Record → Record) (s : State) (i : PortId) (r : PoolId) : (s.modRecord b f).quota i r = s.quota i r := rfl
@[simp] theorem State.modRecord_active (b : BufId) (f : Record → Record) (s : State) (i : PortId) : (s.modRecord b f).active i = s.active i := rfl
@[simp] theorem State.modRecord_fenced (b : BufId) (f : Record → Record) (s : State) (i : PortId) : (s.modRecord b f).fenced i = s.fenced i := rfl
@[simp] theorem State.modRecord_caching (b : BufId) (f : Record → Record) (s : State) (i : PortId) : (s.modRecord b f).caching i = s.caching i := rfl
@[simp] theorem State.modRecord_charge (b : BufId) (f : Record → Record) (s : State) (i : PortId) (r : PoolId) : (s.modRecord b f).charge i r = s.charge i r := rfl

/-! ### setCustody -/

@[simp] theorem State.setCustody_mapState (b : BufId) (c : Custody) (s : State) : (s.setCustody b c).mapState = s.mapState := rfl
@[simp] theorem State.setCustody_reason (b : BufId) (c : Custody) (s : State) : (s.setCustody b c).reason = s.reason := rfl
@[simp] theorem State.setCustody_map (b : BufId) (c : Custody) (s : State) : (s.setCustody b c).map = s.map := rfl
@[simp] theorem State.setCustody_ports (b : BufId) (c : Custody) (s : State) : (s.setCustody b c).ports = s.ports := rfl
@[simp] theorem State.setCustody_pools (b : BufId) (c : Custody) (s : State) : (s.setCustody b c).pools = s.pools := rfl
@[simp] theorem State.setCustody_destRes (b : BufId) (c : Custody) (s : State) : (s.setCustody b c).destRes = s.destRes := rfl
@[simp] theorem State.setCustody_yields (b : BufId) (c : Custody) (s : State) : (s.setCustody b c).yields = s.yields := rfl
@[simp] theorem State.setCustody_mover (b : BufId) (c : Custody) (s : State) : (s.setCustody b c).mover = s.mover := rfl
@[simp] theorem State.setCustody_now (b : BufId) (c : Custody) (s : State) : (s.setCustody b c).now = s.now := rfl
@[simp] theorem State.setCustody_freeCount (b : BufId) (c : Custody) (s : State) : (s.setCustody b c).freeCount = s.freeCount := rfl
@[simp] theorem State.setCustody_pending (b : BufId) (c : Custody) (s : State) : (s.setCustody b c).pending = s.pending := rfl
@[simp] theorem State.setCustody_port (b : BufId) (c : Custody) (s : State) (i : PortId) : (s.setCustody b c).port i = s.port i := rfl
@[simp] theorem State.setCustody_pool (b : BufId) (c : Custody) (s : State) (r : PoolId) : (s.setCustody b c).pool r = s.pool r := rfl
@[simp] theorem State.setCustody_theMap (b : BufId) (c : Custody) (s : State) : (s.setCustody b c).theMap = s.theMap := rfl
@[simp] theorem State.setCustody_cfg (b : BufId) (c : Custody) (s : State) (i : PortId) : (s.setCustody b c).cfg i = s.cfg i := rfl
@[simp] theorem State.setCustody_poolEntry (b : BufId) (c : Custody) (s : State) (r : PoolId) : (s.setCustody b c).poolEntry r = s.poolEntry r := rfl
@[simp] theorem State.setCustody_poolOf (b : BufId) (c : Custody) (s : State) (x : BufId) : (s.setCustody b c).poolOf x = s.poolOf x := rfl
@[simp] theorem State.setCustody_entryOf (b : BufId) (c : Custody) (s : State) (x : BufId) : (s.setCustody b c).entryOf x = s.entryOf x := rfl
@[simp] theorem State.setCustody_bufAddr (b : BufId) (c : Custody) (s : State) (x : BufId) : (s.setCustody b c).bufAddr x = s.bufAddr x := rfl
@[simp] theorem State.setCustody_quota (b : BufId) (c : Custody) (s : State) (i : PortId) (r : PoolId) : (s.setCustody b c).quota i r = s.quota i r := rfl
@[simp] theorem State.setCustody_active (b : BufId) (c : Custody) (s : State) (i : PortId) : (s.setCustody b c).active i = s.active i := rfl
@[simp] theorem State.setCustody_fenced (b : BufId) (c : Custody) (s : State) (i : PortId) : (s.setCustody b c).fenced i = s.fenced i := rfl
@[simp] theorem State.setCustody_caching (b : BufId) (c : Custody) (s : State) (i : PortId) : (s.setCustody b c).caching i = s.caching i := rfl
@[simp] theorem State.setCustody_charge (b : BufId) (c : Custody) (s : State) (i : PortId) (r : PoolId) : (s.setCustody b c).charge i r = s.charge i r := rfl

/-! ### modPool -/

@[simp] theorem State.modPool_mapState (q : PoolId) (f : PoolState → PoolState) (s : State) : (s.modPool q f).mapState = s.mapState := rfl
@[simp] theorem State.modPool_reason (q : PoolId) (f : PoolState → PoolState) (s : State) : (s.modPool q f).reason = s.reason := rfl
@[simp] theorem State.modPool_map (q : PoolId) (f : PoolState → PoolState) (s : State) : (s.modPool q f).map = s.map := rfl
@[simp] theorem State.modPool_ports (q : PoolId) (f : PoolState → PoolState) (s : State) : (s.modPool q f).ports = s.ports := rfl
@[simp] theorem State.modPool_records (q : PoolId) (f : PoolState → PoolState) (s : State) : (s.modPool q f).records = s.records := rfl
@[simp] theorem State.modPool_destRes (q : PoolId) (f : PoolState → PoolState) (s : State) : (s.modPool q f).destRes = s.destRes := rfl
@[simp] theorem State.modPool_yields (q : PoolId) (f : PoolState → PoolState) (s : State) : (s.modPool q f).yields = s.yields := rfl
@[simp] theorem State.modPool_mover (q : PoolId) (f : PoolState → PoolState) (s : State) : (s.modPool q f).mover = s.mover := rfl
@[simp] theorem State.modPool_now (q : PoolId) (f : PoolState → PoolState) (s : State) : (s.modPool q f).now = s.now := rfl
@[simp] theorem State.modPool_freeCount (q : PoolId) (f : PoolState → PoolState) (s : State) : (s.modPool q f).freeCount = s.freeCount := rfl
@[simp] theorem State.modPool_pending (q : PoolId) (f : PoolState → PoolState) (s : State) : (s.modPool q f).pending = s.pending := rfl
@[simp] theorem State.modPool_port (q : PoolId) (f : PoolState → PoolState) (s : State) (i : PortId) : (s.modPool q f).port i = s.port i := rfl
@[simp] theorem State.modPool_record (q : PoolId) (f : PoolState → PoolState) (s : State) (x : BufId) : (s.modPool q f).record x = s.record x := rfl
@[simp] theorem State.modPool_theMap (q : PoolId) (f : PoolState → PoolState) (s : State) : (s.modPool q f).theMap = s.theMap := rfl
@[simp] theorem State.modPool_cfg (q : PoolId) (f : PoolState → PoolState) (s : State) (i : PortId) : (s.modPool q f).cfg i = s.cfg i := rfl
@[simp] theorem State.modPool_poolEntry (q : PoolId) (f : PoolState → PoolState) (s : State) (r : PoolId) : (s.modPool q f).poolEntry r = s.poolEntry r := rfl
@[simp] theorem State.modPool_poolOf (q : PoolId) (f : PoolState → PoolState) (s : State) (x : BufId) : (s.modPool q f).poolOf x = s.poolOf x := rfl
@[simp] theorem State.modPool_entryOf (q : PoolId) (f : PoolState → PoolState) (s : State) (x : BufId) : (s.modPool q f).entryOf x = s.entryOf x := rfl
@[simp] theorem State.modPool_bufAddr (q : PoolId) (f : PoolState → PoolState) (s : State) (x : BufId) : (s.modPool q f).bufAddr x = s.bufAddr x := rfl
@[simp] theorem State.modPool_quota (q : PoolId) (f : PoolState → PoolState) (s : State) (i : PortId) (r : PoolId) : (s.modPool q f).quota i r = s.quota i r := rfl
@[simp] theorem State.modPool_active (q : PoolId) (f : PoolState → PoolState) (s : State) (i : PortId) : (s.modPool q f).active i = s.active i := rfl
@[simp] theorem State.modPool_fenced (q : PoolId) (f : PoolState → PoolState) (s : State) (i : PortId) : (s.modPool q f).fenced i = s.fenced i := rfl
@[simp] theorem State.modPool_caching (q : PoolId) (f : PoolState → PoolState) (s : State) (i : PortId) : (s.modPool q f).caching i = s.caching i := rfl
@[simp] theorem State.modPool_handleOf (q : PoolId) (f : PoolState → PoolState) (s : State) (x : BufId) : (s.modPool q f).handleOf x = s.handleOf x := rfl
@[simp] theorem State.modPool_owned (q : PoolId) (f : PoolState → PoolState) (s : State) (x : BufId) : (s.modPool q f).owned x = s.owned x := rfl

/-! ### modYields -/

@[simp] theorem State.modYields_mapState (f : YieldUnit → YieldUnit) (s : State) : (s.modYields f).mapState = s.mapState := rfl
@[simp] theorem State.modYields_reason (f : YieldUnit → YieldUnit) (s : State) : (s.modYields f).reason = s.reason := rfl
@[simp] theorem State.modYields_map (f : YieldUnit → YieldUnit) (s : State) : (s.modYields f).map = s.map := rfl
@[simp] theorem State.modYields_ports (f : YieldUnit → YieldUnit) (s : State) : (s.modYields f).ports = s.ports := rfl
@[simp] theorem State.modYields_records (f : YieldUnit → YieldUnit) (s : State) : (s.modYields f).records = s.records := rfl
@[simp] theorem State.modYields_pools (f : YieldUnit → YieldUnit) (s : State) : (s.modYields f).pools = s.pools := rfl
@[simp] theorem State.modYields_destRes (f : YieldUnit → YieldUnit) (s : State) : (s.modYields f).destRes = s.destRes := rfl
@[simp] theorem State.modYields_mover (f : YieldUnit → YieldUnit) (s : State) : (s.modYields f).mover = s.mover := rfl
@[simp] theorem State.modYields_now (f : YieldUnit → YieldUnit) (s : State) : (s.modYields f).now = s.now := rfl
@[simp] theorem State.modYields_freeCount (f : YieldUnit → YieldUnit) (s : State) : (s.modYields f).freeCount = s.freeCount := rfl
@[simp] theorem State.modYields_pending (f : YieldUnit → YieldUnit) (s : State) : (s.modYields f).pending = s.pending := rfl
@[simp] theorem State.modYields_port (f : YieldUnit → YieldUnit) (s : State) (i : PortId) : (s.modYields f).port i = s.port i := rfl
@[simp] theorem State.modYields_record (f : YieldUnit → YieldUnit) (s : State) (x : BufId) : (s.modYields f).record x = s.record x := rfl
@[simp] theorem State.modYields_pool (f : YieldUnit → YieldUnit) (s : State) (r : PoolId) : (s.modYields f).pool r = s.pool r := rfl
@[simp] theorem State.modYields_theMap (f : YieldUnit → YieldUnit) (s : State) : (s.modYields f).theMap = s.theMap := rfl
@[simp] theorem State.modYields_cfg (f : YieldUnit → YieldUnit) (s : State) (i : PortId) : (s.modYields f).cfg i = s.cfg i := rfl
@[simp] theorem State.modYields_poolEntry (f : YieldUnit → YieldUnit) (s : State) (r : PoolId) : (s.modYields f).poolEntry r = s.poolEntry r := rfl
@[simp] theorem State.modYields_poolOf (f : YieldUnit → YieldUnit) (s : State) (x : BufId) : (s.modYields f).poolOf x = s.poolOf x := rfl
@[simp] theorem State.modYields_entryOf (f : YieldUnit → YieldUnit) (s : State) (x : BufId) : (s.modYields f).entryOf x = s.entryOf x := rfl
@[simp] theorem State.modYields_bufAddr (f : YieldUnit → YieldUnit) (s : State) (x : BufId) : (s.modYields f).bufAddr x = s.bufAddr x := rfl
@[simp] theorem State.modYields_quota (f : YieldUnit → YieldUnit) (s : State) (i : PortId) (r : PoolId) : (s.modYields f).quota i r = s.quota i r := rfl
@[simp] theorem State.modYields_active (f : YieldUnit → YieldUnit) (s : State) (i : PortId) : (s.modYields f).active i = s.active i := rfl
@[simp] theorem State.modYields_fenced (f : YieldUnit → YieldUnit) (s : State) (i : PortId) : (s.modYields f).fenced i = s.fenced i := rfl
@[simp] theorem State.modYields_caching (f : YieldUnit → YieldUnit) (s : State) (i : PortId) : (s.modYields f).caching i = s.caching i := rfl
@[simp] theorem State.modYields_handleOf (f : YieldUnit → YieldUnit) (s : State) (x : BufId) : (s.modYields f).handleOf x = s.handleOf x := rfl
@[simp] theorem State.modYields_charge (f : YieldUnit → YieldUnit) (s : State) (i : PortId) (r : PoolId) : (s.modYields f).charge i r = s.charge i r := rfl
@[simp] theorem State.modYields_owned (f : YieldUnit → YieldUnit) (s : State) (x : BufId) : (s.modYields f).owned x = s.owned x := rfl

/-! ### modMover -/

@[simp] theorem State.modMover_mapState (f : Mover → Mover) (s : State) : (s.modMover f).mapState = s.mapState := rfl
@[simp] theorem State.modMover_reason (f : Mover → Mover) (s : State) : (s.modMover f).reason = s.reason := rfl
@[simp] theorem State.modMover_map (f : Mover → Mover) (s : State) : (s.modMover f).map = s.map := rfl
@[simp] theorem State.modMover_ports (f : Mover → Mover) (s : State) : (s.modMover f).ports = s.ports := rfl
@[simp] theorem State.modMover_records (f : Mover → Mover) (s : State) : (s.modMover f).records = s.records := rfl
@[simp] theorem State.modMover_pools (f : Mover → Mover) (s : State) : (s.modMover f).pools = s.pools := rfl
@[simp] theorem State.modMover_destRes (f : Mover → Mover) (s : State) : (s.modMover f).destRes = s.destRes := rfl
@[simp] theorem State.modMover_yields (f : Mover → Mover) (s : State) : (s.modMover f).yields = s.yields := rfl
@[simp] theorem State.modMover_now (f : Mover → Mover) (s : State) : (s.modMover f).now = s.now := rfl
@[simp] theorem State.modMover_freeCount (f : Mover → Mover) (s : State) : (s.modMover f).freeCount = s.freeCount := rfl
@[simp] theorem State.modMover_pending (f : Mover → Mover) (s : State) : (s.modMover f).pending = s.pending := rfl
@[simp] theorem State.modMover_port (f : Mover → Mover) (s : State) (i : PortId) : (s.modMover f).port i = s.port i := rfl
@[simp] theorem State.modMover_record (f : Mover → Mover) (s : State) (x : BufId) : (s.modMover f).record x = s.record x := rfl
@[simp] theorem State.modMover_pool (f : Mover → Mover) (s : State) (r : PoolId) : (s.modMover f).pool r = s.pool r := rfl
@[simp] theorem State.modMover_theMap (f : Mover → Mover) (s : State) : (s.modMover f).theMap = s.theMap := rfl
@[simp] theorem State.modMover_cfg (f : Mover → Mover) (s : State) (i : PortId) : (s.modMover f).cfg i = s.cfg i := rfl
@[simp] theorem State.modMover_poolEntry (f : Mover → Mover) (s : State) (r : PoolId) : (s.modMover f).poolEntry r = s.poolEntry r := rfl
@[simp] theorem State.modMover_poolOf (f : Mover → Mover) (s : State) (x : BufId) : (s.modMover f).poolOf x = s.poolOf x := rfl
@[simp] theorem State.modMover_entryOf (f : Mover → Mover) (s : State) (x : BufId) : (s.modMover f).entryOf x = s.entryOf x := rfl
@[simp] theorem State.modMover_bufAddr (f : Mover → Mover) (s : State) (x : BufId) : (s.modMover f).bufAddr x = s.bufAddr x := rfl
@[simp] theorem State.modMover_quota (f : Mover → Mover) (s : State) (i : PortId) (r : PoolId) : (s.modMover f).quota i r = s.quota i r := rfl
@[simp] theorem State.modMover_active (f : Mover → Mover) (s : State) (i : PortId) : (s.modMover f).active i = s.active i := rfl
@[simp] theorem State.modMover_fenced (f : Mover → Mover) (s : State) (i : PortId) : (s.modMover f).fenced i = s.fenced i := rfl
@[simp] theorem State.modMover_caching (f : Mover → Mover) (s : State) (i : PortId) : (s.modMover f).caching i = s.caching i := rfl
@[simp] theorem State.modMover_handleOf (f : Mover → Mover) (s : State) (x : BufId) : (s.modMover f).handleOf x = s.handleOf x := rfl
@[simp] theorem State.modMover_charge (f : Mover → Mover) (s : State) (i : PortId) (r : PoolId) : (s.modMover f).charge i r = s.charge i r := rfl
@[simp] theorem State.modMover_owned (f : Mover → Mover) (s : State) (x : BufId) : (s.modMover f).owned x = s.owned x := rfl

/-! ### leaveWaiting -/

@[simp] theorem State.leaveWaiting_mapState (c : ChanId) (s : State) : (s.leaveWaiting c).mapState = s.mapState := rfl
@[simp] theorem State.leaveWaiting_reason (c : ChanId) (s : State) : (s.leaveWaiting c).reason = s.reason := rfl
@[simp] theorem State.leaveWaiting_map (c : ChanId) (s : State) : (s.leaveWaiting c).map = s.map := rfl
@[simp] theorem State.leaveWaiting_ports (c : ChanId) (s : State) : (s.leaveWaiting c).ports = s.ports := rfl
@[simp] theorem State.leaveWaiting_records (c : ChanId) (s : State) : (s.leaveWaiting c).records = s.records := rfl
@[simp] theorem State.leaveWaiting_destRes (c : ChanId) (s : State) : (s.leaveWaiting c).destRes = s.destRes := rfl
@[simp] theorem State.leaveWaiting_yields (c : ChanId) (s : State) : (s.leaveWaiting c).yields = s.yields := rfl
@[simp] theorem State.leaveWaiting_mover (c : ChanId) (s : State) : (s.leaveWaiting c).mover = s.mover := rfl
@[simp] theorem State.leaveWaiting_now (c : ChanId) (s : State) : (s.leaveWaiting c).now = s.now := rfl
@[simp] theorem State.leaveWaiting_freeCount (c : ChanId) (s : State) : (s.leaveWaiting c).freeCount = s.freeCount := rfl
@[simp] theorem State.leaveWaiting_pending (c : ChanId) (s : State) : (s.leaveWaiting c).pending = s.pending := rfl
@[simp] theorem State.leaveWaiting_port (c : ChanId) (s : State) (i : PortId) : (s.leaveWaiting c).port i = s.port i := rfl
@[simp] theorem State.leaveWaiting_record (c : ChanId) (s : State) (x : BufId) : (s.leaveWaiting c).record x = s.record x := rfl
@[simp] theorem State.leaveWaiting_theMap (c : ChanId) (s : State) : (s.leaveWaiting c).theMap = s.theMap := rfl
@[simp] theorem State.leaveWaiting_cfg (c : ChanId) (s : State) (i : PortId) : (s.leaveWaiting c).cfg i = s.cfg i := rfl
@[simp] theorem State.leaveWaiting_poolEntry (c : ChanId) (s : State) (r : PoolId) : (s.leaveWaiting c).poolEntry r = s.poolEntry r := rfl
@[simp] theorem State.leaveWaiting_poolOf (c : ChanId) (s : State) (x : BufId) : (s.leaveWaiting c).poolOf x = s.poolOf x := rfl
@[simp] theorem State.leaveWaiting_entryOf (c : ChanId) (s : State) (x : BufId) : (s.leaveWaiting c).entryOf x = s.entryOf x := rfl
@[simp] theorem State.leaveWaiting_bufAddr (c : ChanId) (s : State) (x : BufId) : (s.leaveWaiting c).bufAddr x = s.bufAddr x := rfl
@[simp] theorem State.leaveWaiting_quota (c : ChanId) (s : State) (i : PortId) (r : PoolId) : (s.leaveWaiting c).quota i r = s.quota i r := rfl
@[simp] theorem State.leaveWaiting_active (c : ChanId) (s : State) (i : PortId) : (s.leaveWaiting c).active i = s.active i := rfl
@[simp] theorem State.leaveWaiting_fenced (c : ChanId) (s : State) (i : PortId) : (s.leaveWaiting c).fenced i = s.fenced i := rfl
@[simp] theorem State.leaveWaiting_caching (c : ChanId) (s : State) (i : PortId) : (s.leaveWaiting c).caching i = s.caching i := rfl
@[simp] theorem State.leaveWaiting_handleOf (c : ChanId) (s : State) (x : BufId) : (s.leaveWaiting c).handleOf x = s.handleOf x := rfl
@[simp] theorem State.leaveWaiting_owned (c : ChanId) (s : State) (x : BufId) : (s.leaveWaiting c).owned x = s.owned x := rfl

/-! ### chargeUp -/

@[simp] theorem State.chargeUp_mapState (p : PortId) (q : PoolId) (s : State) : (s.chargeUp p q).mapState = s.mapState := rfl
@[simp] theorem State.chargeUp_reason (p : PortId) (q : PoolId) (s : State) : (s.chargeUp p q).reason = s.reason := rfl
@[simp] theorem State.chargeUp_map (p : PortId) (q : PoolId) (s : State) : (s.chargeUp p q).map = s.map := rfl
@[simp] theorem State.chargeUp_ports (p : PortId) (q : PoolId) (s : State) : (s.chargeUp p q).ports = s.ports := rfl
@[simp] theorem State.chargeUp_records (p : PortId) (q : PoolId) (s : State) : (s.chargeUp p q).records = s.records := rfl
@[simp] theorem State.chargeUp_destRes (p : PortId) (q : PoolId) (s : State) : (s.chargeUp p q).destRes = s.destRes := rfl
@[simp] theorem State.chargeUp_yields (p : PortId) (q : PoolId) (s : State) : (s.chargeUp p q).yields = s.yields := rfl
@[simp] theorem State.chargeUp_mover (p : PortId) (q : PoolId) (s : State) : (s.chargeUp p q).mover = s.mover := rfl
@[simp] theorem State.chargeUp_now (p : PortId) (q : PoolId) (s : State) : (s.chargeUp p q).now = s.now := rfl
@[simp] theorem State.chargeUp_freeCount (p : PortId) (q : PoolId) (s : State) : (s.chargeUp p q).freeCount = s.freeCount := rfl
@[simp] theorem State.chargeUp_pending (p : PortId) (q : PoolId) (s : State) : (s.chargeUp p q).pending = s.pending := rfl
@[simp] theorem State.chargeUp_port (p : PortId) (q : PoolId) (s : State) (i : PortId) : (s.chargeUp p q).port i = s.port i := rfl
@[simp] theorem State.chargeUp_record (p : PortId) (q : PoolId) (s : State) (x : BufId) : (s.chargeUp p q).record x = s.record x := rfl
@[simp] theorem State.chargeUp_theMap (p : PortId) (q : PoolId) (s : State) : (s.chargeUp p q).theMap = s.theMap := rfl
@[simp] theorem State.chargeUp_cfg (p : PortId) (q : PoolId) (s : State) (i : PortId) : (s.chargeUp p q).cfg i = s.cfg i := rfl
@[simp] theorem State.chargeUp_poolEntry (p : PortId) (q : PoolId) (s : State) (r : PoolId) : (s.chargeUp p q).poolEntry r = s.poolEntry r := rfl
@[simp] theorem State.chargeUp_poolOf (p : PortId) (q : PoolId) (s : State) (x : BufId) : (s.chargeUp p q).poolOf x = s.poolOf x := rfl
@[simp] theorem State.chargeUp_entryOf (p : PortId) (q : PoolId) (s : State) (x : BufId) : (s.chargeUp p q).entryOf x = s.entryOf x := rfl
@[simp] theorem State.chargeUp_bufAddr (p : PortId) (q : PoolId) (s : State) (x : BufId) : (s.chargeUp p q).bufAddr x = s.bufAddr x := rfl
@[simp] theorem State.chargeUp_quota (p : PortId) (q : PoolId) (s : State) (i : PortId) (r : PoolId) : (s.chargeUp p q).quota i r = s.quota i r := rfl
@[simp] theorem State.chargeUp_active (p : PortId) (q : PoolId) (s : State) (i : PortId) : (s.chargeUp p q).active i = s.active i := rfl
@[simp] theorem State.chargeUp_fenced (p : PortId) (q : PoolId) (s : State) (i : PortId) : (s.chargeUp p q).fenced i = s.fenced i := rfl
@[simp] theorem State.chargeUp_caching (p : PortId) (q : PoolId) (s : State) (i : PortId) : (s.chargeUp p q).caching i = s.caching i := rfl
@[simp] theorem State.chargeUp_handleOf (p : PortId) (q : PoolId) (s : State) (x : BufId) : (s.chargeUp p q).handleOf x = s.handleOf x := rfl
@[simp] theorem State.chargeUp_owned (p : PortId) (q : PoolId) (s : State) (x : BufId) : (s.chargeUp p q).owned x = s.owned x := rfl

/-! ### chargeDown -/

@[simp] theorem State.chargeDown_mapState (p : PortId) (q : PoolId) (s : State) : (s.chargeDown p q).mapState = s.mapState := rfl
@[simp] theorem State.chargeDown_reason (p : PortId) (q : PoolId) (s : State) : (s.chargeDown p q).reason = s.reason := rfl
@[simp] theorem State.chargeDown_map (p : PortId) (q : PoolId) (s : State) : (s.chargeDown p q).map = s.map := rfl
@[simp] theorem State.chargeDown_ports (p : PortId) (q : PoolId) (s : State) : (s.chargeDown p q).ports = s.ports := rfl
@[simp] theorem State.chargeDown_records (p : PortId) (q : PoolId) (s : State) : (s.chargeDown p q).records = s.records := rfl
@[simp] theorem State.chargeDown_destRes (p : PortId) (q : PoolId) (s : State) : (s.chargeDown p q).destRes = s.destRes := rfl
@[simp] theorem State.chargeDown_yields (p : PortId) (q : PoolId) (s : State) : (s.chargeDown p q).yields = s.yields := rfl
@[simp] theorem State.chargeDown_mover (p : PortId) (q : PoolId) (s : State) : (s.chargeDown p q).mover = s.mover := rfl
@[simp] theorem State.chargeDown_now (p : PortId) (q : PoolId) (s : State) : (s.chargeDown p q).now = s.now := rfl
@[simp] theorem State.chargeDown_freeCount (p : PortId) (q : PoolId) (s : State) : (s.chargeDown p q).freeCount = s.freeCount := rfl
@[simp] theorem State.chargeDown_pending (p : PortId) (q : PoolId) (s : State) : (s.chargeDown p q).pending = s.pending := rfl
@[simp] theorem State.chargeDown_port (p : PortId) (q : PoolId) (s : State) (i : PortId) : (s.chargeDown p q).port i = s.port i := rfl
@[simp] theorem State.chargeDown_record (p : PortId) (q : PoolId) (s : State) (x : BufId) : (s.chargeDown p q).record x = s.record x := rfl
@[simp] theorem State.chargeDown_theMap (p : PortId) (q : PoolId) (s : State) : (s.chargeDown p q).theMap = s.theMap := rfl
@[simp] theorem State.chargeDown_cfg (p : PortId) (q : PoolId) (s : State) (i : PortId) : (s.chargeDown p q).cfg i = s.cfg i := rfl
@[simp] theorem State.chargeDown_poolEntry (p : PortId) (q : PoolId) (s : State) (r : PoolId) : (s.chargeDown p q).poolEntry r = s.poolEntry r := rfl
@[simp] theorem State.chargeDown_poolOf (p : PortId) (q : PoolId) (s : State) (x : BufId) : (s.chargeDown p q).poolOf x = s.poolOf x := rfl
@[simp] theorem State.chargeDown_entryOf (p : PortId) (q : PoolId) (s : State) (x : BufId) : (s.chargeDown p q).entryOf x = s.entryOf x := rfl
@[simp] theorem State.chargeDown_bufAddr (p : PortId) (q : PoolId) (s : State) (x : BufId) : (s.chargeDown p q).bufAddr x = s.bufAddr x := rfl
@[simp] theorem State.chargeDown_quota (p : PortId) (q : PoolId) (s : State) (i : PortId) (r : PoolId) : (s.chargeDown p q).quota i r = s.quota i r := rfl
@[simp] theorem State.chargeDown_active (p : PortId) (q : PoolId) (s : State) (i : PortId) : (s.chargeDown p q).active i = s.active i := rfl
@[simp] theorem State.chargeDown_fenced (p : PortId) (q : PoolId) (s : State) (i : PortId) : (s.chargeDown p q).fenced i = s.fenced i := rfl
@[simp] theorem State.chargeDown_caching (p : PortId) (q : PoolId) (s : State) (i : PortId) : (s.chargeDown p q).caching i = s.caching i := rfl
@[simp] theorem State.chargeDown_handleOf (p : PortId) (q : PoolId) (s : State) (x : BufId) : (s.chargeDown p q).handleOf x = s.handleOf x := rfl
@[simp] theorem State.chargeDown_owned (p : PortId) (q : PoolId) (s : State) (x : BufId) : (s.chargeDown p q).owned x = s.owned x := rfl

/-! ### tick -/

@[simp] theorem State.tick_mapState (s : State) : (s.tick).mapState = s.mapState := rfl
@[simp] theorem State.tick_reason (s : State) : (s.tick).reason = s.reason := rfl
@[simp] theorem State.tick_map (s : State) : (s.tick).map = s.map := rfl
@[simp] theorem State.tick_ports (s : State) : (s.tick).ports = s.ports := rfl
@[simp] theorem State.tick_records (s : State) : (s.tick).records = s.records := rfl
@[simp] theorem State.tick_pools (s : State) : (s.tick).pools = s.pools := rfl
@[simp] theorem State.tick_destRes (s : State) : (s.tick).destRes = s.destRes := rfl
@[simp] theorem State.tick_yields (s : State) : (s.tick).yields = s.yields := rfl
@[simp] theorem State.tick_mover (s : State) : (s.tick).mover = s.mover := rfl
@[simp] theorem State.tick_freeCount (s : State) : (s.tick).freeCount = s.freeCount := rfl
@[simp] theorem State.tick_pending (s : State) : (s.tick).pending = s.pending := rfl
@[simp] theorem State.tick_port (s : State) (i : PortId) : (s.tick).port i = s.port i := rfl
@[simp] theorem State.tick_record (s : State) (x : BufId) : (s.tick).record x = s.record x := rfl
@[simp] theorem State.tick_pool (s : State) (r : PoolId) : (s.tick).pool r = s.pool r := rfl
@[simp] theorem State.tick_theMap (s : State) : (s.tick).theMap = s.theMap := rfl
@[simp] theorem State.tick_cfg (s : State) (i : PortId) : (s.tick).cfg i = s.cfg i := rfl
@[simp] theorem State.tick_poolEntry (s : State) (r : PoolId) : (s.tick).poolEntry r = s.poolEntry r := rfl
@[simp] theorem State.tick_poolOf (s : State) (x : BufId) : (s.tick).poolOf x = s.poolOf x := rfl
@[simp] theorem State.tick_entryOf (s : State) (x : BufId) : (s.tick).entryOf x = s.entryOf x := rfl
@[simp] theorem State.tick_bufAddr (s : State) (x : BufId) : (s.tick).bufAddr x = s.bufAddr x := rfl
@[simp] theorem State.tick_quota (s : State) (i : PortId) (r : PoolId) : (s.tick).quota i r = s.quota i r := rfl
@[simp] theorem State.tick_active (s : State) (i : PortId) : (s.tick).active i = s.active i := rfl
@[simp] theorem State.tick_fenced (s : State) (i : PortId) : (s.tick).fenced i = s.fenced i := rfl
@[simp] theorem State.tick_caching (s : State) (i : PortId) : (s.tick).caching i = s.caching i := rfl
@[simp] theorem State.tick_handleOf (s : State) (x : BufId) : (s.tick).handleOf x = s.handleOf x := rfl
@[simp] theorem State.tick_charge (s : State) (i : PortId) (r : PoolId) : (s.tick).charge i r = s.charge i r := rfl
@[simp] theorem State.tick_owned (s : State) (x : BufId) : (s.tick).owned x = s.owned x := rfl

/-! ### What a read of the part written gives -/

@[simp] theorem State.modPort_port_same (p : PortId) (f : Port → Port) (s : State) : (s.modPort p f).port p = f (s.port p) := by
  simp [State.port, State.modPort]

theorem State.modPort_port (p i : PortId) (f : Port → Port) (s : State) :
    (s.modPort p f).port i = if i = p then f (s.port i) else s.port i := by
  by_cases h : i = p
  · subst h
    simp
  · simp [State.port, State.modPort, h]

@[simp] theorem State.modPort_port_ne {p i : PortId} (f : Port → Port) (s : State) (h : i ≠ p) :
    (s.modPort p f).port i = s.port i := by
  rw [State.modPort_port, if_neg h]

@[simp] theorem State.mapPorts_port (f : PortId → Port → Port) (s : State) (i : PortId) : (s.mapPorts f).port i = f i (s.port i) := by
  simp [State.port, State.mapPorts]

@[simp] theorem State.modPort_modPort (p : PortId) (f g : Port → Port) (s : State) :
    (s.modPort p f).modPort p g = s.modPort p (fun P => g (f P)) := by
  simp [State.modPort]

theorem State.modRecord_record (b x : BufId) (f : Record → Record) (s : State) :
    (s.modRecord b f).record x = if x = b ∧ b < s.records.length then f (s.record x) else s.record x := by
  simp only [State.record, State.modRecord, List.getD_eq_getElem?_getD, List.getElem?_modify]
  by_cases h : x = b
  · subst h
    by_cases hx : x < s.records.length
    · simp [hx]
    · simp [hx]
  · have h' : ¬ b = x := fun e => h e.symm
    cases hx : s.records[x]? <;> simp [h, h']

theorem State.setCustody_record (b x : BufId) (c : Custody) (s : State) :
    (s.setCustody b c).record x = if x = b ∧ b < s.records.length then { s.record x with custody := c } else s.record x :=
  State.modRecord_record b x _ s

theorem State.modPool_pool (q r : PoolId) (f : PoolState → PoolState) (s : State) :
    (s.modPool q f).pool r = if r = q ∧ q < s.pools.length then f (s.pool r) else s.pool r := by
  simp only [State.pool, State.modPool, List.getD_eq_getElem?_getD, List.getElem?_modify]
  by_cases h : r = q
  · subst h
    by_cases hx : r < s.pools.length
    · simp [hx]
    · simp [hx]
  · have h' : ¬ q = r := fun e => h e.symm
    cases hx : s.pools[r]? <;> simp [h, h']

@[simp] theorem State.modRecord_records_length (b : BufId) (f : Record → Record) (s : State) :
    (s.modRecord b f).records.length = s.records.length := by
  simp [State.modRecord]

@[simp] theorem State.setCustody_records_length (b : BufId) (c : Custody) (s : State) :
    (s.setCustody b c).records.length = s.records.length := by
  simp [State.setCustody]

@[simp] theorem State.modPool_pools_length (q : PoolId) (f : PoolState → PoolState) (s : State) :
    (s.modPool q f).pools.length = s.pools.length := by
  simp [State.modPool]

@[simp] theorem State.modYields_yields (f : YieldUnit → YieldUnit) (s : State) : (s.modYields f).yields = f s.yields := rfl
@[simp] theorem State.modMover_mover (f : Mover → Mover) (s : State) : (s.modMover f).mover = f s.mover := rfl

@[simp] theorem State.port_active (p : PortId) (f : Port → Port) (s : State) (i : PortId) (h : ∀ P, (f P).state = P.state) :
    (s.modPort p f).active i = s.active i := by
  unfold State.active
  rw [State.modPort_port]
  split <;> simp [h]

end Machine
end Sys2Proof
end

