-- ==== Sys2Proof/Laws/Port.lean ====
section
/-!
SUPPORT. What each operation on a port leaves of the rest of the port: one lemma per field per operation.
-/
namespace Sys2Proof.Machine
open Sys2Proof

/-! ### raise -/

@[simp] theorem Port.raise_state (e : Event) (P : Port) : (P.raise e).state = P.state := rfl
@[simp] theorem Port.raise_mask (e : Event) (P : Port) : (P.raise e).mask = P.mask := rfl
@[simp] theorem Port.raise_attnRelease (e : Event) (P : Port) : (P.raise e).attnRelease = P.attnRelease := rfl
@[simp] theorem Port.raise_fault (e : Event) (P : Port) : (P.raise e).fault = P.fault := rfl
@[simp] theorem Port.raise_slots (e : Event) (P : Port) : (P.raise e).slots = P.slots := rfl
@[simp] theorem Port.raise_rotation (e : Event) (P : Port) : (P.raise e).rotation = P.rotation := rfl
@[simp] theorem Port.raise_recordTurn (e : Event) (P : Port) : (P.raise e).recordTurn = P.recordTurn := rfl
@[simp] theorem Port.raise_cmd (e : Event) (P : Port) : (P.raise e).cmd = P.cmd := rfl
@[simp] theorem Port.raise_arr (e : Event) (P : Port) : (P.raise e).arr = P.arr := rfl
@[simp] theorem Port.raise_inbox (e : Event) (P : Port) : (P.raise e).inbox = P.inbox := rfl

/-! ### writeEvents -/

@[simp] theorem Port.writeEvents_state (n : Nat) (w : Word) (P : Port) : (P.writeEvents n w).state = P.state := rfl
@[simp] theorem Port.writeEvents_mask (n : Nat) (w : Word) (P : Port) : (P.writeEvents n w).mask = P.mask := rfl
@[simp] theorem Port.writeEvents_fault (n : Nat) (w : Word) (P : Port) : (P.writeEvents n w).fault = P.fault := rfl
@[simp] theorem Port.writeEvents_slots (n : Nat) (w : Word) (P : Port) : (P.writeEvents n w).slots = P.slots := rfl
@[simp] theorem Port.writeEvents_rotation (n : Nat) (w : Word) (P : Port) : (P.writeEvents n w).rotation = P.rotation := rfl
@[simp] theorem Port.writeEvents_recordTurn (n : Nat) (w : Word) (P : Port) : (P.writeEvents n w).recordTurn = P.recordTurn := rfl
@[simp] theorem Port.writeEvents_cmd (n : Nat) (w : Word) (P : Port) : (P.writeEvents n w).cmd = P.cmd := rfl
@[simp] theorem Port.writeEvents_arr (n : Nat) (w : Word) (P : Port) : (P.writeEvents n w).arr = P.arr := rfl
@[simp] theorem Port.writeEvents_inbox (n : Nat) (w : Word) (P : Port) : (P.writeEvents n w).inbox = P.inbox := rfl

/-! ### writeMask -/

@[simp] theorem Port.writeMask_state (n : Nat) (w : Word) (P : Port) : (P.writeMask n w).state = P.state := rfl
@[simp] theorem Port.writeMask_events (n : Nat) (w : Word) (P : Port) : (P.writeMask n w).events = P.events := rfl
@[simp] theorem Port.writeMask_fault (n : Nat) (w : Word) (P : Port) : (P.writeMask n w).fault = P.fault := rfl
@[simp] theorem Port.writeMask_slots (n : Nat) (w : Word) (P : Port) : (P.writeMask n w).slots = P.slots := rfl
@[simp] theorem Port.writeMask_rotation (n : Nat) (w : Word) (P : Port) : (P.writeMask n w).rotation = P.rotation := rfl
@[simp] theorem Port.writeMask_recordTurn (n : Nat) (w : Word) (P : Port) : (P.writeMask n w).recordTurn = P.recordTurn := rfl
@[simp] theorem Port.writeMask_cmd (n : Nat) (w : Word) (P : Port) : (P.writeMask n w).cmd = P.cmd := rfl
@[simp] theorem Port.writeMask_arr (n : Nat) (w : Word) (P : Port) : (P.writeMask n w).arr = P.arr := rfl
@[simp] theorem Port.writeMask_inbox (n : Nat) (w : Word) (P : Port) : (P.writeMask n w).inbox = P.inbox := rfl

/-! ### endRelease -/

@[simp] theorem Port.endRelease_state (n : Nat) (P : Port) : (P.endRelease n).state = P.state := by unfold Port.endRelease; split <;> [split; skip] <;> rfl
@[simp] theorem Port.endRelease_events (n : Nat) (P : Port) : (P.endRelease n).events = P.events := by unfold Port.endRelease; split <;> [split; skip] <;> rfl
@[simp] theorem Port.endRelease_mask (n : Nat) (P : Port) : (P.endRelease n).mask = P.mask := by unfold Port.endRelease; split <;> [split; skip] <;> rfl
@[simp] theorem Port.endRelease_fault (n : Nat) (P : Port) : (P.endRelease n).fault = P.fault := by unfold Port.endRelease; split <;> [split; skip] <;> rfl
@[simp] theorem Port.endRelease_slots (n : Nat) (P : Port) : (P.endRelease n).slots = P.slots := by unfold Port.endRelease; split <;> [split; skip] <;> rfl
@[simp] theorem Port.endRelease_rotation (n : Nat) (P : Port) : (P.endRelease n).rotation = P.rotation := by unfold Port.endRelease; split <;> [split; skip] <;> rfl
@[simp] theorem Port.endRelease_recordTurn (n : Nat) (P : Port) : (P.endRelease n).recordTurn = P.recordTurn := by unfold Port.endRelease; split <;> [split; skip] <;> rfl
@[simp] theorem Port.endRelease_cmd (n : Nat) (P : Port) : (P.endRelease n).cmd = P.cmd := by unfold Port.endRelease; split <;> [split; skip] <;> rfl
@[simp] theorem Port.endRelease_arr (n : Nat) (P : Port) : (P.endRelease n).arr = P.arr := by unfold Port.endRelease; split <;> [split; skip] <;> rfl
@[simp] theorem Port.endRelease_inbox (n : Nat) (P : Port) : (P.endRelease n).inbox = P.inbox := by unfold Port.endRelease; split <;> [split; skip] <;> rfl

/-! ### recordFault -/

@[simp] theorem Port.recordFault_state (k : FaultKind) (a : Addr) (P : Port) : (P.recordFault k a).state = P.state := rfl
@[simp] theorem Port.recordFault_events (k : FaultKind) (a : Addr) (P : Port) : (P.recordFault k a).events = P.events := rfl
@[simp] theorem Port.recordFault_mask (k : FaultKind) (a : Addr) (P : Port) : (P.recordFault k a).mask = P.mask := rfl
@[simp] theorem Port.recordFault_attnRelease (k : FaultKind) (a : Addr) (P : Port) : (P.recordFault k a).attnRelease = P.attnRelease := rfl
@[simp] theorem Port.recordFault_slots (k : FaultKind) (a : Addr) (P : Port) : (P.recordFault k a).slots = P.slots := rfl
@[simp] theorem Port.recordFault_rotation (k : FaultKind) (a : Addr) (P : Port) : (P.recordFault k a).rotation = P.rotation := rfl
@[simp] theorem Port.recordFault_recordTurn (k : FaultKind) (a : Addr) (P : Port) : (P.recordFault k a).recordTurn = P.recordTurn := rfl
@[simp] theorem Port.recordFault_cmd (k : FaultKind) (a : Addr) (P : Port) : (P.recordFault k a).cmd = P.cmd := rfl
@[simp] theorem Port.recordFault_arr (k : FaultKind) (a : Addr) (P : Port) : (P.recordFault k a).arr = P.arr := rfl
@[simp] theorem Port.recordFault_inbox (k : FaultKind) (a : Addr) (P : Port) : (P.recordFault k a).inbox = P.inbox := rfl

/-! ### recordUnsolicited -/

@[simp] theorem Port.recordUnsolicited_state (x : UnsolSource) (n : Word) (P : Port) : (P.recordUnsolicited x n).state = P.state := rfl
@[simp] theorem Port.recordUnsolicited_events (x : UnsolSource) (n : Word) (P : Port) : (P.recordUnsolicited x n).events = P.events := rfl
@[simp] theorem Port.recordUnsolicited_mask (x : UnsolSource) (n : Word) (P : Port) : (P.recordUnsolicited x n).mask = P.mask := rfl
@[simp] theorem Port.recordUnsolicited_attnRelease (x : UnsolSource) (n : Word) (P : Port) : (P.recordUnsolicited x n).attnRelease = P.attnRelease := rfl
@[simp] theorem Port.recordUnsolicited_slots (x : UnsolSource) (n : Word) (P : Port) : (P.recordUnsolicited x n).slots = P.slots := rfl
@[simp] theorem Port.recordUnsolicited_rotation (x : UnsolSource) (n : Word) (P : Port) : (P.recordUnsolicited x n).rotation = P.rotation := rfl
@[simp] theorem Port.recordUnsolicited_recordTurn (x : UnsolSource) (n : Word) (P : Port) : (P.recordUnsolicited x n).recordTurn = P.recordTurn := rfl
@[simp] theorem Port.recordUnsolicited_cmd (x : UnsolSource) (n : Word) (P : Port) : (P.recordUnsolicited x n).cmd = P.cmd := rfl
@[simp] theorem Port.recordUnsolicited_arr (x : UnsolSource) (n : Word) (P : Port) : (P.recordUnsolicited x n).arr = P.arr := rfl
@[simp] theorem Port.recordUnsolicited_inbox (x : UnsolSource) (n : Word) (P : Port) : (P.recordUnsolicited x n).inbox = P.inbox := rfl

/-! ### countDiscard -/

@[simp] theorem Port.countDiscard_state (P : Port) : P.countDiscard.state = P.state := rfl
@[simp] theorem Port.countDiscard_events (P : Port) : P.countDiscard.events = P.events := rfl
@[simp] theorem Port.countDiscard_mask (P : Port) : P.countDiscard.mask = P.mask := rfl
@[simp] theorem Port.countDiscard_attnRelease (P : Port) : P.countDiscard.attnRelease = P.attnRelease := rfl
@[simp] theorem Port.countDiscard_slots (P : Port) : P.countDiscard.slots = P.slots := rfl
@[simp] theorem Port.countDiscard_rotation (P : Port) : P.countDiscard.rotation = P.rotation := rfl
@[simp] theorem Port.countDiscard_recordTurn (P : Port) : P.countDiscard.recordTurn = P.recordTurn := rfl
@[simp] theorem Port.countDiscard_cmd (P : Port) : P.countDiscard.cmd = P.cmd := rfl
@[simp] theorem Port.countDiscard_arr (P : Port) : P.countDiscard.arr = P.arr := rfl
@[simp] theorem Port.countDiscard_inbox (P : Port) : P.countDiscard.inbox = P.inbox := rfl

/-! ### countDiscards -/

@[simp] theorem Port.countDiscards_state (n : Nat) (P : Port) : (Port.countDiscards n P).state = P.state := by
  induction n with
  | zero => rfl
  | succ n ih => simp [Port.countDiscards, ih]
@[simp] theorem Port.countDiscards_events (n : Nat) (P : Port) : (Port.countDiscards n P).events = P.events := by
  induction n with
  | zero => rfl
  | succ n ih => simp [Port.countDiscards, ih]
@[simp] theorem Port.countDiscards_mask (n : Nat) (P : Port) : (Port.countDiscards n P).mask = P.mask := by
  induction n with
  | zero => rfl
  | succ n ih => simp [Port.countDiscards, ih]
@[simp] theorem Port.countDiscards_attnRelease (n : Nat) (P : Port) : (Port.countDiscards n P).attnRelease = P.attnRelease := by
  induction n with
  | zero => rfl
  | succ n ih => simp [Port.countDiscards, ih]
@[simp] theorem Port.countDiscards_slots (n : Nat) (P : Port) : (Port.countDiscards n P).slots = P.slots := by
  induction n with
  | zero => rfl
  | succ n ih => simp [Port.countDiscards, ih]
@[simp] theorem Port.countDiscards_rotation (n : Nat) (P : Port) : (Port.countDiscards n P).rotation = P.rotation := by
  induction n with
  | zero => rfl
  | succ n ih => simp [Port.countDiscards, ih]
@[simp] theorem Port.countDiscards_recordTurn (n : Nat) (P : Port) : (Port.countDiscards n P).recordTurn = P.recordTurn := by
  induction n with
  | zero => rfl
  | succ n ih => simp [Port.countDiscards, ih]
@[simp] theorem Port.countDiscards_cmd (n : Nat) (P : Port) : (Port.countDiscards n P).cmd = P.cmd := by
  induction n with
  | zero => rfl
  | succ n ih => simp [Port.countDiscards, ih]
@[simp] theorem Port.countDiscards_arr (n : Nat) (P : Port) : (Port.countDiscards n P).arr = P.arr := by
  induction n with
  | zero => rfl
  | succ n ih => simp [Port.countDiscards, ih]
@[simp] theorem Port.countDiscards_inbox (n : Nat) (P : Port) : (Port.countDiscards n P).inbox = P.inbox := by
  induction n with
  | zero => rfl
  | succ n ih => simp [Port.countDiscards, ih]

/-! ### setSlot -/

@[simp] theorem Port.setSlot_state (k : SlotId) (r : Option SlotReq) (P : Port) : (P.setSlot k r).state = P.state := rfl
@[simp] theorem Port.setSlot_events (k : SlotId) (r : Option SlotReq) (P : Port) : (P.setSlot k r).events = P.events := rfl
@[simp] theorem Port.setSlot_mask (k : SlotId) (r : Option SlotReq) (P : Port) : (P.setSlot k r).mask = P.mask := rfl
@[simp] theorem Port.setSlot_attnRelease (k : SlotId) (r : Option SlotReq) (P : Port) : (P.setSlot k r).attnRelease = P.attnRelease := rfl
@[simp] theorem Port.setSlot_fault (k : SlotId) (r : Option SlotReq) (P : Port) : (P.setSlot k r).fault = P.fault := rfl
@[simp] theorem Port.setSlot_rotation (k : SlotId) (r : Option SlotReq) (P : Port) : (P.setSlot k r).rotation = P.rotation := rfl
@[simp] theorem Port.setSlot_recordTurn (k : SlotId) (r : Option SlotReq) (P : Port) : (P.setSlot k r).recordTurn = P.recordTurn := rfl
@[simp] theorem Port.setSlot_cmd (k : SlotId) (r : Option SlotReq) (P : Port) : (P.setSlot k r).cmd = P.cmd := rfl
@[simp] theorem Port.setSlot_arr (k : SlotId) (r : Option SlotReq) (P : Port) : (P.setSlot k r).arr = P.arr := rfl
@[simp] theorem Port.setSlot_inbox (k : SlotId) (r : Option SlotReq) (P : Port) : (P.setSlot k r).inbox = P.inbox := rfl

/-! ### clearSlots -/

@[simp] theorem Port.clearSlots_state (P : Port) : P.clearSlots.state = P.state := rfl
@[simp] theorem Port.clearSlots_events (P : Port) : P.clearSlots.events = P.events := rfl
@[simp] theorem Port.clearSlots_mask (P : Port) : P.clearSlots.mask = P.mask := rfl
@[simp] theorem Port.clearSlots_attnRelease (P : Port) : P.clearSlots.attnRelease = P.attnRelease := rfl
@[simp] theorem Port.clearSlots_fault (P : Port) : P.clearSlots.fault = P.fault := rfl
@[simp] theorem Port.clearSlots_rotation (P : Port) : P.clearSlots.rotation = P.rotation := rfl
@[simp] theorem Port.clearSlots_recordTurn (P : Port) : P.clearSlots.recordTurn = P.recordTurn := rfl
@[simp] theorem Port.clearSlots_cmd (P : Port) : P.clearSlots.cmd = P.cmd := rfl
@[simp] theorem Port.clearSlots_arr (P : Port) : P.clearSlots.arr = P.arr := rfl
@[simp] theorem Port.clearSlots_inbox (P : Port) : P.clearSlots.inbox = P.inbox := rfl

/-! ### issue -/

@[simp] theorem Port.issue_state (k : SlotId) (r : LinkReq) (t : Nat) (P : Port) : (P.issue k r t).state = P.state := rfl
@[simp] theorem Port.issue_events (k : SlotId) (r : LinkReq) (t : Nat) (P : Port) : (P.issue k r t).events = P.events := rfl
@[simp] theorem Port.issue_mask (k : SlotId) (r : LinkReq) (t : Nat) (P : Port) : (P.issue k r t).mask = P.mask := rfl
@[simp] theorem Port.issue_attnRelease (k : SlotId) (r : LinkReq) (t : Nat) (P : Port) : (P.issue k r t).attnRelease = P.attnRelease := rfl
@[simp] theorem Port.issue_fault (k : SlotId) (r : LinkReq) (t : Nat) (P : Port) : (P.issue k r t).fault = P.fault := rfl
@[simp] theorem Port.issue_rotation (k : SlotId) (r : LinkReq) (t : Nat) (P : Port) : (P.issue k r t).rotation = P.rotation := rfl
@[simp] theorem Port.issue_recordTurn (k : SlotId) (r : LinkReq) (t : Nat) (P : Port) : (P.issue k r t).recordTurn = P.recordTurn := rfl
@[simp] theorem Port.issue_cmd (k : SlotId) (r : LinkReq) (t : Nat) (P : Port) : (P.issue k r t).cmd = P.cmd := rfl
@[simp] theorem Port.issue_arr (k : SlotId) (r : LinkReq) (t : Nat) (P : Port) : (P.issue k r t).arr = P.arr := rfl
@[simp] theorem Port.issue_inbox (k : SlotId) (r : LinkReq) (t : Nat) (P : Port) : (P.issue k r t).inbox = P.inbox := rfl

/-! ### modCmd -/

@[simp] theorem Port.modCmd_state (f : CmdProc → CmdProc) (P : Port) : (P.modCmd f).state = P.state := rfl
@[simp] theorem Port.modCmd_events (f : CmdProc → CmdProc) (P : Port) : (P.modCmd f).events = P.events := rfl
@[simp] theorem Port.modCmd_mask (f : CmdProc → CmdProc) (P : Port) : (P.modCmd f).mask = P.mask := rfl
@[simp] theorem Port.modCmd_attnRelease (f : CmdProc → CmdProc) (P : Port) : (P.modCmd f).attnRelease = P.attnRelease := rfl
@[simp] theorem Port.modCmd_fault (f : CmdProc → CmdProc) (P : Port) : (P.modCmd f).fault = P.fault := rfl
@[simp] theorem Port.modCmd_slots (f : CmdProc → CmdProc) (P : Port) : (P.modCmd f).slots = P.slots := rfl
@[simp] theorem Port.modCmd_rotation (f : CmdProc → CmdProc) (P : Port) : (P.modCmd f).rotation = P.rotation := rfl
@[simp] theorem Port.modCmd_recordTurn (f : CmdProc → CmdProc) (P : Port) : (P.modCmd f).recordTurn = P.recordTurn := rfl
@[simp] theorem Port.modCmd_arr (f : CmdProc → CmdProc) (P : Port) : (P.modCmd f).arr = P.arr := rfl
@[simp] theorem Port.modCmd_inbox (f : CmdProc → CmdProc) (P : Port) : (P.modCmd f).inbox = P.inbox := rfl

/-! ### modArr -/

@[simp] theorem Port.modArr_state (f : ArrProc → ArrProc) (P : Port) : (P.modArr f).state = P.state := rfl
@[simp] theorem Port.modArr_events (f : ArrProc → ArrProc) (P : Port) : (P.modArr f).events = P.events := rfl
@[simp] theorem Port.modArr_mask (f : ArrProc → ArrProc) (P : Port) : (P.modArr f).mask = P.mask := rfl
@[simp] theorem Port.modArr_attnRelease (f : ArrProc → ArrProc) (P : Port) : (P.modArr f).attnRelease = P.attnRelease := rfl
@[simp] theorem Port.modArr_fault (f : ArrProc → ArrProc) (P : Port) : (P.modArr f).fault = P.fault := rfl
@[simp] theorem Port.modArr_slots (f : ArrProc → ArrProc) (P : Port) : (P.modArr f).slots = P.slots := rfl
@[simp] theorem Port.modArr_rotation (f : ArrProc → ArrProc) (P : Port) : (P.modArr f).rotation = P.rotation := rfl
@[simp] theorem Port.modArr_recordTurn (f : ArrProc → ArrProc) (P : Port) : (P.modArr f).recordTurn = P.recordTurn := rfl
@[simp] theorem Port.modArr_cmd (f : ArrProc → ArrProc) (P : Port) : (P.modArr f).cmd = P.cmd := rfl
@[simp] theorem Port.modArr_inbox (f : ArrProc → ArrProc) (P : Port) : (P.modArr f).inbox = P.inbox := rfl

/-! ### modInbox -/

@[simp] theorem Port.modInbox_state (f : Inbox → Inbox) (P : Port) : (P.modInbox f).state = P.state := rfl
@[simp] theorem Port.modInbox_events (f : Inbox → Inbox) (P : Port) : (P.modInbox f).events = P.events := rfl
@[simp] theorem Port.modInbox_mask (f : Inbox → Inbox) (P : Port) : (P.modInbox f).mask = P.mask := rfl
@[simp] theorem Port.modInbox_attnRelease (f : Inbox → Inbox) (P : Port) : (P.modInbox f).attnRelease = P.attnRelease := rfl
@[simp] theorem Port.modInbox_fault (f : Inbox → Inbox) (P : Port) : (P.modInbox f).fault = P.fault := rfl
@[simp] theorem Port.modInbox_slots (f : Inbox → Inbox) (P : Port) : (P.modInbox f).slots = P.slots := rfl
@[simp] theorem Port.modInbox_rotation (f : Inbox → Inbox) (P : Port) : (P.modInbox f).rotation = P.rotation := rfl
@[simp] theorem Port.modInbox_recordTurn (f : Inbox → Inbox) (P : Port) : (P.modInbox f).recordTurn = P.recordTurn := rfl
@[simp] theorem Port.modInbox_cmd (f : Inbox → Inbox) (P : Port) : (P.modInbox f).cmd = P.cmd := rfl
@[simp] theorem Port.modInbox_arr (f : Inbox → Inbox) (P : Port) : (P.modInbox f).arr = P.arr := rfl

/-! ### cmdPresent -/

@[simp] theorem Port.cmdPresent_state (a : Bool) (P : Port) : (P.cmdPresent a).state = P.state := by unfold Port.cmdPresent; split <;> rfl
@[simp] theorem Port.cmdPresent_events (a : Bool) (P : Port) : (P.cmdPresent a).events = P.events := by unfold Port.cmdPresent; split <;> rfl
@[simp] theorem Port.cmdPresent_mask (a : Bool) (P : Port) : (P.cmdPresent a).mask = P.mask := by unfold Port.cmdPresent; split <;> rfl
@[simp] theorem Port.cmdPresent_attnRelease (a : Bool) (P : Port) : (P.cmdPresent a).attnRelease = P.attnRelease := by unfold Port.cmdPresent; split <;> rfl
@[simp] theorem Port.cmdPresent_fault (a : Bool) (P : Port) : (P.cmdPresent a).fault = P.fault := by unfold Port.cmdPresent; split <;> rfl
@[simp] theorem Port.cmdPresent_slots (a : Bool) (P : Port) : (P.cmdPresent a).slots = P.slots := by unfold Port.cmdPresent; split <;> rfl
@[simp] theorem Port.cmdPresent_rotation (a : Bool) (P : Port) : (P.cmdPresent a).rotation = P.rotation := by unfold Port.cmdPresent; split <;> rfl
@[simp] theorem Port.cmdPresent_recordTurn (a : Bool) (P : Port) : (P.cmdPresent a).recordTurn = P.recordTurn := by unfold Port.cmdPresent; split <;> rfl
@[simp] theorem Port.cmdPresent_arr (a : Bool) (P : Port) : (P.cmdPresent a).arr = P.arr := by unfold Port.cmdPresent; split <;> rfl
@[simp] theorem Port.cmdPresent_inbox (a : Bool) (P : Port) : (P.cmdPresent a).inbox = P.inbox := by unfold Port.cmdPresent; split <;> rfl

/-! ### arrPresent -/

@[simp] theorem Port.arrPresent_state (a : Bool) (P : Port) : (P.arrPresent a).state = P.state := by unfold Port.arrPresent; split <;> rfl
@[simp] theorem Port.arrPresent_events (a : Bool) (P : Port) : (P.arrPresent a).events = P.events := by unfold Port.arrPresent; split <;> rfl
@[simp] theorem Port.arrPresent_mask (a : Bool) (P : Port) : (P.arrPresent a).mask = P.mask := by unfold Port.arrPresent; split <;> rfl
@[simp] theorem Port.arrPresent_attnRelease (a : Bool) (P : Port) : (P.arrPresent a).attnRelease = P.attnRelease := by unfold Port.arrPresent; split <;> rfl
@[simp] theorem Port.arrPresent_fault (a : Bool) (P : Port) : (P.arrPresent a).fault = P.fault := by unfold Port.arrPresent; split <;> rfl
@[simp] theorem Port.arrPresent_slots (a : Bool) (P : Port) : (P.arrPresent a).slots = P.slots := by unfold Port.arrPresent; split <;> rfl
@[simp] theorem Port.arrPresent_rotation (a : Bool) (P : Port) : (P.arrPresent a).rotation = P.rotation := by unfold Port.arrPresent; split <;> rfl
@[simp] theorem Port.arrPresent_recordTurn (a : Bool) (P : Port) : (P.arrPresent a).recordTurn = P.recordTurn := by unfold Port.arrPresent; split <;> rfl
@[simp] theorem Port.arrPresent_cmd (a : Bool) (P : Port) : (P.arrPresent a).cmd = P.cmd := by unfold Port.arrPresent; split <;> rfl
@[simp] theorem Port.arrPresent_inbox (a : Bool) (P : Port) : (P.arrPresent a).inbox = P.inbox := by unfold Port.arrPresent; split <;> rfl

/-! ### takeEntry -/

@[simp] theorem Port.takeEntry_state (raw : List Byte) (P : Port) : (P.takeEntry raw).state = P.state := by unfold Port.takeEntry; dsimp only; split <;> rfl
@[simp] theorem Port.takeEntry_events (raw : List Byte) (P : Port) : (P.takeEntry raw).events = P.events := by unfold Port.takeEntry; dsimp only; split <;> rfl
@[simp] theorem Port.takeEntry_mask (raw : List Byte) (P : Port) : (P.takeEntry raw).mask = P.mask := by unfold Port.takeEntry; dsimp only; split <;> rfl
@[simp] theorem Port.takeEntry_attnRelease (raw : List Byte) (P : Port) : (P.takeEntry raw).attnRelease = P.attnRelease := by unfold Port.takeEntry; dsimp only; split <;> rfl
@[simp] theorem Port.takeEntry_slots (raw : List Byte) (P : Port) : (P.takeEntry raw).slots = P.slots := by unfold Port.takeEntry; dsimp only; split <;> rfl
@[simp] theorem Port.takeEntry_rotation (raw : List Byte) (P : Port) : (P.takeEntry raw).rotation = P.rotation := by unfold Port.takeEntry; dsimp only; split <;> rfl
@[simp] theorem Port.takeEntry_recordTurn (raw : List Byte) (P : Port) : (P.takeEntry raw).recordTurn = P.recordTurn := by unfold Port.takeEntry; dsimp only; split <;> rfl
@[simp] theorem Port.takeEntry_arr (raw : List Byte) (P : Port) : (P.takeEntry raw).arr = P.arr := by unfold Port.takeEntry; dsimp only; split <;> rfl
@[simp] theorem Port.takeEntry_inbox (raw : List Byte) (P : Port) : (P.takeEntry raw).inbox = P.inbox := by unfold Port.takeEntry; dsimp only; split <;> rfl

/-! ### takeHeld -/

@[simp] theorem Port.takeHeld_state (P : Port) : P.takeHeld.state = P.state := by unfold Port.takeHeld; split <;> [split; skip] <;> simp
@[simp] theorem Port.takeHeld_events (P : Port) : P.takeHeld.events = P.events := by unfold Port.takeHeld; split <;> [split; skip] <;> simp
@[simp] theorem Port.takeHeld_mask (P : Port) : P.takeHeld.mask = P.mask := by unfold Port.takeHeld; split <;> [split; skip] <;> simp
@[simp] theorem Port.takeHeld_attnRelease (P : Port) : P.takeHeld.attnRelease = P.attnRelease := by unfold Port.takeHeld; split <;> [split; skip] <;> simp
@[simp] theorem Port.takeHeld_slots (P : Port) : P.takeHeld.slots = P.slots := by unfold Port.takeHeld; split <;> [split; skip] <;> simp
@[simp] theorem Port.takeHeld_rotation (P : Port) : P.takeHeld.rotation = P.rotation := by unfold Port.takeHeld; split <;> [split; skip] <;> simp
@[simp] theorem Port.takeHeld_recordTurn (P : Port) : P.takeHeld.recordTurn = P.recordTurn := by unfold Port.takeHeld; split <;> [split; skip] <;> simp
@[simp] theorem Port.takeHeld_arr (P : Port) : P.takeHeld.arr = P.arr := by unfold Port.takeHeld; split <;> [split; skip] <;> simp
@[simp] theorem Port.takeHeld_inbox (P : Port) : P.takeHeld.inbox = P.inbox := by unfold Port.takeHeld; split <;> [split; skip] <;> simp

/-! ### cmdAdvance -/

@[simp] theorem Port.cmdAdvance_state (P : Port) : P.cmdAdvance.state = P.state := by unfold Port.cmdAdvance; split <;> [split; skip; skip; skip; skip] <;> simp
@[simp] theorem Port.cmdAdvance_events (P : Port) : P.cmdAdvance.events = P.events := by unfold Port.cmdAdvance; split <;> [split; skip; skip; skip; skip] <;> simp
@[simp] theorem Port.cmdAdvance_mask (P : Port) : P.cmdAdvance.mask = P.mask := by unfold Port.cmdAdvance; split <;> [split; skip; skip; skip; skip] <;> simp
@[simp] theorem Port.cmdAdvance_attnRelease (P : Port) : P.cmdAdvance.attnRelease = P.attnRelease := by unfold Port.cmdAdvance; split <;> [split; skip; skip; skip; skip] <;> simp
@[simp] theorem Port.cmdAdvance_slots (P : Port) : P.cmdAdvance.slots = P.slots := by unfold Port.cmdAdvance; split <;> [split; skip; skip; skip; skip] <;> simp
@[simp] theorem Port.cmdAdvance_rotation (P : Port) : P.cmdAdvance.rotation = P.rotation := by unfold Port.cmdAdvance; split <;> [split; skip; skip; skip; skip] <;> simp
@[simp] theorem Port.cmdAdvance_recordTurn (P : Port) : P.cmdAdvance.recordTurn = P.recordTurn := by unfold Port.cmdAdvance; split <;> [split; skip; skip; skip; skip] <;> simp
@[simp] theorem Port.cmdAdvance_arr (P : Port) : P.cmdAdvance.arr = P.arr := by unfold Port.cmdAdvance; split <;> [split; skip; skip; skip; skip] <;> simp
@[simp] theorem Port.cmdAdvance_inbox (P : Port) : P.cmdAdvance.inbox = P.inbox := by unfold Port.cmdAdvance; split <;> [split; skip; skip; skip; skip] <;> simp

/-! ### endCommand -/

@[simp] theorem Port.endCommand_state (sel : CmdRec → Bool) (res : Result) (P : Port) : (P.endCommand sel res).state = P.state := by unfold Port.endCommand; split <;> [skip; split] <;> simp
@[simp] theorem Port.endCommand_events (sel : CmdRec → Bool) (res : Result) (P : Port) : (P.endCommand sel res).events = P.events := by unfold Port.endCommand; split <;> [skip; split] <;> simp
@[simp] theorem Port.endCommand_mask (sel : CmdRec → Bool) (res : Result) (P : Port) : (P.endCommand sel res).mask = P.mask := by unfold Port.endCommand; split <;> [skip; split] <;> simp
@[simp] theorem Port.endCommand_attnRelease (sel : CmdRec → Bool) (res : Result) (P : Port) : (P.endCommand sel res).attnRelease = P.attnRelease := by unfold Port.endCommand; split <;> [skip; split] <;> simp
@[simp] theorem Port.endCommand_slots (sel : CmdRec → Bool) (res : Result) (P : Port) : (P.endCommand sel res).slots = P.slots := by unfold Port.endCommand; split <;> [skip; split] <;> simp
@[simp] theorem Port.endCommand_rotation (sel : CmdRec → Bool) (res : Result) (P : Port) : (P.endCommand sel res).rotation = P.rotation := by unfold Port.endCommand; split <;> [skip; split] <;> simp
@[simp] theorem Port.endCommand_recordTurn (sel : CmdRec → Bool) (res : Result) (P : Port) : (P.endCommand sel res).recordTurn = P.recordTurn := by unfold Port.endCommand; split <;> [skip; split] <;> simp
@[simp] theorem Port.endCommand_arr (sel : CmdRec → Bool) (res : Result) (P : Port) : (P.endCommand sel res).arr = P.arr := by unfold Port.endCommand; split <;> [skip; split] <;> simp
@[simp] theorem Port.endCommand_inbox (sel : CmdRec → Bool) (res : Result) (P : Port) : (P.endCommand sel res).inbox = P.inbox := by unfold Port.endCommand; split <;> [skip; split] <;> simp

/-! ### enqueue -/

@[simp] theorem Port.enqueue_state (k : ResKind) (l : Lane) (it : Item) (P : Port) : (P.enqueue k l it).state = P.state := by simp [Port.enqueue]
@[simp] theorem Port.enqueue_events (k : ResKind) (l : Lane) (it : Item) (P : Port) : (P.enqueue k l it).events = P.events := by simp [Port.enqueue]
@[simp] theorem Port.enqueue_mask (k : ResKind) (l : Lane) (it : Item) (P : Port) : (P.enqueue k l it).mask = P.mask := by simp [Port.enqueue]
@[simp] theorem Port.enqueue_attnRelease (k : ResKind) (l : Lane) (it : Item) (P : Port) : (P.enqueue k l it).attnRelease = P.attnRelease := by simp [Port.enqueue]
@[simp] theorem Port.enqueue_fault (k : ResKind) (l : Lane) (it : Item) (P : Port) : (P.enqueue k l it).fault = P.fault := by simp [Port.enqueue]
@[simp] theorem Port.enqueue_slots (k : ResKind) (l : Lane) (it : Item) (P : Port) : (P.enqueue k l it).slots = P.slots := by simp [Port.enqueue]
@[simp] theorem Port.enqueue_rotation (k : ResKind) (l : Lane) (it : Item) (P : Port) : (P.enqueue k l it).rotation = P.rotation := by simp [Port.enqueue]
@[simp] theorem Port.enqueue_recordTurn (k : ResKind) (l : Lane) (it : Item) (P : Port) : (P.enqueue k l it).recordTurn = P.recordTurn := by simp [Port.enqueue]
@[simp] theorem Port.enqueue_cmd (k : ResKind) (l : Lane) (it : Item) (P : Port) : (P.enqueue k l it).cmd = P.cmd := by simp [Port.enqueue]

/-! ### cmdShut -/

@[simp] theorem Port.cmdShut_state (z : Bool) (P : Port) : (P.cmdShut z).state = P.state := by simp [Port.cmdShut]
@[simp] theorem Port.cmdShut_events (z : Bool) (P : Port) : (P.cmdShut z).events = P.events := by simp [Port.cmdShut]
@[simp] theorem Port.cmdShut_mask (z : Bool) (P : Port) : (P.cmdShut z).mask = P.mask := by simp [Port.cmdShut]
@[simp] theorem Port.cmdShut_attnRelease (z : Bool) (P : Port) : (P.cmdShut z).attnRelease = P.attnRelease := by simp [Port.cmdShut]
@[simp] theorem Port.cmdShut_slots (z : Bool) (P : Port) : (P.cmdShut z).slots = P.slots := by simp [Port.cmdShut]
@[simp] theorem Port.cmdShut_rotation (z : Bool) (P : Port) : (P.cmdShut z).rotation = P.rotation := by simp [Port.cmdShut]
@[simp] theorem Port.cmdShut_recordTurn (z : Bool) (P : Port) : (P.cmdShut z).recordTurn = P.recordTurn := by simp [Port.cmdShut]
@[simp] theorem Port.cmdShut_arr (z : Bool) (P : Port) : (P.cmdShut z).arr = P.arr := by simp [Port.cmdShut]
@[simp] theorem Port.cmdShut_inbox (z : Bool) (P : Port) : (P.cmdShut z).inbox = P.inbox := by simp [Port.cmdShut]

/-! ### refuseWrite -/

@[simp] theorem Port.refuseWrite_state (n : Nat) (P : Port) : (P.refuseWrite n).state = P.state := rfl
@[simp] theorem Port.refuseWrite_events (n : Nat) (P : Port) : (P.refuseWrite n).events = P.events := rfl
@[simp] theorem Port.refuseWrite_mask (n : Nat) (P : Port) : (P.refuseWrite n).mask = P.mask := rfl
@[simp] theorem Port.refuseWrite_attnRelease (n : Nat) (P : Port) : (P.refuseWrite n).attnRelease = P.attnRelease := rfl
@[simp] theorem Port.refuseWrite_slots (n : Nat) (P : Port) : (P.refuseWrite n).slots = P.slots := rfl
@[simp] theorem Port.refuseWrite_rotation (n : Nat) (P : Port) : (P.refuseWrite n).rotation = P.rotation := rfl
@[simp] theorem Port.refuseWrite_recordTurn (n : Nat) (P : Port) : (P.refuseWrite n).recordTurn = P.recordTurn := rfl
@[simp] theorem Port.refuseWrite_cmd (n : Nat) (P : Port) : (P.refuseWrite n).cmd = P.cmd := rfl
@[simp] theorem Port.refuseWrite_arr (n : Nat) (P : Port) : (P.refuseWrite n).arr = P.arr := rfl
@[simp] theorem Port.refuseWrite_inbox (n : Nat) (P : Port) : (P.refuseWrite n).inbox = P.inbox := rfl

/-! ### The port state, under the operations of the rings and the window -/

@[simp] theorem Port.issueCmd_state (k : SlotId) (d : Nat) (P : Port) : (P.issueCmd k d).state = P.state := by
  unfold Port.issueCmd
  split <;> rfl
@[simp] theorem Port.issueArr_state (k : SlotId) (d : Nat) (P : Port) : (P.issueArr k d).state = P.state := by
  unfold Port.issueArr
  split
  · rfl
  · split <;> rfl
  · rfl
@[simp] theorem Port.issueRecord_state (k : SlotId) (d : Nat) (P : Port) : (P.issueRecord k d).state = P.state := by
  unfold Port.issueRecord
  split
  · exact Port.issueCmd_state k d P
  · exact Port.issueArr_state k d P
  · rfl
@[simp] theorem Port.cmdSuspend_state (n v : Nat) (a : Bool) (P : Port) : (P.cmdSuspend n v a).state = P.state := by
  unfold Port.cmdSuspend
  dsimp only
  split <;> rfl
@[simp] theorem Port.cmdLoaded_state (n v : Nat) (a : Bool) (raw : List Byte) (P : Port) : (P.cmdLoaded n v a raw).state = P.state := by
  unfold Port.cmdLoaded
  split
  · split <;> simp
  · simp
@[simp] theorem Port.cmdLoadAck_state (n v : Nat) (k : SlotId) (raw : List Byte) (P : Port) :
    (P.cmdLoadAck n v k raw).state = P.state := by
  unfold Port.cmdLoadAck
  dsimp only
  split
  · split <;> simp
  · simp
@[simp] theorem Port.cmdLoadLost_state (k : SlotId) (a : Addr) (P : Port) : (P.cmdLoadLost k a).state = P.state := rfl
@[simp] theorem Port.completionLost_state (k : SlotId) (P : Port) : (P.completionLost k).state = P.state := rfl
@[simp] theorem Port.cmdLoadFail_state (k : SlotId) (a : Addr) (P : Port) : (P.cmdLoadFail k a).state = P.state := by
  unfold Port.cmdLoadFail
  split
  · split <;> simp
  · simp
@[simp] theorem Port.completionAck_state (k : SlotId) (P : Port) : (P.completionAck k).state = P.state := by
  simp [Port.completionAck]
@[simp] theorem Port.completionFail_state (k : SlotId) (P : Port) : (P.completionFail k).state = P.state := by
  unfold Port.completionFail
  dsimp only
  split <;> simp
@[simp] theorem Port.cmdWake_state (a : Bool) (P : Port) : (P.cmdWake a).state = P.state := by
  unfold Port.cmdWake
  split <;> simp
@[simp] theorem Port.arrWake_state (a : Bool) (P : Port) : (P.arrWake a).state = P.state := by
  unfold Port.arrWake
  split <;> simp
@[simp] theorem Port.arrPick_state (P : Port) : P.arrPick.state = P.state := rfl
@[simp] theorem Port.arrSuspend_state (n v : Nat) (a : Bool) (P : Port) : (P.arrSuspend n v a).state = P.state := by
  unfold Port.arrSuspend
  dsimp only
  split <;> rfl
@[simp] theorem Port.arrLoaded_state (n v : Nat) (a : Bool) (raw : List Byte) (P : Port) : (P.arrLoaded n v a raw).state = P.state := by
  unfold Port.arrLoaded
  split
  · rfl
  · split <;> simp
@[simp] theorem Port.arrLoadAck_state (n v : Nat) (k : SlotId) (raw : List Byte) (P : Port) :
    (P.arrLoadAck n v k raw).state = P.state := by
  unfold Port.arrLoadAck
  dsimp only
  split
  · split <;> simp
  · simp
@[simp] theorem Port.arrFault_state (a : Addr) (P : Port) : (P.arrFault a).state = P.state := rfl
@[simp] theorem Port.arrLost_state (k : SlotId) (a : Addr) (P : Port) : (P.arrLost k a).state = P.state := rfl
@[simp] theorem Port.arrLoadFail_state (k : SlotId) (a : Addr) (P : Port) : (P.arrLoadFail k a).state = P.state := by
  unfold Port.arrLoadFail
  dsimp only
  split
  · split <;> simp
  · simp
@[simp] theorem Port.arrStoreFail_state (k : SlotId) (a : Addr) (P : Port) : (P.arrStoreFail k a).state = P.state := rfl
@[simp] theorem Port.arrStored_state (k : SlotId) (P : Port) : (P.arrStored k).state = P.state := rfl
@[simp] theorem Port.cmdRunField_state (b : Bool) (P : Port) : (P.cmdRunField b).state = P.state := by
  unfold Port.cmdRunField
  split
  · split
    · rfl
    · split <;> simp
  · split
    · rfl
    · split <;> rfl
    · split <;> rfl
    · rfl
    · rfl
@[simp] theorem Port.arrRunField_state (b : Bool) (P : Port) : (P.arrRunField b).state = P.state := by
  unfold Port.arrRunField
  split
  · split
    · rfl
    · split <;> simp
  · split <;> rfl

end Sys2Proof.Machine
end

