-- ==== Sys2Proof/Laws/Writes.lean ====
section
/-!
SUPPORT. What the shared operations may write at all. `Writes I J s t` says that `t` came from `s` by writes of the parts of
the state, ports changed only in ways that keep `I`, the Yield Unit only in ways that keep `J`; the map, the map state, the
Time Base and the queue are not written. One lemma per shared operation; an invariant of ports or of the Yield Unit, and what
is never written, then follow once for all of them.
-/
namespace Sys2Proof.Machine
open Sys2Proof

/-- Writes of the parts of the state. -/
inductive Writes (I : Port → Prop) (J : YieldUnit → Prop) : State → State → Prop where
  | refl (s : State) : Writes I J s s
  | port {s t : State} (p : PortId) (f : Port → Port) (h : Writes I J s t) (k : I (t.port p) → I (f (t.port p))) :
      Writes I J s (t.modPort p f)
  | ports {s t : State} (f : PortId → Port → Port) (h : Writes I J s t) (k : ∀ p, I (t.port p) → I (f p (t.port p))) :
      Writes I J s (t.mapPorts f)
  | record {s t : State} (b : BufId) (f : Record → Record) (h : Writes I J s t) : Writes I J s (t.modRecord b f)
  | records {s t : State} (f : Record → Record) (h : Writes I J s t) :
      Writes I J s { t with records := t.records.map f }
  | pool {s t : State} (q : PoolId) (f : PoolState → PoolState) (h : Writes I J s t) : Writes I J s (t.modPool q f)
  | pools {s t : State} (f : PoolState → PoolState) (h : Writes I J s t) : Writes I J s { t with pools := t.pools.map f }
  | yields {s t : State} (f : YieldUnit → YieldUnit) (h : Writes I J s t) (k : J t.yields → J (f t.yields)) :
      Writes I J s (t.modYields f)
  | mover {s t : State} (f : Mover → Mover) (h : Writes I J s t) : Writes I J s (t.modMover f)
  | dest {s t : State} (l : List DestReservation) (h : Writes I J s t) : Writes I J s { t with destRes := l }
  | count {s t : State} (n : Nat) (h : Writes I J s t) : Writes I J s { t with freeCount := n }

variable {I : Port → Prop} {J : YieldUnit → Prop} {s t : State}

/-! ### What follows from it -/

/-- A property of one port outlasts the writes. -/
theorem Writes.keepsPort (h : Writes I J s t) (i : PortId) (hs : I (s.port i)) : I (t.port i) := by
  induction h with
  | refl => exact hs
  | port p f _ k ih =>
    rw [State.modPort_port]
    split
    · subst i
      exact k ih
    · exact ih
  | ports f _ k ih =>
    rw [State.mapPorts_port]
    exact k i ih
  | record _ _ _ ih => exact ih
  | records _ _ ih => exact ih
  | pool _ _ _ ih => exact ih
  | pools _ _ ih => exact ih
  | yields _ _ _ ih => exact ih
  | mover _ _ ih => exact ih
  | dest _ _ ih => exact ih
  | count _ _ ih => exact ih

/-- A property of every port outlasts the writes. -/
theorem Writes.keepsPorts (h : Writes I J s t) (hs : ∀ p, I (s.port p)) : ∀ p, I (t.port p) :=
  fun p => h.keepsPort p (hs p)

/-- A property of the Yield Unit outlasts the writes. -/
theorem Writes.keepsYields (h : Writes I J s t) (hs : J s.yields) : J t.yields := by
  induction h with
  | refl => exact hs
  | yields _ _ k ih => exact k ih
  | port _ _ _ _ ih => exact ih
  | ports _ _ _ ih => exact ih
  | record _ _ _ ih => exact ih
  | records _ _ ih => exact ih
  | pool _ _ _ ih => exact ih
  | pools _ _ ih => exact ih
  | mover _ _ ih => exact ih
  | dest _ _ ih => exact ih
  | count _ _ ih => exact ih

/-- The map, its state and reason, the Time Base, the queue and the numbers of records and pools. -/
def State.fixedPart (s : State) : MapState × FailReason × Option CustodyMap × Nat × List Instr × Nat × Nat :=
  (s.mapState, s.reason, s.map, s.now, s.pending, s.records.length, s.pools.length)

theorem Writes.fixedPart (h : Writes I J s t) : t.fixedPart = s.fixedPart := by
  induction h with
  | refl => rfl
  | port _ _ _ _ ih => exact ih
  | ports _ _ _ ih => exact ih
  | record b f _ ih => rw [← ih]; simp [State.fixedPart]
  | records f _ ih => rw [← ih]; simp [State.fixedPart]
  | pool q f _ ih => rw [← ih]; simp [State.fixedPart]
  | pools f _ ih => rw [← ih]; simp [State.fixedPart]
  | yields _ _ _ ih => exact ih
  | mover _ _ ih => exact ih
  | dest _ _ ih => exact ih
  | count _ _ ih => exact ih

theorem Writes.mapState (h : Writes I J s t) : t.mapState = s.mapState := congrArg Prod.fst h.fixedPart
theorem Writes.reason (h : Writes I J s t) : t.reason = s.reason := congrArg (·.2.1) h.fixedPart
theorem Writes.map (h : Writes I J s t) : t.map = s.map := congrArg (·.2.2.1) h.fixedPart
theorem Writes.now (h : Writes I J s t) : t.now = s.now := congrArg (·.2.2.2.1) h.fixedPart
theorem Writes.pending (h : Writes I J s t) : t.pending = s.pending := congrArg (·.2.2.2.2.1) h.fixedPart
theorem Writes.recordsLength (h : Writes I J s t) : t.records.length = s.records.length := congrArg (·.2.2.2.2.2.1) h.fixedPart
theorem Writes.poolsLength (h : Writes I J s t) : t.pools.length = s.pools.length := congrArg (·.2.2.2.2.2.2) h.fixedPart

/-! ### What is asked of `I` and `J` -/

/-- `I` and `J` outlast the work of the Custody Table on inboxes and commands, the Yield Unit's taking of an ask and the Mover's own
steps, as far as these raise no event and withdraw no delivery. -/
structure Steady (I : Port → Prop) (J : YieldUnit → Prop) : Prop where
  release : ∀ k b P, I P → I (P.modInbox (Inbox.release k b))
  reserve : ∀ k b P, I P → I (P.modInbox (Inbox.reserve k b))
  push : ∀ l it P, it.delivering = false → I P → I (P.modInbox (Inbox.push l it))
  unlease : ∀ b P, I P → I (P.modInbox (Inbox.remove (fun i => i.isLeaseOf b && !i.delivering)))
  present : ∀ P, I P → I (P.arrPresent false)
  ended : ∀ sel res P, I P → I (P.endCommand sel res)
  accepted : ∀ P, I P → I (P.modCmd (fun c => { c with outstanding := acceptFirst c.outstanding }))
  take : ∀ a y, J y → J (y.take a)

/-- `I` outlasts the raising of events as well. -/
structure Stable (I : Port → Prop) (J : YieldUnit → Prop) : Prop extends Steady I J where
  raise : ∀ e P, I P → I (P.raise e)

/-- A property that asks nothing of the inbox. -/
theorem Stable.of {I : Port → Prop} {J : YieldUnit → Prop} (inbox : ∀ f P, I P → I (P.modInbox f))
    (present : ∀ P, I P → I (P.arrPresent false)) (raise : ∀ e P, I P → I (P.raise e))
    (ended : ∀ sel res P, I P → I (P.endCommand sel res))
    (accepted : ∀ P, I P → I (P.modCmd (fun c => { c with outstanding := acceptFirst c.outstanding })))
    (take : ∀ a y, J y → J (y.take a)) : Stable I J where
  release _ _ := inbox _
  reserve _ _ := inbox _
  push _ _ P _ := inbox _ P
  unlease _ := inbox _
  present := present
  ended := ended
  accepted := accepted
  take := take
  raise := raise

namespace Writes

theorem setCustody (h : Writes I J s t) (b : BufId) (c : Custody) : Writes I J s (t.setCustody b c) := h.record b _

theorem chargeUp (h : Writes I J s t) (p : PortId) (q : PoolId) : Writes I J s (t.chargeUp p q) := h.pool q _

theorem chargeDown (h : Writes I J s t) (p : PortId) (q : PoolId) : Writes I J s (t.chargeDown p q) := h.pool q _

theorem openDest (h : Writes I J s t) (b : BufId) (p : PortId) (q : PoolId) : Writes I J s (t.openDest b p q) :=
  (h.chargeUp p q).dest _

theorem convertDest (h : Writes I J s t) (b : BufId) : Writes I J s (t.convertDest b) := h.dest _

theorem closeDest (h : Writes I J s t) (b : BufId) : Writes I J s (t.closeDest b) := by
  unfold State.closeDest
  split
  · exact (h.chargeDown _ _).dest _
  · exact h

theorem giveLanding (h : Writes I J s t) (c : ChanId) (l : BufId) : Writes I J s (t.giveLanding c l) := by
  unfold State.giveLanding
  split
  · exact (h.setCustody _ _).mover _
  · exact h

theorem serveLanding (h : Writes I J s t) (q : PoolId) : Writes I J s (t.serveLanding q) := by
  unfold State.serveLanding
  split
  · exact (h.pool _ _).giveLanding _ _
  · exact h
  · exact h

theorem enterFreeList (h : Writes I J s t) (b : BufId) : Writes I J s (t.enterFreeList b) :=
  ((h.record _ _).pool _ _).serveLanding _

theorem freeFrom (h : Writes I J s t) (b : BufId) (p : PortId) : Writes I J s (t.freeFrom b p) := (h.enterFreeList b).chargeDown _ _

theorem toQueued (h : Writes I J s t) (b : BufId) (src dest : PortId) (n : Nat) (g : Word) :
    Writes I J s (t.toQueued b src dest n g) := h.record _ _

theorem beginOp (h : Writes I J s t) (b : BufId) (op : HolderOp) : Writes I J s (t.beginOp b op) := by
  unfold State.beginOp
  split
  · exact h.setCustody _ _
  · exact h

theorem enterJob (h : Writes I J s t) (b : BufId) (p d : PortId) (o : Bool) (raw : List Byte) :
    Writes I J s (t.enterJob b p d o raw) := (h.setCustody _ _).mover _

theorem dropJob (h : Writes I J s t) (c : ChanId) (b : BufId) : Writes I J s (t.dropJob c b) := h.mover _

theorem sourceBack (h : Writes I J s t) (b : BufId) : Writes I J s (t.sourceBack b) := by
  unfold State.sourceBack
  split
  · split
    · exact h.freeFrom _ _
    · exact h.setCustody _ _
  · exact h

theorem freeLanding (h : Writes I J s t) (l : Option BufId) : Writes I J s (t.freeLanding l) := by
  unfold State.freeLanding
  split
  · exact h.enterFreeList _
  · exact h

theorem leaveWaiting (h : Writes I J s t) (c : ChanId) : Writes I J s (t.leaveWaiting c) := h.pools _

theorem foldl {α : Type} (f : State → α → State) (l : List α) (h : Writes I J s t)
    (k : ∀ u a, Writes I J s u → Writes I J s (f u a)) : Writes I J s (l.foldl f t) := by
  induction l generalizing t with
  | nil => exact h
  | cons a l ih => exact ih (k _ a h)

variable (st : Steady I J)
include st

theorem endWaiting (h : Writes I J s t) (p : PortId) (op : CmdOp) (b : BufId) (c : ResultCode) (d : Detail) :
    Writes I J s (t.endWaiting p op b c d) := h.port _ _ (st.ended _ _ _)

theorem endReclaim (h : Writes I J s t) (b : BufId) (c : ResultCode) : Writes I J s (t.endReclaim b c) :=
  h.ports _ (fun _ => st.ended _ _ _)

theorem endTaken (h : Writes I J s t) (p : PortId) (r : Result) : Writes I J s (t.endTaken p r) := h.port _ _ (st.ended _ _ _)

theorem endTakenOn (h : Writes I J s t) (p : PortId) (b : BufId) (c : ResultCode) : Writes I J s (t.endTakenOn p b c) :=
  endTaken st h _ _

theorem acceptTaken (h : Writes I J s t) (p : PortId) : Writes I J s (t.acceptTaken p) := h.port _ _ (st.accepted _)

omit st in
theorem raiseRecovery (hr : ∀ e P, I P → I (P.raise e)) (h : Writes I J s t) (e : Event) : Writes I J s (t.raiseRecovery e) := by
  refine h.ports _ (fun p hp => ?_)
  split
  · exact hr _ _ hp
  · exact hp

theorem askYield (h : Writes I J s t) (a : YieldAsk) : Writes I J s (t.askYield a) := h.yields _ (st.take a _)

theorem releaseRes (h : Writes I J s t) (p : PortId) (k : ResKind) (b : BufId) : Writes I J s (t.releaseRes p k b) :=
  h.port _ _ (st.release _ _ _)

theorem revoke (h : Writes I J s t) (b : BufId) (src p : PortId) : Writes I J s (t.revoke b src p) :=
  h.port _ _ (fun k => st.present _ (st.push _ _ _ rfl (st.release _ _ _ k)))

theorem removeLease (h : Writes I J s t) (b : BufId) (p : PortId) : Writes I J s (t.removeLease b p) := by
  unfold State.removeLease
  split
  · exact (h.port _ _ (fun k => st.release .standing b ((t.port p).modInbox _) (st.unlease b _ k))).record _ _
  · exact h

theorem deliver (h : Writes I J s t) (x b : BufId) (src dest : PortId) (l : Lane) (n : Nat) (g : Word) :
    Writes I J s (t.deliver x b src dest l n g) :=
  h.port _ _ (fun k => st.present _ (st.push _ _ _ rfl (st.release _ _ _ k)))

theorem handOff (h : Writes I J s t) (b : BufId) (p d : PortId) (raw : List Byte) : Writes I J s (t.handOff b p d raw) :=
  endWaiting st (((deliver st (h.toQueued _ _ _ _ _) _ _ _ _ _ _ _).chargeDown _ _).convertDest _) _ _ _ _ _

theorem releaseSend (h : Writes I J s t) (b : BufId) (d : PortId) : Writes I J s (t.releaseSend b d) :=
  (releaseRes st (h.closeDest _) _ _ _).mover _

omit st in
theorem strand (hr : ∀ e P, I P → I (P.raise e)) (h : Writes I J s t) (b : BufId) (p : PortId) : Writes I J s (t.strand b p) :=
  raiseRecovery hr ((h.setCustody _ _).chargeDown _ _) _

theorem recallCheck (h : Writes I J s t) (b : BufId) : Writes I J s (t.recallCheck b) := by
  unfold State.recallCheck
  split
  · split
    · split
      · dsimp only
        split
        · exact endWaiting st (h.freeFrom _ _) _ _ _ _ _
        · exact endWaiting st (h.setCustody _ _) _ _ _ _ _
      · exact h
    · exact h
  · exact h

theorem readerOut (h : Writes I J s t) (b : BufId) (r : PortId) (d : Bool) : Writes I J s (t.readerOut b r d) := by
  unfold State.readerOut
  split
  · split
    · exact releaseRes st (h.setCustody _ _) _ _ _
    · exact h
  · exact h

theorem recallBegin (h : Writes I J s t) (b : BufId) (o : Bool) : Writes I J s (t.recallBegin b o) := by
  unfold State.recallBegin
  split
  · dsimp only
    refine foldl _ _ (foldl _ _ (foldl _ _ (h.setCustody _ _) ?_) ?_) ?_
    · exact fun u a k => removeLease st k _ _
    · exact fun u a k => revoke st k _ _ _
    · exact fun u a k => readerOut st k _ _ _
  · exact h

theorem askRecall (h : Writes I J s t) (b : BufId) (r : PortId) : Writes I J s (t.askRecall b r) := askYield st h _

theorem recallWhole (h : Writes I J s t) (b : BufId) (o : Bool) : Writes I J s (t.recallWhole b o) :=
  recallCheck st (foldl _ _ (recallBegin st h _ _) (fun _ _ k => askRecall st k _ _)) _

theorem leaseFailed (h : Writes I J s t) (b : BufId) (p : PortId) : Writes I J s (t.leaseFailed b p) := by
  unfold State.leaseFailed
  split
  · split
    · exact recallCheck st (removeLease st h _ _) _
    · exact h
  · exact h

theorem leaseAbandoned (h : Writes I J s t) (d : Option (Lane × Item)) (p : PortId) : Writes I J s (t.leaseAbandoned d p) := by
  unfold State.leaseAbandoned
  split
  · split
    · exact leaseFailed st h _ _
    · exact h
  · exact h

theorem freeOutcome (h : Writes I J s t) (b : BufId) (oc : YieldOutcome) (hr : oc = .expired → ∀ e P, I P → I (P.raise e)) :
    Writes I J s (t.freeOutcome b oc) := by
  unfold State.freeOutcome
  split
  · split
    · refine endWaiting st ?_ _ _ _ _ _
      split
      · exact h.freeFrom _ _
      · split
        · exact h.freeFrom _ _
        · exact h.setCustody _ _
      · exact strand (hr rfl) h _ _
    · exact h
  · exact h

theorem sendOutcome (h : Writes I J s t) (b : BufId) (oc : YieldOutcome) (hr : oc = .expired → ∀ e P, I P → I (P.raise e)) :
    Writes I J s (t.sendOutcome b oc) := by
  unfold State.sendOutcome
  split
  · split
    · split
      · dsimp only
        split
        · exact handOff st h _ _ _ _
        · exact h.enterJob _ _ _ _ _
      · dsimp only
        refine endWaiting st ?_ _ _ _ _ _
        split
        · exact (releaseSend st h _ _).freeFrom _ _
        · exact (releaseSend st h _ _).setCustody _ _
      · exact endWaiting st (strand (hr rfl) (releaseSend st h _ _) _ _) _ _ _ _ _
    · exact h
  · exact h

theorem queueLease (h : Writes I J s t) (b : BufId) (p r : PortId) (l : Lane) : Writes I J s (t.queueLease b p r l) :=
  h.port _ _ (fun k => st.present _ (st.push _ _ _ rfl (st.reserve _ _ _ (st.release _ _ _ k))))

theorem orphanLent (h : Writes I J s t) (b : BufId) : Writes I J s (t.orphanLent b) := by
  unfold State.orphanLent
  split
  · split
    · exact recallWhole st h _ _
    · exact h
  · exact h

theorem lendOutcome (h : Writes I J s t) (b : BufId) (oc : YieldOutcome) : Writes I J s (t.lendOutcome b oc) := by
  unfold State.lendOutcome
  split
  · split
    · refine orphanLent st ?_ _
      split
      · exact endWaiting st (queueLease st (h.setCustody _ _) _ _ _ _) _ _ _ _ _
      · exact endWaiting st (releaseRes st (h.setCustody _ _) _ _ _) _ _ _ _ _
      · exact endWaiting st (releaseRes st (h.setCustody _ _) _ _ _) _ _ _ _ _
    · exact h
  · exact h

theorem returnOutcome (h : Writes I J s t) (b : BufId) (r : PortId) (oc : YieldOutcome) : Writes I J s (t.returnOutcome b r oc) :=
  recallCheck st (endWaiting st (readerOut st h _ _ _) _ _ _ _ _) _

theorem recallOutcome (h : Writes I J s t) (b : BufId) (r : PortId) (oc : YieldOutcome) : Writes I J s (t.recallOutcome b r oc) :=
  recallCheck st (readerOut st h _ _ _) _

theorem reclaimOutcome (h : Writes I J s t) (b : BufId) (oc : YieldOutcome) : Writes I J s (t.reclaimOutcome b oc) := by
  unfold State.reclaimOutcome
  split
  · refine endReclaim st ?_ _ _
    split
    · exact h.enterFreeList _
    · exact h.setCustody _ _
    · exact h.setCustody _ _
  · exact h

/-- The outcome of a yield; it raises an event only where the yield expired. -/
theorem yieldOutcome (h : Writes I J s t) (a : YieldAsk) (oc : YieldOutcome) (hr : oc = .expired → ∀ e P, I P → I (P.raise e)) :
    Writes I J s (t.yieldOutcome a oc) := by
  unfold State.yieldOutcome
  split
  · exact sendOutcome st h _ _ hr
  · exact freeOutcome st h _ _ hr
  · exact lendOutcome st h _ _
  · exact returnOutcome st h _ _ _
  · exact recallOutcome st h _ _ _
  · exact reclaimOutcome st h _ _

omit st in
theorem ask (sb : Stable I J) (h : Writes I J s t) (a : YieldAsk) : Writes I J s (t.ask a) := by
  unfold State.ask
  split
  · exact yieldOutcome sb.toSteady h _ _ (fun _ => sb.raise)
  · exact askYield sb.toSteady h _

theorem moveFail (h : Writes I J s t) (c : ChanId) (r : MoveReason) : Writes I J s (t.moveFail c r) := by
  unfold State.moveFail
  split
  · exact endWaiting st ((releaseRes st (((h.dropJob _ _).freeLanding _).closeDest _) _ _ _).sourceBack _) _ _ _ _ _
  · exact h

theorem queueLanding (h : Writes I J s t) (j : Job) : Writes I J s (t.queueLanding j) := by
  unfold State.queueLanding
  split
  · exact deliver st (h.toQueued _ _ _ _ _) _ _ _ _ _ _ _
  · exact h

theorem moveSucceed (h : Writes I J s t) (c : ChanId) : Writes I J s (t.moveSucceed c) := by
  unfold State.moveSucceed
  split
  · exact endWaiting st ((queueLanding st ((h.dropJob _ _).freeFrom _ _) _).convertDest _) _ _ _ _ _
  · exact h

/-! ### The Mover's own steps -/

omit st in
theorem askLanding (h : Writes I J s t) (c : ChanId) (q : PoolId) : Writes I J s (t.askLanding c q) := by
  unfold State.askLanding
  split
  · exact (h.pool _ _).giveLanding _ _
  · exact (h.pool _ _).mover _

theorem takeJob (h : Writes I J s t) (c : ChanId) (j : Job) : Writes I J s (t.takeJob c j) := by
  unfold State.takeJob
  dsimp only
  split
  · exact moveFail st (h.mover _) _ _
  · exact (h.mover _).askLanding _ _

theorem presentBurst (h : Writes I J s t) (c : ChanId) (w : Bool) (p : PortId) : Writes I J s (t.presentBurst c w p) := by
  unfold State.presentBurst
  split
  · exact h.mover _
  · exact moveFail st h _ _

theorem proceed (h : Writes I J s t) (c : ChanId) (j : Job) : Writes I J s (t.proceed c j) := by
  unfold State.proceed
  split
  · exact moveSucceed st h _
  · split
    · exact presentBurst st h _ _ _
    · exact presentBurst st h _ _ _

theorem chanStep {u : State} (h : Writes I J s t) (c : ChanId) (k : t.chanStep c = some u) : Writes I J s u := by
  unfold State.chanStep at k
  split at k
  · split at k
    · cases k
      exact takeJob st h _ _
    · cases k
  · split at k
    · split at k
      · cases k
        exact proceed st h _ _
      · cases k
    · cases k

theorem moverSteps (n : Nat) (h : Writes I J s t) : Writes I J s (t.moverSteps n) := by
  induction n generalizing t with
  | zero => exact h
  | succ n ih =>
    unfold State.moverSteps
    split
    · exact ih (chanStep st h _ ‹_›)
    · split
      · exact ih (chanStep st h _ ‹_›)
      · exact h

theorem settle (h : Writes I J s t) : Writes I J s t.settle := moverSteps st _ h

/-! ### Fence, sweep and port reset -/

theorem yieldOutcomes (h : Writes I J s t) (l : List YieldAsk) (oc : YieldOutcome) (hr : oc = .expired → ∀ e P, I P → I (P.raise e)) :
    Writes I J s (t.yieldOutcomes l oc) :=
  foldl _ _ h (fun _ _ k => yieldOutcome st k _ _ hr)

theorem moveFails (h : Writes I J s t) (l : List (ChanId × MoveReason)) : Writes I J s (t.moveFails l) :=
  foldl _ _ h (fun _ _ k => moveFail st k _ _)

omit st in
theorem expiredOutcome (sb : Stable I J) (h : Writes I J s t) (e : Expired) : Writes I J s (t.expiredOutcome e) := by
  unfold State.expiredOutcome
  split
  · exact h
  · exact yieldOutcome sb.toSteady h _ _ (fun _ => sb.raise)
  · exact moveFail sb.toSteady h _ _

omit st in
theorem fence (sb : Stable I J) (h : Writes I J s t) (p : PortId) (e : Expired) (hp : I (t.port p) → I (t.port p).fence)
    (hy : ∀ y, J y → J (y.endFor p)) : Writes I J s (t.fence p e) :=
  settle sb.toSteady (moveFails sb.toSteady (yieldOutcomes sb.toSteady (expiredOutcome sb
    (((leaseAbandoned sb.toSteady (raiseRecovery sb.raise (h.port _ _ hp) _) _ _).yields _ (hy _)).mover _) _) _ _ (fun _ => sb.raise)) _)

theorem sweepHeld (h : Writes I J s t) (b : BufId) (p : PortId) : Writes I J s (t.sweepHeld b p) := by
  unfold State.sweepHeld
  split
  · split
    · exact recallCheck st (recallBegin st h _ _) _
    · exact h.freeFrom _ _
  · exact h

theorem sweepReader (h : Writes I J s t) (b : BufId) (p : PortId) : Writes I J s (t.sweepReader b p) :=
  recallCheck st (readerOut st h _ _ _) _

theorem sweep (h : Writes I J s t) (p : PortId) : Writes I J s (t.sweep p) :=
  (foldl _ _ ((foldl _ _ (foldl _ _ h (fun _ _ k => sweepHeld st k _ _)) (fun _ _ k => askRecall st k _ _)).records _)
    (fun _ _ k => sweepReader st k _ _)).count _

theorem portReset (h : Writes I J s t) (p : PortId) (hp : I (t.port p) → I (t.port p).doReset)
    (hy : ∀ y, J y → J (y.endFor p)) : Writes I J s (t.portReset p) :=
  settle st (moveFails st ((yieldOutcomes st
    ((sweep st (leaseAbandoned st (h.port _ _ hp) _ _) _).yields _ (hy _)) _ _ (fun e => by cases e)).mover _) _)

omit st in
/-- What follows the port-level parts of a fence. -/
theorem fenceAfter (sb : Stable I J) (s : State) (p : PortId) (e : Expired) (hy : ∀ y, J y → J (y.endFor p)) :
    Writes I J ((s.modPort p Port.fence).raiseRecovery .fenceNotice) (s.fence p e) :=
  settle sb.toSteady (moveFails sb.toSteady (yieldOutcomes sb.toSteady (expiredOutcome sb
    (((leaseAbandoned sb.toSteady (Writes.refl _) _ _).yields _ (hy _)).mover _) _) _ _ (fun _ => sb.raise)) _)

/-- What follows the port-level part of a port reset: it raises no event on any port. -/
theorem portResetAfter (s : State) (p : PortId) (hy : ∀ y, J y → J (y.endFor p)) :
    Writes I J (s.modPort p Port.doReset) (s.portReset p) :=
  settle st (moveFails st ((yieldOutcomes st
    ((sweep st (leaseAbandoned st (Writes.refl _) _ _) _).yields _ (hy _)) _ _ (fun e => by cases e)).mover _) _)

/-! ### The custody commands -/

theorem judge (h : Writes I J s t) (p : PortId) (u : HandleUse) (raw : List Byte) (own : List (Bool × ResultCode))
    (f : State → State) (hf : Writes I J s (f t)) : Writes I J s (t.judge p u raw own f) := by
  unfold State.judge
  split
  · exact endTaken st h _ _
  · split
    · exact endTaken st h _ _
    · exact hf

omit st in
theorem taking (h : Writes I J s t) (p : PortId) (op : CmdOp) (f : List Byte → State → State)
    (hf : ∀ raw, Writes I J s (f raw t)) : Writes I J s (t.taking p op f) := by
  unfold State.taking
  split
  · split
    · exact hf _
    · exact h
  · exact h

theorem allocateFrom (h : Writes I J s t) (p : PortId) (q : PoolId) : Writes I J s (t.allocateFrom p q) := by
  unfold State.allocateFrom
  split
  · exact endTakenOn st (((h.pool _ _).setCustody _ _).chargeUp _ _) _ _ _
  · exact h

omit st in
theorem freeAccept (sb : Stable I J) (h : Writes I J s t) (p : PortId) (b : BufId) : Writes I J s (t.freeAccept p b) :=
  ask sb ((acceptTaken sb.toSteady h _).beginOp _ _) _

theorem sendReserve (h : Writes I J s t) (b : BufId) (d : PortId) : Writes I J s (t.sendReserve b d) := by
  unfold State.sendReserve
  dsimp only
  split
  · exact (h.openDest _ _ _).port _ _ (st.reserve _ _ _)
  · exact ((h.openDest _ _ _).port _ _ (st.reserve _ _ _)).mover _

omit st in
theorem sendAccept (sb : Stable I J) (h : Writes I J s t) (p : PortId) (b : BufId) (d : PortId) : Writes I J s (t.sendAccept p b d) :=
  ask sb ((sendReserve sb.toSteady (acceptTaken sb.toSteady h _) _ _).beginOp _ _) _

theorem withdrawAccept (hw : ∀ b P, I P → I (P.modInbox (Inbox.remove (Item.isDeliveryOf b)))) (h : Writes I J s t) (p : PortId)
    (b : BufId) : Writes I J s (t.withdrawAccept p b) := by
  unfold State.withdrawAccept
  split
  · exact endTakenOn st ((((h.port _ _ (hw _ _)).setCustody _ _).chargeDown _ _).chargeUp _ _) _ _ _
  · exact h

omit st in
theorem lendAccept (sb : Stable I J) (h : Writes I J s t) (p : PortId) (b : BufId) (r : PortId) : Writes I J s (t.lendAccept p b r) :=
  ask sb (((acceptTaken sb.toSteady h _).port _ _ (sb.reserve _ _ _)).beginOp _ _) _

omit st in
theorem returnAccept (sb : Stable I J) (h : Writes I J s t) (p : PortId) (b : BufId) : Writes I J s (t.returnAccept p b) := by
  unfold State.returnAccept
  dsimp only
  refine ask sb ?_ _
  split
  · exact (acceptTaken sb.toSteady h _).setCustody _ _
  · exact acceptTaken sb.toSteady h _

omit st in
theorem reclaimAccept (sb : Stable I J) (h : Writes I J s t) (p : PortId) (b : BufId) : Writes I J s (t.reclaimAccept p b) := by
  unfold State.reclaimAccept
  split
  · split
    · exact ask sb ((acceptTaken sb.toSteady h _).setCustody _ _) _
    · exact endTakenOn sb.toSteady (h.enterFreeList _) _ _ _
  · exact h

/-! ### Deliveries and bursts -/

theorem takeOver (h : Writes I J s t) (b : BufId) (o p : PortId) : Writes I J s (t.takeOver b o p) := by
  unfold State.takeOver
  dsimp only
  refine recallCheck st ?_ _
  split
  · exact askRecall st (revoke st h _ _ _) _ _
  · exact readerOut st (revoke st h _ _ _) _ _ _

theorem itemEffect (h : Writes I J s t) (it : Item) (p : PortId) : Writes I J s (t.itemEffect it p) := by
  unfold State.itemEffect
  split
  · unfold State.delivered
    split
    · exact h.setCustody _ _
    · exact h
  · unfold State.leased
    split
    · dsimp only
      split
      · exact takeOver st (h.setCustody _ _) _ _ _
      · exact h.setCustody _ _
    · exact h
  · exact h

theorem arrivalAck (h : Writes I J s t) (p : PortId) (k : SlotId) (hp : I (t.port p) → I ((t.port p).arrStored k)) :
    Writes I J s (t.arrivalAck p k) := by
  unfold State.arrivalAck
  dsimp only
  refine Writes.port _ _ ?_ (st.present _)
  split
  · exact itemEffect st (h.port _ _ hp) _ _
  · exact h.port _ _ hp

omit st in
theorem burstWritten (h : Writes I J s t) (c : ChanId) : Writes I J s (t.burstWritten c) := by
  unfold State.burstWritten
  split
  · exact h.mover _
  · exact h

end Writes

end Sys2Proof.Machine
end

