-- ==== Sys2Proof/Laws/Exec.lean ====
section
/-!
SUPPORT. What a command may write at all. `Kept I J` asks of a property of ports and one of the Yield Unit that each operation
on one port or on the Yield Unit keep them; then every row but DEVICE_RESET and MAP_LOAD_END keeps them. With properties that say
nothing, it follows that every such row leaves the map, the map state, the Time Base and the queue as they were.
-/
namespace Sys2Proof.Machine
open Sys2Proof

/-- `I` and `J` outlast every operation that a command makes on one port or on the Yield Unit, in the condition in which it is
made. -/
structure Kept (I : Port → Prop) (J : YieldUnit → Prop) : Prop extends Stable I J where
  withdraw : ∀ b P, I P → I (P.modInbox (Inbox.remove (Item.isDeliveryOf b)))
  fence : ∀ P, I P → I P.fence
  reset : ∀ P, I P → I P.doReset
  fault : ∀ f P, I P → I { P with fault := f }
  control : ∀ w P, P.state ≠ .fenced → I P → I (P.controlFields w)
  poll : ∀ w P, I P → I (P.pollWrite w)
  cring : ∀ r w P, I P → I (P.writeCring r w)
  aring : ∀ r w P, I P → I (P.writeAring r w)
  eventsMask : ∀ e m a P, I P → I { P with events := e, mask := m, attnRelease := a }
  issue : ∀ k r d P, P.state = .active → I P → I (P.issue k r d)
  reissue : ∀ k r d P, (P.slots.get k).isSome → I P → I (P.issue k r d)
  issueRecord : ∀ k d P, P.state = .active → I P → I (P.issueRecord k d)
  rotation : ∀ l P, I P → I { P with rotation := l }
  freeSlot : ∀ k P, I P → I (P.setSlot k none)
  cmdLoadAck : ∀ n v k raw P, I P → I (P.cmdLoadAck n v k raw)
  cmdLoadLost : ∀ k a P, I P → I (P.cmdLoadLost k a)
  cmdLoadFail : ∀ k a P, I P → I (P.cmdLoadFail k a)
  completionAck : ∀ k P, I P → I (P.completionAck k)
  completionLost : ∀ k P, I P → I (P.completionLost k)
  completionFail : ∀ k P, I P → I (P.completionFail k)
  cmdWake : ∀ b P, I P → I (P.cmdWake b)
  arrLoadAck : ∀ n v k raw P, (P.slots.get k).isSome → I P → I (P.arrLoadAck n v k raw)
  arrLost : ∀ k a P, (P.slots.get k).isSome → I P → I (P.arrLost k a)
  arrLoadFail : ∀ k a P, (P.slots.get k).isSome → I P → I (P.arrLoadFail k a)
  arrStoreFail : ∀ k a P, (P.slots.get k).isSome → I P → I (P.arrStoreFail k a)
  arrStored : ∀ k P, I P → I (P.arrStored k)
  arrWake : ∀ b P, I P → I (P.arrWake b)
  unfence : ∀ P, I P → I P.unfence
  endFor : ∀ p y, J y → J (y.endFor p)
  retire : ∀ t ok y, J y → J ((y.retire t).serveAll ok)
  entry : ∀ t f y, (∀ e : YieldEntry, (f e).tag = e.tag) → J y → J (y.modEntry t f)

variable {I : Port → Prop} {J : YieldUnit → Prop} {s t : State}

/-! ### Shared shapes -/

theorem Port.dataReq_isSome {P : Port} {k : SlotId} {r : LinkReq} (h : P.dataReq k = some r) : (P.slots.get k).isSome := by
  unfold Port.dataReq at h
  split at h
  · simp [*]
  · cases h

theorem Port.slotDue_isSome {P : Port} {n : Nat} {k : SlotId} (h : P.slotDue n k = true) : (P.slots.get k).isSome := by
  unfold Port.slotDue at h
  split at h
  · simp [*]
  · cases h

theorem State.fenced_false {s : State} {p : PortId} (h : ¬ s.fenced p = true) : (s.port p).state ≠ .fenced := by
  intro e
  exact h (by simp [State.fenced, e])

theorem State.active_state {s : State} {p : PortId} (h : s.active p = true) : (s.port p).state = .active := by
  simpa [State.active] using h

namespace Kept
variable (K : Kept I J)
include K

theorem controlWrite (h : Writes I J s t) (p : PortId) (w : Word) : Writes I J s (t.controlWrite p w) := by
  unfold State.controlWrite
  split
  · exact Writes.portReset K.toSteady h p (K.reset _) (K.endFor p)
  · split
    · exact h.port _ _ (K.fault _ _)
    · exact h.port _ _ (K.control _ _ (State.fenced_false ‹_›))

theorem dataResponse (h : Writes I J s t) (p : PortId) (k : SlotId) (f : LinkReq → State → State)
    (hf : ∀ r, (t.port p).dataReq k = some r → Writes I J s (f r t)) : Writes I J s (t.dataResponse p k f) := by
  unfold State.dataResponse
  split
  · exact hf _ ‹_›
  · exact h.port _ _ (K.fault _ _)

theorem writeFault (P : Port) (hP : I P) : I P.writeFault := by
  unfold Port.writeFault
  split
  · exact K.fault _ _ hP
  · exact K.fault _ _ hP

theorem endRelease (n : Nat) (P : Port) (hP : I P) : I (P.endRelease n) := by
  unfold Port.endRelease
  split
  · split
    · exact K.eventsMask P.events P.mask _ P hP
    · exact hP
  · exact hP

theorem windowAccess (h : Writes I J s t) (p : PortId) (a : WindowAccess) : Writes I J s (t.windowAccess p a) := by
  unfold State.windowAccess
  split
  · exact h.port _ _ (K.fault _ _)
  · split
    · unfold State.windowWrite
      split
      · exact controlWrite K h _ _
      · exact h.port _ _ (K.eventsMask _ _ _ _)
      · exact h.port _ _ (K.eventsMask _ _ _ _)
      · exact h.port _ _ (K.poll _ _)
      · exact h.port _ _ (K.cring _ _ _)
      · exact h.port _ _ (K.cring _ _ _)
      · exact h.port _ _ (K.aring _ _ _)
      · exact h.port _ _ (K.aring _ _ _)
      · exact h.port _ _ (K.cring .baseHi _ _)
      · exact h.port _ _ (writeFault K _)
      · exact h
    · exact h

theorem rotate (h : Writes I J s t) (p : PortId) (x : Source) : Writes I J s (t.rotate p x) := by
  unfold State.rotate
  split
  · exact h
  · exact h.port _ _ (K.rotation _ _)

theorem grant (h : Writes I J s t) (p : PortId) (k : SlotId) (x : Source) (ha : t.active p = true) :
    Writes I J s (t.grant p k x) := by
  unfold State.grant
  refine rotate K ?_ _ _
  split
  · unfold State.issueYield
    split
    · exact (h.yields _ (K.entry _ _ _ (by intro e; rfl))).port _ _ (K.issue _ _ _ _ (State.active_state ha))
    · exact h
  · exact h.port _ _ (K.issueRecord _ _ _ (State.active_state ha))
  · unfold State.issueBurst
    split
    · split
      · exact (Writes.mover _ h).port _ _ (K.issue _ _ _ _ (State.active_state ha))
      · exact h
    · exact h

theorem endBurst (h : Writes I J s t) (p : PortId) (k : SlotId) (c : ChanId) : Writes I J s (t.endBurst p k c) :=
  Writes.mover _ (h.port _ _ (K.freeSlot _ _))

theorem fenceOf (h : Writes I J s t) (p : PortId) (e : Expired) : Writes I J s (t.fence p e) :=
  Writes.fence K.toStable h p e (K.fence _) (K.endFor p)

theorem retireYield (h : Writes I J s t) (x : TagId) (p : PortId) (k : SlotId) (ok : YieldAsk → Bool) :
    Writes I J s (t.retireYield x p k ok) := (h.port _ _ (K.freeSlot _ _)).yields _ (K.retire _ _ _)

end Kept

/-- Every row but DEVICE_RESET and MAP_LOAD_END answers a next state, and comes to it by writes that keep `I` and `J`. -/
theorem exec_kept (K : Kept I J) (c : Instr) (s : State) (hr : c ≠ .deviceReset) (hm : ∀ rom, c ≠ .mapLoadEnd rom) :
    ∃ t, exec c s = .next t ∧ Writes I J s t := by
  have h0 : Writes I J s s := .refl s
  have st := K.toSteady
  have sb := K.toStable
  cases c <;> try (first | exact absurd rfl hr | exact absurd rfl (hm _))
  case linkLoss => exact ⟨_, rfl, Writes.portReset st h0 _ (K.reset _) (K.endFor _)⟩
  case controlReset => exact ⟨_, rfl, K.controlWrite h0 _ _⟩
  case enable => exact ⟨_, rfl, K.controlWrite h0 _ _⟩
  case cmdStart => exact ⟨_, rfl, K.controlWrite h0 _ _⟩
  case cmdStop => exact ⟨_, rfl, K.controlWrite h0 _ _⟩
  case arrStart => exact ⟨_, rfl, K.controlWrite h0 _ _⟩
  case arrStop => exact ⟨_, rfl, K.controlWrite h0 _ _⟩
  case commandPollDemand => exact ⟨_, rfl, h0.port _ _ (K.poll _ _)⟩
  case arrivalPollDemand => exact ⟨_, rfl, h0.port _ _ (K.poll _ _)⟩
  case cringRegisterWrite => exact ⟨_, rfl, h0.port _ _ (K.cring _ _ _)⟩
  case aringRegisterWrite => exact ⟨_, rfl, h0.port _ _ (K.aring _ _ _)⟩
  case eventsWrite => exact ⟨_, rfl, h0.port _ _ (K.eventsMask _ _ _ _)⟩
  case maskWrite => exact ⟨_, rfl, h0.port _ _ (K.eventsMask _ _ _ _)⟩
  case attnReleaseEnd => exact ⟨_, rfl, h0.port _ _ (K.endRelease _ _)⟩
  case faultWrite => exact ⟨_, rfl, h0.port _ _ (K.writeFault _)⟩
  case badWindow => exact ⟨_, rfl, K.windowAccess h0 _ _⟩
  case arbiterGrant p k =>
    refine ⟨_, rfl, ?_⟩
    split
    · rename_i x hx
      unfold State.granted at hx
      split at hx
      · rename_i ha
        exact K.grant h0 _ _ _ ha.1
      · cases hx
    · exact h0
  case cmdLoadResponse =>
    refine ⟨_, rfl, K.dataResponse h0 _ _ _ (fun r hq => ?_)⟩
    split
    · exact h0.port _ _ (K.cmdLoadAck _ _ _ _ _)
    · exact h0
  case ringLoadError =>
    refine ⟨_, rfl, K.dataResponse h0 _ _ _ (fun r hq => ?_)⟩
    split
    · exact h0.port _ _ (K.cmdLoadFail _ _ _)
    · exact h0
  case completionStoreAck =>
    refine ⟨_, rfl, K.dataResponse h0 _ _ _ (fun r hq => ?_)⟩
    split
    · exact h0.port _ _ (K.completionAck _ _)
    · exact h0
  case completionStoreError =>
    refine ⟨_, rfl, K.dataResponse h0 _ _ _ (fun r hq => ?_)⟩
    split
    · exact h0.port _ _ (K.completionFail _ _)
    · exact h0
  case ringRequestExpiry =>
    refine ⟨_, rfl, ?_⟩
    split
    · split
      · exact K.fenceOf (h0.port _ _ (K.cmdLoadLost _ _ _)) _ _
      · exact K.fenceOf (h0.port _ (fun P => (P.completionLost _).raise .cmdHalted) (fun k => sb.raise _ _ (K.completionLost _ _ k))) _ _
      · exact h0
    · exact h0
  case commandAutoPollExpiry =>
    refine ⟨_, rfl, ?_⟩
    split
    · exact h0.port _ _ (K.cmdWake _ _)
    · exact h0
  case allocate =>
    exact ⟨_, rfl, Writes.taking h0 _ _ _ (fun _ => Writes.judge st h0 _ _ _ _ _ (Writes.allocateFrom st h0 _ _))⟩
  case free =>
    exact ⟨_, rfl, Writes.taking h0 _ _ _ (fun _ => Writes.judge st h0 _ _ _ _ _ (Writes.settle st (Writes.freeAccept sb h0 _ _)))⟩
  case send =>
    exact ⟨_, rfl, Writes.taking h0 _ _ _ (fun _ => Writes.judge st h0 _ _ _ _ _ (Writes.settle st (Writes.sendAccept sb h0 _ _ _)))⟩
  case withdraw =>
    exact ⟨_, rfl, Writes.taking h0 _ _ _ (fun _ => Writes.judge st h0 _ _ _ _ _ (Writes.withdrawAccept st K.withdraw h0 _ _))⟩
  case lend =>
    exact ⟨_, rfl, Writes.taking h0 _ _ _ (fun _ => Writes.judge st h0 _ _ _ _ _ (Writes.settle st (Writes.lendAccept sb h0 _ _ _)))⟩
  case returnView =>
    exact ⟨_, rfl, Writes.taking h0 _ _ _ (fun _ => Writes.judge st h0 _ _ _ _ _ (Writes.settle st (Writes.returnAccept sb h0 _ _)))⟩
  case recallViews =>
    exact ⟨_, rfl, Writes.taking h0 _ _ _ (fun _ => Writes.judge st h0 _ _ _ _ _
      (Writes.settle st (Writes.recallWhole st (Writes.acceptTaken st h0 _) _ _)))⟩
  case reclaim =>
    exact ⟨_, rfl, Writes.taking h0 _ _ _ (fun _ => Writes.judge st h0 _ _ _ _ _ (Writes.settle st (Writes.reclaimAccept sb h0 _ _)))⟩
  case unfence =>
    exact ⟨_, rfl, Writes.taking h0 _ _ _ (fun _ => Writes.judge st h0 _ _ _ _ _ (Writes.endTaken st (h0.port _ _ (K.unfence _)) _ _))⟩
  case query =>
    exact ⟨_, rfl, Writes.taking h0 _ _ _ (fun _ => Writes.judge st h0 _ _ _ _ _ (Writes.endTaken st h0 _ _))⟩
  case marker =>
    exact ⟨_, rfl, Writes.taking h0 _ _ _ (fun _ => Writes.judge st h0 _ _ _ _ _ (Writes.endTaken st h0 _ _))⟩
  case arrivalLoadResponse =>
    refine ⟨_, rfl, K.dataResponse h0 _ _ _ (fun r hq => ?_)⟩
    split
    · exact h0.port _ _ (K.arrLoadAck _ _ _ _ _ (Port.dataReq_isSome hq))
    · exact h0
  case arrivalStoreAck =>
    refine ⟨_, rfl, K.dataResponse h0 _ _ _ (fun r hq => ?_)⟩
    split
    · exact Writes.settle st (Writes.arrivalAck st h0 _ _ (K.arrStored _ _))
    · exact h0
  case arrivalRequestError =>
    refine ⟨_, rfl, K.dataResponse h0 _ _ _ (fun r hq => ?_)⟩
    split
    · exact h0.port _ _ (K.arrLoadFail _ _ _ (Port.dataReq_isSome hq))
    · exact Writes.settle st (Writes.leaseAbandoned st (h0.port _ _ (K.arrStoreFail _ _ _ (Port.dataReq_isSome hq))) _ _)
    · exact h0
  case arrivalRequestExpiry =>
    refine ⟨_, rfl, ?_⟩
    split
    · split
      · rename_i hq
        exact K.fenceOf (h0.port _ _ (K.arrLost _ _ _ (Port.dataReq_isSome hq))) _ _
      · rename_i hq
        exact K.fenceOf (h0.port _ _ (K.arrLost _ _ _ (Port.dataReq_isSome hq))) _ _
      · exact h0
    · exact h0
  case arrivalAutoPollExpiry =>
    refine ⟨_, rfl, ?_⟩
    split
    · exact h0.port _ _ (K.arrWake _ _)
    · exact h0
  case yieldResponse p n code =>
    refine ⟨_, rfl, ?_⟩
    split
    · refine Writes.settle st (Writes.yieldOutcome st ?_ _ _ (fun _ => sb.raise))
      unfold State.recordRefusal
      split
      · exact K.retireYield h0 _ _ _ _
      · exact (K.retireYield h0 _ _ _ _).port _ _ (K.fault _ _)
    · exact h0.port _ _ (K.fault _ _)
  case yieldDeadlineExpiry x =>
    refine ⟨_, rfl, ?_⟩
    split
    · rename_i e k hd
      split
      · refine (h0.yields _ (K.entry _ _ _ (by intro e; rfl))).port _ _ (K.reissue _ _ _ _ ?_)
        unfold State.dueEntry at hd
        split at hd
        · split at hd
          · rename_i hk
            cases hd
            exact Port.slotDue_isSome hk
          · cases hd
        · cases hd
      · exact h0
    · exact h0
  case yieldFinalExpiry =>
    refine ⟨_, rfl, ?_⟩
    split
    · split
      · exact h0
      · exact K.fenceOf ((K.retireYield h0 _ _ _ _).port _ _ (K.fault _ _)) _ _
    · exact h0
  case unsolicitedDataResponse =>
    refine ⟨_, rfl, ?_⟩
    split
    · exact h0
    · exact h0.port _ _ (K.fault _ _)
  case burstReadResponse =>
    refine ⟨_, rfl, K.dataResponse h0 _ _ _ (fun r hq => ?_)⟩
    split
    · split
      · exact Writes.settle st (Writes.mover _ (K.endBurst h0 _ _ _))
      · exact Writes.settle st (Writes.moveFail st (K.endBurst h0 _ _ _) _ _)
    · exact h0
  case burstWriteResponse =>
    refine ⟨_, rfl, K.dataResponse h0 _ _ _ (fun r hq => ?_)⟩
    split
    · split
      · exact Writes.settle st (Writes.burstWritten (K.endBurst h0 _ _ _) _)
      · exact Writes.settle st (Writes.moveFail st (K.endBurst h0 _ _ _) _ _)
    · exact h0
  case burstExpiry =>
    refine ⟨_, rfl, ?_⟩
    split
    · exact K.fenceOf ((K.endBurst h0 _ _ _).port _ _ (K.fault _ _)) _ _
    · exact h0
  case landingWaitExpiry =>
    refine ⟨_, rfl, ?_⟩
    split
    · exact Writes.settle st (Writes.moveFail st (Writes.mover _ (Writes.leaveWaiting h0 _)) _ _)
    · exact h0

/-- Properties that say nothing are kept. -/
theorem keptTrue : Kept (fun _ => True) (fun _ => True) := by
  constructor
  · constructor
    · constructor <;> intros <;> trivial
    all_goals intros; trivial
  all_goals intros; trivial

/-- Every row but DEVICE_RESET and MAP_LOAD_END leaves the fixed part of the state alone. -/
theorem exec_any (c : Instr) (s : State) (hr : c ≠ .deviceReset) (hm : ∀ rom, c ≠ .mapLoadEnd rom) :
    ∃ t, exec c s = .next t ∧ Writes (fun _ => True) (fun _ => True) s t := exec_kept keptTrue c s hr hm

end Sys2Proof.Machine
end

