-- ==== Sys2Proof/Laws/Lists.lean ====
section
/-!
SUPPORT. The list operations of the model: what taking the first member out of a list leaves.
-/
namespace Sys2Proof.Machine
open Sys2Proof

theorem extractFirst_length {α} {p : α → Bool} {l : List α} {x r} (h : extractFirst p l = some (x, r)) : l.length = r.length + 1 := by
  induction l generalizing x r with
  | nil => simp [extractFirst] at h
  | cons a l ih =>
    unfold extractFirst at h
    split at h
    · cases h; rfl
    · split at h
      · rename_i hy; cases h; simp [ih hy]
      · cases h

theorem removeFirst_length {α} (p : α → Bool) (l : List α) : (removeFirst p l).length ≤ l.length := by
  unfold removeFirst; split
  · rename_i h; rw [extractFirst_length h]; omega
  · exact le_refl _

theorem acceptFirst_length (l : List CmdRec) : (acceptFirst l).length = l.length := by
  induction l with
  | nil => rfl
  | cons r l ih => unfold acceptFirst; split <;> simp [ih]

theorem issueFirst_length (k) (l : List CmdRec) : (issueFirst k l).length = l.length := by
  induction l with
  | nil => rfl
  | cons r l ih => unfold issueFirst; split <;> simp [ih]

theorem extractFirst_all {α} {p q : α → Bool} {l : List α} {x r} (h : extractFirst p l = some (x, r)) (hq : l.all q = true) : r.all q = true ∧ q x = true := by
  induction l generalizing x r with
  | nil => simp [extractFirst] at h
  | cons a l ih =>
    simp only [List.all_cons, Bool.and_eq_true] at hq
    unfold extractFirst at h
    split at h
    · cases h; exact ⟨hq.2, hq.1⟩
    · split at h
      · rename_i hy; cases h
        have := ih hy hq.2
        exact ⟨by simp only [List.all_cons, Bool.and_eq_true]; exact ⟨hq.1, this.1⟩, this.2⟩
      · cases h

theorem extractFirst_perm {α} {p : α → Bool} {l : List α} {x r} (h : extractFirst p l = some (x, r)) : l.Perm (x :: r) ∧ p x = true := by
  induction l generalizing x r with
  | nil => simp [extractFirst] at h
  | cons a l ih =>
    unfold extractFirst at h
    split at h
    · cases h; exact ⟨.refl _, ‹_›⟩
    · split at h
      · rename_i y r' hy
        cases h
        have := ih hy
        exact ⟨(this.1.cons a).trans (.swap _ _ _), this.2⟩
      · cases h

end Sys2Proof.Machine
end

