-- ==== Sys2Proof/Laws/Legal.lean ====
section
/-!
SUPPORT. The values of the processes stay in their ranges: the lemmas, one operation each, behind `keptLegal`.
-/
namespace Sys2Proof.Machine
open Sys2Proof

/-- Both processes of a port have their values in range. -/
def Port.legal (P : Port) : Prop := P.cmd.legal ∧ P.arr.legal

/-- legal, but for the room -/
theorem CmdProc.legal_of {c c' : CmdProc} (h : c.legal) (hs : c'.size = c.size) (hb : c'.base = c.base) (hn : c'.next = c.next ∨ c'.next = 0)
   (hl : c'.outstanding.length ≤ c.outstanding.length) (ho : c'.load = c.load ∨ c'.load = none ∨ (∃ l l', c.load = some l ∧ c'.load = some l' ∧ l'.discard = l.discard) ∨ (∃ l', c'.load = some l' ∧ l'.discard = true)) : c'.legal := by
  obtain ⟨h1, h2, h3, h4, h5, h6⟩ := h
  refine ⟨by omega, by omega, by rw [hs]; rcases hn with hn | hn <;> omega, by rw [hb]; exact h4, by omega, ?_⟩
  intro l hl' hd
  rcases ho with ho | ho | ⟨a, a', ha, ha', hh⟩ | ⟨l', ho, hd'⟩
  · have := h6 l (by rw [← ho]; exact hl') hd; omega
  · rw [ho] at hl'; cases hl'
  · rw [ha'] at hl'; cases hl'; have := h6 a ha (by rw [← hh]; exact hd); omega
  · rw [ho] at hl'; cases hl'; rw [hd'] at hd; cases hd

theorem CmdProc.legal_cmdPresent (a : Bool) (P : Port) (h : P.cmd.legal) : (P.cmdPresent a).cmd.legal := by
  unfold Port.cmdPresent
  split
  · rename_i hm
    simp only [CmdProc.mayLoad, Bool.and_eq_true, decide_eq_true_eq] at hm
    obtain ⟨h1, h2, h3, h4, h5, h6⟩ := h
    exact ⟨h1, h2, h3, h4, h5, fun _ _ _ => hm.1.2⟩
  · exact h

theorem CmdProc.legal_takeEntry (raw) (P : Port) (h : P.cmd.legal) (hl : P.cmd.outstanding.length < 4) (hd : ∀ l, P.cmd.load = some l → l.discard = false → P.cmd.outstanding.length < 3) : (P.takeEntry raw).cmd.legal := by
  obtain ⟨h1, h2, h3, h4, h5, h6⟩ := h
  unfold Port.takeEntry
  dsimp only
  split
  · refine ⟨h1, h2, Nat.mod_lt _ (by omega), h4, by simp; omega, ?_⟩
    intro l hl' hd'; have := hd l hl' hd'; simp; omega
  · refine ⟨h1, h2, Nat.mod_lt _ (by show 0 < P.cmd.size; omega), h4, by simp [Port.recordFault]; omega, ?_⟩
    intro l hl' hd'; have := hd l hl' hd'; simp only [Port.recordFault, List.length_append, List.length_singleton]; omega

theorem CmdProc.legal_takeHeld (P : Port) (h : P.cmd.legal) : P.takeHeld.cmd.legal := by
  unfold Port.takeHeld
  split
  · split
    · rename_i ho
      apply CmdProc.legal_takeEntry
      · exact CmdProc.legal_of h rfl rfl (.inl rfl) (le_refl _) (.inl rfl)
      · simp [Port.modCmd, ho]
      · intros; simp [Port.modCmd, ho]
    · exact h
  · exact h

theorem CmdProc.legal_cmdAdvance (P : Port) (h : P.cmd.legal) : P.cmdAdvance.cmd.legal := by
  unfold Port.cmdAdvance
  split
  · split
    · exact CmdProc.legal_of h rfl rfl (.inl rfl) (le_refl _) (.inl rfl)
    · exact h
  · exact CmdProc.legal_cmdPresent _ _ (CmdProc.legal_takeHeld _ h)
  all_goals exact h

theorem CmdProc.legal_endCommand (sel res) (P : Port) (h : P.cmd.legal) : (P.endCommand sel res).cmd.legal := by
  unfold Port.endCommand
  split
  · exact h
  · rename_i r rest hr
    have := extractFirst_length hr
    split
    · apply CmdProc.legal_cmdAdvance
      exact CmdProc.legal_of h rfl rfl (.inl rfl) (by simp [Port.modCmd, Port.countDiscard]; omega) (.inl rfl)
    · exact CmdProc.legal_of h rfl rfl (.inl rfl) (by simp [Port.modCmd]; omega) (.inl rfl)

theorem load_abandon (l : Option RingLoad) : l.bind RingLoad.abandon = none ∨ ∃ l', l.bind RingLoad.abandon = some l' ∧ l'.discard = true := by
  cases l with
  | none => exact .inl rfl
  | some l => 
    show l.abandon = none ∨ _
    cases hs : l.slot <;> simp [RingLoad.abandon, hs]

theorem CmdProc.legal_halt (c : CmdProc) (h : c.legal) : c.halt.legal :=
  CmdProc.legal_of h rfl rfl (.inl rfl) (by simp [CmdProc.halt, markNotEnded]) (by
    rcases load_abandon c.load with e | e
    · exact .inr (.inl e)
    · exact .inr (.inr (.inr e)))

theorem CmdProc.legal_stop (c : CmdProc) (h : c.legal) : c.stop.legal :=
  CmdProc.legal_of h rfl rfl (.inl rfl) (le_refl _) (by
    rcases load_abandon c.load with e | e
    · exact .inr (.inl e)
    · exact .inr (.inr (.inr e)))

theorem CmdProc.legal_cmdShut (z) (P : Port) (h : P.cmd.legal) : (P.cmdShut z).cmd.legal := by
  unfold Port.cmdShut
  simp only [Port.countDiscards_cmd]
  refine CmdProc.legal_of h rfl rfl (by cases z <;> simp) ?_ (.inr (.inl rfl))
  simp [markNotEnded]
  exact List.length_filter_le _ _

theorem CmdProc.legal_loadNone (k) (P : Port) (h : P.cmd.legal) : ((P.setSlot k none).modCmd (fun c => {c with load := none})).cmd.legal :=
  CmdProc.legal_of h rfl rfl (.inl rfl) (le_refl _) (.inr (.inl rfl))

theorem ArrProc.legal_of {c c' : ArrProc} (h : c.legal) (hs : c'.size = c.size) (hb : c'.base = c.base) (hn : c'.next = c.next ∨ c'.next < c'.size) : c'.legal := by
  obtain ⟨h1, h2, h3, h4⟩ := h
  refine ⟨by omega, by omega, ?_, by rw [hb]; exact h4⟩
  rcases hn with hn | hn <;> omega

theorem ArrProc.legal_arrPresent (a) (P : Port) (h : P.arr.legal) : (P.arrPresent a).arr.legal := by
  unfold Port.arrPresent; split
  · exact h
  · exact h

theorem append_mod32 (x : BitVec 8) (y : BitVec 32) : (x ++ y).toNat % 32 = y.toNat % 32 := by
  rw [BitVec.toNat_append, ← Nat.shiftLeft_add_eq_or_of_lt y.isLt, Nat.shiftLeft_eq]
  omega

theorem cringBaseLo_aligned (b : Addr) (w : Word) : (cringBaseLo b w).toNat % 32 = 0 := by
  have h : ∀ y : BitVec 27, (y ++ 0#5).toNat % 32 = 0 := by
    intro y
    rw [BitVec.toNat_append, Nat.shiftLeft_eq]
    simp
  exact (append_mod32 _ _).trans (h _)

theorem aringBaseLo_aligned (b : Addr) (w : Word) : (aringBaseLo b w).toNat % 16 = 0 := by
  have h : ∀ y : BitVec 28, (y ++ 0#4).toNat % 16 = 0 := by
    intro y
    rw [BitVec.toNat_append, Nat.shiftLeft_eq]
    simp
  have h1 : (aringBaseLo b w).toNat % 32 = (w.extractLsb' 4 28 ++ 0#4).toNat % 32 := append_mod32 _ _
  have h2 := h (w.extractLsb' 4 28)
  omega

theorem ringBaseHi_mod32 (b : Addr) (x : Byte) : (ringBaseHi b x).toNat % 32 = b.toNat % 32 := by
  refine (append_mod32 x (b.extractLsb' 0 32)).trans ?_
  simp

theorem ringBaseHi_mod16 (b : Addr) (x : Byte) : (ringBaseHi b x).toNat % 16 = b.toNat % 16 := by
  have := ringBaseHi_mod32 b x
  omega

theorem Port.legal_arrPresent {P : Port} (h : Port.legal P) (a) : Port.legal (P.arrPresent a) := ⟨by simpa using h.1, ArrProc.legal_arrPresent _ _ h.2⟩

theorem Port.legal_writeHigh (w : Word) (P : Port) (h : Port.legal P) : Port.legal (P.writeHigh w) := by
  have hh : Port.legal (P.writeCringHi (w.extractLsb' 0 8)) := by
    unfold Port.writeCringHi
    split
    · exact h
    · split
      · obtain ⟨⟨h1, h2, h3, h4, h5, h6⟩, h7⟩ := h
        exact ⟨⟨h1, h2, by show 0 < P.cmd.size; omega, by show (ringBaseHi _ _).toNat % 32 = 0; rw [ringBaseHi_mod32]; exact h4, h5, h6⟩, h7⟩
      · exact h
  unfold Port.writeHigh
  generalize P.writeCringHi (w.extractLsb' 0 8) = Q at hh
  unfold Port.writeAringHi
  split
  · exact hh
  · split
    · obtain ⟨h1, h2, h3, h4, h5⟩ := hh
      exact ⟨h1, h2, h3, by show 0 < Q.arr.size; omega, by show (ringBaseHi _ _).toNat % 16 = 0; rw [ringBaseHi_mod16]; exact h5⟩
    · exact hh

theorem Port.keepsLegal_inbox : ∀ f P, Port.legal P → Port.legal (P.modInbox f) := by
  intro f P h; exact h

theorem Port.keepsLegal_present : ∀ P, Port.legal P → Port.legal (P.arrPresent false) := by
  intro P h; exact Port.legal_arrPresent h _

theorem Port.keepsLegal_raise : ∀ e P, Port.legal P → Port.legal (P.raise e) := by
  intro e P h; exact h

theorem Port.keepsLegal_ended : ∀ sel res P, Port.legal P → Port.legal (P.endCommand sel res) := by
  intro sel res P h; exact ⟨CmdProc.legal_endCommand _ _ _ h.1, by simpa using h.2⟩

theorem Port.keepsLegal_accepted : ∀ P, Port.legal P → Port.legal (P.modCmd (fun c => { c with outstanding := acceptFirst c.outstanding })) := by
  intro P h; exact ⟨CmdProc.legal_of h.1 rfl rfl (.inl rfl) (by simp [Port.modCmd, acceptFirst_length]) (.inl rfl), h.2⟩

theorem Port.keepsLegal_fence : ∀ P, Port.legal P → Port.legal P.fence := by
  intro P h
  refine ⟨?_, ?_⟩
  · exact CmdProc.legal_cmdShut false _ h.1
  · have : P.fence.arr = P.arr.shut false := by simp [Port.fence, Port.arrShut, Port.modInbox, Port.modArr]
    rw [this]
    exact ArrProc.legal_of h.2 rfl rfl (.inl rfl)

theorem Port.keepsLegal_reset : ∀ P, Port.legal P → Port.legal P.doReset := by
  intro P h
  refine ⟨CmdProc.legal_cmdShut true _ h.1, ?_⟩
  have : P.doReset.arr = P.arr.shut true := by simp [Port.doReset, Port.arrShut, Port.modInbox, Port.modArr]
  rw [this]
  exact ArrProc.legal_of h.2 rfl rfl (.inr (by have := h.2.1; simp [ArrProc.shut]; omega))

theorem Port.keepsLegal_fault : ∀ f P, Port.legal P → Port.legal { P with fault := f } := by
  intro f P h; exact h

theorem Port.keepsLegal_control : ∀ w P, P.state ≠ .fenced → Port.legal P → Port.legal (P.controlFields w) := by
  intro w P _ h
  unfold Port.controlFields
  dsimp only
  have h1 : Port.legal (if ctlEnable w = true ∧ P.state = .down then { P with state := .active } else P) := by split <;> exact h
  generalize (if ctlEnable w = true ∧ P.state = .down then { P with state := .active } else P) = Q at h1
  have h2 : Port.legal (Q.cmdRunField (ctlCmdRun w)) := by
    unfold Port.cmdRunField
    split
    · split
      · exact h1
      · split
        · exact ⟨CmdProc.legal_cmdAdvance _ (CmdProc.legal_of h1.1 rfl rfl (.inl rfl) (le_refl _) (.inl rfl)), by simpa using h1.2⟩
        · exact h1
    · split
      · exact ⟨CmdProc.legal_of h1.1 rfl rfl (.inl rfl) (le_refl _) (.inl rfl), h1.2⟩
      · split
        · exact ⟨CmdProc.legal_stop _ h1.1, h1.2⟩
        · exact h1
      · split
        · exact ⟨CmdProc.legal_stop _ h1.1, h1.2⟩
        · exact h1
      · exact ⟨CmdProc.legal_of h1.1 rfl rfl (.inl rfl) (le_refl _) (.inl rfl), h1.2⟩
      · exact ⟨CmdProc.legal_of h1.1 rfl rfl (.inl rfl) (le_refl _) (.inl rfl), h1.2⟩
  generalize Q.cmdRunField (ctlCmdRun w) = R at h2
  unfold Port.arrRunField
  split
  · split
    · exact h2
    · split
      · exact Port.legal_arrPresent (P := R.modArr _) ⟨h2.1, ArrProc.legal_of h2.2 rfl rfl (.inl rfl)⟩ _
      · exact h2
  · split
    · refine ⟨h2.1, ?_⟩
      show R.arr.stop.legal
      unfold ArrProc.stop
      split
      · exact ArrProc.legal_of h2.2 rfl rfl (.inl rfl)
      · exact ArrProc.legal_of h2.2 rfl rfl (.inl rfl)
      · split
        · exact ArrProc.legal_of h2.2 rfl rfl (.inl rfl)
        · exact ArrProc.legal_of h2.2 rfl rfl (.inl rfl)
      · exact ArrProc.legal_of h2.2 rfl rfl (.inl rfl)
    · exact h2

theorem Port.keepsLegal_poll : ∀ w P, Port.legal P → Port.legal (P.pollWrite w) := by
  intro w P h
  unfold Port.pollWrite
  split
  · exact h
  · dsimp only
    have h1 : Port.legal (if pollCmd w = true then P.cmdWake false else P) := by
      split
      · unfold Port.cmdWake
        split
        · exact ⟨CmdProc.legal_cmdPresent _ _ (CmdProc.legal_of h.1 rfl rfl (.inl rfl) (le_refl _) (.inl rfl)), by simpa using h.2⟩
        · exact h
      · exact h
    generalize (if pollCmd w = true then Port.cmdWake false P else P) = Q at h1
    split
    · unfold Port.arrWake
      split
      · exact Port.legal_arrPresent (P := Q.modArr _) ⟨h1.1, ArrProc.legal_of h1.2 rfl rfl (.inl rfl)⟩ _
      · exact h1
    · exact h1

theorem Port.keepsLegal_cring : ∀ r w P, Port.legal P → Port.legal (P.writeCring r w) := by
  intro r w P h
  unfold Port.writeCring
  split
  · unfold Port.writeCringLo
    split
    · obtain ⟨⟨h1, h2, h3, h4, h5, h6⟩, h7⟩ := h
      exact ⟨⟨h1, h2, by show 0 < P.cmd.size; omega, cringBaseLo_aligned _ _, h5, h6⟩, h7⟩
    · exact h
  · unfold Port.writeCringSize
    split
    · rename_i hs
      have hs := hs.2
      simp only [ringSizeOk, decide_eq_true_eq] at hs
      obtain ⟨⟨h1, h2, h3, h4, h5, h6⟩, h7⟩ := h
      exact ⟨⟨hs.1, hs.2, by show 0 < sizeField w; omega, h4, h5, h6⟩, h7⟩
    · exact h
  · exact Port.legal_writeHigh w P h

theorem Port.keepsLegal_aring : ∀ r w P, Port.legal P → Port.legal (P.writeAring r w) := by
  intro r w P h
  unfold Port.writeAring
  split
  · unfold Port.writeAringLo
    split
    · exact ⟨h.1, h.2.1, h.2.2.1, by show 0 < P.arr.size; have := h.2.1; omega, aringBaseLo_aligned _ _⟩
    · exact h
  · unfold Port.writeAringSize
    split
    · rename_i hs
      have hs := hs.2
      simp only [ringSizeOk, decide_eq_true_eq] at hs
      exact ⟨h.1, hs.1, hs.2, by show 0 < sizeField w; omega, h.2.2.2.2⟩
    · exact h
  · exact Port.legal_writeHigh w P h

theorem Port.keepsLegal_eventsMask : ∀ e m a P, Port.legal P → Port.legal { P with events := e, mask := m, attnRelease := a } := by
  intro e m a P h; exact h

theorem Port.keepsLegal_issue : ∀ k r d P, P.state = .active → Port.legal P → Port.legal (P.issue k r d) := by
  intro k r d P _ h; exact h

theorem Port.keepsLegal_reissue : ∀ k r d P, (P.slots.get k).isSome → Port.legal P → Port.legal (P.issue k r d) := by
  intro k r d P _ h; exact h

theorem Port.keepsLegal_issueRecord : ∀ k d P, P.state = .active → Port.legal P → Port.legal (P.issueRecord k d) := by
  intro k d P _ h
  unfold Port.issueRecord
  split
  · unfold Port.issueCmd
    split
    · exact ⟨CmdProc.legal_of h.1 rfl rfl (.inl rfl) (by show (issueFirst k P.cmd.outstanding).length ≤ _; rw [issueFirst_length]) (.inl rfl), h.2⟩
    · rename_i l hl
      refine ⟨CmdProc.legal_of h.1 rfl rfl (.inl rfl) (le_refl _) (.inr (.inr (.inl ⟨l, _, ?_, rfl, rfl⟩))), h.2⟩
      unfold CmdProc.offer at hl
      split at hl
      · cases hl
      · unfold presentedLoad at hl
        cases hh : P.cmd.load with
        | none => simp [hh] at hl
        | some x => 
          simp [hh] at hl
          rw [hl.2]
    · exact h
  · unfold Port.issueArr
    split
    · exact ⟨h.1, ArrProc.legal_of h.2 rfl rfl (.inl rfl)⟩
    · split
      · exact ⟨h.1, ArrProc.legal_of h.2 rfl rfl (.inl rfl)⟩
      · exact h
    · exact h
  · exact h

theorem Port.keepsLegal_rotation : ∀ l P, Port.legal P → Port.legal { P with rotation := l } := by
  intro l P h; exact h

theorem Port.keepsLegal_freeSlot : ∀ k P, Port.legal P → Port.legal (P.setSlot k none) := by
  intro k P h; exact h

theorem Port.keepsLegal_cmdLoadAck : ∀ n v k raw P, Port.legal P → Port.legal (P.cmdLoadAck n v k raw) := by
  intro n v k raw P h
  have h0 : Port.legal ((P.setSlot k none).modCmd (fun c => { c with load := none })) := ⟨CmdProc.legal_loadNone k P h.1, h.2⟩
  unfold Port.cmdLoadAck
  dsimp only
  split
  · rename_i l hl
    split
    · exact ⟨CmdProc.legal_cmdAdvance _ h0.1, by simpa using h0.2⟩
    · rename_i hd
      have hlen : P.cmd.outstanding.length < 4 := h.1.2.2.2.2.2 l hl (by simpa using hd)
      unfold Port.cmdLoaded
      split
      · split
        · exact ⟨CmdProc.legal_of h0.1 rfl rfl (.inl rfl) (le_refl _) (.inl rfl), h0.2⟩
        · exact ⟨CmdProc.legal_cmdAdvance _ (CmdProc.legal_takeEntry _ _ h0.1 hlen (by intro l hl; cases hl)), by simpa using h0.2⟩
      · unfold Port.cmdSuspend
        dsimp only
        split
        · exact ⟨CmdProc.legal_of h0.1 rfl rfl (.inl rfl) (le_refl _) (.inl rfl), h0.2⟩
        · exact ⟨CmdProc.legal_of h0.1 rfl rfl (.inl rfl) (le_refl _) (.inl rfl), h0.2⟩
  · exact h0

theorem Port.keepsLegal_cmdLoadLost : ∀ k a P, Port.legal P → Port.legal (P.cmdLoadLost k a) :=
  fun k _ P h => ⟨CmdProc.legal_loadNone k P h.1, h.2⟩

theorem Port.keepsLegal_cmdLoadFail : ∀ k a P, Port.legal P → Port.legal (P.cmdLoadFail k a) := by
  intro k a P h
  have h0 := Port.keepsLegal_cmdLoadLost k a P h
  unfold Port.cmdLoadFail
  split
  · split
    · exact ⟨CmdProc.legal_cmdAdvance _ h0.1, by simpa using h0.2⟩
    · exact ⟨CmdProc.legal_halt _ h0.1, h0.2⟩
  · exact h0

theorem Port.keepsLegal_completionAck : ∀ k P, Port.legal P → Port.legal (P.completionAck k) := by
  intro k P h
  unfold Port.completionAck
  refine ⟨CmdProc.legal_cmdAdvance _ (CmdProc.legal_of h.1 rfl rfl (.inl rfl) ?_ (.inl rfl)), by simpa using h.2⟩
  exact removeFirst_length _ _

theorem Port.keepsLegal_completionLost : ∀ k P, Port.legal P → Port.legal (P.completionLost k) :=
  fun _ _ h => ⟨CmdProc.legal_of h.1 rfl rfl (.inl rfl) (removeFirst_length _ _) (.inl rfl), h.2⟩

theorem Port.keepsLegal_completionFail : ∀ k P, Port.legal P → Port.legal (P.completionFail k) := by
  intro k P h
  have h0 := Port.keepsLegal_completionLost k P h
  unfold Port.completionFail
  dsimp only
  split
  · exact h0
  · exact h0
  all_goals exact ⟨CmdProc.legal_halt _ h0.1, h0.2⟩

theorem Port.keepsLegal_cmdWake : ∀ b P, Port.legal P → Port.legal (P.cmdWake b) := by
  intro b P h
  unfold Port.cmdWake
  split
  · exact ⟨CmdProc.legal_cmdPresent _ _ (CmdProc.legal_of h.1 rfl rfl (.inl rfl) (le_refl _) (.inl rfl)), by simpa using h.2⟩
  · exact h

theorem Port.keepsLegal_arrLoadAck : ∀ n v k raw P, (P.slots.get k).isSome → Port.legal P → Port.legal (P.arrLoadAck n v k raw) := by
  intro n v k raw P _ h
  have h0 : Port.legal ((P.setSlot k none).modArr (fun c => { c with load := none })) := ⟨h.1, ArrProc.legal_of h.2 rfl rfl (.inl rfl)⟩
  unfold Port.arrLoadAck
  dsimp only
  split
  · split
    · exact Port.legal_arrPresent h0 _
    · unfold Port.arrLoaded
      split
      · exact h0
      · split
        · exact ⟨h0.1, ArrProc.legal_of h0.2 rfl rfl (.inl rfl)⟩
        · unfold Port.arrSuspend
          dsimp only
          split
          · exact ⟨h0.1, ArrProc.legal_of h0.2 rfl rfl (.inl rfl)⟩
          · exact ⟨h0.1, ArrProc.legal_of h0.2 rfl rfl (.inl rfl)⟩
  · exact h0

theorem Port.keepsLegal_arrLost : ∀ k a P, (P.slots.get k).isSome → Port.legal P → Port.legal (P.arrLost k a) :=
  fun _ _ _ _ h => ⟨h.1, h.2⟩

theorem Port.keepsLegal_arrLoadFail : ∀ k a P, (P.slots.get k).isSome → Port.legal P → Port.legal (P.arrLoadFail k a) := by
  intro k a P _ h
  have h0 : Port.legal (Port.arrFault a ((P.setSlot k none).modArr (fun c => { c with load := none }))) := ⟨h.1, ArrProc.legal_of h.2 rfl rfl (.inl rfl)⟩
  unfold Port.arrLoadFail
  dsimp only
  split
  · split
    · exact Port.legal_arrPresent h0 _
    · exact ⟨h0.1, ArrProc.legal_of h0.2 rfl rfl (.inl rfl)⟩
  · exact h0

theorem Port.keepsLegal_arrStoreFail : ∀ k a P, (P.slots.get k).isSome → Port.legal P → Port.legal (P.arrStoreFail k a) := by
  intro k a P _ h
  refine ⟨h.1, ?_⟩
  show P.arr.storeFailed.legal
  unfold ArrProc.storeFailed
  split <;> exact ArrProc.legal_of h.2 rfl rfl (.inl rfl)

theorem Port.keepsLegal_arrStored : ∀ k P, Port.legal P → Port.legal (P.arrStored k) := by
  intro k P h
  refine ⟨h.1, ?_⟩
  show P.arr.stored.legal
  unfold ArrProc.stored ArrProc.endStopWaiting
  have : (P.arr.next + 1) % P.arr.size < P.arr.size := Nat.mod_lt _ (by have := h.2.1; omega)
  split <;> exact ArrProc.legal_of h.2 rfl rfl (.inr this)

theorem Port.keepsLegal_arrWake : ∀ b P, Port.legal P → Port.legal (P.arrWake b) := by
  intro b P h
  unfold Port.arrWake
  split
  · exact Port.legal_arrPresent (P := P.modArr _) ⟨h.1, ArrProc.legal_of h.2 rfl rfl (.inl rfl)⟩ _
  · exact h

theorem Port.keepsLegal_unfence : ∀ P, Port.legal P → Port.legal P.unfence := by
  intro P h
  exact ⟨CmdProc.legal_of h.1 rfl rfl (.inr rfl) (le_refl _) (.inl rfl), ArrProc.legal_of h.2 rfl rfl (.inr (by show 0 < P.arr.size; have := h.2.1; omega))⟩

/-- Every operation of a command keeps the values of the processes in range. -/
theorem keptLegal : Kept Port.legal (fun _ => True) where
  toStable := Stable.of Port.keepsLegal_inbox Port.keepsLegal_present Port.keepsLegal_raise Port.keepsLegal_ended Port.keepsLegal_accepted
    (fun _ _ _ => trivial)
  withdraw := fun _ => Port.keepsLegal_inbox _
  fence := Port.keepsLegal_fence
  reset := Port.keepsLegal_reset
  fault := Port.keepsLegal_fault
  control := Port.keepsLegal_control
  poll := Port.keepsLegal_poll
  cring := Port.keepsLegal_cring
  aring := Port.keepsLegal_aring
  eventsMask := Port.keepsLegal_eventsMask
  issue := Port.keepsLegal_issue
  reissue := Port.keepsLegal_reissue
  issueRecord := Port.keepsLegal_issueRecord
  rotation := Port.keepsLegal_rotation
  freeSlot := Port.keepsLegal_freeSlot
  cmdLoadAck := Port.keepsLegal_cmdLoadAck
  cmdLoadLost := Port.keepsLegal_cmdLoadLost
  cmdLoadFail := Port.keepsLegal_cmdLoadFail
  completionAck := Port.keepsLegal_completionAck
  completionLost := Port.keepsLegal_completionLost
  completionFail := Port.keepsLegal_completionFail
  cmdWake := Port.keepsLegal_cmdWake
  arrLoadAck := Port.keepsLegal_arrLoadAck
  arrLost := Port.keepsLegal_arrLost
  arrLoadFail := Port.keepsLegal_arrLoadFail
  arrStoreFail := Port.keepsLegal_arrStoreFail
  arrStored := Port.keepsLegal_arrStored
  arrWake := Port.keepsLegal_arrWake
  unfence := Port.keepsLegal_unfence
  endFor := fun _ _ _ => trivial
  retire := fun _ _ _ _ => trivial
  entry := fun _ _ _ _ _ => trivial


end Sys2Proof.Machine
end

