-- ==== Sys2Proof/Laws/MapLoad.lean ====
section
/-!
SUPPORT. The Map Loader's read of the ROM: the load depends on nothing but the bytes that the read clocks in.
-/
namespace Sys2Proof.Machine
open Sys2Proof

/-- A byte that was clocked in is the ROM's. -/
theorem romByte_romClocked {rom : List Byte} {k : Nat} (h : k < romReadEnd rom) : romByte (romClocked rom) k = romByte rom k := by
  simp [romByte, romClocked, List.getD, h]

/-- A read takes the header at least (R5). -/
theorem header_le_romReadEnd (rom : List Byte) : 16 ≤ romReadEnd rom := by
  unfold romReadEnd imageLength
  split <;> omega

section Congr

variable {a b : List Byte}

theorem rom16_congr {n k : Nat} (h : ∀ i < n, romByte a i = romByte b i) (hk : k + 1 < n) : rom16 a k = rom16 b k := by
  unfold rom16
  rw [h k (by omega), h (k + 1) hk]

theorem rom32_congr {n k : Nat} (h : ∀ i < n, romByte a i = romByte b i) (hk : k + 3 < n) : rom32 a k = rom32 b k := by
  unfold rom32
  rw [rom16_congr h (by omega), rom16_congr h (by omega : k + 2 + 1 < n)]

theorem rom40_congr {n k : Nat} (h : ∀ i < n, romByte a i = romByte b i) (hk : k + 4 < n) : rom40 a k = rom40 b k := by
  unfold rom40
  rw [rom32_congr h (by omega), h (k + 4) hk]

theorem poolCount_congr {n : Nat} (h : ∀ i < n, romByte a i = romByte b i) (hn : 16 ≤ n) : poolCount a = poolCount b := by
  unfold poolCount
  rw [h 5 (by omega)]

theorem romPort_congr {n p : Nat} (h : ∀ i < n, romByte a i = romByte b i) (hp : portOffset p + 9 < n) : romPort a p = romPort b p := by
  unfold romPort
  simp only [h (portOffset p) (by omega), h (portOffset p + 1) (by omega), rom16_congr h (by omega : portOffset p + 2 + 1 < n),
    rom16_congr h (by omega : portOffset p + 4 + 1 < n), rom16_congr h (by omega : portOffset p + 6 + 1 < n),
    rom16_congr h (by omega : portOffset p + 8 + 1 < n)]

theorem romPool_congr {n q : Nat} (h : ∀ i < n, romByte a i = romByte b i) (hq : poolOffset q + 23 < n) : romPool a q = romPool b q := by
  unfold romPool fourOf
  simp only [h (poolOffset q) (by omega), h (poolOffset q + 1) (by omega), rom16_congr h (by omega : poolOffset q + 2 + 1 < n),
    rom40_congr h (by omega : poolOffset q + 4 + 4 < n), h (poolOffset q + 9) (by omega),
    rom16_congr h (by omega : poolOffset q + 12 + 2 * 0 + 1 < n), rom16_congr h (by omega : poolOffset q + 12 + 2 * 1 + 1 < n),
    rom16_congr h (by omega : poolOffset q + 12 + 2 * 2 + 1 < n), rom16_congr h (by omega : poolOffset q + 12 + 2 * 3 + 1 < n),
    h (poolOffset q + 20 + 0) (by omega), h (poolOffset q + 20 + 1) (by omega), h (poolOffset q + 20 + 2) (by omega),
    h (poolOffset q + 20 + 3) (by omega)]

theorem romMap_congr (h : ∀ i < imageLength (poolCount b), romByte a i = romByte b i) : romMap a = romMap b := by
  have hl : 84 ≤ imageLength (poolCount b) := by unfold imageLength; omega
  unfold romMap fourOf
  rw [h 6 (by omega), rom16_congr h (by omega), poolCount_congr h (by omega)]
  have hp : ∀ p < 4, romPort a p = romPort b p := fun p hp => romPort_congr h (by unfold portOffset; omega)
  rw [hp 0 (by omega), hp 1 (by omega), hp 2 (by omega), hp 3 (by omega)]
  congr 1
  refine List.map_congr_left (fun q hq => romPool_congr h ?_)
  rw [List.mem_range] at hq
  unfold poolOffset imageLength
  omega

theorem contentOk_congr (h : ∀ i < imageLength (poolCount b), romByte a i = romByte b i) : contentOk a = contentOk b := by
  have hl : 84 ≤ imageLength (poolCount b) := by unfold imageLength; omega
  have hc := poolCount_congr h (by omega)
  have hh : headerOk a = headerOk b := by
    unfold headerOk
    rw [h 4 (by omega), rom16_congr h (by omega), hc, h 6 (by omega), rom16_congr h (by omega)]
  unfold contentOk
  simp only [hh, romMap_congr h, hc]
  congr 1
  rw [Bool.eq_iff_iff, List.all_eq_true, List.all_eq_true]
  refine forall₂_congr (fun q hq => ?_)
  rw [List.mem_range] at hq
  have hq' : poolOffset q + 23 < imageLength (poolCount b) := by unfold poolOffset imageLength; omega
  rw [h (poolOffset q) (by omega), romPool_congr h hq']

theorem crcOk_congr (h : ∀ i < imageLength (poolCount b), romByte a i = romByte b i) : crcOk a = crcOk b := by
  have hl : 84 ≤ imageLength (poolCount b) := by unfold imageLength; omega
  have hc := poolCount_congr h (by omega)
  unfold crcOk
  simp only [hc]
  rw [rom32_congr h (by omega), List.map_congr_left (fun k hk => h k (by rw [List.mem_range] at hk; omega))]

/-- The load ends alike on ROMs that agree on the bytes clocked in (R5). -/
theorem endLoad_congr (h : ∀ i < romReadEnd b, romByte a i = romByte b i) (s : State) : s.endLoad a = s.endLoad b := by
  have h16 := header_le_romReadEnd b
  have hs := rom32_congr h (by omega : 0 + 3 < romReadEnd b)
  have hc := poolCount_congr h h16
  unfold State.endLoad loadReason
  rw [hs, hc]
  by_cases h1 : rom32 b 0 ≠ mapSignature
  · simp only [if_pos h1]
  simp only [if_neg h1]
  by_cases h2 : poolCount b = 0 ∨ 16 < poolCount b
  · simp only [if_pos h2]
  simp only [if_neg h2]
  have hn : romReadEnd b = imageLength (poolCount b) := by
    unfold romReadEnd
    rw [if_neg]
    exact fun x => x.elim h1 h2
  rw [hn] at h
  rw [crcOk_congr h, contentOk_congr h, romMap_congr h]

end Congr

/-- Judging the bytes clocked in is judging the ROM (R5, R6). -/
theorem endLoad_romClocked (rom : List Byte) (s : State) : s.endLoad (romClocked rom) = s.endLoad rom :=
  endLoad_congr (fun _ h => romByte_romClocked h) s

/-- The read ends where it does on any ROM with the same bytes up to there (R5). -/
theorem romReadEnd_congr {a b : List Byte} (h : ∀ i < romReadEnd b, romByte a i = romByte b i) : romReadEnd a = romReadEnd b := by
  have h16 := header_le_romReadEnd b
  unfold romReadEnd
  rw [rom32_congr h (by omega : 0 + 3 < romReadEnd b), poolCount_congr h h16]

end Sys2Proof.Machine
end

