-- ==== Sys2Proof/Laws/Ops.lean ====
section
/-!
SUPPORT. What the shared operations do, one lemma for each use the statements make of them: the Mover's turn at the end of a step, a
response to a known request, loads presented, members taken out of lists, entering a free list, and reads of a record just written.
-/
namespace Sys2Proof.Machine
open Sys2Proof

/-! ### Ports -/

/-- Two changes of a port that agree on what the port holds are one. -/
theorem State.modPort_congr {s : State} {p : PortId} {f g : Port → Port} (h : f (s.port p) = g (s.port p)) :
    s.modPort p f = s.modPort p g := by
  unfold State.modPort
  rw [show f (s.ports.get p) = g (s.ports.get p) from h]

/-- A response to the request a slot is known to hold. -/
theorem State.dataResponse_of {s : State} {p : PortId} {k : SlotId} {f : LinkReq → State → State} {r : LinkReq}
    (h : (s.port p).dataReq k = some r) : s.dataResponse p k f = f r s := by
  simp [State.dataResponse, h]

/-- A RUNNING Command Process presents its next load where R49 allows. -/
theorem Port.cmdPresent_running {P : Port} (auto : Bool) (h : P.cmd.state = .running) :
    P.cmdPresent auto = { P with cmd := { P.cmd with load := P.cmd.nextLoad auto } } := by
  have e : P.cmd.mayLoad = P.cmd.freeToLoad := by simp [CmdProc.mayLoad, CmdProc.freeToLoad, h]
  unfold Port.cmdPresent CmdProc.nextLoad
  rw [e]
  split <;> rfl

/-- With no entry held, a RUNNING Command Process goes on by presenting its next load. -/
theorem Port.cmdAdvance_running {P : Port} (h : P.cmd.state = .running) (hh : P.cmd.held = none) :
    P.cmdAdvance = { P with cmd := { P.cmd with load := P.cmd.nextLoad false } } := by
  unfold Port.cmdAdvance
  rw [h]
  dsimp only
  rw [show P.takeHeld = P by simp [Port.takeHeld, hh], Port.cmdPresent_running _ h]

/-- A RUNNING Arrival Process presents its next load where R102 allows. -/
theorem Port.arrPresent_running {P : Port} (auto : Bool) (h : P.arr.state = .running) :
    P.arrPresent auto = { P with arr := { P.arr with load := P.arr.nextLoad auto P.inbox } } := by
  have e : P.arrMayLoad = true ↔ (P.arr.load = none ∧ P.arr.store = none ∧ P.arr.stopWaiting = false ∧
      ¬(P.inbox.urgent = [] ∧ P.inbox.routine = [])) := by
    simp [Port.arrMayLoad, h, Inbox.isEmpty]
    cases P.inbox.urgent <;> cases P.inbox.routine <;> simp <;> tauto
  unfold Port.arrPresent ArrProc.nextLoad
  by_cases hm : P.arrMayLoad = true
  · rw [if_pos hm, if_pos (e.mp hm)]
    rfl
  · rw [if_neg hm, if_neg (fun x => hm (e.mpr x))]

/-- An Arrival Process that is not RUNNING presents nothing. -/
theorem Port.arrPresent_other {P : Port} (auto : Bool) (h : P.arr.state ≠ .running) : P.arrPresent auto = P := by
  unfold Port.arrPresent
  rw [if_neg]
  simp [Port.arrMayLoad, h]

/-! ### Lists -/

theorem extractFirst_append {α : Type} (q : α → Bool) (b : List α) (r : α) (a : List α) (hb : ∀ x ∈ b, q x = false)
    (hr : q r = true) : extractFirst q (b ++ r :: a) = some (r, b ++ a) := by
  induction b with
  | nil => simp [extractFirst, hr]
  | cons y b ih =>
    simp only [List.cons_append, extractFirst, hb y (by simp)]
    rw [ih (fun x hx => hb x (by simp [hx]))]
    simp

theorem removeFirst_append {α : Type} (q : α → Bool) (b : List α) (r : α) (a : List α) (hb : ∀ x ∈ b, q x = false)
    (hr : q r = true) : removeFirst q (b ++ r :: a) = b ++ a := by
  simp [removeFirst, extractFirst_append q b r a hb hr]

theorem find?_append {α : Type} (q : α → Bool) (b : List α) (r : α) (a : List α) (hb : ∀ x ∈ b, q x = false)
    (hr : q r = true) : (b ++ r :: a).find? q = some r := by
  rw [List.find?_append, List.find?_eq_none.mpr (by intro x hx; simp [hb x hx])]
  simp [hr]

/-! ### Records and pools -/

/-- The record of a buffer that is not FREE is there. -/
theorem State.record_inRange {s : State} {b : BufId} (h : (s.record b).custody ≠ .free) : b < s.records.length := by
  by_contra hb
  apply h
  simp [State.record, List.getD, List.getElem?_eq_none (not_lt.mp hb), Record.fresh]

theorem State.setCustody_gen (b x : BufId) (c : Custody) (s : State) : ((s.setCustody b c).record x).gen = (s.record x).gen := by
  rw [State.setCustody_record]
  split <;> rfl

theorem State.owned_of {s : State} {b : BufId} {o : Owned} (h : (s.record b).custody = .owned o) : s.owned b = some o := by
  simp [State.owned, h]

theorem State.setCustody_owned {s : State} {b : BufId} (o : Owned) (h : b < s.records.length) :
    (s.setCustody b (.owned o)).owned b = some o := by
  apply State.owned_of
  rw [State.setCustody_record, if_pos ⟨rfl, h⟩]

/-- With no channel waiting on the pool, a buffer entering its free list goes to the tail (R27). -/
theorem State.enterFreeList_plain {s : State} {b : BufId} (h : (s.pool (s.poolOf b)).waiting = []) :
    s.enterFreeList b = (s.modRecord b Record.enterFree).modPool (s.poolOf b) (fun P => { P with free := P.free ++ [b] }) := by
  unfold State.enterFreeList State.serveLanding
  have e : (((s.modRecord b Record.enterFree).modPool (s.poolOf b) (fun P => { P with free := P.free ++ [b] })).pool
      (s.poolOf b)).waiting = [] := by
    rw [State.modPool_pool]
    split <;> exact h
  rw [e]

/-- A RECALL with no reader and no lease left ends, and its buffer is HELD again (R86). -/
theorem State.recallCheck_done {t : State} {b : BufId} {h : PortId} {x : Bool}
    (ho : t.owned b = some { holder := h, readers := [], leases := [], op := .recallViews x, orphan := false }) :
    t.recallCheck b = (t.setCustody b (.heldPlain h)).endWaiting h .recallViews b (if x then .okFenced else .ok) .zero := by
  unfold State.recallCheck
  rw [ho]
  dsimp only
  rw [if_pos ⟨rfl, rfl⟩]
  rfl

/-! ### The Mover's turn -/

/-- Channels at rest stay at rest under every write that is not of the Mover. -/
theorem State.chanStep_none_of {s t : State} (c : ChanId) (hm : t.mover = s.mover) (h : s.chanStep c = none) :
    t.chanStep c = none := by
  unfold State.chanStep at *
  rw [hm]
  split
  · rename_i hs
    rw [hs] at h
    dsimp only at h
    split
    · rename_i hj
      rw [hj] at h
      cases h
    · rfl
  · rename_i hs
    rw [hs] at h
    dsimp only at h
    split
    · rename_i j hj
      rw [hj] at h
      dsimp only at h
      split
      · rename_i hc
        rw [if_pos hc] at h
        cases h
      · rfl
    · rfl

theorem State.settle_rest {s : State} (h : s.moverAtRest) : s.settle = s := by
  unfold State.settle
  rw [show 3 * s.mover.jobs.length + 2 = (3 * s.mover.jobs.length + 1) + 1 from rfl]
  unfold State.moverSteps
  rw [h.1, h.2]

/-- The Mover's turn changes nothing where the step wrote nothing of the Mover and its channels were at rest. -/
theorem State.settle_of {s t : State} (hm : t.mover = s.mover) (h : s.moverAtRest) : t.settle = t :=
  State.settle_rest ⟨State.chanStep_none_of 0 hm h.1, State.chanStep_none_of 1 hm h.2⟩

/-- Where one channel has one thing to do, and none is left after it, the Mover's turn is that one thing. -/
theorem State.settle_one {s t : State} (c : ChanId) (h : s.chanStep c = some t) (ho : ∀ d, d ≠ c → s.chanStep d = none)
    (ht : t.moverAtRest) : s.settle = t := by
  have e : ∀ n, State.moverSteps n t = t := by
    intro n
    cases n with
    | zero => rfl
    | succ n =>
      unfold State.moverSteps
      rw [ht.1, ht.2]
  unfold State.settle
  rw [show 3 * s.mover.jobs.length + 2 = (3 * s.mover.jobs.length + 1) + 1 from rfl]
  unfold State.moverSteps
  fin_cases c
  · rw [show s.chanStep 0 = some t from h]
    exact e _
  · rw [ho 0 (by decide), show s.chanStep 1 = some t from h]
    exact e _

theorem Mover.modChan_same (c : ChanId) (f : Chan → Chan) (m : Mover) : (m.modChan c f).chan c = f (m.chan c) := by
  fin_cases c <;> rfl

theorem Mover.modChan_ne {c d : ChanId} (h : d ≠ c) (f : Chan → Chan) (m : Mover) : (m.modChan c f).chan d = m.chan d := by
  fin_cases c <;> fin_cases d <;> first | rfl | exact absurd rfl h

@[simp] theorem Mover.modChan_jobs (c : ChanId) (f : Chan → Chan) (m : Mover) : (m.modChan c f).jobs = m.jobs := by
  fin_cases c <;> rfl

@[simp] theorem Mover.modChan_presented (c : ChanId) (f : Chan → Chan) (m : Mover) : (m.modChan c f).presented = m.presented := by
  fin_cases c <;> rfl

@[simp] theorem Mover.modChan_modChan (c : ChanId) (f g : Chan → Chan) (m : Mover) :
    (m.modChan c f).modChan c g = m.modChan c (fun x => g (f x)) := by
  fin_cases c <;> rfl

/-- The requests on a port without one end as they are. -/
theorem Mover.endOn_none {m : Mover} {p : PortId} (h : ∀ c, m.reqOn p c = none) : Mover.endOn p m = m := by
  simp [Mover.endOn, chanIds, h]

theorem Mover.failsOn_none {m : Mover} {p : PortId} (h : ∀ c, m.reqOn p c = none) : m.failsOn p = [] := by
  simp [Mover.failsOn, h]

/-! ### Yields -/

/-- With nothing waiting, an entry that retires leaves the table and its tag joins the free tags (R119). -/
theorem YieldUnit.retire_serve {y : YieldUnit} {before after : List YieldEntry} {e : YieldEntry}
    (hl : y.live = before ++ e :: after) (hb : ∀ x ∈ before, x.tag ≠ e.tag) (hw : y.waiting = []) (ok : YieldAsk → Bool) :
    (y.retire e.tag).serveAll ok = { live := before ++ after, freeTags := y.freeTags ++ [e.tag], waiting := [] } := by
  have h : y.retire e.tag = { live := before ++ after, freeTags := y.freeTags ++ [e.tag], waiting := [] } := by
    unfold YieldUnit.retire
    rw [hl, extractFirst_append _ before e after (fun x hx => by simpa using hb x hx) (by simp)]
    simp [hw]
  rw [h]
  rfl

end Sys2Proof.Machine
end

