-- ==== Sys2Proof/Laws/Mover.lean ====
section
/-!
SUPPORT. The Mover's turn where a job has just joined the queue's tail: the new job in the list of jobs, channels that stay at rest beside it,
and turns of one or two moves of one channel.
-/
namespace Sys2Proof.Machine
open Sys2Proof

/-! ### A member at the tail of a list -/

theorem removeFirst_last {α : Type} {q : α → Bool} {l : List α} {x : α} (h : ∀ y ∈ l, q y = false) (hx : q x = true) :
    removeFirst q (l ++ [x]) = l := by
  simpa using removeFirst_append q l x [] h hx

theorem extractFirst_last {α : Type} {q : α → Bool} {l : List α} {x : α} (h : ∀ y ∈ l, q y = false) (hx : q x = true) :
    extractFirst q (l ++ [x]) = some (x, l) := by
  simpa using extractFirst_append q l x [] h hx

/-- The command just accepted is the one found waiting (R64). -/
theorem acceptFirst_find {l : List CmdRec} {r : CmdRec} {op : CmdOp} {b : BufId} (hr : l.find? (fun c => c.phase == .handed) = some r)
    (hw : ∀ x ∈ l, x.isWaiting op b = false) (ho : entryOp r.raw = some op) (hb : entryBuf r.raw = b) :
    (acceptFirst l).find? (CmdRec.isWaiting op b) = some { r with phase := .waiting } := by
  induction l with
  | nil => cases hr
  | cons y l ih =>
    unfold acceptFirst
    by_cases hy : y.phase == .handed
    · rw [List.find?_cons, hy] at hr
      cases hr
      rw [if_pos hy, List.find?_cons]
      have e : CmdRec.isWaiting op b { r with phase := .waiting } = true := by simp [CmdRec.isWaiting, ho, hb]
      rw [e]
    · rw [List.find?_cons] at hr
      simp only [hy] at hr
      rw [if_neg hy, List.find?_cons, hw y (by simp)]
      exact ih hr (fun x hx => hw x (by simp [hx]))

/-! ### The job at the tail -/

variable {J : List Job} {b : BufId} {k : Job}

theorem jobs_map_last (f : Job → Job) (hJ : ∀ j ∈ J, j.source ≠ b) (hk : k.source = b) :
    (J ++ [k]).map (fun j => if j.source = b then f j else j) = J ++ [f k] := by
  have e : J.map (fun j => if j.source = b then f j else j) = J := by
    conv_rhs => rw [← List.map_id J]
    exact List.map_congr_left (fun j hj => by rw [if_neg (hJ j hj)]; rfl)
  rw [List.map_append, e]
  simp [hk]

theorem jobs_find_last (hJ : ∀ j ∈ J, j.source ≠ b) (hk : k.source = b) : (J ++ [k]).find? (fun j => j.source == b) = some k :=
  find?_append _ J k [] (fun x hx => by simpa using hJ x hx) (by simpa using hk)

theorem jobs_filter_last (hJ : ∀ j ∈ J, j.source ≠ b) (hk : k.source = b) : (J ++ [k]).filter (fun j => j.source != b) = J := by
  rw [List.filter_append, List.filter_eq_self.mpr (fun x hx => by simpa using hJ x hx)]
  simp [hk]

/-! ### Channels at rest -/

variable {s t : State} {c : ChanId}

theorem State.moverAtRest_iff : s.moverAtRest ↔ ∀ c, s.chanStep c = none := by
  constructor
  · rintro ⟨h0, h1⟩ c
    fin_cases c <;> assumption
  · exact fun h => ⟨h 0, h 1⟩

/-- Where an idle channel is at rest, no job waits (R134). -/
theorem State.none_waiting (hc : (s.mover.chan c).serving = none) (h : s.chanStep c = none) :
    s.mover.jobs.find? (fun j => j.state == .waiting) = none := by
  unfold State.chanStep at h
  rw [hc] at h
  dsimp only at h
  cases hf : s.mover.jobs.find? (fun j => j.state == .waiting) with
  | none => rfl
  | some j =>
    rw [hf] at h
    cases h

/-- A channel at rest stays so beside new jobs of another buffer, none of which waits where the channel is idle. -/
theorem State.chanStep_other (L : List Job) (hc : t.mover.chan c = s.mover.chan c) (hj : t.mover.jobs = s.mover.jobs ++ L)
    (hL : ∀ x ∈ L, x.source = b) (hb : (s.mover.chan c).serving ≠ some b)
    (hw : (s.mover.chan c).serving = none → ∀ x ∈ L, x.state ≠ .waiting) (h : s.chanStep c = none) : t.chanStep c = none := by
  cases hs : (s.mover.chan c).serving with
  | none =>
    have hn := State.none_waiting hs h
    unfold State.chanStep
    rw [hc, hs]
    dsimp only
    rw [hj, List.find?_append, hn, Option.none_or, List.find?_eq_none.mpr (fun x hx => by simpa using hw hs x hx)]
  | some b' =>
    have hne : b' ≠ b := fun e => hb (by rw [hs, e])
    have e : t.mover.jobOf c = s.mover.jobOf c := by
      unfold Mover.jobOf
      rw [hc, hs]
      dsimp only
      have hn : L.find? (fun j => j.source == b') = none :=
        List.find?_eq_none.mpr (fun x hx => by simp [hL x hx, Ne.symm hne])
      rw [hj, List.find?_append, hn, Option.or_none]
    unfold State.chanStep at h ⊢
    rw [hs] at h
    rw [hc, hs, e]
    dsimp only at h ⊢
    cases hf : s.mover.jobOf c with
    | none => rfl
    | some j =>
      rw [hf] at h
      dsimp only at h ⊢
      split at h
      · cases h
      · rename_i hn
        rw [if_neg hn]

/-- A channel whose job is not COPYING is at rest. -/
theorem State.chanStep_landing {j : Job} (h : (t.mover.chan c).serving = some b)
    (hf : t.mover.jobs.find? (fun j => j.source == b) = some j) (hj : j.state ≠ .copying) : t.chanStep c = none := by
  unfold State.chanStep Mover.jobOf
  rw [h]
  dsimp only
  rw [hf]
  dsimp only
  rw [if_neg (fun x => hj x.1)]

/-! ### Turns of one channel -/

theorem State.moverSteps_rest (n : Nat) (h : s.moverAtRest) : State.moverSteps n s = s := by
  cases n with
  | zero => rfl
  | succ n =>
    unfold State.moverSteps
    rw [h.1, h.2]

/-- One move of channel `c`, channel 0 having none before it, is one step of the turn. -/
theorem State.moverSteps_succ (n : Nat) (h : s.chanStep c = some t) (hz : c = 1 → s.chanStep 0 = none) :
    State.moverSteps (n + 1) s = State.moverSteps n t := by
  have hc : c = 0 ∨ c = 1 := by fin_cases c <;> simp
  rw [State.moverSteps.eq_2]
  rcases hc with rfl | rfl
  · rw [h]
  · rw [hz rfl, h]

/-- A turn of one move. -/
theorem State.settle_move (h : s.chanStep c = some t) (hz : c = 1 → s.chanStep 0 = none) (ht : t.moverAtRest) : s.settle = t := by
  unfold State.settle
  rw [State.moverSteps_succ _ h hz, State.moverSteps_rest _ ht]

/-- A turn of two moves. -/
theorem State.settle_moves {u : State} (h : s.chanStep c = some t) (h' : t.chanStep c = some u)
    (hz : c = 1 → s.chanStep 0 = none ∧ t.chanStep 0 = none) (hu : u.moverAtRest) : s.settle = u := by
  unfold State.settle
  rw [State.moverSteps_succ _ h (fun e => (hz e).1), State.moverSteps_succ _ h' (fun e => (hz e).2), State.moverSteps_rest _ hu]

end Sys2Proof.Machine
end

