-- ==== Sys2Proof/Laws/Quiet.lean ====
section
/-!
SUPPORT. A port that is not ACTIVE stays quiet: the lemmas, one operation each, behind `keptQuiet`.
-/
namespace Sys2Proof.Machine
open Sys2Proof

theorem Port.quiet_present {P : Port} (h : P.quiet) (a) : P.cmdPresent a = P := by
  unfold Port.cmdPresent
  rw [if_neg]; simp [CmdProc.mayLoad, h.2.1]

theorem Port.quiet_arrPresent {P : Port} (h : P.quiet) (a) : P.arrPresent a = P := by
  unfold Port.arrPresent
  rw [if_neg]; simp [Port.arrMayLoad, h.2.2.2.2.2.2.2.1]

theorem Port.quiet_of (P R : Port) (h : P.quiet) (hs : R.slots = P.slots) (hc : R.cmd = P.cmd) (ha : R.arr = P.arr) : R.quiet := by
  unfold Port.quiet at *; rw [hs, hc, ha]; exact h

theorem Port.quietUnlessActive_of (P R : Port) (h : Port.quietUnlessActive P) (hp : R.state = P.state) (hs : R.slots = P.slots) (hc : R.cmd = P.cmd) (ha : R.arr = P.arr) : Port.quietUnlessActive R :=
  fun k => Port.quiet_of P R (h (by rw [← hp]; exact k)) hs hc ha

/-- quiet with another outstanding list -/
theorem Port.quiet_out (P R : Port) (h : P.quiet) (hs : R.slots = P.slots) (hc : R.cmd = { P.cmd with outstanding := R.cmd.outstanding, next := R.cmd.next }) (ho : R.cmd.outstanding.all CmdRec.lost = true) (ha : R.arr = P.arr) : R.quiet := by
  obtain ⟨h1, h2, h3, h4, h5, h6, h7, h8⟩ := h
  refine ⟨by rw [hs]; exact h1, by rw [hc]; exact h2, by rw [hc]; exact h3, by rw [hc]; exact h4, by rw [hc]; exact h5, by rw [hc]; exact h6, ho, by rw [ha]; exact h8⟩

theorem Port.quiet_advance {P : Port} (h : P.cmd.state = .stopped) : P.cmdAdvance = P := by
  unfold Port.cmdAdvance; rw [h]

theorem Port.quiet_slots {P : Port} (h : P.quiet) (k) : P.slots.get k = none := by rw [h.1]; simp

theorem CmdRec.lost_discard {r : CmdRec} (h : r.lost = true) : r.discard = true := by
  simp only [CmdRec.lost, Bool.and_eq_true] at h; exact h.2

theorem CmdRec.lost_accept (l : List CmdRec) (h : l.all CmdRec.lost = true) : (acceptFirst l).all CmdRec.lost = true := by
  induction l with
  | nil => rfl
  | cons r l ih =>
    simp only [List.all_cons, Bool.and_eq_true] at h
    unfold acceptFirst
    split
    · simp only [List.all_cons, Bool.and_eq_true]
      refine ⟨?_, h.2⟩
      have := CmdRec.lost_discard h.1
      simp [CmdRec.lost, CmdRec.notEnded, this]
    · simp only [List.all_cons, Bool.and_eq_true]; exact ⟨h.1, ih h.2⟩

theorem CmdRec.lost_mark (l : List CmdRec) : (markNotEnded (l.filter CmdRec.notEnded)).all CmdRec.lost = true := by
  simp only [markNotEnded, List.all_map, List.all_eq_true]
  intro r hr
  have := (List.mem_filter.mp hr).2
  simp only [Function.comp, this, if_true]
  have h2 : ({ r with discard := true } : CmdRec).notEnded = true := this
  simp [CmdRec.lost, h2]

theorem Port.quietUnlessActive_cmd (P : Port) (h : Port.quietUnlessActive P) (b : CmdProc → Addr) (z n : CmdProc → Nat) :
    Port.quietUnlessActive (P.modCmd (fun c => { c with base := b c, size := z c, next := n c })) :=
  fun k => by
    obtain ⟨h1, h2, h3, h4, h5, h6, h7, h8⟩ := h k
    exact ⟨h1, h2, h3, h4, h5, h6, h7, h8⟩

theorem Port.quietUnlessActive_arr (P : Port) (h : Port.quietUnlessActive P) (b : ArrProc → Addr) (z n : ArrProc → Nat) :
    Port.quietUnlessActive (P.modArr (fun c => { c with base := b c, size := z c, next := n c })) := by
  intro k
  obtain ⟨h1, h2, h3, h4, h5, h6, h7, h8, h9, h10, h11, h12, h13⟩ := h k
  exact ⟨h1, h2, h3, h4, h5, h6, h7, h8, h9, h10, h11, h12, h13⟩

theorem Port.quietUnlessActive_high (w : Word) (P : Port) (h : Port.quietUnlessActive P) : Port.quietUnlessActive (P.writeHigh w) := by
  have hh : Port.quietUnlessActive (P.writeCringHi (w.extractLsb' 0 8)) := by
    unfold Port.writeCringHi
    split
    · exact h
    · split
      · exact Port.quietUnlessActive_cmd P h (fun c => ringBaseHi c.base (w.extractLsb' 0 8)) (fun c => c.size) (fun _ => 0)
      · exact Port.quietUnlessActive_of P _ h rfl rfl rfl rfl
  unfold Port.writeHigh
  generalize P.writeCringHi (w.extractLsb' 0 8) = R at hh
  unfold Port.writeAringHi
  split
  · exact hh
  · split
    · exact Port.quietUnlessActive_arr R hh (fun c => ringBaseHi c.base (w.extractLsb' 16 8)) (fun c => c.size) (fun _ => 0)
    · exact Port.quietUnlessActive_of R _ hh rfl rfl rfl rfl

theorem Port.quiet_free (k) (P : Port) (h : P.quiet) : (P.setSlot k none).quiet := by
  obtain ⟨h1, h2⟩ := h
  refine ⟨?_, h2⟩
  show P.slots.set k none = _
  rw [h1]; fin_cases k <;> rfl

theorem Port.quiet_loadnone (k) (P : Port) (h : P.quiet) : ((P.setSlot k none).modCmd (fun c => { c with load := none })).quiet := by
  obtain ⟨h1, h2, h3, h4, h5⟩ := Port.quiet_free k P h
  exact ⟨h1, h2, h3, rfl, h5⟩

theorem Port.quiet_removed (k) (P : Port) (h : P.quiet) : ((P.setSlot k none).modCmd (fun c => { c with outstanding := removeFirst (CmdRec.isIssued k) c.outstanding })).quiet := by
  refine Port.quiet_out _ _ (Port.quiet_free k P h) rfl rfl ?_ rfl
  show (removeFirst _ P.cmd.outstanding).all _ = true
  unfold removeFirst
  split
  · rename_i hr; exact (extractFirst_all hr h.2.2.2.2.2.2.1).1
  · exact h.2.2.2.2.2.2.1

theorem Port.keepsQuiet_inbox : ∀ f P, Port.quietUnlessActive P → Port.quietUnlessActive (P.modInbox f) := by
  intro f P h; exact Port.quietUnlessActive_of P _ h rfl rfl rfl rfl

theorem Port.keepsQuiet_present : ∀ P, Port.quietUnlessActive P → Port.quietUnlessActive (P.arrPresent false) := by
  intro P h k
  have k' : P.state ≠ .active := by simpa using k
  rw [Port.quiet_arrPresent (h k')]; exact h k'

theorem Port.keepsQuiet_raise : ∀ e P, Port.quietUnlessActive P → Port.quietUnlessActive (P.raise e) := by
  intro e P h; exact Port.quietUnlessActive_of P _ h rfl rfl rfl rfl

theorem Port.keepsQuiet_ended : ∀ sel res P, Port.quietUnlessActive P → Port.quietUnlessActive (P.endCommand sel res) := by
  intro sel res P h k
  have k' : P.state ≠ .active := by simpa using k
  have hq := h k'
  unfold Port.endCommand
  split
  · exact hq
  · rename_i r rest hr
    obtain ⟨ha, hx⟩ := extractFirst_all hr hq.2.2.2.2.2.2.1
    rw [if_pos (CmdRec.lost_discard hx)]
    have : Port.quiet ((P.modCmd (fun c => { c with outstanding := rest })).countDiscard) := Port.quiet_out P _ hq rfl rfl ha rfl
    unfold Port.cmdAdvance
    rw [show ((P.modCmd (fun c => { c with outstanding := rest })).countDiscard).cmd.state = .stopped from hq.2.1]
    exact this

theorem Port.keepsQuiet_accepted : ∀ P, Port.quietUnlessActive P → Port.quietUnlessActive (P.modCmd (fun c => { c with outstanding := acceptFirst c.outstanding })) := by
  intro P h k
  exact Port.quiet_out P _ (h k) rfl rfl (CmdRec.lost_accept _ (h k).2.2.2.2.2.2.1) rfl

theorem Port.keepsQuiet_fence : ∀ P, Port.quietUnlessActive P → Port.quietUnlessActive P.fence := by
  intro P _ _
  refine ⟨?_, ?_, ?_, ?_, ?_, ?_, ?_, ?_, ?_, ?_, ?_, ?_, ?_⟩ <;> first | (simp [Port.fence, Port.arrShut, Port.cmdShut, Port.modInbox, Port.modArr, ArrProc.shut, Port.clearSlots]; done) | (simp only [Port.fence, Port.arrShut, Port.cmdShut, Port.modInbox, Port.modArr, Port.countDiscards_cmd]; exact CmdRec.lost_mark _)

theorem Port.keepsQuiet_reset : ∀ P, Port.quietUnlessActive P → Port.quietUnlessActive P.doReset := by
  intro P _ _
  refine ⟨?_, ?_, ?_, ?_, ?_, ?_, ?_, ?_, ?_, ?_, ?_, ?_, ?_⟩ <;> first | (simp [Port.doReset, Port.arrShut, Port.cmdShut, Port.modInbox, Port.modArr, ArrProc.shut]; done) | (simp only [Port.doReset, Port.arrShut, Port.cmdShut, Port.modInbox, Port.modArr, Port.countDiscards_cmd]; exact CmdRec.lost_mark _)

theorem Port.keepsQuiet_fault : ∀ f P, Port.quietUnlessActive P → Port.quietUnlessActive { P with fault := f } := by
  intro f P h; exact Port.quietUnlessActive_of P _ h rfl rfl rfl rfl

theorem Port.keepsQuiet_control : ∀ w P, P.state ≠ .fenced → Port.quietUnlessActive P → Port.quietUnlessActive (P.controlFields w) := by
  intro w P _ h
  unfold Port.controlFields
  dsimp only
  have h1 : Port.quietUnlessActive (if ctlEnable w = true ∧ P.state = .down then { P with state := .active } else P) := by
    split
    · intro k; exact absurd rfl k
    · exact h
  generalize (if ctlEnable w = true ∧ P.state = .down then { P with state := .active } else P) = R at h1
  by_cases hR : R.state = .active
  · intro k
    exfalso; apply k
    have e1 : (R.cmdRunField (ctlCmdRun w)).state = .active := by
      unfold Port.cmdRunField
      repeat' split
      all_goals simp [hR]
    generalize R.cmdRunField (ctlCmdRun w) = S at e1
    unfold Port.arrRunField
    repeat' split
    all_goals simp [e1]
  · have hq := h1 hR
    have hc : R.cmdRunField (ctlCmdRun w) = R ∨ R.cmdRunField (ctlCmdRun w) = R.refuseWrite 0 := by
      unfold Port.cmdRunField
      rw [hq.2.2.1, hq.2.1]
      simp only [Bool.false_eq_true, if_false]
      split
      · simp [hR]
      · left
        have : ({ R.cmd with run := false } : CmdProc) = R.cmd := by rw [← hq.2.2.1]
        show { R with cmd := { R.cmd with run := false } } = R
        rw [this]
    have ha : ∀ S : Port, S.arr = R.arr → S.state = R.state → S.arrRunField (ctlArrRun w) = S ∨ S.arrRunField (ctlArrRun w) = S.refuseWrite 0 := by
      intro S hS hs
      unfold Port.arrRunField
      rw [hS, hq.2.2.2.2.2.2.2.2.1, hs]
      simp only [Bool.false_eq_true, if_false]
      split
      · simp [hR]
      · exact .inl rfl
    have hr : ∀ S : Port, Port.quietUnlessActive S → Port.quietUnlessActive (S.refuseWrite 0) := fun S hS => Port.quietUnlessActive_of S _ hS rfl rfl rfl rfl
    rcases hc with e | e <;> rw [e]
    · rcases ha R rfl rfl with e2 | e2 <;> rw [e2]
      · exact h1
      · exact hr _ h1
    · rcases ha (R.refuseWrite 0) rfl rfl with e2 | e2 <;> rw [e2]
      · exact hr _ h1
      · exact hr _ (hr _ h1)

theorem Port.keepsQuiet_poll : ∀ w P, Port.quietUnlessActive P → Port.quietUnlessActive (P.pollWrite w) := by
  intro w P h
  unfold Port.pollWrite
  split
  · exact Port.quietUnlessActive_of P _ h rfl rfl rfl rfl
  · dsimp only
    by_cases hP : P.state = .active
    · intro k; exfalso; apply k
      have e1 : (if pollCmd w = true then P.cmdWake false else P).state = .active := by
        unfold Port.cmdWake; repeat' split
        all_goals simp [hP]
      generalize (if pollCmd w = true then P.cmdWake false else P) = R at e1
      unfold Port.arrWake; repeat' split
      all_goals simp [e1]
    · have hq := h hP
      have e1 : (if pollCmd w = true then P.cmdWake false else P) = P := by
        unfold Port.cmdWake; rw [hq.2.1]; simp
      rw [e1]
      unfold Port.arrWake; rw [hq.2.2.2.2.2.2.2.1]; simpa using h

theorem Port.keepsQuiet_cring : ∀ r w P, Port.quietUnlessActive P → Port.quietUnlessActive (P.writeCring r w) := by
  intro r w P h
  unfold Port.writeCring
  split
  · unfold Port.writeCringLo
    split
    · exact Port.quietUnlessActive_cmd P h (fun c => cringBaseLo c.base w) (fun c => c.size) (fun _ => 0)
    · exact Port.quietUnlessActive_of P _ h rfl rfl rfl rfl
  · unfold Port.writeCringSize
    split
    · exact Port.quietUnlessActive_cmd P h (fun c => c.base) (fun _ => sizeField w) (fun _ => 0)
    · exact Port.quietUnlessActive_of P _ h rfl rfl rfl rfl
  · exact Port.quietUnlessActive_high w P h

theorem Port.keepsQuiet_aring : ∀ r w P, Port.quietUnlessActive P → Port.quietUnlessActive (P.writeAring r w) := by
  intro r w P h
  unfold Port.writeAring
  split
  · unfold Port.writeAringLo
    split
    · exact Port.quietUnlessActive_arr P h (fun c => aringBaseLo c.base w) (fun c => c.size) (fun _ => 0)
    · exact Port.quietUnlessActive_of P _ h rfl rfl rfl rfl
  · unfold Port.writeAringSize
    split
    · exact Port.quietUnlessActive_arr P h (fun c => c.base) (fun _ => sizeField w) (fun _ => 0)
    · exact Port.quietUnlessActive_of P _ h rfl rfl rfl rfl
  · exact Port.quietUnlessActive_high w P h

theorem Port.keepsQuiet_eventsMask : ∀ e m a P, Port.quietUnlessActive P → Port.quietUnlessActive { P with events := e, mask := m, attnRelease := a } := by
  intro e m a P h; exact Port.quietUnlessActive_of P _ h rfl rfl rfl rfl

theorem Port.keepsQuiet_issue : ∀ k r d P, P.state = .active → Port.quietUnlessActive P → Port.quietUnlessActive (P.issue k r d) := by
  intro k r d P ha _ k'; exact absurd ha k'

theorem Port.keepsQuiet_reissue : ∀ k r d P, (P.slots.get k).isSome → Port.quietUnlessActive P → Port.quietUnlessActive (P.issue k r d) := by
  intro k r d P hs h k'
  rw [Port.quiet_slots (h k')] at hs; cases hs

theorem Port.keepsQuiet_issueRecord : ∀ k d P, P.state = .active → Port.quietUnlessActive P → Port.quietUnlessActive (P.issueRecord k d) := by
  intro k d P ha _ k'
  exact absurd (by simpa using ha) k'

theorem Port.keepsQuiet_rotation : ∀ l P, Port.quietUnlessActive P → Port.quietUnlessActive { P with rotation := l } := by
  intro l P h; exact Port.quietUnlessActive_of P _ h rfl rfl rfl rfl

theorem Port.keepsQuiet_freeSlot : ∀ k P, Port.quietUnlessActive P → Port.quietUnlessActive (P.setSlot k none) := by
  intro k P h k'; exact Port.quiet_free k _ (h k')

theorem Port.keepsQuiet_cmdLoadAck : ∀ n v k raw P, Port.quietUnlessActive P → Port.quietUnlessActive (P.cmdLoadAck n v k raw) := by
  intro n v k raw P h k'
  have hP : P.state ≠ .active := by simpa using k'
  have hq := h hP
  unfold Port.cmdLoadAck
  rw [hq.2.2.2.1]
  exact Port.quiet_loadnone k P hq

theorem Port.keepsQuiet_cmdLoadLost : ∀ k a P, Port.quietUnlessActive P → Port.quietUnlessActive (P.cmdLoadLost k a) := by
  intro k a P h hP
  exact Port.quiet_of _ _ (Port.quiet_loadnone k P (h hP)) rfl rfl rfl

theorem Port.keepsQuiet_cmdLoadFail : ∀ k a P, Port.quietUnlessActive P → Port.quietUnlessActive (P.cmdLoadFail k a) := by
  intro k a P h k'
  have hP : P.state ≠ .active := by simpa using k'
  have hq := h hP
  unfold Port.cmdLoadFail
  rw [hq.2.2.2.1]
  exact Port.quiet_of _ _ (Port.quiet_loadnone k P hq) rfl rfl rfl

theorem Port.keepsQuiet_completionAck : ∀ k P, Port.quietUnlessActive P → Port.quietUnlessActive (P.completionAck k) := by
  intro k P h k'
  have hP : P.state ≠ .active := by simpa using k'
  have hq := h hP
  have hq2 := Port.quiet_removed k P hq
  unfold Port.completionAck
  generalize (P.setSlot k none).modCmd (fun c => { c with outstanding := removeFirst (CmdRec.isIssued k) c.outstanding }) = R at hq2
  rw [Port.quiet_advance (P := R.raise .completion) hq2.2.1]
  exact Port.quiet_of R _ hq2 rfl rfl rfl

theorem Port.keepsQuiet_completionLost : ∀ k P, Port.quietUnlessActive P → Port.quietUnlessActive (P.completionLost k) := by
  intro k P h hP
  exact Port.quiet_of _ _ (Port.quiet_removed k P (h hP)) rfl rfl rfl

theorem Port.keepsQuiet_completionFail : ∀ k P, Port.quietUnlessActive P → Port.quietUnlessActive (P.completionFail k) := by
  intro k P h k'
  have hP : P.state ≠ .active := by simpa using k'
  have hq := h hP
  have hq2 := Port.quiet_removed k P hq
  unfold Port.completionFail Port.completionLost
  rw [hq.2.1]
  dsimp only
  generalize (P.setSlot k none).modCmd (fun c => { c with outstanding := removeFirst (CmdRec.isIssued k) c.outstanding }) = R at hq2
  exact Port.quiet_of R _ hq2 rfl rfl rfl

theorem Port.keepsQuiet_cmdWake : ∀ b P, Port.quietUnlessActive P → Port.quietUnlessActive (P.cmdWake b) := by
  intro b P h k'
  have hP : P.state ≠ .active := by simpa using k'
  have hq := h hP
  unfold Port.cmdWake; rw [hq.2.1]; simpa using hq

theorem Port.keepsQuiet_arrLoadAck : ∀ n v k raw P, (P.slots.get k).isSome → Port.quietUnlessActive P → Port.quietUnlessActive (P.arrLoadAck n v k raw) := by
  intro n v k raw P hs h k'
  have hP : P.state ≠ .active := by simpa using k'
  rw [Port.quiet_slots (h hP)] at hs; cases hs

theorem Port.keepsQuiet_arrLost : ∀ k a P, (P.slots.get k).isSome → Port.quietUnlessActive P → Port.quietUnlessActive (P.arrLost k a) := by
  intro k a P hs h k'
  rw [Port.quiet_slots (h k')] at hs; cases hs

theorem Port.keepsQuiet_arrLoadFail : ∀ k a P, (P.slots.get k).isSome → Port.quietUnlessActive P → Port.quietUnlessActive (P.arrLoadFail k a) := by
  intro k a P hs h k'
  have hP : P.state ≠ .active := by simpa using k'
  rw [Port.quiet_slots (h hP)] at hs; cases hs

theorem Port.keepsQuiet_arrStoreFail : ∀ k a P, (P.slots.get k).isSome → Port.quietUnlessActive P → Port.quietUnlessActive (P.arrStoreFail k a) := by
  intro k a P hs h k'
  have hP : P.state ≠ .active := by simpa using k'
  rw [Port.quiet_slots (h hP)] at hs; cases hs

theorem Port.keepsQuiet_arrStored : ∀ k P, Port.quietUnlessActive P → Port.quietUnlessActive (P.arrStored k) := by
  intro k P h k'
  have hP : P.state ≠ .active := by simpa using k'
  obtain ⟨h1, h2, h3, h4, h5, h6, h7, h8, h9, h10, h11, h12, h13⟩ := Port.quiet_free k P (h hP)
  refine ⟨h1, h2, h3, h4, h5, h6, h7, ?_⟩
  show P.arr.stored.state = _ ∧ P.arr.stored.run = _ ∧ P.arr.stored.load = _ ∧ P.arr.stored.store = _ ∧ P.arr.stored.stopWaiting = _ ∧ P.arr.stored.deadline = _
  have h12' : P.arr.stopWaiting = false := h12
  simp only [ArrProc.stored, ArrProc.endStopWaiting, h12', Bool.false_eq_true, if_false]
  exact ⟨h8, h9, h10, trivial, trivial, h13⟩

theorem Port.keepsQuiet_arrWake : ∀ b P, Port.quietUnlessActive P → Port.quietUnlessActive (P.arrWake b) := by
  intro b P h k'
  have hP : P.state ≠ .active := by simpa using k'
  have hq := h hP
  unfold Port.arrWake; rw [hq.2.2.2.2.2.2.2.1]; simpa using hq

theorem Port.keepsQuiet_unfence : ∀ P, Port.quietUnlessActive P → Port.quietUnlessActive P.unfence := by
  intro P _ k; exact absurd rfl k

/-- Every operation of a command keeps a port that is not ACTIVE quiet. -/
theorem keptQuiet : Kept Port.quietUnlessActive (fun _ => True) where
  toStable := Stable.of Port.keepsQuiet_inbox Port.keepsQuiet_present Port.keepsQuiet_raise Port.keepsQuiet_ended Port.keepsQuiet_accepted
    (fun _ _ _ => trivial)
  withdraw := fun _ => Port.keepsQuiet_inbox _
  fence := Port.keepsQuiet_fence
  reset := Port.keepsQuiet_reset
  fault := Port.keepsQuiet_fault
  control := Port.keepsQuiet_control
  poll := Port.keepsQuiet_poll
  cring := Port.keepsQuiet_cring
  aring := Port.keepsQuiet_aring
  eventsMask := Port.keepsQuiet_eventsMask
  issue := Port.keepsQuiet_issue
  reissue := Port.keepsQuiet_reissue
  issueRecord := Port.keepsQuiet_issueRecord
  rotation := Port.keepsQuiet_rotation
  freeSlot := Port.keepsQuiet_freeSlot
  cmdLoadAck := Port.keepsQuiet_cmdLoadAck
  cmdLoadLost := Port.keepsQuiet_cmdLoadLost
  cmdLoadFail := Port.keepsQuiet_cmdLoadFail
  completionAck := Port.keepsQuiet_completionAck
  completionLost := Port.keepsQuiet_completionLost
  completionFail := Port.keepsQuiet_completionFail
  cmdWake := Port.keepsQuiet_cmdWake
  arrLoadAck := Port.keepsQuiet_arrLoadAck
  arrLost := Port.keepsQuiet_arrLost
  arrLoadFail := Port.keepsQuiet_arrLoadFail
  arrStoreFail := Port.keepsQuiet_arrStoreFail
  arrStored := Port.keepsQuiet_arrStored
  arrWake := Port.keepsQuiet_arrWake
  unfence := Port.keepsQuiet_unfence
  endFor := fun _ _ _ => trivial
  retire := fun _ _ _ _ => trivial
  entry := fun _ _ _ _ _ => trivial


end Sys2Proof.Machine
end

