-- ==== Sys2Proof/Laws/Shut.lean ====
section
/-!
SUPPORT. What a fence and a port reset leave of the port they are taken on: the port as its own part of the operation leaves it,
but for commands that end with their discards counted, items queued and reservations released in its inbox, and, at a fence only,
events raised; and the sweep where no record, or one the port reads, concerns the port.
-/
namespace Sys2Proof.Machine
open Sys2Proof

/-- `R` is the quiet port `A` after the work of other blocks. -/
structure Port.KeptSince (A R : Port) : Prop where
  quiet : R.quiet
  state : R.state = A.state
  rotation : R.rotation = A.rotation
  recordTurn : R.recordTurn = A.recordTurn
  mask : R.mask = A.mask
  attnRelease : R.attnRelease = A.attnRelease
  kind : R.fault.kind = A.fault.kind
  info : R.fault.info = A.fault.info
  source : R.fault.source = A.fault.source
  count : R.fault.count = A.fault.count
  cmdBase : R.cmd.base = A.cmd.base
  cmdSize : R.cmd.size = A.cmd.size
  cmdNext : R.cmd.next = A.cmd.next
  arrBase : R.arr.base = A.arr.base
  arrSize : R.arr.size = A.arr.size
  arrNext : R.arr.next = A.arr.next
  notDelivering : ∀ i ∈ R.inbox.urgent ++ R.inbox.routine, i.delivering = false
  urgent : A.inbox.urgent.filter Item.notLease <+: R.inbox.urgent.filter Item.notLease
  routine : A.inbox.routine.filter Item.notLease <+: R.inbox.routine.filter Item.notLease

namespace Port.KeptSince

variable {A R : Port}

/-- A change of the inbox that sets no delivering flag and takes no item but LEASE items away. -/
theorem inbox (h : A.KeptSince R) (f : Inbox → Inbox)
    (hd : ∀ i ∈ (f R.inbox).urgent ++ (f R.inbox).routine, i.delivering = false)
    (hu : R.inbox.urgent.filter Item.notLease <+: (f R.inbox).urgent.filter Item.notLease)
    (hr : R.inbox.routine.filter Item.notLease <+: (f R.inbox).routine.filter Item.notLease) : A.KeptSince (R.modInbox f) :=
  { h with
    quiet := Port.quiet_of R _ h.quiet rfl rfl rfl
    notDelivering := hd
    urgent := h.urgent.trans hu
    routine := h.routine.trans hr }

/-- The end of commands that carry the discard mark. -/
theorem ended (h : A.KeptSince R) (sel : CmdRec → Bool) (res : Result) : A.KeptSince (R.endCommand sel res) := by
  unfold Port.endCommand
  split
  · exact h
  · rename_i r rest hr
    obtain ⟨ha, hx⟩ := extractFirst_all hr h.quiet.2.2.2.2.2.2.1
    rw [if_pos (CmdRec.lost_discard hx)]
    have hq : Port.quiet ((R.modCmd (fun c => { c with outstanding := rest })).countDiscard) :=
      Port.quiet_out R _ h.quiet rfl rfl ha rfl
    rw [Port.quiet_advance hq.2.1]
    exact { h with quiet := hq }

theorem accepted (h : A.KeptSince R) : A.KeptSince (R.modCmd (fun c => { c with outstanding := acceptFirst c.outstanding })) :=
  { h with quiet := Port.quiet_out R _ h.quiet rfl rfl (CmdRec.lost_accept _ h.quiet.2.2.2.2.2.2.1) rfl }

theorem raise (h : A.KeptSince R) (e : Event) : A.KeptSince (R.raise e) :=
  { h with quiet := Port.quiet_of R _ h.quiet rfl rfl rfl }

end Port.KeptSince

theorem filter_notLease_unlease (b : BufId) (l : List Item) :
    (l.filter (fun i => !(i.isLeaseOf b && !i.delivering))).filter Item.notLease = l.filter Item.notLease := by
  rw [List.filter_filter]
  refine List.filter_congr (fun i _ => ?_)
  unfold Item.notLease Item.isLeaseOf
  by_cases h : i.kind = .lease <;> simp [h]

/-- The work of the other blocks, events apart. -/
theorem steady_keptSince (A : Port) (X : Port → Prop) (hX : ∀ (P R : Port), R.events = P.events → X P → X R) :
    Steady (fun R => A.KeptSince R ∧ X R) (fun _ => True) where
  release k b P h := ⟨h.1.inbox _ h.1.notDelivering (List.prefix_refl _) (List.prefix_refl _), hX P _ rfl h.2⟩
  reserve k b P h := ⟨h.1.inbox _ h.1.notDelivering (List.prefix_refl _) (List.prefix_refl _), hX P _ rfl h.2⟩
  push l it P hit h := by
    refine ⟨h.1.inbox _ ?_ ?_ ?_, hX P _ rfl h.2⟩
    · intro i hi
      have hd := h.1.notDelivering i
      cases l <;> simp only [Inbox.push, List.mem_append, List.mem_singleton] at hi hd ⊢ <;> rcases hi with hi | hi <;>
        first
          | (rcases hi with hi | rfl; exact hd (by tauto); exact hit)
          | (rcases hi with hi; exact hd (by tauto))
    · cases l
      · simp only [Inbox.push, List.filter_append]
        exact List.prefix_append _ _
      · exact List.prefix_refl _
    · cases l
      · exact List.prefix_refl _
      · simp only [Inbox.push, List.filter_append]
        exact List.prefix_append _ _
  unlease b P h := by
    refine ⟨h.1.inbox _ ?_ ?_ ?_, hX P _ rfl h.2⟩
    · intro i hi
      refine h.1.notDelivering i ?_
      simp only [Inbox.remove, List.mem_append, List.mem_filter] at hi ⊢
      tauto
    · simp only [Inbox.remove, filter_notLease_unlease]
      exact List.prefix_refl _
    · simp only [Inbox.remove, filter_notLease_unlease]
      exact List.prefix_refl _
  present P h := by
    rw [Port.quiet_arrPresent h.1.quiet]
    exact h
  ended sel res P h := ⟨h.1.ended sel res, hX P _ (by simp) h.2⟩
  accepted P h := ⟨h.1.accepted, hX P _ rfl h.2⟩
  take _ _ _ := trivial

/-- The inbox with its delivering flags cleared holds no item that is being delivered. -/
theorem Inbox.clearDelivering_flags (x : Inbox) :
    ∀ i ∈ x.clearDelivering.urgent ++ x.clearDelivering.routine, i.delivering = false := by
  intro i hi
  simp only [Inbox.clearDelivering, List.mem_append, List.mem_map] at hi
  rcases hi with ⟨j, _, rfl⟩ | ⟨j, _, rfl⟩ <;> rfl

theorem Port.quiet_doReset (P : Port) : P.doReset.quiet := by
  refine ⟨?_, ?_, ?_, ?_, ?_, ?_, ?_, ?_, ?_, ?_, ?_, ?_, ?_⟩ <;>
    first
      | (simp [Port.doReset, Port.arrShut, Port.cmdShut, Port.modInbox, Port.modArr, ArrProc.shut]; done)
      | (simp only [Port.doReset, Port.arrShut, Port.cmdShut, Port.modInbox, Port.modArr, Port.countDiscards_cmd]
         exact CmdRec.lost_mark _)

theorem Port.quiet_fence (P : Port) : P.fence.quiet := by
  refine ⟨?_, ?_, ?_, ?_, ?_, ?_, ?_, ?_, ?_, ?_, ?_, ?_, ?_⟩ <;>
    first
      | (simp [Port.fence, Port.arrShut, Port.cmdShut, Port.modInbox, Port.modArr, ArrProc.shut, Port.clearSlots]; done)
      | (simp only [Port.fence, Port.arrShut, Port.cmdShut, Port.modInbox, Port.modArr, Port.countDiscards_cmd]
         exact CmdRec.lost_mark _)

theorem Port.doReset_inbox (P : Port) : P.doReset.inbox = P.inbox.clearDelivering := by
  simp [Port.doReset, Port.arrShut, Port.cmdShut, Port.modInbox, Port.modArr]

theorem Port.fence_inbox (P : Port) : P.fence.inbox = P.inbox.clearDelivering := by
  simp [Port.fence, Port.arrShut, Port.cmdShut, Port.modInbox, Port.modArr, Port.clearSlots, Port.raise]

/-- A quiet port whose inbox delivers nothing has been kept since itself. -/
theorem Port.keptSince_self {A : Port} (hq : A.quiet) (hd : ∀ i ∈ A.inbox.urgent ++ A.inbox.routine, i.delivering = false) :
    A.KeptSince A :=
  ⟨hq, rfl, rfl, rfl, rfl, rfl, rfl, rfl, rfl, rfl, rfl, rfl, rfl, rfl, rfl, rfl, hd, List.prefix_refl _, List.prefix_refl _⟩

/-- What a port reset leaves of the port: as `Port.doReset` leaves it, and with no event raised since (R175, R176). -/
theorem State.portReset_port (s : State) (p : PortId) :
    (s.port p).doReset.KeptSince ((s.portReset p).port p) ∧ ((s.portReset p).port p).events = (s.port p).doReset.events := by
  have st := steady_keptSince (s.port p).doReset (fun R => R.events = (s.port p).doReset.events) (fun P R e h => e.trans h)
  have hw := Writes.portResetAfter st s p (fun _ _ => trivial)
  refine hw.keepsPort p ?_
  rw [State.modPort_port, if_pos rfl]
  refine ⟨Port.keptSince_self (Port.quiet_doReset _) ?_, rfl⟩
  rw [Port.doReset_inbox]
  exact Inbox.clearDelivering_flags _

/-- What a fence leaves of its port: as `Port.fence` leaves it, with events only raised since (R170). -/
theorem State.fence_port (s : State) (p : PortId) (e : Expired) :
    (s.port p).fence.KeptSince ((s.fence p e).port p) ∧
      ∀ i, (s.port p).fence.events.getLsbD i = true → ((s.fence p e).port p).events.getLsbD i = true := by
  have sb : Stable (fun R => (s.port p).fence.KeptSince R ∧
      ∀ i, (s.port p).fence.events.getLsbD i = true → R.events.getLsbD i = true) (fun _ => True) :=
    { steady_keptSince (s.port p).fence (fun R => ∀ i, (s.port p).fence.events.getLsbD i = true → R.events.getLsbD i = true)
        (fun P R e h i hi => e ▸ h i hi) with
      raise := fun e P h => ⟨h.1.raise e, fun i hi => by simp [Port.raise, h.2 i hi]⟩ }
  refine (Writes.fenceAfter sb s p e (fun _ _ => trivial)).keepsPort p ?_
  have h0 : (s.port p).fence.KeptSince (s.port p).fence ∧
      ∀ i, (s.port p).fence.events.getLsbD i = true → (s.port p).fence.events.getLsbD i = true := by
    refine ⟨Port.keptSince_self (Port.quiet_fence _) ?_, fun _ h => h⟩
    rw [Port.fence_inbox]
    exact Inbox.clearDelivering_flags _
  unfold State.raiseRecovery
  rw [State.mapPorts_port]
  have e0 : (s.modPort p Port.fence).port p = (s.port p).fence := by rw [State.modPort_port, if_pos rfl]
  rw [e0]
  split
  · exact sb.raise _ _ h0
  · exact h0

/-- A fence raises FENCE_NOTICE on every port with the recovery right (R156, R170). -/
theorem State.fence_notice (s : State) (p : PortId) (e : Expired) (q : PortId) (hq : (s.cfg q).recovery = true) :
    ((s.fence p e).port q).events.getLsbD 7 = true := by
  have sb : Stable (fun R => R.events.getLsbD 7 = true) (fun _ => True) :=
    .of (fun _ _ h => h) (fun P h => by simpa using h) (fun e P h => by simp [Port.raise, h]) (fun _ _ P h => by simpa using h)
      (fun _ h => h) (fun _ _ _ => trivial)
  refine (Writes.fenceAfter sb s p e (fun _ _ => trivial)).keepsPort q ?_
  unfold State.raiseRecovery
  rw [State.mapPorts_port]
  have e0 : (s.modPort p Port.fence).cfg q = s.cfg q := rfl
  rw [e0, hq]
  simp [Port.raise, Event.bit]

/-! ### The sweep (R38 to R41) -/

theorem Record.idleOf_apart {r : Record} {p : PortId} (h : r.apartFrom p) : r.idleOf p = false := by
  unfold Record.apartFrom at h
  unfold Record.idleOf Custody.heldBy
  split at h <;> simp_all

theorem Record.readBy_apart {r : Record} {p : PortId} (h : r.apartFrom p) : r.readBy p = false := by
  unfold Record.apartFrom at h
  unfold Record.readBy
  split at h <;> simp_all

theorem Record.orphaned_apart {r : Record} {p : PortId} (h : r.apartFrom p) : r.orphaned p = r := by
  unfold Record.apartFrom at h
  unfold Record.orphaned Record.busyOf Custody.heldBy
  split at h <;> simp_all

theorem State.sweepList_none {s : State} {f : Record → Bool} (h : ∀ x, f (s.record x) = false) : s.sweepList f = [] := by
  unfold State.sweepList
  rw [List.filter_eq_nil_iff.mpr (fun x _ => by rw [h]; decide)]
  rfl

theorem range_filter_one {n b : Nat} (hb : b < n) {q : Nat → Bool} (h : q b = true) (ho : ∀ x, x ≠ b → q x = false) :
    (List.range n).filter q = [b] := by
  have e : q = fun x => decide (x = b) := by
    funext x
    by_cases hx : x = b
    · simp [hx, h]
    · simp [hx, ho x hx]
  rw [e]
  induction n with
  | zero => omega
  | succ n ih =>
    rw [List.range_succ, List.filter_append]
    by_cases hn : b = n
    · subst hn
      rw [List.filter_eq_nil_iff.mpr (by intro x hx; simp at hx ⊢; omega)]
      simp
    · rw [ih (by omega)]
      simp
      omega

theorem State.sweepList_one {s : State} {f : Record → Bool} {b : BufId} (hb : b < s.records.length) (h : f (s.record b) = true)
    (ho : ∀ x, x ≠ b → f (s.record x) = false) : s.sweepList f = [b] := by
  unfold State.sweepList
  rw [range_filter_one hb (q := fun x => f (s.record x)) h ho]
  rfl

/-- Where `f` leaves every record as it is, so does mapping it over the table. -/
theorem State.records_map {s : State} {f : Record → Record} (h : ∀ x, f (s.record x) = s.record x) : s.records.map f = s.records := by
  apply List.ext_getElem
  · simp
  · intro i _ hi
    rw [List.getElem_map]
    simpa [State.record, List.getD, hi] using h i

theorem State.sweepAsks_nil (s : State) : s.sweepAsks [] = [] := rfl

/-- The sweep of a port that no record concerns. -/
theorem State.sweep_none {s : State} {p : PortId} (h : ∀ x, (s.record x).apartFrom p) : s.sweep p = { s with freeCount := s.freeCount + 1 } := by
  unfold State.sweep
  rw [State.sweepList_none (fun x => Record.idleOf_apart (h x))]
  simp only [State.sweepAsks_nil, List.foldl_nil, State.records_map (fun x => Record.orphaned_apart (h x)),
    State.sweepList_none (fun x => Record.readBy_apart (h x))]

/-- The sweep of a port that one record concerns, as a reader of its buffer (R40). -/
theorem State.sweep_one {s : State} {p : PortId} {b : BufId} {o : Owned} (h : ∀ x, x ≠ b → (s.record x).apartFrom p)
    (hb : (s.record b).custody = .owned o) (ho : o.holder ≠ p) (hr : o.hasReader p = true) :
    s.sweep p = { s.sweepReader b p with freeCount := (s.sweepReader b p).freeCount + 1 } := by
  have hl := State.record_inRange (s := s) (b := b) (by rw [hb]; exact Custody.noConfusion)
  have hi : ∀ x, (s.record x).idleOf p = false := by
    intro x
    by_cases hx : x = b
    · subst hx
      simp [Record.idleOf, Custody.heldBy, hb, ho]
    · exact Record.idleOf_apart (h x hx)
  have hm : ∀ x, (s.record x).orphaned p = s.record x := by
    intro x
    by_cases hx : x = b
    · subst hx
      simp [Record.orphaned, Record.busyOf, Custody.heldBy, hb, ho]
    · exact Record.orphaned_apart (h x hx)
  unfold State.sweep
  rw [State.sweepList_none hi]
  simp only [State.sweepAsks_nil, List.foldl_nil, State.records_map hm,
    State.sweepList_one hl (by simp [Record.readBy, hb, hr]) (fun x hx => Record.readBy_apart (h x hx)), List.foldl_cons]

/-- The reset of a port with no yield and no burst on it ends with the sweep. -/
theorem State.portReset_of {s : State} {p : PortId} (T : State)
    (hT : ((s.modPort p Port.doReset).leaseAbandoned (s.port p).inbox.delivering p).sweep p = T) (hy : T.yields.asksFor p = [])
    (hm : T.mover = s.mover) (hr : ∀ c, s.mover.reqOn p c = none) (h : s.moverAtRest) :
    s.portReset p = T.modYields (YieldUnit.endFor p) := by
  have e : (T.modYields (YieldUnit.endFor p)).mover = s.mover := hm
  unfold State.portReset
  dsimp only
  rw [hT, hy]
  show State.settle (State.moveFails ((T.modYields (YieldUnit.endFor p)).mover.failsOn p)
    ((T.modYields (YieldUnit.endFor p)).modMover (Mover.endOn p))) = _
  have e' : (T.modYields (YieldUnit.endFor p)).modMover (Mover.endOn p) = T.modYields (YieldUnit.endFor p) := by
    unfold State.modMover
    rw [e, Mover.endOn_none hr, ← e]
  rw [e', e, Mover.failsOn_none hr]
  exact State.settle_of e h

end Sys2Proof.Machine
end

