-- ==== Sys2Proof/Laws/Tags.lean ====
section
/-!
SUPPORT. The yield tags stay shared between the table and the free-tag list: the lemmas, one operation each, behind `keptTags`.
-/
namespace Sys2Proof.Machine
open Sys2Proof

theorem YieldUnit.tagsShared_install (a : YieldAsk) (y : YieldUnit) (h : y.tagsShared) : (y.install a).tagsShared := by
  unfold YieldUnit.install
  split
  · exact h
  · rename_i t ts ht
    unfold YieldUnit.tagsShared at *
    rw [ht] at h
    simp only [List.map_append, List.map_cons, List.map_nil, List.append_assoc]
    simpa using h

theorem YieldUnit.tagsShared_take (a : YieldAsk) (y : YieldUnit) (h : y.tagsShared) : (y.take a).tagsShared := by
  unfold YieldUnit.take
  split
  · exact h
  · exact YieldUnit.tagsShared_install a y h

theorem YieldUnit.tagsShared_serveOne (ok) (y : YieldUnit) (h : y.tagsShared) : (y.serveOne ok).tagsShared := by
  unfold YieldUnit.serveOne
  split
  · exact h
  · split
    · exact YieldUnit.tagsShared_install _ _ h
    · exact h

theorem YieldUnit.tagsShared_serve (ok n) (y : YieldUnit) (h : y.tagsShared) : (y.serve ok n).tagsShared := by
  induction n generalizing y with
  | zero => exact h
  | succ n ih => exact ih _ (YieldUnit.tagsShared_serveOne _ _ h)

theorem YieldUnit.tagsShared_retire (t) (y : YieldUnit) (h : y.tagsShared) : (y.retire t).tagsShared := by
  unfold YieldUnit.retire
  split
  · rename_i e rest he
    obtain ⟨hp, ht⟩ := extractFirst_perm he
    unfold YieldUnit.tagsShared at *
    have ht : e.tag = t := by simpa using ht
    subst ht
    have h1 := (hp.map YieldEntry.tag).append_right y.freeTags
    refine List.Perm.trans ?_ (h1.symm.trans h)
    simp only [List.map_cons]
    exact (List.Perm.trans (by rw [← List.append_assoc]; exact List.perm_append_singleton _ _) (.refl _))
  · exact h

theorem YieldUnit.tagsShared_endFor (p) (y : YieldUnit) (h : y.tagsShared) : (y.endFor p).tagsShared := by
  unfold YieldUnit.endFor YieldUnit.serveAll
  apply YieldUnit.tagsShared_serve
  unfold YieldUnit.tagsShared at *
  refine List.Perm.trans ?_ h
  have := (List.filter_append_perm (fun e : YieldEntry => e.ask.target == p) y.live).map YieldEntry.tag
  simp only [List.map_append] at this
  have h2 := this.append_right y.freeTags
  refine List.Perm.trans ?_ h2
  dsimp only
  have e : y.live.filter (fun e => e.ask.target != p) = y.live.filter (fun x => !(x.ask.target == p)) := rfl
  rw [e]
  refine List.Perm.trans (List.Perm.append_left _ List.perm_append_comm) ?_
  rw [← List.append_assoc]
  exact List.perm_append_comm.append_right _

theorem YieldUnit.tagsShared_modEntry (t f) (hf : ∀ e, (f e).tag = e.tag) (y : YieldUnit) (h : y.tagsShared) : (y.modEntry t f).tagsShared := by
  unfold YieldUnit.modEntry YieldUnit.tagsShared at *
  dsimp only
  have : (y.live.map (fun e => if e.tag = t then f e else e)).map YieldEntry.tag = y.live.map YieldEntry.tag := by
    rw [List.map_map]; apply List.map_congr_left; intro e _; simp only [Function.comp]; split <;> simp [hf]
  rw [this]; exact h

/-- A property of ports that says nothing, and the sharing of the yield tags, outlast every operation of a command. -/
theorem keptTags : Kept (fun _ => True) YieldUnit.tagsShared where
  toStable := Stable.of (fun _ _ _ => trivial) (fun _ _ => trivial) (fun _ _ _ => trivial) (fun _ _ _ _ => trivial)
    (fun _ _ => trivial) YieldUnit.tagsShared_take
  withdraw := fun _ => fun _ _ => trivial
  fence := fun _ _ => trivial
  reset := fun _ _ => trivial
  fault := fun _ _ _ => trivial
  control := fun _ _ _ _ => trivial
  poll := fun _ _ _ => trivial
  cring := fun _ _ _ _ => trivial
  aring := fun _ _ _ _ => trivial
  eventsMask := fun _ _ _ _ _ => trivial
  issue := fun _ _ _ _ _ _ => trivial
  reissue := fun _ _ _ _ _ _ => trivial
  issueRecord := fun _ _ _ _ _ => trivial
  rotation := fun _ _ _ => trivial
  freeSlot := fun _ _ _ => trivial
  cmdLoadAck := fun _ _ _ _ _ _ => trivial
  cmdLoadLost := fun _ _ _ _ => trivial
  cmdLoadFail := fun _ _ _ _ => trivial
  completionAck := fun _ _ _ => trivial
  completionLost := fun _ _ _ => trivial
  completionFail := fun _ _ _ => trivial
  cmdWake := fun _ _ _ => trivial
  arrLoadAck := fun _ _ _ _ _ _ _ => trivial
  arrLost := fun _ _ _ _ _ => trivial
  arrLoadFail := fun _ _ _ _ _ => trivial
  arrStoreFail := fun _ _ _ _ _ => trivial
  arrStored := fun _ _ _ => trivial
  arrWake := fun _ _ _ => trivial
  unfence := fun _ _ => trivial
  endFor := YieldUnit.tagsShared_endFor
  retire := fun t _ y h => YieldUnit.tagsShared_serve _ _ _ (YieldUnit.tagsShared_retire t y h)
  entry := fun t f y hf h => YieldUnit.tagsShared_modEntry t f hf y h


end Sys2Proof.Machine
end

