-- ==== Sys2Proof/Tests/Slice0.lean ====
section
/-!
SUPPORT. The model's own tests: the checks of WellFormed refuse what they should, the layouts give the spec's own examples, and for every
statement with hypotheses (and for each of its clauses) a concrete state and operands that meet them together.
-/
namespace Sys2Proof.Tests
open Sys2Proof Sys2Proof.Machine

/-! ## WellFormed: one ill-formed term for each check -/

theorem test_controlReset_needs_reset : (Instr.controlReset 0 0x01).wellFormed = false := by decide
theorem test_enable_needs_enable : (Instr.enable 0 0x10).wellFormed = false := by decide
theorem test_enable_without_reset : (Instr.enable 0 0x03).wellFormed = false := by decide
theorem test_cmdStart_needs_run : (Instr.cmdStart 0 0x01).wellFormed = false := by decide
theorem test_cmdStart_without_reset : (Instr.cmdStart 0 0x12).wellFormed = false := by decide
theorem test_cmdStop_needs_no_run : (Instr.cmdStop 0 0x10).wellFormed = false := by decide
theorem test_cmdStop_without_reset : (Instr.cmdStop 0 0x02).wellFormed = false := by decide
theorem test_arrStart_needs_run : (Instr.arrStart 0 0x10).wellFormed = false := by decide
theorem test_arrStart_without_reset : (Instr.arrStart 0 0x22).wellFormed = false := by decide
theorem test_arrStop_needs_no_run : (Instr.arrStop 0 0x20).wellFormed = false := by decide
theorem test_arrStop_without_reset : (Instr.arrStop 0 0x02).wellFormed = false := by decide
theorem test_commandPollDemand_needs_demand : (Instr.commandPollDemand 0 0x02).wellFormed = false := by decide
theorem test_arrivalPollDemand_needs_demand : (Instr.arrivalPollDemand 0 0x01).wellFormed = false := by decide
theorem test_badWindow_needs_bad_access : (Instr.badWindow 0 { offset := 0x04, bits := 32, write := none }).wellFormed = false := by decide
theorem test_cmdLoadResponse_needs_32_bytes : (Instr.cmdLoadResponse 0 0 (List.replicate 31 0)).wellFormed = false := by decide
theorem test_arrivalLoadResponse_needs_16_bytes : (Instr.arrivalLoadResponse 0 0 (List.replicate 17 0)).wellFormed = false := by decide
theorem test_burstRead_needs_data : (Instr.burstReadResponse 0 0 (.ack [])).wellFormed = false := by decide
set_option maxRecDepth 4096 in
theorem test_burstRead_at_most_256 : (Instr.burstReadResponse 0 0 (.ack (List.replicate 257 0))).wellFormed = false := by decide
theorem test_wellFormed_admits : (Instr.burstReadResponse 0 0 (.ack [0])).wellFormed = true ∧ (Instr.enable 3 0x31).wellFormed = true ∧
    (Instr.badWindow 0 { offset := 0x34, bits := 32, write := none }).wellFormed = true := by decide

/-! ## Layouts and the CRC, by the spec's own examples -/

set_option maxRecDepth 4096 in
/-- The check value of the CRC that R4 names, over the nine digits "123456789". -/
theorem test_crc_check_value : crc32 [0x31, 0x32, 0x33, 0x34, 0x35, 0x36, 0x37, 0x38, 0x39] = 0xCBF43926 := by decide
/-- The handle 3583 with generation 9 is 09DFFh (R180). -/
theorem test_handle_example : handleWord 3583 9 = 0x00009DFF := by decide
theorem test_event_bits : [Event.arrival, .completion, .cmdSuspended, .arrSuspended, .cmdHalted, .arrHalted, .fencedSelf, .fenceNotice,
    .stranded, .mapDone].map Event.bit = [0x001, 0x002, 0x004, 0x008, 0x010, 0x020, 0x040, 0x080, 0x100, 0x200] := by decide
theorem test_result_codes : [ResultCode.ok, .okFenced, .notReady, .noMap, .noPool, .denied, .empty, .quota, .stale, .notHeld, .inTransit,
    .leased, .full, .fenced, .tooLate, .yieldTimeout, .yieldRefused, .moveFailed, .noRight, .badCommand].map (fun c => c.byte.toNat) =
    List.range 20 := by decide
theorem test_command_codes : (List.range 12).map (fun n => cmdOpOfCode (BitVec.ofNat 8 n)) = [none, some .allocate, some .free, some .send,
    some .withdraw, some .lend, some .ret, some .recallViews, some .reclaim, some .unfence, some .query, some .marker] := by decide
theorem test_no_row_has_bits : decodeTableWord 32 0 = none := by decide

/-! ## Small states -/

/-- A port entry: present, with an inbox limit, a response limit of 5, one yield retry and both intervals 3. -/
def entry (caching recovery : Bool) (inbox : Nat) : PortEntry :=
  { present := true, caching := caching, recovery := recovery, inboxLimit := inbox, respLimit := 5, retries := 1, cmdPoll := 3, arrPoll := 3 }

/-- Two pools of two 256-byte buffers: ids 0 and 1 within reach of ports 0 and 1, ids 2 and 3 of port 2; port 3 is not present. -/
def theMap (caching : Bool) (mode : ArbMode) : CustodyMap :=
  { arbMode := mode, landingWait := 10,
    ports := ⟨entry caching true 3, entry caching false 3, entry caching false 3, .fixed⟩,
    pools := [
      { home := 0, sizeCode := 8, count := 2, base := 0x10000, reach := ⟨true, true, false, false⟩, quota := ⟨2, 1, 0, 0⟩,
        landing := ⟨none, none, some 1, none⟩ },
      { home := 2, sizeCode := 8, count := 2, base := 0x20000, reach := ⟨false, false, true, false⟩, quota := ⟨0, 0, 2, 0⟩,
        landing := ⟨none, none, none, none⟩ }] }

/-- The part with that map READY and every port ACTIVE. -/
def ready (caching : Bool) : State :=
  { State.reset with
    mapState := .ready, map := some (theMap caching .rotating), ports := .fill { Port.reset with state := .active },
    records := List.replicate 4 .fresh, pools := buildPools 0 (theMap caching .rotating).pools }

/-- Port 0's slot 1 with a request of the given kind, its deadline 5. -/
def asking (r : LinkReq) (s : State) : State := s.modPort 0 (Port.setSlot 1 (some { req := r, deadline := 5 }))

/-- The same at time 5, when that deadline has passed. -/
def late (s : State) : State := { s with now := 5 }

/-- A command entry: owner PART, no wait flag, sequence 1234h. -/
def cmd (op lane pool port : Byte) (h : Word) (length : Nat) : List Byte :=
  [0x01, 0x00, op, lane, 0x34, 0x12, pool, port] ++ wordBytes h ++ wordBytes (BitVec.ofNat 32 length) ++ List.replicate 16 0

/-- An outstanding command. -/
def out (raw : List Byte) (phase : CmdPhase) (result : Option Result) : CmdRec :=
  { index := 0, addr := 0, raw := raw, phase := phase, result := result, discard := false }

/-- Port 0 has handed this command to the Custody Table. -/
def handing (raw : List Byte) (s : State) : State := s.modPort 0 (Port.modCmd (fun c => { c with outstanding := [out raw .handed none] }))

/-- Port `p`'s Command Process in this state, with CMD_RUN as it then is. -/
def cmdIn (x : CmdState) (p : PortId) (s : State) : State :=
  s.modPort p (Port.modCmd (fun c => { c with state := x, run := decide (x ≠ .stopped ∧ x ≠ .stopping) }))

/-- Port `p`'s Arrival Process in this state, with ARR_RUN as it then is. -/
def arrIn (x : ArrState) (p : PortId) (s : State) : State :=
  s.modPort p (Port.modArr (fun a => { a with state := x, run := decide (x ≠ .stopped) }))

/-- A load issued in slot 1. -/
def load (discard : Bool) : RingLoad := { index := 0, slot := some 1, auto := false, discard := discard }

/-- A DELIVERY item of buffer 0 from port 1. -/
def item (kind : ItemKind) (delivering : Bool) : Item := { kind := kind, buf := 0, gen := 0, source := 1, delivering := delivering }

/-- HELD by `p` with this operation pending. -/
def busy (p : PortId) (op : HolderOp) : Custody := .owned { holder := p, readers := [], leases := [], op := op, orphan := false }

/-- HELD by `p` with these readers and leases. -/
def lentBy (p : PortId) (readers : List Reader) (leases : List PortId) : Custody :=
  .owned { holder := p, readers := readers, leases := leases, op := .none, orphan := false }

/-- The Custody Table is next to take the command `op` of `raw` from port 0, its handle is current, and the channels are at rest. -/
def taking (s : State) (op : CmdOp) (raw : List Byte) : Bool :=
  s.mapState == .ready && s.active 0 && entryOp raw == some op &&
  ((s.port 0).cmd.nextHanded.map CmdRec.raw == some raw) && s.handleOk (entryHandle raw) &&
  handleGen (entryHandle raw) == (s.record (entryBuf raw)).gen && s.chanStep 0 == none && s.chanStep 1 == none

/-- That check says what the statements assume. -/
theorem taking_means {s : State} {op : CmdOp} {raw : List Byte} (h : taking s op raw = true) :
    s.takes 0 op raw ∧ s.handleCurrent raw ∧ s.moverAtRest := by
  simp only [taking, Bool.and_eq_true, beq_iff_eq, Option.map_eq_some_iff] at h
  obtain ⟨⟨⟨⟨⟨⟨⟨h1, h2⟩, h3⟩, r, h4, h5⟩, h6⟩, h7⟩, h8⟩, h9⟩ := h
  exact ⟨⟨h1, h2, h3, r, h4, h5⟩, ⟨h6, h7⟩, h8, h9⟩

/-! ## The statements' hypotheses are met: reset, map and initiator -/

/-- The seven 16-byte rows of a map image of one pool of two buffers whose home port byte is `home` (R179), without its CRC. -/
def row0 : List Byte := [0x16, 0xC3, 0xA4, 0x55, 1, 1, 0, 0, 10, 0, 116, 0, 0, 0, 0, 0]
def row1 : List Byte := [5, 1, 3, 0, 5, 0, 3, 0, 3, 0, 0, 0, 0, 0, 0, 0]
def zeros : List Byte := List.replicate 16 0
def row5 (home : Byte) : List Byte := [home, 8, 2, 0, 0, 0, 1, 0, 0, 1, 0, 0, 2, 0, 0, 0]
def row6 : List Byte := [0, 0, 0, 0, 255, 255, 255, 255, 0, 0, 0, 0, 0, 0, 0, 0]

/-- The image. -/
def image (home : Byte) (crc : Word) : List Byte :=
  row0 ++ row1 ++ zeros ++ zeros ++ zeros ++ row5 home ++ row6 ++ wordBytes crc

/-- The bytes that an image's CRC is of. -/
theorem checked_rows (home : Byte) (crc : Word) :
    (List.range (imageLength (poolCount (image home crc)) - 4)).map (romByte (image home crc)) =
      row0 ++ (row1 ++ (zeros ++ (zeros ++ (zeros ++ (row5 home ++ row6))))) := by rfl

/-- The CRC's register after each row, the last two rows for home port bytes 0 and 1. -/
theorem crc_row0 : row0.foldl crcByte 0xFFFFFFFF#32 = 0x2BB55E9C#32 := by decide +kernel
theorem crc_row1 : row1.foldl crcByte 0x2BB55E9C#32 = 0xC47B255D#32 := by decide +kernel
theorem crc_row2 : zeros.foldl crcByte 0xC47B255D#32 = 0x02585CAA#32 := by decide +kernel
theorem crc_row3 : zeros.foldl crcByte 0x02585CAA#32 = 0x00130193#32 := by decide +kernel
theorem crc_row4 : zeros.foldl crcByte 0x00130193#32 = 0x303AA5C7#32 := by decide +kernel
theorem crc_row5_0 : (row5 0).foldl crcByte 0x303AA5C7#32 = 0xC97C40FE#32 := by decide +kernel
theorem crc_row6_0 : row6.foldl crcByte 0xC97C40FE#32 = 0xB7207697#32 := by decide +kernel
theorem crc_row5_1 : (row5 1).foldl crcByte 0x303AA5C7#32 = 0x6714D16F#32 := by decide +kernel
theorem crc_row6_1 : row6.foldl crcByte 0x6714D16F#32 = 0x46FA733D#32 := by decide +kernel

/-- Stage 3 of three images: a wrong CRC, and two that carry their own. -/
theorem test_crc_of_images : crcOk (image 0 0) = false ∧ crcOk (image 1 0xB9058CC2) = true ∧ crcOk (image 0 0x48DF8968) = true := by
  unfold crcOk crc32
  simp only [checked_rows, List.foldl_append]
  simp only [crc_row0, crc_row1, crc_row2, crc_row3, crc_row4, crc_row5_0, crc_row6_0, crc_row5_1, crc_row6_1]
  decide +kernel

/-- MapLoadStagesInOrder and MapLoadEndHandsOutTheMap: an image for each stage, all but the last refused. -/
theorem test_image_stages : State.reset.mapState = .loading ∧ loadReason [] = .noImage ∧
    loadReason [0x16, 0xC3, 0xA4, 0x55, 1, 0] = .badContent ∧ loadReason [0x16, 0xC3, 0xA4, 0x55, 1, 17] = .badContent ∧
    loadReason (image 0 0) = .badCheck ∧ loadReason (image 1 0xB9058CC2) = .badContent ∧ loadReason (image 0 0x48DF8968) = .none := by
  obtain ⟨h1, h2, h3⟩ := test_crc_of_images
  refine ⟨by decide, by decide, by decide, by decide, ?_, ?_, ?_⟩
  · unfold loadReason
    rw [h1]
    decide +kernel
  · unfold loadReason
    rw [h2]
    decide +kernel
  · unfold loadReason
    rw [h3]
    decide +kernel

/-- MapLoadStagesInOrder, where the read ends: with the header where the signature or the pool count is wrong, else with the image (R5). -/
theorem test_read_ends : romReadEnd [] = 16 ∧ romReadEnd [0x16, 0xC3, 0xA4, 0x55, 1, 17] = 16 ∧ romReadEnd (image 0 0) = 116 ∧
    romByte ([0x16] ++ List.replicate 15 0) 16 = romByte [0x16] 16 ∧ State.reset.spiRead = some { instruction := 0x03, address := 0x000000 } ∧
    (ready false).spiRead = none := by decide +kernel

/-- MapLoadEndHandsOutTheMap, its last clause. -/
theorem test_no_load_in_ready : (ready false).mapState ≠ .loading := by decide

/-- BufferIdsFollowThePools: the first and last index of each pool, and the first id that is no buffer's. -/
theorem test_ids_of_the_pools : (ready false).map = some (theMap false .rotating) ∧
    (ready false).records.length = ((theMap false .rotating).pools.map PoolEntry.count).sum ∧
    (∀ q < 2, ∀ k < 2, (ready false).poolOf (2 * q + k) = q) ∧
    ((theMap false .rotating).pools[0]?).map PoolEntry.count = some 2 ∧ ((theMap false .rotating).pools[1]?).map PoolEntry.count = some 2 ∧
    handleId 4 = 4 := by decide

/-- ArbiterTakesTheFirstSource: a port not ACTIVE, a slot not FREE, nothing presented; FIXED with a map of that mode, and ROTATING. -/
theorem test_arbiter_cases : (State.reset.port 0).state ≠ .active ∧ ((asking (.ringLoad 0) (ready false)).port 0).slots.get 1 ≠ none ∧
    (∀ x, (ready false).presents 0 x = false) ∧ ((ready false).port 0).state = .active ∧ ((ready false).port 0).slots.get 0 = none ∧
    (ready false).theMap.arbMode = .rotating ∧ ({ ready false with map := some (theMap false .fixed) }).theMap.arbMode = .fixed := by
  refine ⟨by decide, by decide, ?_, by decide, by decide, by decide, by decide⟩
  intro x
  cases x <;> decide

/-- A yield of buffer 0 to port 0, in the table with tag 0, at this attempt. -/
def yielding (kind : YieldKind) (op : YieldOp) (phase : YieldPhase) (attempts : Nat) (s : State) : State :=
  { s with yields :=
      { live := [{ tag := 0, ask := { buf := 0, target := 0, kind := kind, op := op }, phase := phase, attempts := attempts }]
        freeTags := [1, 2, 3, 4, 5, 6, 7]
        waiting := [] } }

/-- GrantedYieldIsIssued. -/
theorem test_yield_granted : (yielding .drop .free .presented 0 (ready true)).granted 0 1 = some .yield ∧
    ((yielding .drop .free .presented 0 (ready true)).yields.live.find? (fun x => x.ask.target == 0 && x.phase == .presented)).isSome = true := by
  decide

/-- A command process with a presented load, with a presented store, and an arrival process with each. -/
def presentsLoad : State := (ready false).modPort 0 (fun P => { P with
  cmd := { P.cmd with state := .running, run := true, load := some { index := 0, slot := none, auto := false, discard := false } } })
def presentsStore : State := (ready false).modPort 0 (fun P => { P with
  cmd := { P.cmd with outstanding := [out (cmd 0x0B 0 0 0 0 0) .presented (some (Result.bare .ok))] } })
def presentsArrivalLoad : State := (ready false).modPort 0 (fun P => { P with
  arr := { P.arr with state := .running, run := true, load := some { index := 0, slot := none, auto := false, discard := false } } })
def presentsArrivalStore : State := (ready false).modPort 0 (fun P => { P with
  arr := { P.arr with state := .running, run := true, store := some { index := 0, slot := none } }
  inbox := { P.inbox with urgent := [item .revoked true] } })

/-- GrantedRecordIsIssued, its four clauses. -/
theorem test_record_granted_store : presentsStore.granted 0 1 = some .record ∧ (presentsStore.port 0).recordSide = some .command ∧
    (presentsStore.port 0).cmd.outstanding = [] ++ out (cmd 0x0B 0 0 0 0 0) .presented (some (Result.bare .ok)) :: [] := by decide
theorem test_record_granted_load : presentsLoad.granted 0 1 = some .record ∧ (presentsLoad.port 0).recordSide = some .command ∧
    (presentsLoad.port 0).cmd.outstanding = [] ∧ ((presentsLoad.port 0).cmd.load.map RingLoad.slot) = some none := by decide
theorem test_record_granted_arrival_load : presentsArrivalLoad.granted 0 1 = some .record ∧
    (presentsArrivalLoad.port 0).recordSide = some .arrival ∧ ((presentsArrivalLoad.port 0).arr.load.map RingLoad.slot) = some none := by decide
theorem test_record_granted_arrival_store : presentsArrivalStore.granted 0 1 = some .record ∧
    (presentsArrivalStore.port 0).recordSide = some .arrival ∧ (presentsArrivalStore.port 0).arr.load = none ∧
    ((presentsArrivalStore.port 0).arr.store.map RingStore.slot) = some none ∧
    (presentsArrivalStore.port 0).inbox.delivering = some (.urgent, item .revoked true) := by decide
/-- Its choice of the process: both ready with either's turn, each alone, and neither. -/
theorem test_record_sides : (({ presentsLoad.port 0 with arr := (presentsArrivalLoad.port 0).arr } : Port).recordSide = some .command) ∧
    (({ presentsLoad.port 0 with arr := (presentsArrivalLoad.port 0).arr, recordTurn := .arrival } : Port).recordSide = some .arrival) ∧
    ({ presentsLoad.port 0 with recordTurn := .arrival } : Port).recordSide = some .command ∧
    (presentsArrivalStore.port 0).recordTurn = .command ∧ (presentsArrivalStore.port 0).recordSide = some .arrival ∧
    ((ready false).port 0).recordSide = none := by decide

/-- A job of buffer 0, sent by port 0 to port 2, its landing buffer 2. -/
def job (state : JobState) (landing : Option BufId) (length : Nat) : Job :=
  { source := 0, srcPool := 0, landPool := 1, landing := landing, sender := 0, dest := 2, lane := .routine, length := length, tag := 7,
    progress := 0, state := state }

/-- Channel 0 serves that job with a request through `home`; buffer 0 is the MOVING source, its SEND's reservation open. -/
def moving (j : Job) (write : Bool) (home : PortId) (slot : Option SlotId) (data : List Byte) : State :=
  { (ready false).setCustody 0 (.source 0 2 false) with
    destRes := [{ buf := 0, port := 2, pool := 1 }]
    mover := { Mover.reset with
      jobs := [j]
      presented := if slot = none then [0] else []
      chan0 := { serving := some 0, data := data, req := some { write := write, port := home, slot := slot }, deadline := none } } }

/-- GrantedBurstIsIssued: a read, and a write. -/
theorem test_burst_granted : (moving (job .copying (some 2) 256) false 0 none []).granted 0 1 = some .move ∧
    (moving (job .copying (some 2) 256) true 2 none [0]).granted 2 1 = some .move ∧
    (moving (job .copying (some 2) 256) false 0 none []).mover.jobOf 0 = some (job .copying (some 2) 256) := by decide

/-- UnsolicitedResponsesAreRecorded: a number that is no slot's, a FREE slot, and a tag that no ISSUED entry of the port has. -/
theorem test_unsolicited : (∀ k : SlotId, k.val = (4 : Word).toNat → ((ready false).port 0).dataReq k = none) ∧
    (∀ k : SlotId, k.val = (3 : Word).toNat → ((ready false).port 0).dataReq k = none) ∧
    (yielding .drop .free .presented 0 (ready true)).yields.live.map YieldEntry.phase = [.presented] ∧
    (yielding .drop .free (.issued 1) 1 (ready true)).yields.live.map (fun e => e.ask.target) = [0] := by decide

/-! ## The port window -/

/-- The part with port 0 in this state. -/
def portIn (x : PortState) : State := (ready false).modPort 0 (fun P => { P with state := x })

/-- EnableMakesADownPortActive: on a DOWN and on an ACTIVE port, the run fields as they stand. -/
theorem test_enable_cases : ctlEnable 0x01 = true ∧ ctlReset 0x01 = false ∧ (State.reset.port 0).state = .down ∧
    ((ready false).port 0).state = .active ∧ ctlCmdRun 0x01 = (State.reset.port 0).cmd.run ∧ ctlArrRun 0x01 = (State.reset.port 0).arr.run ∧
    (State.reset.port 0).cmd.state ≠ .halted := by decide

/-- FencedPortRefusesWrites: a FENCED port, a write without RESET, and one that changes each high half alone. -/
theorem test_fenced_port : ((portIn .fenced).port 0).state = .fenced ∧ ctlReset 0x31 = false ∧
    (0x01 : Word).extractLsb' 0 8 ≠ ((portIn .fenced).port 0).cmd.base.extractLsb' 32 8 ∧
    (0x01 : Word).extractLsb' 16 8 = ((portIn .fenced).port 0).arr.base.extractLsb' 32 8 ∧
    (0x10000 : Word).extractLsb' 0 8 = ((portIn .fenced).port 0).cmd.base.extractLsb' 32 8 ∧
    (0x10000 : Word).extractLsb' 16 8 ≠ ((portIn .fenced).port 0).arr.base.extractLsb' 32 8 := by decide

/-- CommandRunFieldStartsAndStops: a start that is accepted (one that enables the port too), one refused on a DOWN port, one refused in
STOPPING; a stop in RUNNING, SUSPENDED and HALTED. -/
theorem test_command_run_field : ctlCmdRun 0x11 = true ∧ ctlReset 0x11 = false ∧ (State.reset.port 0).stateEnabled 0x11 = .active ∧
    (State.reset.port 0).cmd.state = .stopped ∧ (State.reset.port 0).cmd.held = none ∧ (State.reset.port 0).cmd.run = false ∧
    ctlArrRun 0x11 = (State.reset.port 0).arr.run ∧ (State.reset.port 0).stateEnabled 0x10 ≠ .active ∧
    ((cmdIn .stopping 0 (ready false)).port 0).cmd.run = false ∧ ((cmdIn .stopping 0 (ready false)).port 0).cmd.state ≠ .stopped ∧
    ctlCmdRun 0x00 = false ∧ ((cmdIn .running 0 (ready false)).port 0).cmd.run = true ∧
    ((cmdIn .suspended 0 (ready false)).port 0).cmd.run = true ∧ ((cmdIn .halted 0 (ready false)).port 0).cmd.state = .halted ∧
    ctlArrRun 0x00 = ((cmdIn .halted 0 (ready false)).port 0).arr.run := by decide

/-- ArrivalRunFieldStartsAndStops, likewise; a stop with a store in flight among them. -/
theorem test_arrival_run_field : ctlArrRun 0x21 = true ∧ ctlReset 0x21 = false ∧ (State.reset.port 0).stateEnabled 0x21 = .active ∧
    (State.reset.port 0).arr.state = .stopped ∧ (State.reset.port 0).arr.stopWaiting = false ∧ (State.reset.port 0).arr.run = false ∧
    ctlCmdRun 0x21 = (State.reset.port 0).cmd.run ∧ (State.reset.port 0).stateEnabled 0x20 ≠ .active ∧ ctlArrRun 0x00 = false ∧
    ((arrIn .running 0 (ready false)).port 0).arr.run = true ∧ ((arrIn .running 0 (ready false)).port 0).arr.store = none ∧
    ((arrIn .suspended 0 (ready false)).port 0).arr.run = true ∧ (presentsArrivalStore.port 0).arr.run = true ∧
    (presentsArrivalStore.port 0).arr.store ≠ none ∧ ((arrIn .halted 0 (ready false)).port 0).arr.state = .halted ∧
    ((arrIn .halted 0 (ready false)).port 0).arr.run = true := by decide

/-- PollDemandsWakeSuspendedProcesses: FENCED, and not. -/
theorem test_poll_cases : ((portIn .fenced).port 0).state = .fenced ∧ ((cmdIn .suspended 0 (ready false)).port 0).state ≠ .fenced ∧
    pollCmd 0x01 = true ∧ ((cmdIn .suspended 0 (ready false)).port 0).cmd.state = .suspended ∧ pollArr 0x02 = true ∧
    ((arrIn .suspended 0 (ready false)).port 0).arr.state = .suspended := by decide

/-- RingRegisterWrites: a ring that may be written and one that may not; sizes 3, 4, 1024 and 1025; the high halves apart. -/
theorem test_ring_registers : ((ready false).port 0).cmd.state = .stopped ∧ ((ready false).port 0).state ≠ .fenced ∧
    ((cmdIn .halted 0 (ready false)).port 0).cmd.state ≠ .stopped ∧ ((arrIn .halted 0 (ready false)).port 0).arr.state ≠ .stopped ∧
    ((3 : Word).extractLsb' 0 11).toNat < 4 ∧ ((4 : Word).extractLsb' 0 11).toNat = 4 ∧ ((1024 : Word).extractLsb' 0 11).toNat = 1024 ∧
    1024 < ((1025 : Word).extractLsb' 0 11).toNat ∧ (0xFF : Word).extractLsb' 0 8 ≠ ((ready false).port 0).cmd.base.extractLsb' 32 8 ∧
    (0xFF : Word).extractLsb' 16 8 = ((ready false).port 0).arr.base.extractLsb' 32 8 ∧
    (0xFF0000 : Word).extractLsb' 16 8 ≠ ((ready false).port 0).arr.base.extractLsb' 32 8 := by decide

/-- RingRegisterWrites, at 24h: neither half changes; both, with the command register refused and the arrival register written, and both refused. -/
theorem test_high_halves : (match exec (.aringRegisterWrite 0 .baseHi 0x00) (ready false) with
      | .next t => t == ready false
      | _ => false) = true ∧
    (match exec (.cringRegisterWrite 0 .baseHi 0xFF00FF) (cmdIn .halted 0 (ready false)) with
      | .next t => (t.port 0).fault.count == 1 && (t.port 0).fault.info == 0x24 && (t.port 0).cmd.base == 0 && (t.port 0).arr.base == 0xFF00000000
      | _ => false) = true ∧
    (match exec (.aringRegisterWrite 0 .baseHi 0xFF00FF) (portIn .fenced) with
      | .next t => (t.port 0).fault.count == 2 && (t.port 0).arr.base == 0
      | _ => false) = true := by decide

/-- EventsMaskAndTheAttentionLine: a release that is over at time 5. -/
theorem test_release_over : ((late ((ready false).modPort 0 (fun P => { P with attnRelease := some 5 }))).port 0).attnRelease = some 5 ∧
    5 ≤ (late (ready false)).now := by decide

/-- FaultWriteClearsTheRecord and RecordingAFaultKeepsTheFirst: a clear record and one that is not, FENCED and not; the count at 255. -/
theorem test_fault_cases : ((ready false).port 0).state ≠ .fenced ∧ ((portIn .fenced).port 0).fault.kind = .none ∧
    (((portIn .fenced).port 0).recordFault .badEntry 1).fault.kind ≠ .none ∧ (((portIn .fenced).port 0).recordFault .badEntry 1).state = .fenced ∧
    satInc 254 = 255 ∧ satInc 255 = 255 := by decide

/-- BadAccessOnlyRecordsAFault: an access of each bad kind. -/
theorem test_bad_accesses : [({ offset := 0x00, bits := 16, write := none } : WindowAccess), { offset := 0x01, bits := 32, write := none },
    { offset := 0x34, bits := 32, write := none }, { offset := 0x38, bits := 32, write := none }, { offset := 0x3C, bits := 32, write := some 0 },
    { offset := 0x04, bits := 32, write := some 0 }, { offset := 0x2C, bits := 32, write := some 0 },
    { offset := 0x30, bits := 32, write := some 0 }].all WindowAccess.bad = true := by decide

/-- Its info: the last place for an access of the last byte, and an aligned access's own offset (R166). -/
theorem test_bad_window_info : ({ offset := 0x3F, bits := 8, write := none } : WindowAccess).place = 0x3C ∧
    (match exec (.badWindow 0 { offset := 0x3F, bits := 8, write := none }) (ready false) with
      | .next t => (t.port 0).fault.info == 60
      | _ => false) = true ∧ ({ offset := 0x2C, bits := 32, write := some 0 } : WindowAccess).place = 0x2C := by decide

/-! ## Port resets and fences -/

/-- PortResetFreesAHeldBuffer: port 0 holds buffer 0 alone, and nothing else is under way. -/
theorem test_reset_of_a_holder : ctlReset 0x02 = true ∧ ((ready false).setCustody 0 (.heldPlain 0)).records[0]?.map Record.custody = some (.heldPlain 0) ∧
    (∀ x, x ≠ 0 → (((ready false).setCustody 0 (.heldPlain 0)).record x).apartFrom 0) ∧ ((ready false).pool 0).waiting = [] ∧
    ((ready false).port 0).cmd.outstanding = [] ∧ ((ready false).port 0).inbox = .reset ∧ (ready false).yields.live = [] ∧
    (ready false).yields.waiting = [] ∧ (∀ x, (ready false).mover.reqOn 0 x = none) ∧ (ready false).moverAtRest := by
  refine ⟨by decide, by decide, ?_, by decide, by decide, by decide, by decide, by decide, by decide, by decide, by decide⟩
  intro x hx
  match x with
  | 0 => exact absurd rfl hx
  | 1 => trivial
  | 2 => trivial
  | 3 => trivial
  | _ + 4 => trivial

/-- The part with a yield of buffer 0's DROP issued in port 0's slot 1, its deadline passed. -/
def yieldDue (attempts : Nat) : State :=
  late (yielding .drop .free (.issued 1) attempts (asking (.yield 0 .drop 0x10000 256) ((ready true).setCustody 0 (busy 0 .free))))

/-- The part with a burst request issued in slot 1 of port 0, its deadline passed. -/
def burstDue (write : Bool) (r : LinkReq) : State := late (asking r (moving (job .copying (some 2) 256) write 0 (some 1) [0]))

/-- FinalExpiryFencesThePort: the five requests that expire at last. -/
theorem test_final_expiries :
    (late (asking (.ringLoad 0x40) (ready false))).expiresOn (.ringRequestExpiry 0 1) 0 .fetchError 0x40 ∧
    (late (asking (.completionStore 0x40 []) (ready false))).expiresOn (.ringRequestExpiry 0 1) 0 .writebackError 0 ∧
    (late (asking (.arrivalLoad 0x40) (ready false))).expiresOn (.arrivalRequestExpiry 0 1) 0 .arrivalError 0x40 ∧
    (late (asking (.arrivalStore 0x40 []) (ready false))).expiresOn (.arrivalRequestExpiry 0 1) 0 .arrivalError 0x40 ∧
    (yieldDue 2).expiresOn (.yieldFinalExpiry 0) 0 .yieldExpired 0 ∧
    (burstDue false (.burstRead 0 0x10000 256)).expiresOn (.burstExpiry 0) 0 .responseExpired 0x10000 := by
  refine ⟨.inl ⟨1, rfl, ?_, ?_, rfl⟩, .inr (.inl ⟨1, 0x40, [], rfl, ?_, ?_, rfl, ?_⟩), .inr (.inr (.inl ⟨1, rfl, ?_, .inl ?_, rfl⟩)),
    .inr (.inr (.inl ⟨1, rfl, ?_, .inr ⟨[], ?_⟩, rfl⟩)), .inr (.inr (.inr (.inl ⟨0, _, 1, rfl, rfl, ?_, ?_, rfl, ?_⟩))),
    .inr (.inr (.inr (.inr ⟨0, _, 1, rfl, rfl, ?_, rfl⟩)))⟩ <;> decide

/-! ## The command ring -/

/-- Port 0's Command Process in this state with a load issued in slot 1. -/
def loading (x : CmdState) (discard : Bool) : State :=
  (asking (.ringLoad 0x40) (cmdIn x 0 (ready false))).modPort 0 (Port.modCmd (fun c => { c with load := some (load discard) }))

/-- LoadedCommandIsTaken: a known code and an unknown one, the wait flag clear; and set, with nothing outstanding. -/
theorem test_load_taken : ((loading .running false).port 0).dataReq 1 = some (.ringLoad 0x40) ∧
    ((loading .running false).port 0).cmd.load = some (load false) ∧ ((loading .running false).port 0).cmd.state = .running ∧
    ((loading .running false).port 0).cmd.held = none ∧ ((loading .running false).port 0).cmd.outstanding = [] ∧
    byteAt (cmd 0x0B 0 0 0 0 0) 0 = 0x01 ∧ (byteAt (cmd 0x0B 0 0 0 0 0) 1).getLsbD 0 = false ∧ (entryOp (cmd 0x0B 0 0 0 0 0)).isSome = true ∧
    entryOp (cmd 0x0C 0 0 0 0 0) = none ∧ (byteAt [0x01, 0x01] 1).getLsbD 0 = true := by decide

/-- LoadedEntryIsHeldOrSuspends: the wait flag with a command outstanding; owner AGENT; an answer to be discarded. -/
theorem test_load_held : (((handing (cmd 0x0B 0 0 0 0 0) (loading .running false)).port 0).cmd.outstanding ≠ []) ∧
    ((loading .running false).port 0).cmd.load.map RingLoad.discard = some false ∧ byteAt [0x00] 0 ≠ 0x01 ∧ byteAt [0x02] 0 ≠ 0x01 ∧
    ((loading .stopped true).port 0).cmd.load = some (load true) ∧ ((loading .stopped true).port 0).cmd.state = .stopped ∧
    ((loading .halted true).port 0).cmd.state = .halted := by decide

/-- RingLoadErrorHaltsTheProcess: a load of a RUNNING process, and one to be discarded in SUSPENDED and in STOPPED. -/
theorem test_load_error : ((loading .running false).port 0).cmd.load.map RingLoad.discard = some false ∧
    ((loading .suspended true).port 0).cmd.state = .suspended ∧ ((loading .stopped true).port 0).cmd.state = .stopped := by decide

/-- Port 0's Command Process in this state, a completion store issued in slot 1 with these commands behind it, and this entry held. -/
def storing (x : CmdState) (after : List CmdRec) (held : Option HeldEntry) : State :=
  (asking (.completionStore 0x40 []) (cmdIn x 0 (ready false))).modPort 0 (Port.modCmd (fun c =>
    { c with held := held, outstanding := out (cmd 0x0B 0 0 0 0 0) (.issued 1) (some (Result.bare .ok)) :: after }))

/-- AcknowledgedCompletionEndsTheCommand and LostCompletionHaltsTheProcess: STOPPING with the last command, RUNNING with nothing held, and
with an entry held behind another command or the last; HALTED and SUSPENDED. -/
theorem test_store_ended : ((storing .stopping [] none).port 0).dataReq 1 = some (.completionStore 0x40 []) ∧
    ((storing .stopping [] none).port 0).cmd.outstanding = [] ++ out (cmd 0x0B 0 0 0 0 0) (.issued 1) (some (Result.bare .ok)) :: [] ∧
    ((storing .stopping [] none).port 0).cmd.state = .stopping ∧ ((storing .running [] none).port 0).cmd.held = none ∧
    ((storing .running [out [] .handed none] (some { index := 0, raw := cmd 0x0B 0 0 0 0 0 })).port 0).cmd.held.isSome = true ∧
    ((storing .running [] (some { index := 0, raw := cmd 0x0B 0 0 0 0 0 })).port 0).cmd.state = .running ∧
    (entryOp (cmd 0x0B 0 0 0 0 0)).isSome = true ∧ ((storing .halted [] none).port 0).cmd.state = .halted ∧
    ((storing .suspended [] none).port 0).cmd.state = .suspended := by decide

/-- AutoPollExpiryWakesTheProcess: a deadline just passed, and one still to come. -/
theorem test_auto_poll : ((late ((cmdIn .suspended 0 (ready false)).modPort 0 (Port.modCmd (fun c => { c with deadline := some 5 })))).port
      0).cmd.deadline = some 5 ∧ 5 ≤ (late (ready false)).now ∧ ¬6 ≤ (late (ready false)).now ∧
    ((cmdIn .suspended 0 (ready false)).port 0).cmd.state = .suspended ∧ ((arrIn .suspended 0 (ready false)).port 0).arr.state = .suspended ∧
    ((late ((arrIn .suspended 0 (ready false)).modPort 0 (Port.modArr (fun a => { a with deadline := some 5 })))).port
      0).arr.deadline = some 5 := by decide

/-- EndedCommandPresentsItsStore: a handed command, and one with the discard mark on a STOPPED process. -/
theorem test_ended_command : ((handing (cmd 0x0B 0 0 0 0 0) (ready false)).port 0).cmd.outstanding =
      [] ++ out (cmd 0x0B 0 0 0 0 0) .handed none :: [] ∧ (out (cmd 0x0B 0 0 0 0 0) .handed none).discard = false ∧
    ({ out (cmd 0x0B 0 0 0 0 0) .handed none with discard := true }).discard = true ∧
    ((handing (cmd 0x0B 0 0 0 0 0) (ready false)).port 0).cmd.state = .stopped := by decide

/-- A command of port 0 that waits with the discard mark, this one before it, and this entry held. -/
def endingLost (x : CmdState) (before : List CmdRec) (held : Option HeldEntry) : State :=
  (cmdIn x 0 (ready false)).modPort 0 (Port.modCmd (fun c => { c with held := held, outstanding :=
    before ++ [{ out (cmd 0x02 0 0 0 0 0) .waiting none with discard := true }] }))

/-- EndedCommandPresentsItsStore, of a command that waited: STOPPING with another left and with none, SUSPENDED, and RUNNING with nothing
held, with an entry held behind another command, and with an entry of a known and of an unknown code that it lets through. -/
theorem test_ended_lost : ((endingLost .stopping [] none).port 0).cmd.outstanding =
      [] ++ { out (cmd 0x02 0 0 0 0 0) .waiting none with discard := true } :: [] ∧
    CmdRec.isWaiting .free 0 { out (cmd 0x02 0 0 0 0 0) .waiting none with discard := true } = true ∧
    CmdRec.isWaiting .free 0 (out (cmd 0x0B 0 0 0 0 0) .handed none) = false ∧
    ((endingLost .stopping [out (cmd 0x0B 0 0 0 0 0) .handed none] none).port 0).cmd.state = .stopping ∧
    ((endingLost .suspended [] none).port 0).cmd.state = .suspended ∧ ((endingLost .running [] none).port 0).cmd.held = none ∧
    [some { index := 0, raw := cmd 0x0B 0 0 0 0 0 }, some { index := 0, raw := cmd 0x0C 0 0 0 0 0 }].all (fun h =>
      ((endingLost .running [] h).port 0).cmd.held == h && ((endingLost .running [] h).port 0).cmd.state == .running) = true ∧
    (entryOp (cmd 0x0B 0 0 0 0 0)).isSome = true ∧ entryOp (cmd 0x0C 0 0 0 0 0) = none := by decide

/-! ## The custody commands -/

/-- Port 0 hands over this command with this custody of buffer 0. -/
def handingWith (caching : Bool) (c : Custody) (raw : List Byte) : State := handing raw ((ready caching).setCustody 0 c)

/-- CommandsWithoutAMapAreRefused: a MARKER while LOADING, in FAILED, and READY on a DOWN port. -/
theorem test_no_map : ((handing (cmd 0x0B 0 0 0 0 0) State.reset).port 0).cmd.nextHanded = some (out (cmd 0x0B 0 0 0 0 0) .handed none) ∧
    entryOp (cmd 0x0B 0 0 0 0 0) = some .marker ∧ (handing (cmd 0x0B 0 0 0 0 0) State.reset).mapState = .loading ∧
    (handing (cmd 0x0B 0 0 0 0 0) { State.reset with mapState := .failed }).mapState = .failed ∧
    (handing (cmd 0x0B 0 0 0 0 0) (portIn .down)).active 0 = false := by decide

/-- The same of a command that names no buffer, or whose handle is not the concern: the map READY, port 0 ACTIVE, its command taken next. -/
theorem takes_of {s : State} {op : CmdOp} {raw : List Byte} (h : (s.mapState == .ready && s.active 0 && entryOp raw == some op &&
    (s.port 0).cmd.nextHanded.map CmdRec.raw == some raw) = true) : s.takes 0 op raw := by
  simp only [Bool.and_eq_true, beq_iff_eq, Option.map_eq_some_iff] at h
  obtain ⟨⟨⟨h1, h2⟩, h3⟩, r, h4, h5⟩ := h
  exact ⟨h1, h2, h3, r, h4, h5⟩

/-- BadHandlesAreRefused: the first id that is no buffer's, an unused bit set, and a generation that is not the record's. -/
theorem test_bad_handles : (handing (cmd 0x02 0 0 0 4 0) (ready false)).takes 0 .free (cmd 0x02 0 0 0 4 0) ∧ CmdOp.free.namesCurrent = true ∧
    (handing (cmd 0x02 0 0 0 4 0) (ready false)).records.length ≤ handleId (entryHandle (cmd 0x02 0 0 0 4 0)) ∧
    (handing (cmd 0x0A 0 0 0 0x100000 0) (ready false)).takes 0 .query (cmd 0x0A 0 0 0 0x100000 0) ∧
    handleUnused (entryHandle (cmd 0x0A 0 0 0 0x100000 0)) ≠ 0 ∧
    (handing (cmd 0x02 0 0 0 0x1000 0) (ready false)).takes 0 .free (cmd 0x02 0 0 0 0x1000 0) ∧
    (handing (cmd 0x02 0 0 0 0x1000 0) (ready false)).handleOk (entryHandle (cmd 0x02 0 0 0 0x1000 0)) = true ∧
    handleGen (entryHandle (cmd 0x02 0 0 0 0x1000 0)) ≠ ((handing (cmd 0x02 0 0 0 0x1000 0) (ready false)).record (entryBuf (cmd 0x02 0 0 0 0x1000 0))).gen :=
  ⟨takes_of (by decide), by decide, by decide, takes_of (by decide), by decide, takes_of (by decide), by decide, by decide⟩

/-- An ALLOCATE at port 0, of pool `q`, pool 0 having this free list and charging port 0 so much. -/
def allocating (q : Byte) (free : List BufId) (charge : Nat) : State :=
  handing (cmd 0x01 0 q 0 0 0) ((ready false).modPool 0 (fun x => { x with free := free, charge := x.charge.set 0 charge }))

/-- AllocateTakesTheHead: a pool that is not there, a quota of 0, a charge at the quota, an empty list, and a buffer to take. -/
theorem test_allocate_cases : (∀ q : Fin 3, ∀ free charge, (allocating (BitVec.ofNat 8 q.val) free charge).takes 0 .allocate
      (cmd 0x01 0 (BitVec.ofNat 8 q.val) 0 0 0)) ∧ (allocating 2 [] 0).theMap.pools.length ≤ entryPool (cmd 0x01 0 2 0 0 0) ∧
    entryPool (cmd 0x01 0 1 0 0 0) < (allocating 1 [] 0).theMap.pools.length ∧ ((allocating 1 [] 0).poolEntry 1).quota.get 0 = 0 ∧
    ((allocating 0 [] 2).poolEntry 0).quota.get 0 = 2 ∧ ((allocating 0 [] 2).pool 0).charge.get 0 = 2 ∧
    ((allocating 0 [] 1).pool 0).charge.get 0 < ((allocating 0 [] 1).poolEntry 0).quota.get 0 ∧ ((allocating 0 [] 1).pool 0).free = [] ∧
    ((allocating 0 [1] 1).pool 0).charge.get 0 < ((allocating 0 [1] 1).poolEntry 0).quota.get 0 ∧ ((allocating 0 [1] 1).pool 0).free = [1] := by
  refine ⟨?_, by decide, by decide, by decide, by decide, by decide, by decide, by decide, by decide, by decide⟩
  intro q free charge
  apply takes_of
  fin_cases q <;> rfl

/-- A FREE of buffer 0 at port 0. -/
def freeRaw : List Byte := cmd 0x02 0 0 0 0 0

/-- FreeDropsThenFrees: not the holder, an operation pending, lent, and accepted from a caching holder and from one that is not. -/
theorem test_free_cases : taking (handingWith false .free freeRaw) .free freeRaw = true ∧
    (handingWith false .free freeRaw).holds 0 0 = false ∧ taking (handingWith false (busy 0 .free) freeRaw) .free freeRaw = true ∧
    (handingWith false (busy 0 .free) freeRaw).pendingOf 0 ≠ .none ∧
    taking (handingWith false (lentBy 0 [] [1]) freeRaw) .free freeRaw = true ∧ (handingWith false (lentBy 0 [] [1]) freeRaw).lent 0 = true ∧
    taking (handingWith true (.heldPlain 0) freeRaw) .free freeRaw = true ∧ (handingWith true (.heldPlain 0) freeRaw).caching 0 = true ∧
    taking (handingWith false (.heldPlain 0) freeRaw) .free freeRaw = true ∧ (handingWith false (.heldPlain 0) freeRaw).caching 0 = false ∧
    ((handingWith false (.heldPlain 0) freeRaw).pool 0).waiting = [] := by decide

/-- A SEND of buffer 0 to this port, of this length and lane. -/
def sendRaw (port lane : Byte) (length : Nat) : List Byte := cmd 0x03 lane 0 port 0 length

/-- The part with port `p` in this state. -/
def withPort (p : PortId) (x : PortState) (s : State) : State := s.modPort p (fun P => { P with state := x })

/-- The part changed by `f` with port 0 holding buffer 0 and handing over a SEND of it. -/
def sending (f : State → State) (caching : Bool) (raw : List Byte) : State := f (handingWith caching (.heldPlain 0) raw)

/-- Port 1's inbox with `n` places reserved for a buffer 3. -/
def filling (p : PortId) (n : Nat) (s : State) : State :=
  s.modPort p (Port.modInbox (fun x => { x with reservations := List.replicate n { kind := .standing, buf := 3 } }))

/-- Port 1 charged one in pool 0, its quota there. -/
def charging (s : State) : State := s.modPool 0 (fun x => { x with charge := x.charge.set 1 1 })

/-- SendHandsTheBufferOver, its refusals: not the holder, an operation pending, lent; a port field, length or lane that no SEND may have. -/
theorem test_send_refused : taking (handingWith false .free (sendRaw 1 0 256)) .send (sendRaw 1 0 256) = true ∧
    (handingWith false .free (sendRaw 1 0 256)).holds 0 0 = false ∧
    taking (handingWith false (busy 0 .free) (sendRaw 1 0 256)) .send (sendRaw 1 0 256) = true ∧
    (handingWith false (busy 0 .free) (sendRaw 1 0 256)).pendingOf 0 = .free ∧
    taking (handingWith false (lentBy 0 [] [1]) (sendRaw 1 0 256)) .send (sendRaw 1 0 256) = true ∧
    (handingWith false (lentBy 0 [] [1]) (sendRaw 1 0 256)).lent 0 = true ∧
    taking (sending id false (sendRaw 4 0 256)) .send (sendRaw 4 0 256) = true ∧ 4 ≤ entryPort (sendRaw 4 0 256) ∧
    taking (sending id false (sendRaw 0 0 256)) .send (sendRaw 0 0 256) = true ∧ entryPort (sendRaw 0 0 256) = (0 : PortId).val ∧
    taking (sending id false (sendRaw 1 0 257)) .send (sendRaw 1 0 257) = true ∧
    2 ^ ((sending id false (sendRaw 1 0 257)).poolEntry 0).sizeCode < entryLength (sendRaw 1 0 257) ∧
    taking (sending id false (sendRaw 1 2 256)) .send (sendRaw 1 2 256) = true ∧ 1 < (byteAt (sendRaw 1 2 256) 3).toNat := by decide

/-- SendHandsTheBufferOver, refused by the destination: a quota of 0 (port 2 in a map that lets it reach pool 0), not ACTIVE, the charge at the
quota, a full inbox. -/
theorem test_send_destination : taking (sending (fun s => { s with map := some { theMap false .rotating with
        pools := [{ home := 0, sizeCode := 8, count := 4, base := 0, reach := .fill true, quota := .fill 0, landing := .fill none }] } })
      false (sendRaw 1 1 256)) .send (sendRaw 1 1 256) = true ∧ laneOfByte (byteAt (sendRaw 1 1 256) 3) = some .urgent ∧
    entryLength (sendRaw 1 1 256) ≤ 2 ^ ((ready false).poolEntry 0).sizeCode ∧ ((ready false).poolEntry 0).reach.get 1 = true ∧
    ((ready false).cfg 1).present = true ∧ ((ready false).poolEntry 0).quota.get 1 = 1 ∧
    taking (sending (withPort 1 .down) false (sendRaw 1 1 256)) .send (sendRaw 1 1 256) = true ∧
    (sending (withPort 1 .down) false (sendRaw 1 1 256)).active 1 = false ∧
    taking (sending charging false (sendRaw 1 1 256)) .send (sendRaw 1 1 256) = true ∧
    ((sending charging false (sendRaw 1 1 256)).pool 0).charge.get 1 = 1 ∧ (sending charging false (sendRaw 1 1 256)).active 1 = true ∧
    taking (sending (filling 1 3) false (sendRaw 1 1 256)) .send (sendRaw 1 1 256) = true ∧
    ((sending (filling 1 3) false (sendRaw 1 1 256)).cfg 1).inboxLimit ≤ ((sending (filling 1 3) false (sendRaw 1 1 256)).port 1).inbox.occupancy ∧
    ((sending (filling 1 3) false (sendRaw 1 1 256)).pool 0).charge.get 1 = 0 := by decide

/-- SendHandsTheBufferOver, accepted: from a caching holder and from one that is not. -/
theorem test_send_accepted : taking (handingWith true (.heldPlain 0) (sendRaw 1 0 256)) .send (sendRaw 1 0 256) = true ∧
    (handingWith true (.heldPlain 0) (sendRaw 1 0 256)).caching 0 = true ∧
    taking (handingWith false (.heldPlain 0) (sendRaw 1 0 256)) .send (sendRaw 1 0 256) = true ∧
    (handingWith false (.heldPlain 0) (sendRaw 1 0 256)).caching 0 = false ∧ ((ready false).port 1).inbox.occupancy = 0 ∧
    (ready false).destRes = [] ∧ ((ready false).port 1).inbox.reservations = [] ∧
    (∀ x ∈ ((handingWith false (.heldPlain 0) (sendRaw 1 0 256)).port 0).cmd.outstanding, x.isWaiting .send 0 = false) := by decide

/-- Both channels serve jobs of the buffers 2 and 3. -/
def bothServing (s : State) : State := s.modMover (fun m => { m with
  jobs := [{ job .landing none 0 with source := 2 }, { job .landing none 0 with source := 3 }]
  chan0 := { m.chan0 with serving := some 2 }
  chan1 := { m.chan1 with serving := some 3 } })

/-- SendAcrossMemoriesEntersTheMover: with no landing pool (buffer 2 of pool 1 to port 0, at port 2), with sixteen places taken, from a caching
holder, and from one that is not with both channels serving. -/
theorem test_send_across : taking (sending id true (sendRaw 2 0 256)) .send (sendRaw 2 0 256) = true ∧
    ((ready true).poolEntry 0).reach.get 2 = false ∧ ((ready true).cfg 2).present = true ∧
    taking (sending (fun s => { s with map := some { theMap true .rotating with
        pools := [{ home := 0, sizeCode := 8, count := 4, base := 0, reach := .fill false, quota := .fill 1, landing := .fill none }] } })
      true (sendRaw 2 0 256)) .send (sendRaw 2 0 256) = true ∧ ((ready true).poolEntry 0).landing.get 2 = some 1 ∧
    (sending id true (sendRaw 2 0 256)).active 2 = true ∧ (sending id true (sendRaw 2 0 256)).caching 0 = true ∧
    ((sending id true (sendRaw 2 0 256)).pool 1).charge.get 2 < ((sending id true (sendRaw 2 0 256)).poolEntry 1).quota.get 2 ∧
    ((sending id true (sendRaw 2 0 256)).port 2).inbox.occupancy < ((sending id true (sendRaw 2 0 256)).cfg 2).inboxLimit ∧
    taking (sending (fun s => s.modMover (fun m => { m with reserved := List.replicate 16 3 })) true (sendRaw 2 0 256)) .send
      (sendRaw 2 0 256) = true ∧ taking (sending bothServing false (sendRaw 2 0 256)) .send (sendRaw 2 0 256) = true ∧
    (∀ c, ((sending bothServing false (sendRaw 2 0 256)).mover.jobOf c).isSome = true) ∧
    0 ∉ (sending bothServing false (sendRaw 2 0 256)).mover.reserved ∧
    (∀ x ∈ ((sending bothServing false (sendRaw 2 0 256)).port 0).cmd.outstanding, x.isWaiting .send 0 = false) := by decide

/-- What its idle channel's clauses ask of a state: buffer 0 in no place, job, reservation or channel, and channel `c` idle in its turn. -/
def sendIdle (s : State) (c : ChanId) : Bool :=
  taking s .send (((s.port 0).cmd.nextHanded.map CmdRec.raw).getD []) && decide (s.mover.reserved.length + s.mover.jobs.length < 16) &&
  !s.caching 0 && !s.mover.reserved.contains 0 && (s.port 0).cmd.outstanding.all (fun x => !x.isWaiting .send 0) &&
  s.mover.jobs.all (fun j => j.source != 0) && s.destRes.all (fun x => x.buf != 0) &&
  (s.port 2).inbox.reservations.all (fun x => x.buf != 0) && chanIds.all (fun x => (s.mover.chan x).serving != some 0) &&
  s.mover.chan c == .idle && (c == 0 || (s.mover.chan 0).serving != none)

/-- Such SENDs: to a landing pool of 128-byte buffers, to one with no FREE buffer, and from a pool whose home port is port 1, DOWN. -/
def sendTooLong : State := sending (fun s => { s with map := some { theMap false .rotating with
  pools := (theMap false .rotating).pools.map (fun e => { e with sizeCode := if e.home = 2 then 7 else 8 }) } }) false (sendRaw 2 0 256)
def sendNoLanding : State := sending (fun s => s.modPool 1 (fun x => { x with free := [] })) false (sendRaw 2 0 256)
def sendHomeDown : State := sending (fun s => withPort 1 .down { s with map := some { theMap false .rotating with
  pools := (theMap false .rotating).pools.map (fun e => { e with home := if e.home = 0 then 1 else 2 }) } }) false (sendRaw 2 0 256)

/-- SendAcrossMemoriesEntersTheMover, an idle channel: 0, and 1 with 0 serving; a length the landing pool has no room for, no FREE landing
buffer, one with the home port ACTIVE and with it DOWN, and a length of 0. -/
theorem test_send_idle : sendIdle (sending id false (sendRaw 2 0 256)) 0 = true ∧
    sendIdle (sending (fun s => (bothServing s).modMover (fun m => { m with chan1 := .idle })) false (sendRaw 2 0 256)) 1 = true ∧
    sendIdle sendTooLong 0 = true ∧ 2 ^ (sendTooLong.poolEntry 1).sizeCode < entryLength (sendRaw 2 0 256) ∧
    sendIdle sendNoLanding 0 = true ∧ (sendNoLanding.pool 1).free = [] ∧
    entryLength (sendRaw 2 0 256) ≤ 2 ^ (sendNoLanding.poolEntry 1).sizeCode ∧
    ((sending id false (sendRaw 2 0 256)).pool 1).free = 2 :: [3] ∧
    (sending id false (sendRaw 2 0 256)).active ((sending id false (sendRaw 2 0 256)).poolEntry 0).home = true ∧
    sendIdle sendHomeDown 0 = true ∧ (sendHomeDown.pool 1).free = 2 :: [3] ∧
    sendHomeDown.active (sendHomeDown.poolEntry 0).home = false ∧ sendHomeDown.poolOf 2 = 1 ∧ (sendHomeDown.pool 1).waiting = [] ∧
    sendIdle (sending id false (sendRaw 2 0 0)) 0 = true ∧ entryLength (sendRaw 2 0 0) = 0 ∧
    ((sending id false (sendRaw 2 0 0)).pool ((sending id false (sendRaw 2 0 0)).poolOf 0)).waiting = [] := by decide

/-- A WITHDRAW of buffer 0, which stands QUEUED at port 1 with its item so. -/
def withdrawing (sender : PortId) (delivering : Bool) : State :=
  (handingWith false (.queued sender 1) (cmd 0x04 0 0 0 0 0)).modPort 1 (Port.modInbox (fun x =>
    { x with routine := [{ item (.delivery 256 0) delivering with source := 0 }] }))

/-- WithdrawTakesTheBufferBack: another's buffer, an item being delivered, a charge at the quota, and accepted. -/
theorem test_withdraw_cases : taking (withdrawing 1 false) .withdraw (cmd 0x04 0 0 0 0 0) = true ∧
    ((withdrawing 1 false).record 0).custody = .queued 1 1 ∧ taking (withdrawing 0 true) .withdraw (cmd 0x04 0 0 0 0 0) = true ∧
    ((withdrawing 0 true).record 0).custody = .queued 0 1 ∧
    (∃ i ∈ ((withdrawing 0 true).port 1).inbox.urgent ++ ((withdrawing 0 true).port 1).inbox.routine,
      i.isDeliveryOf 0 = true ∧ i.delivering = true) ∧
    ¬(∃ i ∈ ((withdrawing 0 false).port 1).inbox.urgent ++ ((withdrawing 0 false).port 1).inbox.routine,
      i.isDeliveryOf 0 = true ∧ i.delivering = true) ∧
    taking ((withdrawing 0 false).modPool 0 (fun x => { x with charge := x.charge.set 0 2 })) .withdraw (cmd 0x04 0 0 0 0 0) = true ∧
    (((withdrawing 0 false).modPool 0 (fun x => { x with charge := x.charge.set 0 2 })).pool 0).charge.get 0 = 2 ∧
    taking (withdrawing 0 false) .withdraw (cmd 0x04 0 0 0 0 0) = true ∧ ((withdrawing 0 false).poolEntry 0).quota.get 0 = 2 ∧ ((withdrawing 0 false).pool 0).charge.get 0 = 0 := by decide

/-- A LEND of buffer 0 to this port. -/
def lendRaw (port : Byte) : List Byte := cmd 0x05 1 0 port 0 0

/-- LendQueuesALease, its refusals: not the holder, an operation pending; a port field that names no port, the holder, a port not present, one out of
reach, one not ACTIVE, one that has a lease, and an inbox with two of three places taken. -/
theorem test_lend_refused : taking (handingWith false .free (lendRaw 1)) .lend (lendRaw 1) = true ∧
    (handingWith false .free (lendRaw 1)).holds 0 0 = false ∧ taking (handingWith false (busy 0 .free) (lendRaw 1)) .lend (lendRaw 1) = true ∧
    (handingWith false (busy 0 .free) (lendRaw 1)).pendingOf 0 = .free ∧
    taking (sending id false (lendRaw 4)) .lend (lendRaw 4) = true ∧ 4 ≤ entryPort (lendRaw 4) ∧
    taking (sending id false (lendRaw 0)) .lend (lendRaw 0) = true ∧ entryPort (lendRaw 0) = (0 : PortId).val ∧
    taking (sending id false (lendRaw 3)) .lend (lendRaw 3) = true ∧ ((sending id false (lendRaw 3)).cfg 3).present = false ∧
    taking (sending id false (lendRaw 2)) .lend (lendRaw 2) = true ∧ ((sending id false (lendRaw 2)).entryOf 0).reach.get 2 = false ∧
    taking (sending (withPort 1 .down) false (lendRaw 1)) .lend (lendRaw 1) = true ∧
    (sending (withPort 1 .down) false (lendRaw 1)).active 1 = false ∧
    taking (handingWith false (lentBy 0 [] [1]) (lendRaw 1)) .lend (lendRaw 1) = true ∧
    taking (sending (filling 1 2) false (lendRaw 1)) .lend (lendRaw 1) = true ∧
    ((sending (filling 1 2) false (lendRaw 1)).cfg 1).inboxLimit < ((sending (filling 1 2) false (lendRaw 1)).port 1).inbox.occupancy + 2 := by
  decide

/-- LendQueuesALease, accepted from a caching holder and from one that is not, as the inbox limit just allows. -/
theorem test_lend_accepted : taking (sending (filling 1 1) true (lendRaw 1)) .lend (lendRaw 1) = true ∧
    ((sending (filling 1 1) true (lendRaw 1)).port 1).inbox.occupancy + 2 = ((sending (filling 1 1) true (lendRaw 1)).cfg 1).inboxLimit ∧
    (sending (filling 1 1) true (lendRaw 1)).caching 0 = true ∧ ((ready false).entryOf 0).reach.get 1 = true ∧
    taking (sending (filling 1 1) false (lendRaw 1)) .lend (lendRaw 1) = true ∧ (sending (filling 1 1) false (lendRaw 1)).caching 0 = false ∧
    ((sending (filling 1 1) false (lendRaw 1)).port 1).inbox.occupancy + 2 = ((sending (filling 1 1) false (lendRaw 1)).cfg 1).inboxLimit ∧
    (∀ x ∈ ((sending (filling 1 1) false (lendRaw 1)).port 1).inbox.reservations, x.buf ≠ 0) ∧
    (∀ x ∈ ((sending (filling 1 1) false (lendRaw 1)).port 0).cmd.outstanding, x.isWaiting .lend 0 = false) := by decide

/-- A RETURN of buffer 0 by port 0. -/
def returnRaw : List Byte := cmd 0x06 0 0 0 0 0

/-- Buffer 0 held by port 1 and read by port 0, returning or not. -/
def readBy0 (returning : Bool) : Custody := lentBy 1 [{ port := 0, returning := returning }] []

/-- ReturnEndsAView: not a reader, already returning, and accepted from a caching reader and from one that is not. -/
theorem test_return_cases : taking (handingWith false .free returnRaw) .ret returnRaw = true ∧
    (handingWith false .free returnRaw).reads 0 0 = false ∧ taking (handingWith false (readBy0 true) returnRaw) .ret returnRaw = true ∧
    (handingWith false (readBy0 true) returnRaw).isReturning 0 0 = true ∧ taking (handingWith true (readBy0 false) returnRaw) .ret returnRaw = true ∧
    (handingWith true (readBy0 false) returnRaw).reads 0 0 = true ∧ (handingWith true (readBy0 false) returnRaw).isReturning 0 0 = false ∧
    (handingWith true (readBy0 false) returnRaw).caching 0 = true ∧ taking (handingWith false (readBy0 false) returnRaw) .ret returnRaw = true ∧
    (handingWith false (readBy0 false) returnRaw).caching 0 = false := by decide

/-- A RECALL of buffer 0. -/
def recallRaw : List Byte := cmd 0x07 0 0 0 0 0

/-- Buffer 0 held by port 0 and read by port 1. -/
def readBy1 : Custody := lentBy 0 [{ port := 1, returning := false }] []

/-- RecallEndsTheViews: its refusals. -/
theorem test_recall_refused : taking (handingWith false .free recallRaw) .recallViews recallRaw = true ∧
    (handingWith false .free recallRaw).holds 0 0 = false ∧ taking (handingWith false (busy 0 .free) recallRaw) .recallViews recallRaw = true ∧
    (handingWith false (busy 0 .free) recallRaw).pendingOf 0 = .free ∧
    taking (handingWith false (.heldPlain 0) recallRaw) .recallViews recallRaw = true ∧
    (handingWith false (.heldPlain 0) recallRaw).pendingOf 0 = .none ∧ (handingWith false (.heldPlain 0) recallRaw).lent 0 = false := by decide

/-- A standing reservation of buffer 0 in port 1's inbox, and its LEASE item. -/
def leaseAt1 (items : List Item) (s : State) : State :=
  s.modPort 1 (Port.modInbox (fun x => { x with routine := items, reservations := [{ kind := .standing, buf := 0 }] }))

/-- RecallEndsTheViews: of a caching reader, of one that is not, and of a lease whose item waits. -/
theorem test_recall_accepted : taking (leaseAt1 [] (handingWith true readBy1 recallRaw)) .recallViews recallRaw = true ∧
    (leaseAt1 [] (handingWith true readBy1 recallRaw)).caching 1 = true ∧ (leaseAt1 [] (handingWith true readBy1 recallRaw)).active 1 = true ∧
    taking (leaseAt1 [] (handingWith false readBy1 recallRaw)) .recallViews recallRaw = true ∧
    (leaseAt1 [] (handingWith false readBy1 recallRaw)).caching 1 = false ∧ (leaseAt1 [] (handingWith false readBy1 recallRaw)).fenced 1 = false ∧
    ((leaseAt1 [] (handingWith false readBy1 recallRaw)).port 1).inbox.reservations.filter (fun x => x.buf == 0) = [{ kind := .standing, buf := 0 }] ∧
    taking (leaseAt1 [item .lease false] (handingWith false (lentBy 0 [] [1]) recallRaw)) .recallViews recallRaw = true ∧
    (∃ i ∈ ((leaseAt1 [item .lease false] (handingWith false (lentBy 0 [] [1]) recallRaw)).port 1).inbox.routine,
      i.isLeaseOf 0 = true ∧ i.delivering = false) := by decide

/-- A RECLAIM of buffer 0. -/
def reclaimRaw : List Byte := cmd 0x08 0 0 0 0 0

/-- The map without port 0's recovery right. -/
def noRight (s : State) : State := { s with map := some { theMap false .rotating with ports := .fill (entry false false 3) } }

/-- ReclaimReturnsAStrandedBuffer: without the right, not STRANDED, being reclaimed, a FENCED last holder, one ACTIVE and caching, one DOWN,
and one ACTIVE that is not caching. -/
theorem test_reclaim_cases : taking (noRight (handingWith false (.stranded 1 false) reclaimRaw)) .reclaim reclaimRaw = true ∧
    ((noRight (handingWith false (.stranded 1 false) reclaimRaw)).cfg 0).recovery = false ∧ ((ready false).cfg 0).recovery = true ∧
    ((ready true).cfg 0).recovery = true ∧
    taking (handingWith false .free reclaimRaw) .reclaim reclaimRaw = true ∧ ((handingWith false .free reclaimRaw).record 0).custody = .free ∧
    taking (handingWith false (.stranded 1 true) reclaimRaw) .reclaim reclaimRaw = true ∧
    taking (withPort 1 .fenced (handingWith false (.stranded 1 false) reclaimRaw)) .reclaim reclaimRaw = true ∧
    ((withPort 1 .fenced (handingWith false (.stranded 1 false) reclaimRaw)).port 1).state = .fenced ∧
    taking (handingWith true (.stranded 1 false) reclaimRaw) .reclaim reclaimRaw = true ∧
    (handingWith true (.stranded 1 false) reclaimRaw).caching 1 = true ∧
    taking (withPort 1 .down (handingWith true (.stranded 1 false) reclaimRaw)) .reclaim reclaimRaw = true ∧
    ((withPort 1 .down (handingWith true (.stranded 1 false) reclaimRaw)).port 1).state = .down ∧
    taking (handingWith false (.stranded 1 false) reclaimRaw) .reclaim reclaimRaw = true ∧
    (handingWith false (.stranded 1 false) reclaimRaw).caching 1 = false := by decide

/-- An UNFENCE at port 0 of this port field, port 1 being FENCED. -/
def unfencing (port : Byte) : State := handing (cmd 0x09 0 0 port 0 0) (withPort 1 .fenced (ready false))

/-- UnfenceMakesTheNamedPortActive: no right, a port field that names no FENCED port (2, and 4), and one that does. -/
theorem test_unfence_cases : (noRight (unfencing 1)).takes 0 .unfence (cmd 0x09 0 0 1 0 0) ∧ ((noRight (unfencing 1)).cfg 0).recovery = false ∧
    (unfencing 4).takes 0 .unfence (cmd 0x09 0 0 4 0 0) ∧ ((unfencing 4).cfg 0).recovery = true ∧
    (∀ d : PortId, entryPort (cmd 0x09 0 0 4 0 0) = d.val → ((unfencing 4).port d).state ≠ .fenced) ∧
    (unfencing 2).takes 0 .unfence (cmd 0x09 0 0 2 0 0) ∧
    (∀ d : PortId, entryPort (cmd 0x09 0 0 2 0 0) = d.val → ((unfencing 2).port d).state ≠ .fenced) ∧
    (unfencing 1).takes 0 .unfence (cmd 0x09 0 0 1 0 0) ∧ entryPort (cmd 0x09 0 0 1 0 0) = (1 : PortId).val ∧
    ((unfencing 1).port 1).state = .fenced :=
  ⟨takes_of (by decide), by decide, takes_of (by decide), by decide, by decide, takes_of (by decide), by decide, takes_of (by decide), by decide,
    by decide⟩

/-- QueryAndMarkerEndAtOnce: a QUERY of buffer 0, and of no buffer; its record in each custody state; and a MARKER. -/
theorem test_query_cases : ((handing (cmd 0x0A 0 0 0 0 0) (ready false)).port 0).cmd.nextHanded = some (out (cmd 0x0A 0 0 0 0 0) .handed none) ∧
    entryOp (cmd 0x0A 0 0 0 0 0) = some .query ∧ handleId (entryHandle (cmd 0x0A 0 0 0 0 0)) < (ready false).records.length ∧
    (ready false).records.length ≤ handleId (entryHandle (cmd 0x0A 0 0 0 4 0)) ∧ handleUnused (entryHandle (cmd 0x0A 0 0 0 0 0)) = 0 ∧
    ((ready false).record 0).custody = .free ∧ ((handingWith false (.heldPlain 0) []).record 0).custody = .heldPlain 0 ∧
    ((handingWith false readBy1 []).record 0).custody = readBy1 ∧ ((handingWith false (.queued 0 1) []).record 0).custody = .queued 0 1 ∧
    ((handingWith false (.source 0 2 false) []).record 0).custody = .source 0 2 false ∧
    ((handingWith false (.landing 0 2) []).record 0).custody = .landing 0 2 ∧
    ((handingWith false (.stranded 0 false) []).record 0).custody = .stranded 0 false ∧
    taking (handing (cmd 0x0B 0 0 0 0 0) (ready false)) .marker (cmd 0x0B 0 0 0 0 0) = true := by decide

/-! ## Arrivals -/

/-- Port 0's Arrival Process in this state with a load issued in slot 1, and this inbox. -/
def arriving (x : ArrState) (discard : Bool) (urgent routine : List Item) : State :=
  (asking (.arrivalLoad 0x40) (arrIn x 0 (ready true))).modPort 0 (fun P => { P with
    arr := { P.arr with load := some (load discard) }, inbox := { P.inbox with urgent := urgent, routine := routine } })

/-- ArrivalLoadPicksOrSuspends: an URGENT item, a ROUTINE one alone, owner AGENT, an empty inbox, an answer to be discarded. -/
theorem test_arrival_load : ((arriving .running false [item .lease false] []).port 0).dataReq 1 = some (.arrivalLoad 0x40) ∧
    ((arriving .running false [item .lease false] []).port 0).arr.load = some (load false) ∧ byteAt [0x01] 0 = 0x01 ∧
    ((arriving .running false [item .lease false] []).port 0).inbox.urgent = item .lease false :: [] ∧
    ((arriving .running false [] [item .lease false]).port 0).inbox.urgent = [] ∧
    ((arriving .running false [] [item .lease false]).port 0).inbox.routine = item .lease false :: [] ∧ byteAt [0x00] 0 ≠ 0x01 ∧
    ((arriving .running false [] []).port 0).inbox.routine = [] ∧ ((arriving .stopped true [] []).port 0).arr.load = some (load true) ∧
    ((arriving .running true [] []).port 0).arr.state = .running := by decide

/-- Port 0's Arrival Process with the store of an item of this kind issued in slot 1, buffer 0 having this custody. -/
def storingItem (kind : ItemKind) (c : Custody) : State :=
  ((asking (.arrivalStore 0x40 []) (arrIn .running 0 (ready true))).modPort 0 (fun P => { P with
    arr := { P.arr with store := some { index := 0, slot := some 1 } }, inbox := { P.inbox with urgent := [item kind true] } })).setCustody 0 c

/-- Buffer 0 held by port 1 with a lease outstanding to port 0, and a recall waiting on it or not. -/
def leasedTo0 (op : HolderOp) : Owned := { holder := 1, readers := [], leases := [0], op := op, orphan := false }

/-- Port 0 delivering the LEASE item of buffer 0, which port 1's RECALL waits on, to end OK_FENCED or not. -/
def leasing (degraded : Bool) : State :=
  ((ready true).setCustody 0 (.owned (leasedTo0 (.recallViews degraded)))).modPort 0 (Port.modInbox (fun x =>
    { x with urgent := [item .lease true], reservations := [{ kind := .standing, buf := 0 }] }))

/-- ArrivalStoreAcknowledged and ArrivalRequestErrorHaltsTheProcess: a DELIVERY, a LEASE, a LEASE with a recall waiting, and a REVOKED. -/
theorem test_arrival_store : ((storingItem (.delivery 5 0) (.queued 1 0)).port 0).dataReq 1 = some (.arrivalStore 0x40 []) ∧
    ((storingItem (.delivery 5 0) (.queued 1 0)).port 0).inbox.delivering = some (.urgent, item (.delivery 5 0) true) ∧
    (storingItem (.delivery 5 0) (.queued 1 0)).moverAtRest ∧ ((storingItem (.delivery 5 0) (.queued 1 0)).record 0).custody = .queued 1 0 ∧
    ((storingItem .lease (.owned (leasedTo0 .none))).record 0).custody = .owned (leasedTo0 .none) ∧
    ((storingItem .lease (.owned (leasedTo0 .none))).port 0).inbox.delivering = some (.urgent, item .lease true) ∧
    ((storingItem .lease (.owned (leasedTo0 (.recallViews false)))).record 0).custody = .owned (leasedTo0 (.recallViews false)) ∧
    (storingItem .lease (.owned (leasedTo0 (.recallViews false)))).caching 0 = true ∧
    (storingItem .lease (.owned (leasedTo0 (.recallViews false)))).active 0 = true ∧
    ((storingItem .revoked .free).port 0).inbox.delivering = some (.urgent, item .revoked true) :=
  ⟨by decide, by decide, ⟨by decide, by decide⟩, by decide, by decide, by decide, by decide, by decide, by decide, by decide⟩

/-- ArrivalRequestErrorHaltsTheProcess, its loads. -/
theorem test_arrival_load_error : ((arriving .running false [] []).port 0).arr.load.map RingLoad.discard = some false ∧
    ((arriving .stopped true [] []).port 0).arr.load.map RingLoad.discard = some true ∧
    ((arriving .stopped true [] []).port 0).arr.state = .stopped ∧ ((arriving .stopped true [] []).port 0).dataReq 1 = some (.arrivalLoad 0x40) := by
  decide

/-! ## Yields -/

/-- A yield of buffer 0 to port 0 issued for this operation, buffer 0 having this custody, and port 0 with this command waiting. -/
def answering (op : YieldOp) (c : Custody) (raw : List Byte) : State :=
  (yielding .drop op (.issued 1) 1 (asking (.yield 0 .drop 0x10000 256) ((ready true).setCustody 0 c))).modPort 0 (Port.modCmd (fun x =>
    { x with outstanding := [out raw .waiting none] }))

/-- Buffer 0 held by port 1, port 0's view of it being recalled. -/
def recalling : Custody :=
  .owned { holder := 1, readers := [{ port := 0, returning := true }], leases := [], op := .recallViews false, orphan := false }

/-- AnsweredYieldEndsItsOperation: what each operation's yield stands for, no place waiting, the channels at rest. -/
theorem test_answered_yields : (answering .free (busy 0 .free) freeRaw).yields.live =
      [] ++ { tag := 0, ask := { buf := 0, target := 0, kind := .drop, op := .free }, phase := .issued 1, attempts := 1 } :: [] ∧
    (answering .free (busy 0 .free) freeRaw).yields.waiting = [] ∧ (0 : Word).toNat = (0 : TagId).val ∧
    (answering .free (busy 0 .free) freeRaw).moverAtRest ∧ ((answering .free (busy 0 .free) freeRaw).record 0).custody = busy 0 .free ∧
    ((answering .free (busy 0 .free) freeRaw).pool 0).waiting = [] ∧
    ((answering .send (busy 0 (.send 1)) (sendRaw 1 0 256)).record 0).custody = busy 0 (.send 1) ∧
    (((answering .send (busy 0 (.send 1)) (sendRaw 1 0 256)).port 0).cmd.outstanding.find? (CmdRec.isWaiting .send 0)).isSome = true ∧
    ((answering .send (busy 0 (.send 1)) (sendRaw 1 0 256)).entryOf 0).reach.get 1 = true ∧
    (((answering .lend (busy 0 .lend) (lendRaw 1)).port 0).cmd.outstanding.find? (CmdRec.isWaiting .lend 0)).isSome = true ∧
    entryPort (lendRaw 1) = (1 : PortId).val ∧ (answering .ret (readBy0 true) returnRaw).reads 0 0 = true ∧
    ((answering .recallViews recalling []).record 0).custody = recalling ∧
    ((answering .reclaim (.stranded 0 true) []).record 0).custody = .stranded 0 true :=
  ⟨by decide, by decide, by decide, ⟨by decide, by decide⟩, by decide, by decide, by decide, by decide, by decide, by decide, by decide,
    by decide, by decide, by decide⟩

/-- NonFinalExpiryReissuesTheYield: attempt 1 of 2, its deadline passed. -/
theorem test_yield_reissued : ((yieldDue 1).yields.live.find? (fun x => x.tag == 0)).map YieldEntry.phase = some (.issued 1) ∧
    ((yieldDue 1).port 0).slots.get 1 = some { req := .yield 0 .drop 0x10000 256, deadline := 5 } ∧ 5 ≤ (yieldDue 1).now ∧
    1 < 1 + ((yieldDue 1).cfg 0).retries := by decide

/-- FinalExpiryOfAFreeStrandsTheBuffer: attempt 2 of 2. -/
theorem test_free_expires : (yieldDue 2).yields.live =
      [{ tag := 0, ask := { buf := 0, target := 0, kind := .drop, op := .free }, phase := .issued 1, attempts := 2 }] ∧
    (yieldDue 2).yields.waiting = [] ∧ 1 + ((yieldDue 2).cfg 0).retries ≤ 2 ∧
    (yieldDue 2).records[0]?.map Record.custody = some (busy 0 .free) ∧ ((yieldDue 2).port 0).inbox.delivering = none ∧
    (∀ c, (yieldDue 2).mover.reqOn 0 c = none) ∧ (yieldDue 2).moverAtRest :=
  ⟨by decide, by decide, by decide, by decide, by decide, by decide, ⟨by decide, by decide⟩⟩

/-! ## The Mover -/

/-- That state with the burst of channel 0 issued in slot 1 of port `p`. -/
def bursting (p : PortId) (r : LinkReq) (write : Bool) (length : Nat) : State :=
  (moving (job .copying (some 2) length) write p (some 1) [0]).modPort p (Port.setSlot 1 (some { req := r, deadline := 5 }))

/-- AnsweredBurstMovesTheJobOn: a read; a write short of a length of 257 bytes; and the write of all 256 bytes. -/
theorem test_bursts_answered : (bursting 0 (.burstRead 0 0x10000 1) false 257).moverAtRest ∧
    (bursting 0 (.burstRead 0 0x10000 1) false 257).mover.jobOf 0 = some (job .copying (some 2) 257) ∧
    ((bursting 0 (.burstRead 0 0x10000 1) false 257).port 0).dataReq 1 = some (.burstRead 0 0x10000 1) ∧
    (bursting 0 (.burstRead 0 0x10000 1) false 257).active ((bursting 0 (.burstRead 0 0x10000 1) false 257).poolEntry 1).home = true ∧
    ((bursting 2 (.burstWrite 0 0x20000 [0]) true 257).port 2).dataReq 1 = some (.burstWrite 0 0x20000 [0]) ∧
    0 + min 256 (257 - 0) < 257 ∧ (bursting 2 (.burstWrite 0 0x20000 [0]) true 257).active
      ((bursting 2 (.burstWrite 0 0x20000 [0]) true 257).poolEntry 0).home = true ∧
    (bursting 2 (.burstWrite 0 0x20000 [0]) true 256).moverAtRest ∧ 256 ≤ 0 + min 256 (256 - 0) ∧
    (∀ i ∈ (bursting 2 (.burstWrite 0 0x20000 [0]) true 256).mover.jobs, i.state ≠ .waiting) ∧
    ((bursting 2 (.burstWrite 0 0x20000 [0]) true 256).pool 0).waiting = [] ∧
    0 < (bursting 2 (.burstWrite 0 0x20000 [0]) true 256).records.length :=
  ⟨⟨by decide, by decide⟩, by decide, by decide, by decide, by decide, by decide, by decide, ⟨by decide, by decide⟩, by decide, by decide, by decide,
    by decide⟩

/-- Channel 0 waiting for a landing buffer until time 5, of which it is now `now`. -/
def landing (now : Nat) : State :=
  { (moving (job .landing none 256) false 0 none []).modMover (fun m => { m with
      chan0 := { serving := some 0, data := [], req := none, deadline := some 5 }, presented := [] }) with now := now }

/-- FailedMoveIsUndone: a read, a write, and a landing wait that ends at its deadline and not before. -/
theorem test_failed_moves : (bursting 0 (.burstRead 0 0x10000 256) false 256).moverAtRest ∧ (landing 5).moverAtRest ∧
    (∀ i ∈ (bursting 0 (.burstRead 0 0x10000 256) false 256).mover.jobs, i.state ≠ .waiting) ∧
    (bursting 0 (.burstRead 0 0x10000 256) false 256).records[0]?.map Record.custody = some (.source 0 2 false) ∧
    (bursting 0 (.burstRead 0 0x10000 256) false 256).destRes = [] ++ { buf := 0, port := 2, pool := 1 } :: [] ∧
    ((bursting 0 (.burstRead 0 0x10000 256) false 256).pool 1).waiting = [] ∧
    ((bursting 0 (.burstRead 0 0x10000 256) false 256).port 0).dataReq 1 = some (.burstRead 0 0x10000 256) ∧
    ((bursting 2 (.burstWrite 0 0x20000 [0]) true 256).port 2).dataReq 1 = some (.burstWrite 0 0x20000 [0]) ∧
    (landing 5).mover.jobOf 0 = some (job .landing none 256) ∧ ((landing 5).mover.chan 0).deadline = some 5 ∧ 5 ≤ (landing 5).now ∧
    ¬5 ≤ (landing 4).now ∧ (∀ i ∈ (landing 5).mover.jobs, i.state ≠ .waiting) ∧
    (landing 5).records[0]?.map Record.custody = some (.source 0 2 false) :=
  ⟨⟨by decide, by decide⟩, ⟨by decide, by decide⟩, by decide, by decide, by decide, by decide, by decide, by decide, by decide, by decide, by decide,
    by decide, by decide, by decide⟩

/-! ## The invariants -/

/-- RecordsAndRegistersAreLaidOut: the last buffer id, a move's reason, and a snapshot. -/
theorem test_layout_cases : (4095 : BufId) < 4096 ∧ (Detail.move .noLanding) ≠ .zero ∧
    ((ready false).record 0).snapshot = { state := .free, holder := none, readers := [], gen := 0, length := 0 } ∧
    ((ready false).port 0).inbox.urgent.length < 512 ∧ ((ready false).port 0).inbox.routine.length < 512 ∧
    ((ready false).port 0).inbox.reserved < 512 := by decide

/-- FAULT with the upper bits of an address, with the source mark, and with the count of discards; INBOX with an item and two reservations. -/
theorem test_fault_and_inbox : ((ready false).modPort 0 (Port.recordFault .fetchError 0xA512345678)).windowRead 0 0x28 = some 0xA5000104 ∧
    ((ready false).modPort 0 (Port.recordUnsolicited .data 7)).windowRead 0 0x28 =
      some 0x0000011A ∧
    ((ready false).modPort 0 Port.countDiscard).windowRead 0 0x28 = some 0x00010000 ∧
    ((ready false).modPort 0 (Port.modInbox (fun x => { x with routine := [item .revoked false], reservations :=
      [{ kind := .lend, buf := 0 }] }))).windowRead 0 0x30 = some 0x00200400 := by decide

/-- PortResetLeavesThePortDown: either row; the word written to CONTROL with RESET set. -/
theorem test_port_reset_rows : ctlReset 0x2 = true ∧ (ready true).active 0 = true ∧
    (match exec (.controlReset 0 0x2) (ready true) with
      | .next t => !t.active 0 && t.active 1
      | _ => false) = true := by decide

/-- PortResetLeavesThePortDown, what becomes of port 0's inbox: no record concerns it; it reads buffer 0; and the LEASE item of buffer 0 is being
delivered while port 1's RECALL waits on it. -/
theorem test_port_reset_inbox : (ready true).yields.asksFor 0 = [] ∧ (∀ x, (ready true).mover.reqOn 0 x = none) ∧ (ready true).moverAtRest ∧
    ((ready true).port 0).inbox.delivering = none ∧ (∀ x, ((ready true).record x).apartFrom 0) ∧
    (∀ x, x ≠ 0 → (((ready true).setCustody 0 (readBy0 false)).record x).apartFrom 0) ∧
    ((leasing true).port 0).inbox.delivering = some (.urgent, item .lease true) ∧ (leasing true).moverAtRest ∧
    ((leasing true).record 0).custody = .owned (leasedTo0 (.recallViews true)) ∧ (∀ x, ((leasing true).record x).apartFrom 0) := by
  refine ⟨by decide, by decide, ⟨by decide, by decide⟩, by decide, ?_, ?_, by decide, ⟨by decide, by decide⟩, by decide, ?_⟩
  · rintro (_ | _ | _ | _ | x) <;> trivial
  · rintro (_ | _ | _ | _ | x) h <;> first | exact absurd rfl h | trivial
  · rintro (_ | _ | _ | _ | x) <;> first | exact ⟨by decide, rfl⟩ | trivial

/-- The invariants that every step keeps hold in the part with its map READY, from which a step on an empty queue goes on. -/
theorem test_invariants_met : (ready false).yields.tagsShared ∧ (ready false).quietPorts ∧ (ready false).processesLegal ∧
    (ready false).mapAgrees ∧ (ready false).moverAtRest ∧ (ready false).mapState = .ready ∧ (ready false).pending.head? ≠ some .deviceReset ∧
    step (ready false) = .next (ready false).tick := by
  refine ⟨List.Perm.refl _, ?_, ?_, ⟨fun _ => ⟨theMap false .rotating, rfl, rfl, rfl⟩, fun h => absurd rfl h⟩, ⟨by decide, by decide⟩, rfl, by decide,
    rfl⟩
  · intro p h
    fin_cases p <;> exact absurd rfl h
  · intro p
    have e : ((ready false).port p).cmd = .reset ∧ ((ready false).port p).arr = .reset := by fin_cases p <;> exact ⟨rfl, rfl⟩
    rw [e.1, e.2]
    exact ⟨⟨by decide, by decide, by decide, by decide, by decide, fun l h => by cases h⟩, by decide, by decide, by decide, by decide⟩

/-! ## A few whole steps -/

/-- A QUERY on a queue answers a completion store with its snapshot, and the queue moves on. -/
theorem test_query_step : (match step { handing (cmd 0x0A 0 0 0 0 0) (ready false) with pending := [.query 0, .marker 0] } with
    | .next t => t.pending == [.marker 0] && (t.port 0).cmd.outstanding.map CmdRec.phase == [.presented]
    | _ => false) = true := by decide

/-- An ALLOCATE takes the buffer at the head, charges the port, and answers its handle. -/
theorem test_allocate_step : (match exec (.allocate 0) (allocating 0 [1, 0] 0) with
    | .next t => (t.record 1).custody == .heldPlain 0 && (t.pool 0).free == [0] && t.charge 0 0 == 1 &&
        ((t.port 0).cmd.outstanding.map CmdRec.result) == [some { code := .ok, handle := some 0x00000001, detail := .zero }]
    | _ => false) = true := by decide

/-- A SEND from a holder that does not cache stands in the destination's inbox at once, and its Arrival Process would load. -/
theorem test_send_step : (match exec (.send 0) (sending (arrIn .running 1) false (sendRaw 1 1 256)) with
    | .next t => (t.record 0).custody == .queued 0 1 && (t.port 1).inbox.urgent.length == 1 && t.charge 1 0 == 1 &&
        (t.port 1).arr.load == some { index := 0, slot := none, auto := false, discard := false }
    | _ => false) = true := by decide

/-- STATUS after reset is 0, and with the map READY shows ACTIVE, READY, present and the recovery right. -/
theorem test_status : State.reset.windowRead 0 0x04 = some 0 ∧ (ready false).windowRead 0 0x04 = some 0x00501001 ∧
    (ready false).windowRead 0 0x34 = none ∧ (ready false).windowRead 0 0x18 = some 4 := by decide

end Sys2Proof.Tests
end

