-- ==== Sys2Proof/Proofs/Inbox.lean ====
section
/-!
SUPPORT. The inbox under the operations on one port: what the rings and the window leave of it, and the operations of arrivals,
fences and port resets on one that is empty.
-/
namespace Sys2Proof.Machine
open Sys2Proof

/-! ### The window (R44, R48, R53, R99, R101, R105, R150, R154, R167) -/

@[simp] theorem Port.cmdRunField_inbox (run : Bool) (P : Port) : (P.cmdRunField run).inbox = P.inbox := by
  unfold Port.cmdRunField
  split
  · split
    · rfl
    · split <;> simp
  · cases P.cmd.state <;> dsimp only <;> (try split) <;> simp

@[simp] theorem Port.arrRunField_inbox (run : Bool) (P : Port) : (P.arrRunField run).inbox = P.inbox := by
  unfold Port.arrRunField
  split
  · split
    · rfl
    · split <;> simp
  · split <;> rfl

@[simp] theorem Port.controlFields_inbox (w : Word) (P : Port) : (P.controlFields w).inbox = P.inbox := by
  unfold Port.controlFields
  dsimp only
  rw [Port.arrRunField_inbox, Port.cmdRunField_inbox]
  split <;> rfl

@[simp] theorem Port.cmdWake_inbox (auto : Bool) (P : Port) : (P.cmdWake auto).inbox = P.inbox := by
  unfold Port.cmdWake
  split <;> simp

@[simp] theorem Port.arrWake_inbox (auto : Bool) (P : Port) : (P.arrWake auto).inbox = P.inbox := by
  unfold Port.arrWake
  split <;> simp

@[simp] theorem Port.pollWrite_inbox (w : Word) (P : Port) : (P.pollWrite w).inbox = P.inbox := by
  have wake : (if pollCmd w then P.cmdWake false else P).inbox = P.inbox := by split <;> simp
  unfold Port.pollWrite
  split
  · rfl
  · dsimp only
    split <;> simp [wake]

@[simp] theorem Port.writeHigh_inbox (w : Word) (P : Port) : (P.writeHigh w).inbox = P.inbox := by
  have cmd : ∀ b, (P.writeCringHi b).inbox = P.inbox := fun b => by
    unfold Port.writeCringHi
    split
    · rfl
    · split <;> rfl
  have arr : ∀ b (Q : Port), (Q.writeAringHi b).inbox = Q.inbox := fun b Q => by
    unfold Port.writeAringHi
    split
    · rfl
    · split <;> rfl
  rw [Port.writeHigh, arr, cmd]

@[simp] theorem Port.writeCring_inbox (r : RingReg) (w : Word) (P : Port) : (P.writeCring r w).inbox = P.inbox := by
  cases r
  case baseLo =>
    show (P.writeCringLo w).inbox = _
    unfold Port.writeCringLo
    split <;> rfl
  case baseHi => exact Port.writeHigh_inbox w P
  case size =>
    show (P.writeCringSize w).inbox = _
    unfold Port.writeCringSize
    split <;> rfl

@[simp] theorem Port.writeAring_inbox (r : RingReg) (w : Word) (P : Port) : (P.writeAring r w).inbox = P.inbox := by
  cases r
  case baseLo =>
    show (P.writeAringLo w).inbox = _
    unfold Port.writeAringLo
    split <;> rfl
  case baseHi => exact Port.writeHigh_inbox w P
  case size =>
    show (P.writeAringSize w).inbox = _
    unfold Port.writeAringSize
    split <;> rfl

@[simp] theorem Port.writeFault_inbox (P : Port) : P.writeFault.inbox = P.inbox := by
  unfold Port.writeFault
  split <;> rfl

/-! ### The rings (R47, R55, R57, R58, R60, R102, R107, R108, R161) -/

@[simp] theorem Port.issueRecord_inbox (k : SlotId) (d : Nat) (P : Port) : (P.issueRecord k d).inbox = P.inbox := by
  have cmd : (P.issueCmd k d).inbox = P.inbox := by
    unfold Port.issueCmd
    split <;> rfl
  have arr : (P.issueArr k d).inbox = P.inbox := by
    unfold Port.issueArr
    split
    · rfl
    · split <;> rfl
    · rfl
  unfold Port.issueRecord
  split
  · exact cmd
  · exact arr
  · rfl

@[simp] theorem Port.cmdLoadAck_inbox (n v : Nat) (k : SlotId) (raw : List Byte) (P : Port) :
    (P.cmdLoadAck n v k raw).inbox = P.inbox := by
  have loaded : ∀ auto (Q : Port), (Q.cmdLoaded n v auto raw).inbox = Q.inbox := fun auto Q => by
    unfold Port.cmdLoaded Port.cmdSuspend
    split
    · split <;> simp
    · dsimp only
      split <;> rfl
  unfold Port.cmdLoadAck
  dsimp only
  split
  · split <;> simp [loaded]
  · rfl

@[simp] theorem Port.cmdLoadLost_inbox (k : SlotId) (a : Addr) (P : Port) : (P.cmdLoadLost k a).inbox = P.inbox := rfl

@[simp] theorem Port.cmdLoadFail_inbox (k : SlotId) (a : Addr) (P : Port) : (P.cmdLoadFail k a).inbox = P.inbox := by
  unfold Port.cmdLoadFail
  split
  · split <;> simp
  · rfl

@[simp] theorem Port.completionAck_inbox (k : SlotId) (P : Port) : (P.completionAck k).inbox = P.inbox := by
  simp [Port.completionAck]

@[simp] theorem Port.completionLost_inbox (k : SlotId) (P : Port) : (P.completionLost k).inbox = P.inbox := rfl

@[simp] theorem Port.completionFail_inbox (k : SlotId) (P : Port) : (P.completionFail k).inbox = P.inbox := by
  unfold Port.completionFail
  cases P.cmd.state <;> rfl

@[simp] theorem Port.arrLoadFail_inbox (k : SlotId) (a : Addr) (P : Port) : (P.arrLoadFail k a).inbox = P.inbox := by
  unfold Port.arrLoadFail
  dsimp only
  split
  · split <;> simp [Port.arrFault]
  · rfl

@[simp] theorem Port.arrLost_inbox (k : SlotId) (a : Addr) (P : Port) : (P.arrLost k a).inbox = P.inbox := rfl

/-! ### An empty inbox stays empty -/

variable {P : Port}

theorem Port.arrLoadAck_inboxReset (h : P.inbox = .reset) (n v : Nat) (k : SlotId) (raw : List Byte) :
    (P.arrLoadAck n v k raw).inbox = .reset := by
  have loaded : ∀ auto (Q : Port), Q.inbox = .reset → (Q.arrLoaded n v auto raw).inbox = .reset := fun auto Q hQ => by
    simp [Port.arrLoaded, hQ, Inbox.reset, Inbox.isEmpty]
  unfold Port.arrLoadAck
  dsimp only
  split
  · split
    · simpa using h
    · exact loaded _ _ h
  · exact h

theorem Port.arrStored_inboxReset (h : P.inbox = .reset) (k : SlotId) : (P.arrStored k).inbox = .reset := by
  show P.inbox.remove Item.delivering = .reset
  rw [h]
  rfl

theorem Port.arrStoreFail_inboxReset (h : P.inbox = .reset) (k : SlotId) (a : Addr) : (P.arrStoreFail k a).inbox = .reset := by
  show P.inbox.clearDelivering = .reset
  rw [h]
  rfl

theorem Port.arrShut_inboxReset (h : P.inbox = .reset) (zero : Bool) : (P.arrShut zero).inbox = .reset := by
  show P.inbox.clearDelivering = .reset
  rw [h]
  rfl

theorem Port.fence_inboxReset (h : P.inbox = .reset) : P.fence.inbox = .reset :=
  Port.arrShut_inboxReset (by simpa using h) false

theorem Port.doReset_inboxReset (h : P.inbox = .reset) : P.doReset.inbox = .reset :=
  Port.arrShut_inboxReset (by simpa using h) true

end Sys2Proof.Machine
end

