-- ==== Sys2Proof/Proofs/Closed.lean ====
section
/-!
SUPPORT. A part without custody (R10): what the shared operations find and leave where the state is closed, so that no command but
the load of a map brings custody of any kind.
-/
namespace Sys2Proof.Machine
open Sys2Proof

variable {s t : State}

/-! ### What a closed state holds -/

theorem State.closed.map (h : s.closed) : s.map = none := h.1

theorem State.closed.inbox (h : s.closed) (p : PortId) : (s.port p).inbox = .reset := by
  obtain ⟨_, _, _, _, _, _, _, _, inbox⟩ := h
  exact inbox p

theorem State.closed.records (h : s.closed) : s.records = [] := by
  obtain ⟨_, records, _⟩ := h
  exact records

theorem State.closed.live (h : s.closed) : s.yields.live = [] := by
  obtain ⟨_, _, _, _, live, _⟩ := h
  exact live

theorem State.closed.waiting (h : s.closed) : s.yields.waiting = [] := by
  obtain ⟨_, _, _, _, _, waiting, _⟩ := h
  exact waiting

theorem State.closed.jobs (h : s.closed) : s.mover.jobs = [] := by
  obtain ⟨_, _, _, _, _, _, _, jobs, _⟩ := h
  exact jobs

theorem State.closed.owned (h : s.closed) (b : BufId) : s.owned b = none := by
  simp [State.owned, State.record, h.records, Record.fresh]

theorem State.closed.delivering (h : s.closed) (p : PortId) : (s.port p).inbox.delivering = none := by
  rw [h.inbox]
  rfl

theorem State.closed.jobOf (h : s.closed) (c : ChanId) : s.mover.jobOf c = none := by
  unfold Mover.jobOf
  split
  · simp [h.jobs]
  · rfl

theorem State.closed.issuedEntry (h : s.closed) (n : TagId) : s.issuedEntry n = none := by
  simp [State.issuedEntry, YieldUnit.entry, h.live]

theorem State.closed.asksFor (h : s.closed) (p : PortId) : s.yields.asksFor p = [] := by
  simp [YieldUnit.asksFor, h.live, h.waiting]

theorem State.closed.sweepList (h : s.closed) (f : Record → Bool) : s.sweepList f = [] := by
  simp [State.sweepList, h.records, freeOrder]

/-! ### Writes that leave it closed -/

theorem State.closed.modPort (h : s.closed) {p : PortId} {f : Port → Port}
    (empty : (s.port p).inbox = .reset → (f (s.port p)).inbox = .reset) : (s.modPort p f).closed := by
  have inbox : ∀ i, ((s.modPort p f).port i).inbox = .reset := fun i => by
    rw [State.modPort_port]
    split
    · subst i
      exact empty (h.inbox p)
    · exact h.inbox i
  obtain ⟨map, records, pools, dest, live, waiting, reserved, jobs, _⟩ := h
  exact ⟨map, records, pools, dest, live, waiting, reserved, jobs, inbox⟩

theorem State.closed.mapPorts (h : s.closed) {f : PortId → Port → Port} (same : ∀ p P, (f p P).inbox = P.inbox) :
    (s.mapPorts f).closed := by
  have inbox : ∀ i, ((s.mapPorts f).port i).inbox = .reset := fun i => by
    rw [State.mapPorts_port, same]
    exact h.inbox i
  obtain ⟨map, records, pools, dest, live, waiting, reserved, jobs, _⟩ := h
  exact ⟨map, records, pools, dest, live, waiting, reserved, jobs, inbox⟩

theorem State.closed.modMover (h : s.closed) {f : Mover → Mover} (reserved : (f s.mover).reserved = s.mover.reserved)
    (jobs : (f s.mover).jobs = s.mover.jobs) : (s.modMover f).closed := by
  obtain ⟨map, records, pools, dest, live, waiting, hr, hj, inbox⟩ := h
  exact ⟨map, records, pools, dest, live, waiting, reserved.trans hr, jobs.trans hj, inbox⟩

theorem State.closed.modYields (h : s.closed) {f : YieldUnit → YieldUnit} (live : (f s.yields).live = [])
    (waiting : (f s.yields).waiting = []) : (s.modYields f).closed := by
  obtain ⟨map, records, pools, dest, _, _, reserved, jobs, inbox⟩ := h
  exact ⟨map, records, pools, dest, live, waiting, reserved, jobs, inbox⟩

theorem State.closed.raiseRecovery (h : s.closed) (e : Event) : (s.raiseRecovery e).closed :=
  h.mapPorts (fun p P => by split <;> rfl)

theorem State.closed.endTaken (h : s.closed) (p : PortId) (r : Result) : (s.endTaken p r).closed := h.modPort (by simp)

@[simp] theorem Mover.modChan_reserved (c : ChanId) (f : Chan → Chan) (m : Mover) : (m.modChan c f).reserved = m.reserved := by
  fin_cases c <;> rfl

/-- Ending the requests on a port touches neither the jobs nor the reserved places. -/
theorem Mover.endOn_jobs (p : PortId) (m : Mover) : (m.endOn p).reserved = m.reserved ∧ (m.endOn p).jobs = m.jobs := by
  unfold Mover.endOn
  induction chanIds generalizing m with
  | nil => exact ⟨rfl, rfl⟩
  | cons c l ih =>
    rw [List.foldl_cons]
    split
    · simpa using ih { m.modChan c (fun x => { x with req := none, data := [] }) with presented := m.presented.filter (· != c) }
    · exact ih m

theorem State.closed.endOn (h : s.closed) (p : PortId) : (s.modMover (Mover.endOn p)).closed :=
  h.modMover (Mover.endOn_jobs p s.mover).1 (Mover.endOn_jobs p s.mover).2

theorem State.closed.endFor (h : s.closed) (p : PortId) : (s.modYields (YieldUnit.endFor p)).closed := by
  refine h.modYields ?_ ?_ <;>
    simp [YieldUnit.endFor, YieldUnit.serveAll, YieldUnit.serve, h.live, h.waiting]

theorem State.closed.modEntry (h : s.closed) (n : TagId) (f : YieldEntry → YieldEntry) :
    (s.modYields (YieldUnit.modEntry n f)).closed :=
  h.modYields (by simp [YieldUnit.modEntry, h.live]) h.waiting

theorem State.closed.sweep (h : s.closed) (p : PortId) : (s.sweep p).closed := by
  obtain ⟨map, records, pools, dest, live, waiting, reserved, jobs, inbox⟩ := h
  have swept : s.sweep p = { s with freeCount := s.freeCount + 1 } := by
    simp [State.sweep, State.sweepList, State.sweepAsks, freeOrder, fourIds, records]
  rw [swept]
  exact ⟨map, records, pools, dest, live, waiting, reserved, jobs, inbox⟩

/-! ### Operations that find nothing to do -/

theorem State.closed.moveFail (h : s.closed) (c : ChanId) (r : MoveReason) : s.moveFail c r = s := by
  simp [State.moveFail, h.jobOf]

theorem State.closed.moveFails (h : s.closed) (l : List (ChanId × MoveReason)) : s.moveFails l = s := by
  unfold State.moveFails
  induction l with
  | nil => rfl
  | cons x l ih => rw [List.foldl_cons, h.moveFail, ih]

theorem State.closed.chanStep (h : s.closed) (c : ChanId) : s.chanStep c = none := by
  unfold State.chanStep
  split
  · simp [h.jobs]
  · simp [h.jobOf]

theorem State.closed.settle (h : s.closed) : s.settle = s := State.settle_rest ⟨h.chanStep 0, h.chanStep 1⟩

/-- With no yield and no job, an expired request brings the Custody Table nothing. -/
theorem State.closed.fence (h : s.closed) (p : PortId) {e : Expired} (he : ∀ a, e ≠ .yield a) : (s.fence p e).closed := by
  have quiet : ∀ {u : State}, u.closed → u.expiredOutcome e = u := fun {u} hu => by
    cases e with
    | ring => rfl
    | yield a => exact absurd rfl (he a)
    | burst c r => exact hu.moveFail c r
  have h1 : ((s.modPort p Port.fence).raiseRecovery .fenceNotice).closed :=
    (h.modPort Port.fence_inboxReset).raiseRecovery _
  have h2 := (h1.endFor p).endOn p
  unfold State.fence
  dsimp only
  rw [h.delivering]
  dsimp only [State.leaseAbandoned]
  rw [h1.asksFor, quiet h2]
  dsimp only [State.yieldOutcomes, List.foldl_nil]
  rw [h2.moveFails, h2.settle]
  exact h2

theorem State.closed.portReset (h : s.closed) (p : PortId) : (s.portReset p).closed := by
  have h1 : ((s.modPort p Port.doReset).sweep p).closed := (h.modPort Port.doReset_inboxReset).sweep p
  have h2 := (h1.endFor p).endOn p
  unfold State.portReset
  dsimp only
  rw [h.delivering]
  dsimp only [State.leaseAbandoned]
  rw [h1.asksFor]
  dsimp only [State.yieldOutcomes, List.foldl_nil]
  rw [h2.moveFails, h2.settle]
  exact h2

/-! ### The rows -/

theorem State.closed.controlWrite (h : s.closed) (p : PortId) (w : Word) : (s.controlWrite p w).closed := by
  unfold State.controlWrite
  split
  · exact h.portReset p
  · split
    · exact h.modPort (by simp)
    · exact h.modPort (by simp)

theorem State.closed.windowAccess (h : s.closed) (p : PortId) (a : WindowAccess) : (s.windowAccess p a).closed := by
  unfold State.windowAccess
  split
  · exact h.modPort (by simp)
  · split
    · unfold State.windowWrite
      split
      · exact h.controlWrite p _
      all_goals first | exact h | exact h.modPort (by simp)
    · exact h

theorem State.closed.dataResponse (h : s.closed) (p : PortId) (k : SlotId) {f : LinkReq → State → State}
    (answered : ∀ r, (f r s).closed) : (s.dataResponse p k f).closed := by
  unfold State.dataResponse
  split
  · exact answered _
  · exact h.modPort (by simp)

theorem State.closed.grant (h : s.closed) (p : PortId) (k : SlotId) (x : Source) : (s.grant p k x).closed := by
  have rotated : ∀ {u : State}, u.closed → (u.rotate p x).closed := fun {u} hu => by
    unfold State.rotate
    split
    · exact hu
    · exact hu.modPort (fun hi => hi)
  refine rotated ?_
  cases x with
  | yield => simpa [State.issueYield, YieldUnit.offer, h.live] using h
  | record => exact h.modPort (by simp)
  | move =>
    show (s.issueBurst p k).closed
    unfold State.issueBurst
    split
    · simpa [h.jobOf] using h
    · exact h

theorem State.closed.endBurst (h : s.closed) (p : PortId) (k : SlotId) (c : ChanId) : (s.endBurst p k c).closed :=
  (h.modPort (f := Port.setSlot k none) (by simp)).modMover (by simp) (by simp)

theorem State.closed.leaveWaiting (h : s.closed) (c : ChanId) : (s.leaveWaiting c).closed := by
  obtain ⟨map, records, pools, dest, live, waiting, reserved, jobs, inbox⟩ := h
  exact ⟨map, records, by simp [State.leaveWaiting, pools], dest, live, waiting, reserved, jobs, inbox⟩

end Sys2Proof.Machine
end

