-- ==== Sys2Proof/Proofs/Taking.lean ====
section
/-!
SUPPORT. The taking of a custody command (R12, R64, R65): every row of the Custody Table judges the oldest handed-over command, and
the map state and the port's state decide first.
-/
namespace Sys2Proof.Machine
open Sys2Proof

variable {s : State} {p : PortId}

/-- Each custody row judges the entry it takes: by checks and an effect of its own, behind the common ones. -/
theorem exec_custodyRow (op : CmdOp) (p : PortId) (s : State) :
    ∃ (u : HandleUse) (own : State → List Byte → List (Bool × ResultCode)) (accept : List Byte → State → State),
      exec (custodyRow op p) s = .next (s.taking p op (fun raw s => s.judge p u raw (own s raw) (accept raw))) := by
  cases op <;> exact ⟨_, _, _, rfl⟩

/-- The command taken is the oldest handed over, where it is the row's own (R50, R64). -/
theorem State.taking_of {op : CmdOp} {r : CmdRec} (f : List Byte → State → State) (hr : (s.port p).cmd.nextHanded = some r)
    (ho : entryOp r.raw = some op) : s.taking p op f = f r.raw s := by
  simp [State.taking, hr, ho]

section Judge
variable (u : HandleUse) (raw : List Byte) (own : List (Bool × ResultCode)) (accept : State → State)

/-- The first of the early checks that fails ends the command with handle "none" (R65). -/
theorem State.judge_early {c : ResultCode} (h : firstRefusal (s.earlyChecks p u raw) = some c) :
    s.judge p u raw own accept = s.endTaken p (Result.bare c) := by
  unfold State.judge
  rw [h]
  rfl

theorem State.judge_loading (h : s.mapState = .loading) : s.judge p u raw own accept = s.endTaken p (Result.bare .notReady) :=
  State.judge_early u raw own accept (by simp [State.earlyChecks, firstRefusal, h])

theorem State.judge_failed (h : s.mapState = .failed) : s.judge p u raw own accept = s.endTaken p (Result.bare .noMap) :=
  State.judge_early u raw own accept (by simp [State.earlyChecks, firstRefusal, h])

theorem State.judge_inactive (h : s.mapState = .ready) (ha : s.active p = false) :
    s.judge p u raw own accept = s.endTaken p (Result.bare .fenced) :=
  State.judge_early u raw own accept (by simp [State.earlyChecks, firstRefusal, h, ha])

end Judge

/-- Until the map is READY no custody row changes more than the commands of its port (R12). -/
theorem State.closed.custodyRow (h : s.closed) (hm : s.mapState ≠ .ready) (op : CmdOp) (p : PortId) :
    ∃ t, exec (custodyRow op p) s = .next t ∧ t.closed := by
  obtain ⟨u, own, accept, row⟩ := exec_custodyRow op p s
  refine ⟨_, row, ?_⟩
  unfold State.taking
  split
  · split
    · dsimp only
      cases hs : s.mapState with
      | loading => rw [State.judge_loading _ _ _ _ hs]; exact h.endTaken p _
      | failed => rw [State.judge_failed _ _ _ _ hs]; exact h.endTaken p _
      | ready => exact absurd hs hm
    · exact h
  · exact h

/-! ### The rows that are not the Custody Table's, with no custody in the part -/

/-- With no custody and the map not READY, no row but DEVICE_RESET and MAP_LOAD_END brings any custody (R10, R12). -/
theorem exec_closed (c : Instr) (h : s.closed) (hm : s.mapState ≠ .ready) (hr : c ≠ .deviceReset) (hl : ∀ rom, c ≠ .mapLoadEnd rom) :
    ∃ t, exec c s = .next t ∧ t.closed := by
  cases c
  case deviceReset => exact absurd rfl hr
  case mapLoadEnd rom => exact absurd rfl (hl rom)
  case linkLoss p => exact ⟨_, rfl, h.portReset p⟩
  case controlReset p w => exact ⟨_, rfl, h.controlWrite p w⟩
  case enable p w => exact ⟨_, rfl, h.controlWrite p w⟩
  case cmdStart p w => exact ⟨_, rfl, h.controlWrite p w⟩
  case cmdStop p w => exact ⟨_, rfl, h.controlWrite p w⟩
  case arrStart p w => exact ⟨_, rfl, h.controlWrite p w⟩
  case arrStop p w => exact ⟨_, rfl, h.controlWrite p w⟩
  case commandPollDemand => exact ⟨_, rfl, h.modPort (by simp)⟩
  case arrivalPollDemand => exact ⟨_, rfl, h.modPort (by simp)⟩
  case cringRegisterWrite => exact ⟨_, rfl, h.modPort (by simp)⟩
  case aringRegisterWrite => exact ⟨_, rfl, h.modPort (by simp)⟩
  case eventsWrite => exact ⟨_, rfl, h.modPort (by simp)⟩
  case maskWrite => exact ⟨_, rfl, h.modPort (by simp)⟩
  case attnReleaseEnd => exact ⟨_, rfl, h.modPort (by simp)⟩
  case faultWrite => exact ⟨_, rfl, h.modPort (by simp)⟩
  case badWindow p a => exact ⟨_, rfl, h.windowAccess p a⟩
  case arbiterGrant p k =>
    refine ⟨_, rfl, ?_⟩
    split
    · exact h.grant p k _
    · exact h
  case cmdLoadResponse p k data =>
    refine ⟨_, rfl, h.dataResponse p k (fun r => ?_)⟩
    split
    · exact h.modPort (by simp)
    · exact h
  case ringLoadError p k =>
    refine ⟨_, rfl, h.dataResponse p k (fun r => ?_)⟩
    split
    · exact h.modPort (by simp)
    · exact h
  case completionStoreAck p k =>
    refine ⟨_, rfl, h.dataResponse p k (fun r => ?_)⟩
    split
    · exact h.modPort (by simp)
    · exact h
  case completionStoreError p k =>
    refine ⟨_, rfl, h.dataResponse p k (fun r => ?_)⟩
    split
    · exact h.modPort (by simp)
    · exact h
  case ringRequestExpiry p k =>
    refine ⟨_, rfl, ?_⟩
    split
    · split
      · exact (h.modPort (by simp)).fence p (fun _ => nofun)
      · exact (h.modPort (by simp)).fence p (fun _ => nofun)
      · exact h
    · exact h
  case commandAutoPollExpiry =>
    refine ⟨_, rfl, ?_⟩
    split
    · exact h.modPort (by simp)
    · exact h
  case allocate p => exact h.custodyRow hm .allocate p
  case free p => exact h.custodyRow hm .free p
  case send p => exact h.custodyRow hm .send p
  case withdraw p => exact h.custodyRow hm .withdraw p
  case lend p => exact h.custodyRow hm .lend p
  case returnView p => exact h.custodyRow hm .ret p
  case recallViews p => exact h.custodyRow hm .recallViews p
  case reclaim p => exact h.custodyRow hm .reclaim p
  case unfence p => exact h.custodyRow hm .unfence p
  case query p => exact h.custodyRow hm .query p
  case marker p => exact h.custodyRow hm .marker p
  case arrivalLoadResponse p k data =>
    refine ⟨_, rfl, h.dataResponse p k (fun r => ?_)⟩
    split
    · exact h.modPort (fun hi => Port.arrLoadAck_inboxReset hi _ _ _ _)
    · exact h
  case arrivalStoreAck p k =>
    refine ⟨_, rfl, h.dataResponse p k (fun r => ?_)⟩
    split
    · have acked : (s.arrivalAck p k).closed := by
        unfold State.arrivalAck
        dsimp only
        rw [h.delivering]
        exact State.closed.modPort (h.modPort (fun hi => Port.arrStored_inboxReset hi k)) (by simp)
      rw [acked.settle]
      exact acked
    · exact h
  case arrivalRequestError p k =>
    refine ⟨_, rfl, h.dataResponse p k (fun r => ?_)⟩
    split
    · exact h.modPort (by simp)
    · have failed : ∀ a, (s.arrivalStoreFailed p k a).closed := fun a => by
        unfold State.arrivalStoreFailed
        rw [h.delivering]
        exact h.modPort (fun hi => Port.arrStoreFail_inboxReset hi k a)
      rw [(failed _).settle]
      exact failed _
    · exact h
  case arrivalRequestExpiry p k =>
    refine ⟨_, rfl, ?_⟩
    split
    · split
      · exact (h.modPort (by simp)).fence p (fun _ => nofun)
      · exact (h.modPort (by simp)).fence p (fun _ => nofun)
      · exact h
    · exact h
  case arrivalAutoPollExpiry =>
    refine ⟨_, rfl, ?_⟩
    split
    · exact h.modPort (by simp)
    · exact h
  case yieldResponse p n code =>
    refine ⟨_, rfl, ?_⟩
    have unmatched : s.matched p n = none := by
      cases hn : tagOf n <;> simp [State.matched, h.issuedEntry, hn]
    rw [unmatched]
    exact h.modPort (by simp)
  case yieldDeadlineExpiry n =>
    refine ⟨_, rfl, ?_⟩
    simpa [State.dueEntry, h.issuedEntry] using h
  case yieldFinalExpiry n =>
    refine ⟨_, rfl, ?_⟩
    simpa [State.dueEntry, h.issuedEntry] using h
  case unsolicitedDataResponse =>
    refine ⟨_, rfl, ?_⟩
    split
    · exact h
    · exact h.modPort (by simp)
  case burstReadResponse p k answer =>
    refine ⟨_, rfl, h.dataResponse p k (fun r => ?_)⟩
    split
    · rename_i c _ n
      have ended := h.endBurst p k c
      split
      · have kept : ∀ data, ((s.endBurst p k c).keepData c n data).closed := fun data => ended.modMover (by simp) (by simp)
        rw [(kept _).settle]
        exact kept _
      · rw [ended.moveFail, ended.settle]
        exact ended
    · exact h
  case burstWriteResponse p k code =>
    refine ⟨_, rfl, h.dataResponse p k (fun r => ?_)⟩
    split
    · rename_i c _ _
      have ended := h.endBurst p k c
      split
      · have written : (s.endBurst p k c).burstWritten c = s.endBurst p k c := by
          simp [State.burstWritten, ended.jobOf]
        rw [written, ended.settle]
        exact ended
      · rw [ended.moveFail, ended.settle]
        exact ended
    · exact h
  case burstExpiry c =>
    refine ⟨_, rfl, ?_⟩
    split
    · exact State.closed.fence ((h.endBurst _ _ _).modPort (by simp)) _ (fun _ => nofun)
    · exact h
  case landingWaitExpiry c =>
    refine ⟨_, rfl, ?_⟩
    split
    · have left : ((s.leaveWaiting c).modMover (Mover.modChan c (fun x => { x with deadline := none }))).closed :=
        (h.leaveWaiting c).modMover (by simp) (by simp)
      rw [left.moveFail, left.settle]
      exact left
    · exact h

end Sys2Proof.Machine
end

