-- ==== Sys2Proof/Proofs/MapSteps.lean ====
section
/-!
THEOREMS. The custody map along a step: a READY map stands until a device reset (R8, R9), custody fits the map state (R10, R13, R42), and
the map state decides every custody command (R12).
-/
open Sys2Proof Sys2Proof.Machine

namespace Sys2Proof.Machine

variable {s t : State}

/-- A step is the command at the front of the queue, run on the state with the queue's rest, or a tick. -/
theorem step_cases (h : step s = .next t) :
    (s.pending = [] ∧ t = s.tick) ∨ ∃ c rest, s.pending = c :: rest ∧ exec c { s with pending := rest } = .next t := by
  unfold step at h
  split at h
  · cases h
    exact .inl ⟨‹_›, rfl⟩
  · exact .inr ⟨_, _, ‹_›, h⟩

/-- Once the load has ended, no row but DEVICE_RESET writes the map, its state, or the numbers of records and pools (R8, R9). -/
theorem exec_fixedPart {c : Instr} (hr : c ≠ .deviceReset) (hl : s.mapState ≠ .loading) (h : exec c s = .next t) :
    t.fixedPart = s.fixedPart := by
  by_cases hm : ∃ rom, c = .mapLoadEnd rom
  · obtain ⟨rom, rfl⟩ := hm
    have same : exec (.mapLoadEnd rom) s = .next s := by
      show execMapLoadEnd rom s = _
      rw [execMapLoadEnd, if_neg hl]
    rw [same] at h
    cases h
    rfl
  · obtain ⟨t', h', writes⟩ := exec_any c s hr (fun rom e => hm ⟨rom, e⟩)
    rw [h'] at h
    cases h
    exact writes.fixedPart

/-! ### The end of a load -/

theorem buildPools_length (base : BufId) (es : List PoolEntry) : (buildPools base es).length = es.length := by
  induction es generalizing base with
  | nil => rfl
  | cons e es ih => simp [buildPools, ih]

/-- An accepted map has a record for each of its buffers and a pool state for each of its pools (R13, R42). -/
theorem State.mapReady_fitsMap (m : CustodyMap) (s : State) : (s.mapReady m).fitsMap :=
  ⟨m, rfl, List.length_replicate, buildPools_length 0 m.pools⟩

/-- A refused map leaves the part without custody (R10). -/
theorem State.closed.mapFailed (h : s.closed) (r : FailReason) : (s.mapFailed r).closed :=
  State.closed.mapPorts (s := { s with mapState := .failed, reason := r }) h (fun _ _ => rfl)

theorem State.closed.endLoad (h : s.closed) (rom : List Byte) : (s.endLoad rom).mapAgrees := by
  have refused : ∀ r, (s.mapFailed r).mapAgrees := fun r => ⟨nofun, fun _ => h.mapFailed r⟩
  unfold State.endLoad
  split
  · exact ⟨fun _ => State.mapReady_fitsMap _ s, fun hn => absurd rfl hn⟩
  · exact refused _
  · exact refused _
  · exact refused _

/-! ### Custody fits the map state -/

theorem State.mapAgrees.of_fixedPart (h : s.mapAgrees) (hs : s.mapState = .ready) (he : t.fixedPart = s.fixedPart) : t.mapAgrees := by
  simp only [State.fixedPart, Prod.mk.injEq] at he
  obtain ⟨state, -, map, -, -, records, pools⟩ := he
  refine ⟨fun _ => ?_, fun hn => absurd (state.trans hs) hn⟩
  obtain ⟨m, hm, hr, hp⟩ := h.1 hs
  exact ⟨m, map.trans hm, records.trans hr, pools.trans hp⟩

/-- Every row keeps custody fitting the map state. -/
theorem State.mapAgrees.exec {c : Instr} (h : s.mapAgrees) (he : exec c s = .next t) : t.mapAgrees := by
  by_cases hr : c = .deviceReset
  · subst hr
    cases he
    exact ⟨nofun, fun _ => ⟨rfl, rfl, rfl, rfl, rfl, rfl, rfl, rfl, fun p => by fin_cases p <;> rfl⟩⟩
  by_cases hs : s.mapState = .ready
  · exact h.of_fixedPart hs (exec_fixedPart hr (by simp [hs]) he)
  have closed := h.2 hs
  by_cases hm : ∃ rom, c = .mapLoadEnd rom
  · obtain ⟨rom, rfl⟩ := hm
    cases he
    split
    · exact closed.endLoad _
    · exact h
  · have other : ∀ rom, c ≠ .mapLoadEnd rom := fun rom e => hm ⟨rom, e⟩
    obtain ⟨t', ht', shut⟩ := exec_closed c closed hs hr other
    obtain ⟨t'', ht'', writes⟩ := exec_any c s hr other
    rw [he] at ht' ht''
    cases ht'
    cases ht''
    have state := writes.mapState
    exact ⟨fun hready => absurd (state.symm.trans hready) hs, fun _ => shut⟩

end Sys2Proof.Machine

/-- Settles O58: DEVICE_RESET and a refused load leave no custody, an accepted load builds as much as the map has, and every other row
keeps the numbers of a READY map and brings no custody to a part without one. -/
theorem stepKeepsCustodyFittingTheMap : Obligations.StepKeepsCustodyFittingTheMap := by
  intro s t h hstep
  obtain ⟨-, rfl⟩ | ⟨c, rest, -, hc⟩ := step_cases hstep
  · exact h
  · exact State.mapAgrees.exec (s := { s with pending := rest }) h hc

/-- Settles O59: no row but DEVICE_RESET writes the map or its state once the load has ended. -/
theorem stepKeepsAReadyMap : Obligations.StepKeepsAReadyMap := by
  intro s t hs hfront hstep
  obtain ⟨-, rfl⟩ | ⟨c, rest, hp, hc⟩ := step_cases hstep
  · exact ⟨hs, rfl⟩
  · have hr : c ≠ .deviceReset := fun e => hfront (by simp [hp, e])
    have fixed := exec_fixedPart hr (by simp [hs]) hc
    exact ⟨(congrArg Prod.fst fixed).trans hs, congrArg (·.2.2.1) fixed⟩

/-- Settles O33: each row judges the entry it takes, and the first of the common checks are those of the map state and the port's state. -/
theorem commandsWithoutAMapAreRefused : Obligations.CommandsWithoutAMapAreRefused := by
  intro s p op r hr ho
  obtain ⟨u, own, accept, row⟩ := exec_custodyRow op p s
  rw [row, State.taking_of _ hr ho]
  refine ⟨fun hm => ?_, fun hm => ?_, fun hm ha => ?_⟩
  · rw [State.judge_loading _ _ _ _ hm]
  · rw [State.judge_failed _ _ _ _ hm]
  · rw [State.judge_inactive _ _ _ _ hm ha]
end

