-- ==== Sys2Proof/Proofs/MapLoad.lean ====
section
/-!
THEOREMS. The load of the map (chapter 1): the stages in their order (R5, R6), what each outcome leaves (R8, R9, R11, R42), and where the
ids, addresses and free lists of the pools lie (R13, R14, R28, R42).
-/
open Sys2Proof Sys2Proof.Machine

namespace Sys2Proof.Machine

variable {s : State} {rom : List Byte}

/-! ### The stages, by the first that fails (R6) -/

theorem loadReason_unsigned (signed : rom32 rom 0 ≠ mapSignature) : loadReason rom = .noImage := if_pos signed

section Signed
variable (signed : rom32 rom 0 = mapSignature)
include signed

theorem loadReason_uncounted (counted : ¬(1 ≤ poolCount rom ∧ poolCount rom ≤ 16)) : loadReason rom = .badContent := by
  rw [loadReason, if_neg (not_not.mpr signed), if_pos (by omega)]

variable (counted : 1 ≤ poolCount rom ∧ poolCount rom ≤ 16)
include counted

theorem loadReason_unchecked (checked : ¬crcOk rom = true) : loadReason rom = .badCheck := by
  rw [loadReason, if_neg (not_not.mpr signed), if_neg (by omega), if_pos (by simpa using checked)]

variable (checked : crcOk rom = true)
include checked

theorem loadReason_badContent (good : ¬contentOk rom = true) : loadReason rom = .badContent := by
  rw [loadReason, if_neg (not_not.mpr signed), if_neg (by omega), if_neg (by simpa using checked), if_pos (by simpa using good)]

theorem loadReason_passed (good : contentOk rom = true) : loadReason rom = .none := by
  rw [loadReason, if_neg (not_not.mpr signed), if_neg (by omega), if_neg (by simpa using checked), if_neg (by simpa using good)]

end Signed

/-! ### The end of a load, by its outcome -/

/-- While the map is LOADING the load is judged by the ROM (R5, R6). -/
theorem exec_mapLoadEnd (rom : List Byte) (h : s.mapState = .loading) : exec (.mapLoadEnd rom) s = .next (s.endLoad rom) := by
  show execMapLoadEnd rom s = _
  rw [execMapLoadEnd, if_pos h, endLoad_romClocked]

theorem State.endLoad_accepted (s : State) (h : loadReason rom = .none) : s.endLoad rom = s.mapReady (romMap rom) := by
  unfold State.endLoad
  rw [h]

theorem State.endLoad_refused (s : State) (h : loadReason rom ≠ .none) : s.endLoad rom = s.mapFailed (loadReason rom) := by
  unfold State.endLoad
  cases hr : loadReason rom
  case none => exact absurd hr h
  all_goals rfl

/-- The reason in the state after a load is that of the stages, and the map is READY exactly where there is none (R6, R8). -/
theorem State.endLoad_reason (s : State) (rom : List Byte) :
    (s.endLoad rom).reason = loadReason rom ∧ (s.endLoad rom).mapState = if loadReason rom = .none then .ready else .failed := by
  by_cases h : loadReason rom = .none
  · rw [State.endLoad_accepted s h, h]
    exact ⟨rfl, rfl⟩
  · rw [State.endLoad_refused s h, if_neg h]
    exact ⟨rfl, rfl⟩

/-- A load that is refused for a reason leaves the map FAILED with it. -/
theorem State.endLoad_failed (s : State) {r : FailReason} (h : loadReason rom = r) (hr : r ≠ .none) :
    (s.endLoad rom).mapState = .failed ∧ (s.endLoad rom).reason = r := by
  obtain ⟨reason, state⟩ := s.endLoad_reason rom
  rw [h] at reason state
  rw [if_neg hr] at state
  exact ⟨state, reason⟩

/-- Where the read ends: behind the header, unless the signature and the pool count are right (R5). -/
theorem romReadEnd_cases {k : Nat} (h : k < romReadEnd rom) :
    k < 16 ∨ rom32 rom 0 = mapSignature ∧ (1 ≤ poolCount rom ∧ poolCount rom ≤ 16) ∧ k < imageLength (poolCount rom) := by
  unfold romReadEnd at h
  split at h
  · exact .inl h
  · rename_i right
    push Not at right
    obtain ⟨signed, nonzero, few⟩ := right
    exact .inr ⟨signed, ⟨by omega, few⟩, h⟩

/-! ### A port at the passage to READY -/

/-- What a port has of the passage to READY: a fresh rotation (R162) and the intervals of its suspended processes (R9). -/
theorem Port.atReady_eq (now : Nat) (e : PortEntry) (P : Port) : P.atReady now e = { P with
    rotation := sourceOrder
    cmd := if P.cmd.state = .suspended ∧ e.cmdPoll ≠ 0 then { P.cmd with deadline := some (now + e.cmdPoll) } else P.cmd
    arr := if P.arr.state = .suspended ∧ e.arrPoll ≠ 0 then { P.arr with deadline := some (now + e.arrPoll) } else P.arr } := by
  unfold Port.atReady
  dsimp only
  by_cases hc : P.cmd.state = .suspended ∧ e.cmdPoll ≠ 0 <;> by_cases ha : P.arr.state = .suspended ∧ e.arrPoll ≠ 0 <;>
    simp [hc, ha, Port.modCmd, Port.modArr]

/-! ### Ids, addresses and free lists (R13, R14, R42) -/

/-- The number of buffers of the pools before pool `q`: its first id (R13). -/
def firstId (es : List PoolEntry) (q : PoolId) : BufId := ((es.take q).map PoolEntry.count).sum

@[simp] theorem firstId_zero (es : List PoolEntry) : firstId es 0 = 0 := rfl

@[simp] theorem firstId_succ (e : PoolEntry) (es : List PoolEntry) (q : PoolId) : firstId (e :: es) (q + 1) = e.count + firstId es q := by
  simp [firstId]

/-- The id that is `k` places behind the ids before pool `q` is index `k` of pool `q` (R13). -/
theorem poolIndex_firstId {es : List PoolEntry} {q : PoolId} {e : PoolEntry} {k : Nat} (hq : es[q]? = some e) (hk : k < e.count) :
    poolIndex es (firstId es q + k) = q ∧ indexInPool es (firstId es q + k) = k := by
  induction es generalizing q with
  | nil => simp at hq
  | cons x es ih =>
    cases q with
    | zero =>
      obtain rfl : x = e := by simpa using hq
      simp [poolIndex, indexInPool, hk]
    | succ q =>
      obtain ⟨pool, index⟩ := ih (by simpa using hq)
      have behind : ¬ x.count + firstId es q + k < x.count := by omega
      have rest : x.count + firstId es q + k - x.count = firstId es q + k := by omega
      simp [poolIndex, indexInPool, behind, rest, pool, index]

/-- Each pool begins with its own ids on its free list, in ascending order, with nothing waiting and nothing charged (R30, R42). -/
theorem buildPools_getElem? {es : List PoolEntry} {q : PoolId} {e : PoolEntry} (base : BufId) (hq : es[q]? = some e) :
    (buildPools base es)[q]? =
      some { free := (List.range e.count).map (· + (base + firstId es q)), waiting := [], charge := .fill 0 } := by
  induction es generalizing base q with
  | nil => simp at hq
  | cons x es ih =>
    cases q with
    | zero =>
      obtain rfl : x = e := by simpa using hq
      rfl
    | succ q =>
      have next := ih (base + x.count) (by simpa using hq)
      simpa [buildPools, Nat.add_assoc] using next

/-- A handle whose id is at or beyond the number of records names no buffer (R28). -/
theorem State.handleOk_beyond {w : Word} (h : s.records.length ≤ handleId w) : s.handleOk w = false := by
  simp [State.handleOk, not_lt.mpr h]

end Sys2Proof.Machine

/-- Settles O5: the load ends as it does on any ROM with the same bytes up to the end of the read, and the reason is that of the first
stage that fails. -/
theorem mapLoadStagesInOrder : Obligations.MapLoadStagesInOrder := by
  intro s rom hs n l signed counted checked good
  refine ⟨fun other same => ?_, s.endLoad rom, exec_mapLoadEnd rom hs, ?_, ?_⟩
  · rw [exec_mapLoadEnd other hs, exec_mapLoadEnd rom hs, endLoad_congr (fun k hk => same k (romReadEnd_cases hk))]
  · obtain ⟨-, state⟩ := s.endLoad_reason rom
    unfold State.spiRead
    rw [state]
    split <;> rfl
  have crc : crcOk rom = true ↔ checked := beq_iff_eq
  refine ⟨fun h1 => ?_, fun h1 h2 => ?_, fun h1 h2 h3 => ?_, fun h1 h2 h3 h4 => ?_, fun h1 h2 h3 h4 => ?_⟩
  · exact s.endLoad_failed (loadReason_unsigned h1) nofun
  · exact s.endLoad_failed (loadReason_uncounted h1 h2) nofun
  · exact s.endLoad_failed (loadReason_unchecked h1 h2 (fun h => h3 (crc.mp h))) nofun
  · exact s.endLoad_failed (loadReason_badContent h1 h2 (crc.mpr h3) h4) nofun
  · rw [State.endLoad_accepted s (loadReason_passed h1 h2 (crc.mpr h3) h4)]
    exact ⟨rfl, rfl⟩

/-- Settles O6, by the outcome of the load: READY hands out the map, FAILED leaves the reason and MAP_DONE. -/
theorem mapLoadEndHandsOutTheMap : Obligations.MapLoadEndHandsOutTheMap := by
  refine ⟨fun s rom hs passed => ?_, fun s rom => ⟨fun hs failed => ?_, fun hs => ?_⟩⟩
  · intro m values
    refine ⟨s.mapReady m, ?_, rfl, rfl, rfl, rfl, rfl, fun p => rfl, fun p => ?_, rfl, rfl, rfl, rfl, rfl, rfl⟩
    · rw [exec_mapLoadEnd rom hs, State.endLoad_accepted s passed]
    · have ready : (s.mapReady m).port p =
          if (m.ports.get p).present then ((s.port p).atReady s.now (values p)).raise .mapDone
          else (s.port p).atReady s.now (values p) := State.mapPorts_port _ _ p
      rw [ready, Port.atReady_eq]
      split <;> rfl
  · rw [exec_mapLoadEnd rom hs, State.endLoad_refused s failed]
    rfl
  · show execMapLoadEnd rom s = _
    rw [execMapLoadEnd, if_neg hs]

/-- Settles O7, by induction on the pools of the map. -/
theorem bufferIdsFollowThePools : Obligations.BufferIdsFollowThePools := by
  intro s m hm hlen
  have map : s.theMap = m := by simp [State.theMap, hm]
  refine ⟨fun q e k hq hk => ?_, fun w hw => State.handleOk_beyond (hlen.trans_le hw), fun q e hq => ?_⟩
  · obtain ⟨pool, index⟩ := poolIndex_firstId hq hk
    have poolOf : s.poolOf (firstId m.pools q + k) = q := by rw [State.poolOf, map, pool]
    refine ⟨poolOf, ?_⟩
    show s.bufAddr (firstId m.pools q + k) = _
    have entry : s.entryOf (firstId m.pools q + k) = e := by
      rw [State.entryOf, poolOf, State.poolEntry, map, List.getD_eq_getElem?_getD, hq, Option.getD_some]
    rw [State.bufAddr, entry, map, index]
    rfl
  · refine ⟨_, buildPools_getElem? 0 hq, rfl, rfl, ?_⟩
    simp [firstId]
end

