-- ==== Sys2Proof/Proofs/MoverTurns.lean ====
section
/-!
SUPPORT. Two writes of one part of the state as one, writes that put back what was there, and the Mover with one channel and the job behind
all others given: what the operations on that channel and that job make of it, and which channels then have nothing to do.
-/
namespace Sys2Proof.Machine
open Sys2Proof

variable {s t : State}

/-! ### Writes of one part, one after another -/

/-- Two changes of a record that agree on what the record holds are one. -/
theorem State.modRecord_congr {b : BufId} {f g : Record → Record} (h : f (s.record b) = g (s.record b)) :
    s.modRecord b f = s.modRecord b g := by
  have same : s.records.modify b f = s.records.modify b g := by
    refine List.ext_getElem? (fun i => ?_)
    rw [List.getElem?_modify, List.getElem?_modify]
    by_cases hi : b = i
    · subst hi
      cases hr : s.records[b]? with
      | none => rfl
      | some r =>
        have record : s.record b = r := by rw [State.record, List.getD_eq_getElem?_getD, hr, Option.getD_some]
        rw [record] at h
        simp [h]
    · simp [hi]
  rw [State.modRecord, State.modRecord, same]

theorem State.modRecord_id (b : BufId) (s : State) : s.modRecord b (fun r => r) = s := by
  rw [State.modRecord, show (fun r : Record => r) = id from rfl, List.modify_id]

theorem State.modRecord_modRecord (b : BufId) (f g : Record → Record) (s : State) :
    (s.modRecord b f).modRecord b g = s.modRecord b (fun r => g (f r)) := by
  simp only [State.modRecord, List.modify_modify_eq]
  rfl

theorem State.modRecord_comm {a b : BufId} (h : a ≠ b) (f g : Record → Record) (s : State) :
    (s.modRecord a f).modRecord b g = (s.modRecord b g).modRecord a f := by
  simp only [State.modRecord, List.modify_modify_ne _ _ _ h]

theorem State.setCustody_setCustody (b : BufId) (c e : Custody) (s : State) : (s.setCustody b c).setCustody b e = s.setCustody b e :=
  State.modRecord_modRecord b _ _ s

/-- Giving a buffer the custody it has changes nothing. -/
theorem State.setCustody_same {b : BufId} {c : Custody} (h : (s.record b).custody = c) : s.setCustody b c = s := by
  have same : s.setCustody b c = s.modRecord b (fun r => r) := State.modRecord_congr (by rw [← h])
  rw [same, State.modRecord_id]

theorem State.modPool_modPool (q : PoolId) (f g : PoolState → PoolState) (s : State) :
    (s.modPool q f).modPool q g = s.modPool q (fun x => g (f x)) := by
  simp only [State.modPool, List.modify_modify_eq]
  rfl

theorem State.modPool_id (q : PoolId) (s : State) : s.modPool q (fun x => x) = s := by
  rw [State.modPool, show (fun x : PoolState => x) = id from rfl, List.modify_id]

theorem Four.set_comm {α : Type} (x : Four α) {i j : Fin 4} (h : i ≠ j) (a b : α) : (x.set i a).set j b = (x.set j b).set i a := by
  fin_cases i <;> fin_cases j <;> simp_all [Four.set]

theorem State.modPort_comm {p d : PortId} (h : p ≠ d) (f g : Port → Port) (s : State) :
    (s.modPort p f).modPort d g = (s.modPort d g).modPort p f := by
  simp only [State.modPort, Four.get_set_ne _ _ h, Four.get_set_ne _ _ h.symm, Four.set_comm _ h]

theorem State.modPort_id {p : PortId} {f : Port → Port} (h : f (s.port p) = s.port p) : s.modPort p f = s := by
  rw [State.modPort, show f (s.ports.get p) = s.ports.get p from h, Four.set_get]

theorem State.modMover_congr {f g : Mover → Mover} (h : f s.mover = g s.mover) : s.modMover f = s.modMover g := by
  rw [State.modMover, h]
  rfl

/-! ### A reservation taken and given back -/

/-- A reservation taken at the tail is the one released, where there was none of the buffer (R96). -/
theorem Inbox.release_reserve {k : ResKind} {b : BufId} {x : Inbox} (h : ∀ r ∈ x.reservations, r.buf ≠ b) :
    (x.reserve k b).release k b = x := by
  have removed : removeFirst (fun r : Reservation => r.kind == k && r.buf == b) (x.reservations ++ [{ kind := k, buf := b }]) =
      x.reservations := removeFirst_last (fun r hr => by simp [h r hr]) (by simp)
  rw [Inbox.release, Inbox.reserve, removed]

/-- Of a destination reservation at the tail, where there was none of the buffer, closing it takes the charge back (R32, R33). -/
theorem State.closeDest_last {l : List DestReservation} {b : BufId} {p : PortId} {q : PoolId}
    (h : s.destRes = l ++ [{ buf := b, port := p, pool := q }]) (hl : ∀ x ∈ l, x.buf ≠ b) :
    s.closeDest b = { s.chargeDown p q with destRes := l } := by
  have taken : extractFirst (fun r : DestReservation => r.buf == b) s.destRes = some ({ buf := b, port := p, pool := q }, l) := by
    rw [h]
    exact extractFirst_last (fun x hx => by simpa using hl x hx) (by simp)
  rw [State.closeDest, taken]

theorem State.convertDest_last {l : List DestReservation} {b : BufId} {p : PortId} {q : PoolId}
    (h : s.destRes = l ++ [{ buf := b, port := p, pool := q }]) (hl : ∀ x ∈ l, x.buf ≠ b) :
    s.convertDest b = { s with destRes := l } := by
  have removed : removeFirst (fun r : DestReservation => r.buf == b) s.destRes = l := by
    rw [h]
    exact removeFirst_last (fun x hx => by simpa using hl x hx) (by simp)
  rw [State.convertDest, removed]

/-! ### A channel and the last job -/

/-- The Mover with channel `c` as given and one more job behind all others. -/
def Mover.withJob (c : ChanId) (x : Chan) (k : Job) (m : Mover) : Mover := { m.modChan c (fun _ => x) with jobs := m.jobs ++ [k] }

/-- The Mover with channel `c` idle and no request of it presented: as a job's end leaves it (R144, R145). -/
def Mover.idled (c : ChanId) (m : Mover) : Mover :=
  { m.modChan c (fun _ => .idle) with presented := m.presented.filter (· != c) }

section WithJob
variable (c : ChanId) (x : Chan) (k : Job) (m : Mover)

@[simp] theorem Mover.withJob_jobs : (m.withJob c x k).jobs = m.jobs ++ [k] := rfl
@[simp] theorem Mover.idled_jobs : (m.idled c).jobs = m.jobs := Mover.modChan_jobs c _ m

@[simp] theorem Mover.withJob_chan : (m.withJob c x k).chan c = x := by
  fin_cases c <;> rfl

theorem Mover.withJob_chan_ne {e : ChanId} (h : e ≠ c) : (m.withJob c x k).chan e = m.chan e :=
  Mover.modChan_ne h (fun _ => x) m

theorem Mover.withJob_modChan (f : Chan → Chan) : (m.withJob c x k).modChan c f = m.withJob c (f x) k := by
  fin_cases c <;> rfl

/-- A job that joins the queue is a job behind all others, with any channel as it is. -/
theorem Mover.addJob_eq (h : m.chan c = x) : { m with jobs := m.jobs ++ [k] } = m.withJob c x k := by
  subst h
  fin_cases c <;> rfl

theorem Mover.withJob_modJob (f : Job → Job) (new : ∀ j ∈ m.jobs, j.source ≠ k.source) :
    (m.withJob c x k).modJob k.source f = m.withJob c x (f k) := by
  rw [Mover.modJob, Mover.withJob_jobs, jobs_map_last f new rfl]
  rfl

theorem Mover.withJob_jobOf (serves : x.serving = some k.source) (new : ∀ j ∈ m.jobs, j.source ≠ k.source) :
    (m.withJob c x k).jobOf c = some k := by
  rw [Mover.jobOf, Mover.withJob_chan, serves]
  exact jobs_find_last new rfl

/-- The last job's end leaves the Mover as it was, channel `c` idle. -/
theorem State.dropJob_withJob (u : State) (new : ∀ j ∈ u.mover.jobs, j.source ≠ k.source) :
    (u.modMover (Mover.withJob c x k)).dropJob c k.source = u.modMover (Mover.idled c) := by
  have dropped : (u.mover.jobs ++ [k]).filter (fun j => j.source != k.source) = u.mover.jobs := jobs_filter_last new rfl
  have left : { (u.mover.withJob c x k).modChan c (fun _ => .idle) with
      jobs := (u.mover.withJob c x k).jobs.filter (fun j => j.source != k.source)
      presented := (u.mover.withJob c x k).presented.filter (· != c) } = u.mover.idled c := by
    rw [Mover.withJob_jobs, dropped]
    fin_cases c <;> rfl
  unfold State.dropJob State.modMover
  dsimp only
  rw [left]

end WithJob

/-! ### Channels with nothing to do beside the last job -/

section Rest
variable {c e : ChanId} {x : Chan} {k : Job} {b : BufId} {l : List ChanId}

/-- Another channel that was at rest stays so, unless it is idle and the last job waits. -/
theorem State.withJob_chanStep_ne (rest : s.moverAtRest) (ht : t.mover = { s.mover.withJob c x k with presented := l }) (he : e ≠ c)
    (hb : (s.mover.chan e).serving ≠ some k.source) (hw : (s.mover.chan e).serving = none → k.state ≠ .waiting) :
    t.chanStep e = none := by
  refine State.chanStep_other (b := k.source) [k] ?_ (by rw [ht]; rfl) (by simp) hb (by simpa using hw)
    (State.moverAtRest_iff.mp rest e)
  rw [ht]
  exact Mover.withJob_chan_ne c x k _ he

/-- The Mover is at rest once the last job neither waits nor has its channel anything to do for it. -/
theorem State.withJob_atRest (rest : s.moverAtRest) (ht : t.mover = { s.mover.withJob c x k with presented := l })
    (hb : ∀ e, (s.mover.chan e).serving ≠ some k.source) (hw : k.state ≠ .waiting) (own : t.chanStep c = none) : t.moverAtRest := by
  refine State.moverAtRest_iff.mpr (fun e => ?_)
  by_cases he : e = c
  · subst he
    exact own
  · exact State.withJob_chanStep_ne rest ht he (hb e) (fun _ => hw)

/-- With its job gone and channel `c`, idle before, idle again, the Mover is at rest. -/
theorem State.idled_atRest (rest : s.moverAtRest) (ht : t.mover = s.mover.idled c) (idle : s.mover.chan c = .idle)
    (hb : ∀ e, (s.mover.chan e).serving ≠ some b) : t.moverAtRest := by
  refine State.moverAtRest_iff.mpr (fun e => State.chanStep_other (b := b) [] ?_ (by rw [ht]; simp) (by simp) (hb e) (by simp)
    (State.moverAtRest_iff.mp rest e))
  rw [ht]
  by_cases he : e = c
  · subst he
    exact (Mover.modChan_same e _ s.mover).trans idle.symm
  · exact Mover.modChan_ne he _ s.mover

/-- Channels that serve jobs go on with them when another job joins the queue (R134). -/
theorem State.addJob_atRest (rest : s.moverAtRest) (serve : ∀ e, (s.mover.jobOf e).isSome = true)
    (chans : ∀ e, t.mover.chan e = s.mover.chan e) (jobs : t.mover.jobs = s.mover.jobs ++ [k]) : t.moverAtRest := by
  refine State.moverAtRest_iff.mpr (fun e => ?_)
  have still := State.moverAtRest_iff.mp rest e
  obtain ⟨j, hj⟩ := Option.isSome_iff_exists.mp (serve e)
  unfold Mover.jobOf at hj
  split at hj
  · rename_i b hs
    have found : t.mover.jobOf e = some j := by
      rw [Mover.jobOf, chans, hs]
      dsimp only
      rw [jobs, List.find?_append, hj, Option.some_or]
    have found' : s.mover.jobOf e = some j := by
      rw [Mover.jobOf, hs]
      exact hj
    unfold State.chanStep at still ⊢
    rw [hs, found'] at still
    rw [chans, hs, found]
    dsimp only at still ⊢
    split at still
    · cases still
    · rename_i hn
      rw [if_neg hn]
  · cases hj

end Rest

end Sys2Proof.Machine
end

