-- ==== Sys2Proof/Proofs/LastJob.lean ====
section
/-!
SUPPORT. A command with a current handle (R65), a yield asked of the issuer (R114), and the Mover's work on the job behind all others, one
operation each (R134 to R137, R139, R144, R145).
-/
namespace Sys2Proof.Machine
open Sys2Proof

variable {s u : State} {p d : PortId} {raw : List Byte}

/-! ### A command with a current handle -/

theorem State.handleCurrent.early (current : s.handleCurrent raw) (ready : s.mapState = .ready) (active : s.active p = true) :
    firstRefusal (s.earlyChecks p .full raw) = none := by
  obtain ⟨ok, -⟩ := current
  simp [State.earlyChecks, firstRefusal, ready, active, ok]

theorem State.handleCurrent.stale (current : s.handleCurrent raw) (own : List (Bool × ResultCode)) :
    firstRefusal (s.staleCheck .full raw ++ own) = firstRefusal own := by
  obtain ⟨-, gen⟩ := current
  simp [State.staleCheck, firstRefusal, gen]

/-- The first own check that fails ends the command with the buffer's handle (R65). -/
theorem State.judge_refused (current : s.handleCurrent raw) (ready : s.mapState = .ready) (active : s.active p = true)
    {own : List (Bool × ResultCode)} {accept : State → State} {c : ResultCode} (refused : firstRefusal own = some c) :
    s.judge p .full raw own accept = s.endTakenOn p (entryBuf raw) c := by
  unfold State.judge
  rw [current.early ready active, current.stale, refused]
  rfl

/-- Where every check passes, the command is accepted (R65). -/
theorem State.judge_accepted (current : s.handleCurrent raw) (ready : s.mapState = .ready) (active : s.active p = true)
    {own : List (Bool × ResultCode)} {accept : State → State} (passed : firstRefusal own = none) :
    s.judge p .full raw own accept = accept s := by
  unfold State.judge
  rw [current.early ready active, current.stale, passed]

/-- A check that does not fail leaves the result to the next. -/
theorem firstRefusal_cons_false {fails : Bool} (h : fails = false) (c : ResultCode) (l : List (Bool × ResultCode)) :
    firstRefusal ((fails, c) :: l) = firstRefusal l := by
  rw [h]
  rfl

theorem firstRefusal_cons_true {fails : Bool} (h : fails = true) (c : ResultCode) (l : List (Bool × ResultCode)) :
    firstRefusal ((fails, c) :: l) = some c := by
  rw [h]
  rfl

/-- The port field as a port. -/
theorem entryPortId_of (h : entryPort raw = d.val) : entryPortId raw = some d := by
  rw [entryPortId, dif_pos (by omega)]
  simp [h]

/-! ### A yield asked of the issuer (R114) -/

theorem State.ask_asked {a : YieldAsk} (caching : u.caching a.target = true) (active : u.active a.target = true) :
    u.ask a = u.modYields (YieldUnit.take a) := by
  have asked : u.askOutcome a.target = none := by simp [State.askOutcome, caching, State.active_state active]
  rw [State.ask, asked]
  rfl

theorem State.ask_skipped {a : YieldAsk} (caching : u.caching a.target = false) : u.ask a = u.yieldOutcome a .acked := by
  have skipped : u.askOutcome a.target = some .acked := by simp [State.askOutcome, caching]
  rw [State.ask, skipped]

theorem State.beginOp_of {b : BufId} {o : Owned} (h : (u.record b).custody = .owned o) (op : HolderOp) :
    u.beginOp b op = u.setCustody b (.owned { o with op := op }) := by
  rw [State.beginOp, State.owned_of h]

/-- The acknowledged DROP of a SEND out of reach lets its job in (R75). -/
theorem State.sendOutcome_across {b : BufId} {o : Owned} (owned : u.owned b = some o) (op : o.op = .send d)
    (reach : (u.entryOf b).reach.get d = false) :
    u.sendOutcome b .acked = u.enterJob b o.holder d o.orphan (u.waitingEntry o.holder .send b) := by
  simp [State.sendOutcome, owned, op, reach]

/-- The command just accepted is the waiting one on its buffer (R64). -/
theorem State.waitingEntry_accepted {op : CmdOp} {b : BufId} {r : CmdRec} (hr : (s.port p).cmd.nextHanded = some r)
    (ho : entryOp r.raw = some op) (hb : entryBuf r.raw = b) (none' : ∀ x ∈ (s.port p).cmd.outstanding, x.isWaiting op b = false) :
    (s.acceptTaken p).waitingEntry p op b = r.raw := by
  have found : ((s.acceptTaken p).port p).cmd.outstanding.find? (CmdRec.isWaiting op b) = some { r with phase := .waiting } := by
    rw [State.acceptTaken, State.modPort_port_same]
    exact acceptFirst_find hr none' ho hb
  rw [State.waitingEntry, found]

/-! ### The work on the last job -/

/-- A channel serving the job of `b`, its burst store empty. -/
def Chan.serve (b : BufId) (req : Option BurstReq) (deadline : Option Nat) : Chan :=
  { serving := some b, data := [], req := req, deadline := deadline }

/-- The request of a burst's read through this home port, presented (R139). -/
def BurstReq.read (port : PortId) : BurstReq := { write := false, port := port, slot := none }

/-- A job that a channel has taken stands LANDING (R133, R134). -/
def Job.taken (k : Job) : Job := { k with state := .landing }

/-- A job with its landing buffer is COPYING (R133, R136). -/
def Job.copyTo (l : BufId) (k : Job) : Job := { k with landing := some l, state := .copying }

section LastJob
variable {c : ChanId} {k : Job}

/-- An idle channel finds the last job where no other waits (R134). -/
theorem State.chanStep_take (rest : s.moverAtRest) (idle : s.mover.chan c = .idle) (hu : u.mover = s.mover.withJob c .idle k)
    (waits : k.state = .waiting) : u.chanStep c = some (u.takeJob c k) := by
  have others := State.none_waiting (by rw [idle]; rfl) (State.moverAtRest_iff.mp rest c)
  have found : u.mover.jobs.find? (fun j => j.state == .waiting) = some k := by
    rw [hu, Mover.withJob_jobs, List.find?_append, others, Option.none_or]
    simp [waits]
  have free : (u.mover.chan c).serving = none := by
    rw [hu, Mover.withJob_chan]
    rfl
  rw [State.chanStep, free, found]

/-- A copying channel without a request goes on with its job (R135). -/
theorem State.chanStep_proceed {x : Chan} (hu : u.mover = s.mover.withJob c x k) (new : ∀ j ∈ s.mover.jobs, j.source ≠ k.source)
    (serves : x.serving = some k.source) (copying : k.state = .copying) (req : x.req = none) :
    u.chanStep c = some (u.proceed c k) := by
  have chan : u.mover.chan c = x := by rw [hu, Mover.withJob_chan]
  have job : u.mover.jobOf c = some k := by rw [hu, Mover.withJob_jobOf c x k _ serves new]
  rw [State.chanStep, chan, serves, job]
  dsimp only
  rw [if_pos ⟨copying, req⟩]

/-- A channel with a request waits for its answer (R135). -/
theorem State.chanStep_presented {b : BufId} (serves : (u.mover.chan c).serving = some b) (req : (u.mover.chan c).req ≠ none) :
    u.chanStep c = none := by
  unfold State.chanStep
  rw [serves]
  dsimp only
  split
  · rw [if_neg (fun h => req h.2)]
  · rfl

/-- With no FREE landing buffer the channel begins a landing wait (R137). -/
theorem State.askLanding_wait {x : Chan} {q : PoolId} (free : (u.pool q).free = []) :
    (u.modMover (Mover.withJob c x k)).askLanding c q = (u.modPool q (fun P => { P with waiting := P.waiting ++ [c] })).modMover
      (Mover.withJob c { x with deadline := some (u.now + u.theMap.landingWait) } k) := by
  rw [State.askLanding, State.modMover_pool, free]
  have timed := Mover.withJob_modChan c x k u.mover (fun x => { x with deadline := some (u.now + u.theMap.landingWait) })
  exact congrArg (fun m => { u.modPool q (fun P => { P with waiting := P.waiting ++ [c] }) with mover := m }) timed

/-- The first burst's read is presented through the source pool's home port (R135, R139). -/
theorem State.proceed_read {x : Chan} {i : PortId} (data : x.data = []) (left : ¬ k.length ≤ k.progress)
    (home : (u.poolEntry k.srcPool).home = i) (active : u.active i = true) :
    (u.modMover (Mover.withJob c x k)).proceed c k = u.modMover (fun m =>
      { m.withJob c { x with req := some (.read i) } k with
        presented := m.presented ++ [c] }) := by
  have empty : ((u.modMover (Mover.withJob c x k)).mover.chan c).data = [] := by
    rw [State.modMover_mover, Mover.withJob_chan, data]
  rw [State.proceed, if_neg left, if_neg (not_not.mpr empty), State.presentBurst, State.modMover_active, State.modMover_poolEntry,
    home, if_pos active]
  unfold State.modMover
  dsimp only
  rw [Mover.withJob_modChan]
  fin_cases c <;> rfl

/-- Where that port is not ACTIVE the job fails, source error (R139). -/
theorem State.proceed_inactive {x : Chan} {i : PortId} (data : x.data = []) (left : ¬ k.length ≤ k.progress)
    (home : (u.poolEntry k.srcPool).home = i) (inactive : u.active i = false) :
    (u.modMover (Mover.withJob c x k)).proceed c k = (u.modMover (Mover.withJob c x k)).moveFail c .sourceError := by
  have empty : ((u.modMover (Mover.withJob c x k)).mover.chan c).data = [] := by
    rw [State.modMover_mover, Mover.withJob_chan, data]
  rw [State.proceed, if_neg left, if_neg (not_not.mpr empty), State.presentBurst, State.modMover_active, State.modMover_poolEntry,
    home, if_neg (by rw [inactive]; nofun)]
  rfl

variable (new : ∀ j ∈ u.mover.jobs, j.source ≠ k.source)
include new

/-- The taken job stands LANDING, its channel serving it (R134). -/
theorem State.takeJob_serves : (u.modMover (Mover.withJob c .idle k)).modMover (fun m => (m.modChan c (fun x =>
      { x with serving := some k.source })).modJob k.source (fun i => { i with state := .landing })) =
    u.modMover (Mover.withJob c (.serve k.source none none) k.taken) := by
  have served := Mover.withJob_modJob c (.serve k.source none none) k u.mover (fun i => { i with state := .landing }) new
  unfold State.modMover
  dsimp only
  rw [Mover.withJob_modChan]
  exact congrArg (fun m => { u with mover := m }) served

/-- A job longer than the landing pool's buffers fails as it is taken (R134). -/
theorem State.takeJob_tooLong (long : (u.poolEntry k.landPool).size < k.length) :
    (u.modMover (Mover.withJob c .idle k)).takeJob c k =
      (u.modMover (Mover.withJob c (.serve k.source none none) k.taken)).moveFail c .destError := by
  rw [State.takeJob, State.takeJob_serves new]
  exact if_pos long

/-- Any other asks for a landing buffer (R134, R136). -/
theorem State.takeJob_fits (fits : ¬ (u.poolEntry k.landPool).size < k.length) :
    (u.modMover (Mover.withJob c .idle k)).takeJob c k =
      (u.modMover (Mover.withJob c (.serve k.source none none) k.taken)).askLanding c k.landPool := by
  rw [State.takeJob, State.takeJob_serves new]
  exact if_neg fits

/-- Else it takes the head of the pool's list for its job, which is then COPYING (R31, R136). -/
theorem State.askLanding_give {x : Chan} {q : PoolId} {l : BufId} {rest : List BufId} (free : (u.pool q).free = l :: rest)
    (serves : x.serving = some k.source) :
    (u.modMover (Mover.withJob c x k)).askLanding c q =
      ((u.modPool q (fun P => { P with free := rest })).setCustody l (.landing k.sender k.dest)).modMover
        (Mover.withJob c { x with deadline := none } (k.copyTo l)) := by
  have job : ((u.modMover (Mover.withJob c x k)).modPool q (fun P => { P with free := rest })).mover.jobOf c = some k :=
    Mover.withJob_jobOf c x k u.mover serves new
  have copying : ((u.mover.withJob c x k).modJob k.source (fun j => { j with landing := some l, state := .copying })).modChan c
      (fun x => { x with deadline := none }) =
      u.mover.withJob c { x with deadline := none } (k.copyTo l) := by
    rw [Mover.withJob_modJob c x k u.mover _ new, Mover.withJob_modChan]
    rfl
  rw [State.askLanding, State.modMover_pool, free]
  dsimp only
  rw [State.giveLanding, job]
  exact congrArg (fun m =>
    { (u.modPool q (fun P => { P with free := rest })).setCustody l (.landing k.sender k.dest) with mover := m }) copying

/-- What a failure of the last job undoes (R145). -/
theorem State.moveFail_last {x : Chan} (serves : x.serving = some k.source) (reason : MoveReason) :
    (u.modMover (Mover.withJob c x k)).moveFail c reason =
      (((((u.modMover (Mover.idled c)).freeLanding k.landing).closeDest k.source).releaseRes k.dest .send k.source).sourceBack
        k.source).endWaiting k.sender .send k.source .moveFailed (.move reason) := by
  rw [State.moveFail, State.modMover_mover, Mover.withJob_jobOf c x k _ serves new]
  dsimp only
  rw [State.dropJob_withJob c x k u new]

/-- What a success of the last job does (R144). -/
theorem State.moveSucceed_last {x : Chan} (serves : x.serving = some k.source) :
    (u.modMover (Mover.withJob c x k)).moveSucceed c =
      ((((u.modMover (Mover.idled c)).freeFrom k.source k.sender).queueLanding k).convertDest k.source).endWaiting k.sender .send
        k.source .ok .zero := by
  rw [State.moveSucceed, State.modMover_mover, Mover.withJob_jobOf c x k _ serves new]
  dsimp only
  rw [State.dropJob_withJob c x k u new]

end LastJob

end Sys2Proof.Machine
end

