-- ==== Sys2Proof/Proofs/SendAcross.lean ====
section
/-!
THEOREMS. SEND out of reach (R72, R73, R75, R132) and the Mover's turn that ends its step (R134 to R137, R144, R145).
-/
open Sys2Proof Sys2Proof.Machine

namespace Sys2Proof.Machine

/-! ### The reservations of a SEND -/

/-- A charge and a destination reservation in pool `r`, and an inbox reservation, for the SEND of `b` to `d` (R32, R73, R96). -/
def State.reserveFor (b : BufId) (d : PortId) (r : PoolId) (s : State) : State :=
  { (s.modPool r (fun x => { x with charge := x.charge.set d (x.charge.get d + 1) })).modPort d
      (Port.modInbox (Inbox.reserve .send b)) with
    destRes := s.destRes ++ [{ buf := b, port := d, pool := r }] }

/-- Buffer `b` on its way from `p` to `d`: the reservations taken and the source MOVING (R75). -/
def State.moving (b : BufId) (p d : PortId) (r : PoolId) (s : State) : State :=
  (s.reserveFor b d r).setCustody b (.source p d false)

/-- The job of the SEND with the entry `raw` (R132). -/
def State.sendJob (p d : PortId) (raw : List Byte) (lane : Lane) (r : PoolId) (s : State) : Job :=
  { source := entryBuf raw, srcPool := s.poolOf (entryBuf raw), landPool := r, landing := none, sender := p, dest := d, lane := lane,
    length := entryLength raw, tag := entryTag raw, progress := 0, state := .waiting }

variable {s u : State} {p d : PortId} {raw : List Byte} {lane : Lane} {b : BufId} {r : PoolId}

@[simp] theorem State.reserveFor_mover (b : BufId) (d : PortId) (r : PoolId) (s : State) : (s.reserveFor b d r).mover = s.mover := rfl
@[simp] theorem State.reserveFor_poolEntry (b : BufId) (d : PortId) (r q : PoolId) (s : State) :
    (s.reserveFor b d r).poolEntry q = s.poolEntry q := rfl
@[simp] theorem State.reserveFor_pool (b : BufId) (d : PortId) (r q : PoolId) (s : State) : (s.reserveFor b d r).pool q =
    (s.modPool r (fun x => { x with charge := x.charge.set d (x.charge.get d + 1) })).pool q := rfl
@[simp] theorem State.reserveFor_active (b : BufId) (d i : PortId) (r : PoolId) (s : State) :
    (s.reserveFor b d r).active i = s.active i :=
  State.port_active d (Port.modInbox (Inbox.reserve .send b)) s i (fun _ => rfl)

@[simp] theorem State.acceptTaken_mover (p : PortId) (s : State) : (s.acceptTaken p).mover = s.mover := rfl
@[simp] theorem State.acceptTaken_poolEntry (p : PortId) (q : PoolId) (s : State) : (s.acceptTaken p).poolEntry q = s.poolEntry q := rfl
@[simp] theorem State.acceptTaken_pool (p : PortId) (q : PoolId) (s : State) : (s.acceptTaken p).pool q = s.pool q := rfl
@[simp] theorem State.acceptTaken_active (p i : PortId) (s : State) : (s.acceptTaken p).active i = s.active i :=
  State.port_active p _ s i (fun _ => rfl)

/-- Out of reach a SEND reserves in the landing pool, and a place at the Mover (R73, R131). -/
theorem State.sendReserve_across (reach : (u.entryOf b).reach.get d = false) (landing : (u.entryOf b).landing.get d = some r) :
    u.sendReserve b d = (u.reserveFor b d r).modMover (fun m => { m with reserved := m.reserved ++ [b] }) := by
  have pool : u.reservingPool b d = r := by simp [State.reservingPool, PoolEntry.landPool, reach, landing]
  rw [State.sendReserve, pool, if_neg (by rw [reach]; nofun)]
  rfl

/-- Giving back what a SEND took of a buffer that `p` held plainly, and had no other reservation of, leaves all as it was (R145). -/
theorem State.undo_moving (held : (u.record b).custody = .heldPlain p) (dest : ∀ x ∈ u.destRes, x.buf ≠ b)
    (places : ∀ x ∈ (u.port d).inbox.reservations, x.buf ≠ b) :
    (((u.moving b p d r).closeDest b).releaseRes d .send b).sourceBack b = u := by
  have range : b < u.records.length := State.record_inRange (by rw [held]; nofun)
  have closed : (u.moving b p d r).closeDest b = { (u.moving b p d r).chargeDown d r with destRes := u.destRes } :=
    State.closeDest_last rfl dest
  have source : ((((u.moving b p d r).closeDest b).releaseRes d .send b).record b).custody = .source p d false := by
    rw [closed]
    show ((u.setCustody b (.source p d false)).record b).custody = _
    rw [State.setCustody_record, if_pos ⟨rfl, range⟩]
  rw [State.sourceBack, source]
  dsimp only
  rw [if_neg Bool.false_ne_true, closed]
  show (((((u.modPool r (fun x => { x with charge := x.charge.set d (x.charge.get d + 1) })).modPool r
    (fun x => { x with charge := x.charge.set d (x.charge.get d - 1) })).modPort d (Port.modInbox (Inbox.reserve .send b))).modPort d
    (Port.modInbox (Inbox.release .send b))).setCustody b (.source p d false)).setCustody b (.heldPlain p) = u
  rw [State.modPool_modPool, State.modPort_modPort, State.setCustody_setCustody]
  have charge_back : ∀ y : Four Nat, (y.set d (y.get d + 1)).set d ((y.set d (y.get d + 1)).get d - 1) = y := fun y => by simp
  simp only [charge_back]
  rw [State.modPool_id, State.modPort_id, State.setCustody_same held]
  show { u.port d with inbox := ((u.port d).inbox.reserve .send b).release .send b } = u.port d
  rw [Inbox.release_reserve places]

/-! ### What a SEND took and other writes -/

/-- A free list may be changed before the reservations are taken or behind. -/
theorem State.moving_modPool_free (f : List BufId → List BufId) :
    (u.moving b p d r).modPool r (fun x => { x with free := f x.free }) =
      (u.modPool r (fun x => { x with free := f x.free })).moving b p d r := by
  have comm : (u.modPool r (fun x => { x with charge := x.charge.set d (x.charge.get d + 1) })).modPool r
      (fun x => { x with free := f x.free }) = (u.modPool r (fun x => { x with free := f x.free })).modPool r
      (fun x => { x with charge := x.charge.set d (x.charge.get d + 1) }) := by
    rw [State.modPool_modPool, State.modPool_modPool]
  exact congrArg (fun w : State => ({ w.modPort d (Port.modInbox (Inbox.reserve .send b)) with
    destRes := u.destRes ++ [{ buf := b, port := d, pool := r }] } : State).setCustody b (.source p d false)) comm

theorem State.moving_modRecord {l : BufId} (h : l ≠ b) (f : Record → Record) :
    (u.moving b p d r).modRecord l f = (u.modRecord l f).moving b p d r :=
  State.modRecord_comm h.symm _ f (u.reserveFor b d r)

theorem State.moving_modMover (f : Mover → Mover) : (u.moving b p d r).modMover f = (u.modMover f).moving b p d r := rfl

/-! ### The checks of a SEND out of reach (R72) -/

/-- A SEND of a buffer held plainly, to another port that is present and out of the pool's reach, with a length and lane that fit. -/
structure SendOut (s : State) (p d : PortId) (raw : List Byte) (lane : Lane) : Prop where
  takes : s.takes p .send raw
  current : s.handleCurrent raw
  rest : s.moverAtRest
  held : (s.record (entryBuf raw)).custody = .heldPlain p
  dest : entryPort raw = d.val
  other : d ≠ p
  fits : entryLength raw ≤ (s.entryOf (entryBuf raw)).size
  lane : entryLane raw = some lane
  reach : (s.entryOf (entryBuf raw)).reach.get d = false
  present : (s.cfg d).present = true

namespace SendOut
variable (S : SendOut s p d raw lane)
include S

/-- The row judges the entry by SEND's own checks, and accepts it with the Mover's turn behind. -/
theorem exec : exec (.send p) s = .next (s.judge p .full raw (s.sendChecks p (entryBuf raw) raw)
    (fun s => (s.sendAccept p (entryBuf raw) d).settle)) := by
  obtain ⟨-, -, ho, x, hx, rfl⟩ := S.takes
  show execSend p s = _
  rw [execSend, State.taking_of _ hx ho, entryPortId_of S.dest]
  rfl

/-- The holder's checks, and those of the entry's fields, pass. -/
theorem checks : firstRefusal (s.sendChecks p (entryBuf raw) raw) = firstRefusal
    [(((s.entryOf (entryBuf raw)).landing.get d).isNone, .denied), (!s.active d, .fenced),
      (decide (s.quota d (s.reservingPool (entryBuf raw) d) ≤ s.charge d (s.reservingPool (entryBuf raw) d)), .quota),
      (decide ((s.cfg d).inboxLimit ≤ (s.port d).inbox.occupancy) || decide (moverPlaces ≤ s.mover.usedPlaces), .full)] := by
  have owned : s.owned (entryBuf raw) = some { holder := p, readers := [], leases := [], op := .none, orphan := false } :=
    State.owned_of S.held
  have fields : (d == p || decide ((s.entryOf (entryBuf raw)).size < entryLength raw) || (entryLane raw).isNone) = false := by
    simp [S.other, S.fits, S.lane]
  rw [State.sendChecks, entryPortId_of S.dest, State.freeChecks, List.cons_append, List.cons_append, List.cons_append, List.nil_append,
    firstRefusal_cons_false (by simp [State.holds, S.held, Custody.heldPlain, Custody.heldBy]),
    firstRefusal_cons_false (by simp [State.pendingOf, S.held, Custody.heldPlain, Custody.pending, Owned.pending]),
    firstRefusal_cons_false (by simp [State.lent, owned, Owned.lent])]
  dsimp only
  rw [State.sendDestChecks, firstRefusal_cons_false fields]
  simp [S.present, S.reach]

theorem refused {c : ResultCode} (h : firstRefusal (s.sendChecks p (entryBuf raw) raw) = some c) :
    Machine.exec (.send p) s = .next (s.endTakenOn p (entryBuf raw) c) := by
  obtain ⟨ready, active, -⟩ := S.takes
  rw [S.exec, State.judge_refused S.current ready active h]

theorem accepted (h : firstRefusal (s.sendChecks p (entryBuf raw) raw) = none) :
    Machine.exec (.send p) s = .next (s.sendAccept p (entryBuf raw) d).settle := by
  obtain ⟨ready, active, -⟩ := S.takes
  rw [S.exec, State.judge_accepted S.current ready active h]

/-- With no landing pool named, the SEND is refused (R17). -/
theorem denied (h : (s.entryOf (entryBuf raw)).landing.get d = none) :
    Machine.exec (.send p) s = .next (s.endTakenOn p (entryBuf raw) .denied) :=
  S.refused (by rw [S.checks, firstRefusal_cons_true (by simp [h])])

end SendOut

/-- Such a SEND with a landing pool, and its destination ACTIVE, below its quota and with a place in its inbox. -/
structure SendAcross (s : State) (p d : PortId) (raw : List Byte) (lane : Lane) (r : PoolId) : Prop extends
    SendOut s p d raw lane where
  landing : (s.entryOf (entryBuf raw)).landing.get d = some r
  active : s.active d = true
  charge : s.charge d r < s.quota d r
  place : (s.port d).inbox.occupancy < (s.cfg d).inboxLimit

namespace SendAcross
variable (S : SendAcross s p d raw lane r)
include S

/-- Every check passes but that of the Mover's places. -/
theorem places : firstRefusal (s.sendChecks p (entryBuf raw) raw) =
    firstRefusal [(decide (moverPlaces ≤ s.mover.usedPlaces), .full)] := by
  have pool : s.reservingPool (entryBuf raw) d = r := by
    simp [State.reservingPool, PoolEntry.landPool, S.reach, S.landing]
  rw [S.checks, firstRefusal_cons_false (by simp [S.landing]), firstRefusal_cons_false (by simp [S.active]), pool,
    firstRefusal_cons_false (by simpa using S.charge),
    show decide ((s.cfg d).inboxLimit ≤ (s.port d).inbox.occupancy) = false by simpa using S.place, Bool.false_or]

theorem full (h : 16 ≤ s.mover.usedPlaces) : exec (.send p) s = .next (s.endTakenOn p (entryBuf raw) .full) :=
  S.refused (by rw [S.places, firstRefusal_cons_true (decide_eq_true (p := moverPlaces ≤ s.mover.usedPlaces) h)])

theorem room (h : s.mover.usedPlaces < 16) : exec (.send p) s = .next (s.sendAccept p (entryBuf raw) d).settle :=
  S.accepted (by rw [S.places, firstRefusal_cons_false (decide_eq_false (p := moverPlaces ≤ s.mover.usedPlaces) (not_le.mpr h))]; rfl)

/-! ### What the acceptance leaves before the Mover's turn (R73, R75) -/

theorem inRange : entryBuf raw < s.records.length := State.record_inRange (by rw [S.held]; nofun)

theorem reserved : (s.acceptTaken p).sendReserve (entryBuf raw) d =
    ((s.acceptTaken p).reserveFor (entryBuf raw) d r).modMover (fun m => { m with reserved := m.reserved ++ [entryBuf raw] }) :=
  State.sendReserve_across S.reach S.landing

theorem begun : ((s.acceptTaken p).sendReserve (entryBuf raw) d).beginOp (entryBuf raw) (.send d) =
    (((s.acceptTaken p).reserveFor (entryBuf raw) d r).modMover (fun m =>
      { m with reserved := m.reserved ++ [entryBuf raw] })).setCustody (entryBuf raw)
      (.owned { holder := p, readers := [], leases := [], op := .send d, orphan := false }) := by
  rw [S.reserved]
  exact State.beginOp_of (u := ((s.acceptTaken p).reserveFor (entryBuf raw) d r).modMover (fun m =>
    { m with reserved := m.reserved ++ [entryBuf raw] })) S.held _

/-- From a caching holder a DROP is asked, and the SEND waits for it (R73). -/
theorem asked (caching : s.caching p = true) : s.sendAccept p (entryBuf raw) d =
    ((((s.acceptTaken p).reserveFor (entryBuf raw) d r).modMover (fun m =>
      { m with reserved := m.reserved ++ [entryBuf raw] })).setCustody (entryBuf raw)
      (.owned { holder := p, readers := [], leases := [], op := .send d, orphan := false })).modYields
      (YieldUnit.take { buf := entryBuf raw, target := p, kind := .drop, op := .send }) := by
  obtain ⟨-, active, -⟩ := S.takes
  rw [State.sendAccept, S.begun]
  refine State.ask_asked caching ?_
  show ((s.acceptTaken p).reserveFor (entryBuf raw) d r).active p = true
  rw [State.reserveFor_active, State.acceptTaken_active, active]

/-- From a holder that does not cache, the source is MOVING and its job in the queue (R75, R132). -/
theorem entered (caching : s.caching p = false) (free : entryBuf raw ∉ s.mover.reserved)
    (alone : ∀ x ∈ (s.port p).cmd.outstanding, x.isWaiting .send (entryBuf raw) = false) : s.sendAccept p (entryBuf raw) d =
    ((s.acceptTaken p).moving (entryBuf raw) p d r).modMover (fun m =>
      { m with jobs := m.jobs ++ [s.sendJob p d raw lane r] }) := by
  rw [State.sendAccept, S.begun, State.ask_skipped caching]
  generalize hv : (((s.acceptTaken p).reserveFor (entryBuf raw) d r).modMover (fun m =>
    { m with reserved := m.reserved ++ [entryBuf raw] })).setCustody (entryBuf raw)
    (.owned { holder := p, readers := [], leases := [], op := .send d, orphan := false }) = v
  have owned : v.owned (entryBuf raw) = some { holder := p, readers := [], leases := [], op := .send d, orphan := false } := by
    rw [← hv]
    exact State.setCustody_owned _ S.inRange
  have entry : v.waitingEntry p .send (entryBuf raw) = raw := by
    obtain ⟨-, -, ho, x, hx, rfl⟩ := S.takes
    have port : v.port p = (s.acceptTaken p).port p := by
      rw [← hv]
      show (((s.acceptTaken p).modPool r _).modPort d _).port p = _
      rw [State.modPort_port_ne _ _ S.other.symm, State.modPool_port]
    rw [State.waitingEntry, port]
    exact State.waitingEntry_accepted hx ho rfl alone
  have job : v.newJob (entryBuf raw) p d raw = s.sendJob p d raw lane r := by
    have pool : (v.entryOf (entryBuf raw)).landPool d = r := by
      rw [← hv]
      show ((s.entryOf (entryBuf raw)).landing.get d).getD 0 = r
      rw [S.landing]
      rfl
    rw [State.newJob, pool, S.lane, ← hv]
    rfl
  have reach : (v.entryOf (entryBuf raw)).reach.get d = false := by
    rw [← hv]
    exact S.reach
  show v.sendOutcome (entryBuf raw) .acked = _
  rw [State.sendOutcome_across owned rfl reach, entry, State.enterJob, job, ← hv, State.setCustody_setCustody]
  have place : removeFirst (· == entryBuf raw) (s.mover.reserved ++ [entryBuf raw]) = s.mover.reserved :=
    removeFirst_last (fun x hx => by simpa using fun e : x = entryBuf raw => free (e ▸ hx)) (by simp)
  show ((s.acceptTaken p).moving (entryBuf raw) p d r).modMover (fun m =>
    { m with
      reserved := removeFirst (· == entryBuf raw) (m.reserved ++ [entryBuf raw])
      jobs := m.jobs ++ [s.sendJob p d raw lane r] }) = _
  refine State.modMover_congr ?_
  show { s.mover with
    reserved := removeFirst (· == entryBuf raw) (s.mover.reserved ++ [entryBuf raw])
    jobs := s.mover.jobs ++ [s.sendJob p d raw lane r] } = _
  rw [place]
  rfl

end SendAcross

end Sys2Proof.Machine
end

