-- ==== Sys2Proof/Proofs/LandingHandOver.lean ====
section
/-!
SUPPORT. What a job of length 0 leaves behind: its writes of each part of the state as one (R24, R27, R33, R96, R144).
-/
open Sys2Proof Sys2Proof.Machine

namespace Sys2Proof.Machine

variable {s u : State} {p d : PortId} {lane : Lane} {r : PoolId} {l : BufId} {rest : List BufId}

/-- A buffer of pool `q` enters its free list and leaves its holder's charge, where no channel waits for it (R27, R33). -/
theorem State.freeFrom_modMover {b : BufId} {q : PoolId} {f : Mover → Mover} (pool : u.poolOf b = q) (waiting : (u.pool q).waiting = []) :
    (u.modMover f).freeFrom b p = ((u.modRecord b Record.enterFree).modPool q (fun x =>
      { x with free := x.free ++ [b], charge := x.charge.set p (x.charge.get p - 1) })).modMover f := by
  subst pool
  rw [State.freeFrom, State.enterFreeList_plain (s := u.modMover f) waiting, State.chargeDown, State.modMover_poolOf,
    State.modPool_modPool]
  rfl

/-- What a job of length 0 that has succeeded made of the state `u`, the Mover apart: its source `b`, of pool `q`, FREE, and the landing
buffer `l` of pool `r` QUEUED (R144). -/
def State.handedAcross (b l : BufId) (q r : PoolId) (rest : List BufId) (p d : PortId) (lane : Lane) (tag : Word) (u : State) : State :=
  (((((u.modPool r (fun x => { x with free := rest, charge := x.charge.set d (x.charge.get d + 1) })).modPool q (fun x =>
    { x with free := x.free ++ [b], charge := x.charge.set p (x.charge.get p - 1) })).modRecord b Record.enterFree).modRecord l (fun x =>
    { x with custody := .queued p d, length := 0, tag := tag })).modPort d (fun P =>
      (P.modInbox (fun x => x.push lane
        { kind := .delivery 0 tag, buf := l, gen := (u.record l).gen, source := p, delivering := false })).arrPresent false))

section HandOver
variable {b : BufId} {q : PoolId} {tag : Word}

/-- The records of the two buffers hold what was written last (R27, R144). -/
theorem State.handOver_records (hlb : l ≠ b) : (((u.setCustody b (.source p d false)).setCustody l (.landing p d)).modRecord b
    Record.enterFree).modRecord l (fun x => { x with custody := .queued p d, length := 0, tag := tag }) =
    (u.modRecord b Record.enterFree).modRecord l (fun x => { x with custody := .queued p d, length := 0, tag := tag }) := by
  rw [State.setCustody, State.setCustody, State.modRecord_comm hlb, State.modRecord_modRecord, State.modRecord_modRecord]
  rfl

theorem State.handOver_gen (hlb : l ≠ b) : ((((u.setCustody b (.source p d false)).setCustody l (.landing p d)).modRecord b
    Record.enterFree).record l).gen = (u.record l).gen := by
  rw [State.modRecord_record, if_neg (fun h => hlb h.1), State.setCustody_gen, State.setCustody_gen]

/-- The reservation taken in the destination's inbox makes place for the DELIVERY item (R96). -/
theorem State.handOver_port (item : Item) (h : ∀ x ∈ (u.port d).inbox.reservations, x.buf ≠ b) :
    (u.modPort d (Port.modInbox (Inbox.reserve .send b))).modPort d (fun P =>
      (P.modInbox (fun x => (x.release .send b).push lane item)).arrPresent false) =
    u.modPort d (fun P => (P.modInbox (fun x => x.push lane item)).arrPresent false) := by
  rw [State.modPort_modPort]
  refine State.modPort_congr ?_
  show ({ u.port d with inbox := (((u.port d).inbox.reserve .send b).release .send b).push lane item } : Port).arrPresent false = _
  rw [Inbox.release_reserve h]
  rfl

theorem State.handOver_pools : ((u.modPool r (fun x => { x with charge := x.charge.set d (x.charge.get d + 1) })).modPool r (fun x =>
    { x with free := rest })) = u.modPool r (fun x => { x with free := rest, charge := x.charge.set d (x.charge.get d + 1) }) :=
  State.modPool_modPool ..

/-- The state in which the landing buffer `l` was taken and the source `b` has entered its free list. -/
def State.sourceFreed (b l : BufId) (q r : PoolId) (rest : List BufId) (p d : PortId) (u : State) : State :=
  ((((u.moving b p d r).modPool r (fun x => { x with free := rest })).setCustody l (.landing p d)).modRecord b
    Record.enterFree).modPool q (fun x => { x with free := x.free ++ [b], charge := x.charge.set p (x.charge.get p - 1) })

/-- Queueing the landing buffer and turning the destination reservation into it make that state (R24, R33, R144). -/
theorem State.handOver (hlb : l ≠ b) (inboxes : ∀ x ∈ (u.port d).inbox.reservations, x.buf ≠ b) (dests : ∀ x ∈ u.destRes, x.buf ≠ b) :
    (((u.sourceFreed b l q r rest p d).toQueued l p d 0 tag).deliver b l p d lane 0 tag).convertDest b =
      u.handedAcross b l q r rest p d lane tag := by
  have gen : (((u.sourceFreed b l q r rest p d).toQueued l p d 0 tag).record l).gen = (u.record l).gen := by
    rw [State.toQueued, State.modRecord_record]
    split <;> exact State.handOver_gen hlb
  rw [State.convertDest_last (l := u.destRes) (b := b) (p := d) (q := r) rfl dests, State.deliver, gen]
  unfold State.handedAcross State.sourceFreed State.toQueued State.moving State.reserveFor State.setCustody State.modRecord State.modPool
    State.modPort
  dsimp only
  congr 1
  · exact congrArg State.ports (State.handOver_port _ inboxes)
  · exact congrArg State.records (State.handOver_records hlb)
  · exact congrArg (fun v : State => v.pools.modify q _) State.handOver_pools

/-- Queueing the landing buffer does not touch the Mover. -/
theorem State.deliver_modMover (f : Mover → Mover) (n : Nat) : (((u.modMover f).toQueued l p d n tag).deliver b l p d lane n
    tag).convertDest b = (((u.toQueued l p d n tag).deliver b l p d lane n tag).convertDest b).modMover f := rfl

end HandOver

end Sys2Proof.Machine
end

