-- ==== Sys2Proof/Proofs/SendTurns.lean ====
section
/-!
THEOREMS. The Mover's turn that ends the step of a SEND out of reach (R134 to R137, R144, R145): the idle channel's way with the new
job.
-/
open Sys2Proof Sys2Proof.Machine

namespace Sys2Proof.Machine

variable {s u : State} {p d : PortId} {raw : List Byte} {lane : Lane} {r : PoolId} {c : ChanId} {l : BufId} {rest : List BufId}

/-- An accepted SEND from a holder that does not cache, of a buffer nothing else moves, with channel `c` the first idle. -/
structure SendIdle (s : State) (p d : PortId) (raw : List Byte) (lane : Lane) (r : PoolId) (c : ChanId) : Prop extends
    SendAcross s p d raw lane r where
  room : s.mover.usedPlaces < 16
  caching : s.caching p = false
  free : entryBuf raw ∉ s.mover.reserved
  alone : ∀ x ∈ (s.port p).cmd.outstanding, x.isWaiting .send (entryBuf raw) = false
  new : ∀ j ∈ s.mover.jobs, j.source ≠ entryBuf raw
  dests : ∀ x ∈ s.destRes, x.buf ≠ entryBuf raw
  inboxes : ∀ x ∈ (s.port d).inbox.reservations, x.buf ≠ entryBuf raw
  unserved : ∀ x, (s.mover.chan x).serving ≠ some (entryBuf raw)
  idle : s.mover.chan c = .idle
  turn : c = 1 → (s.mover.chan 0).serving ≠ none

/-- The state of an accepted SEND out of reach, its job apart (R73, R75). -/
def State.sent (p d : PortId) (raw : List Byte) (r : PoolId) (s : State) : State := (s.acceptTaken p).moving (entryBuf raw) p d r

@[simp] theorem State.sent_mover (p d : PortId) (raw : List Byte) (r : PoolId) (s : State) : (s.sent p d raw r).mover = s.mover := by
  simp [State.sent, State.moving]
@[simp] theorem State.sent_poolEntry (p d : PortId) (raw : List Byte) (r q : PoolId) (s : State) :
    (s.sent p d raw r).poolEntry q = s.poolEntry q := by
  simp [State.sent, State.moving]
@[simp] theorem State.sent_active (p d i : PortId) (raw : List Byte) (r : PoolId) (s : State) :
    (s.sent p d raw r).active i = s.active i := by
  simp [State.sent, State.moving]

/-- Taking the reservations leaves every pool's free list and waiting channels (R32). -/
theorem State.sent_pool (p d : PortId) (raw : List Byte) (r q : PoolId) (s : State) :
    ((s.sent p d raw r).pool q).free = (s.pool q).free ∧ ((s.sent p d raw r).pool q).waiting = (s.pool q).waiting := by
  simp only [State.sent, State.moving, State.setCustody_pool, State.reserveFor_pool, State.modPool_pool, State.acceptTaken_pool]
  split <;> exact ⟨rfl, rfl⟩

/-- The state as the landing buffer `l` is taken from the head of its pool's list (R31, R136), the Mover apart. -/
def State.landed (p d : PortId) (raw : List Byte) (r : PoolId) (l : BufId) (rest : List BufId) (s : State) : State :=
  ((s.sent p d raw r).modPool r (fun x => { x with free := rest })).setCustody l (.landing p d)

@[simp] theorem State.landed_mover (p d : PortId) (raw : List Byte) (r : PoolId) (l : BufId) (rest : List BufId) (s : State) :
    (s.landed p d raw r l rest).mover = s.mover := by
  simp [State.landed]
@[simp] theorem State.landed_poolEntry (p d : PortId) (raw : List Byte) (r q : PoolId) (l : BufId) (rest : List BufId) (s : State) :
    (s.landed p d raw r l rest).poolEntry q = s.poolEntry q := by
  simp [State.landed]
@[simp] theorem State.landed_poolOf (p d : PortId) (raw : List Byte) (r : PoolId) (l : BufId) (rest : List BufId) (s : State)
    (x : BufId) : (s.landed p d raw r l rest).poolOf x = s.poolOf x := by
  simp only [State.landed, State.sent, State.moving, State.setCustody_poolOf, State.modPool_poolOf]
  rfl
@[simp] theorem State.landed_active (p d i : PortId) (raw : List Byte) (r : PoolId) (l : BufId) (rest : List BufId) (s : State) :
    (s.landed p d raw r l rest).active i = s.active i := by
  simp [State.landed]

/-- Taking a landing buffer leaves every pool's waiting channels (R31). -/
theorem State.landed_waiting (p d : PortId) (raw : List Byte) (r q : PoolId) (l : BufId) (rest : List BufId) (s : State) :
    ((s.landed p d raw r l rest).pool q).waiting = (s.pool q).waiting := by
  rw [State.landed, State.setCustody_pool, State.modPool_pool]
  split <;> exact (State.sent_pool p d raw r _ s).2

theorem State.landed_home {i : PortId} (home : (s.poolEntry (s.poolOf (entryBuf raw))).home = i) :
    ((s.landed p d raw r l rest).poolEntry ((s.sendJob p d raw lane r).copyTo l).srcPool).home = i := by
  rw [State.landed_poolEntry]
  exact home

namespace SendIdle
variable (S : SendIdle s p d raw lane r c)
include S

/-- The step is the Mover's turn with the job behind all others. -/
theorem start : exec (.send p) s = .next ((s.sent p d raw r).modMover
    (Mover.withJob c .idle (s.sendJob p d raw lane r))).settle := by
  rw [S.toSendAcross.room S.room, S.entered S.caching S.free S.alone]
  refine congrArg (fun v : State => Host.Outcome.next v.settle) (State.modMover_congr ?_)
  exact Mover.addJob_eq c .idle _ s.mover S.idle

/-- Channel 0 has no move before channel `c`. -/
theorem first {t : State} {x : Chan} {k : Job} (hk : k.source = entryBuf raw) (ht : t.mover = s.mover.withJob c x k) (hc : c = 1) :
    t.chanStep 0 = none := by
  refine State.withJob_chanStep_ne (c := c) (x := x) (k := k) (l := (s.mover.withJob c x k).presented) S.rest ht ?_ ?_
    (fun h => absurd h (S.turn hc))
  · rw [hc]
    decide
  · rw [hk]
    exact S.unserved 0

/-- The job of the SEND is the first of its buffer. -/
theorem newJob : ∀ j ∈ (s.sent p d raw r).mover.jobs, j.source ≠ (s.sendJob p d raw lane r).source := S.new

theorem landedJob : ∀ j ∈ (s.landed p d raw r l rest).mover.jobs, j.source ≠ ((s.sendJob p d raw lane r).copyTo l).source := by
  rw [State.landed_mover]
  exact S.new

/-- A turn of one move: the taking of the job. -/
theorem one {t : State} (h : ((s.sent p d raw r).modMover (Mover.withJob c .idle (s.sendJob p d raw lane r))).takeJob c
      (s.sendJob p d raw lane r) = t) (ht : t.moverAtRest) : exec (.send p) s = .next t := by
  have step := State.chanStep_take (k := s.sendJob p d raw lane r) (u := (s.sent p d raw r).modMover (Mover.withJob c .idle
    (s.sendJob p d raw lane r))) S.rest S.idle rfl rfl
  rw [h] at step
  rw [S.start, State.settle_move step (S.first (k := s.sendJob p d raw lane r) rfl rfl) ht]

/-- A job longer than the landing pool's buffers fails, and every reservation is released (R134, R145). -/
theorem tooLong (h : (s.poolEntry r).size < entryLength raw) : exec (.send p) s = .next
    (((s.acceptTaken p).modMover (Mover.idled c)).endWaiting p .send (entryBuf raw) .moveFailed (.move .destError)) := by
  have held : (((s.acceptTaken p).modMover (Mover.idled c)).record (entryBuf raw)).custody = .heldPlain p := S.held
  have port : ((s.acceptTaken p).modMover (Mover.idled c)).port d = s.port d := State.modPort_port_ne _ _ S.other
  have undone := State.undo_moving (r := r) (d := d) held S.dests (by rw [port]; exact S.inboxes)
  refine S.one ?_ (State.idled_atRest S.rest rfl S.idle S.unserved)
  rw [State.takeJob_tooLong S.newJob h, State.moveFail_last (k := (s.sendJob p d raw lane r).taken) S.newJob rfl]
  exact congrArg (fun v : State => v.endWaiting p .send (entryBuf raw) .moveFailed (.move .destError)) undone

variable (fits : ¬ (s.poolEntry r).size < entryLength raw)
include fits

/-- With no FREE landing buffer a landing wait begins (R137). -/
theorem waits (h : (s.pool r).free = []) : exec (.send p) s = .next
    (((s.sent p d raw r).modPool r (fun x => { x with waiting := x.waiting ++ [c] })).modMover (Mover.withJob c
      (.serve (entryBuf raw) none (some (s.now + s.theMap.landingWait))) (s.sendJob p d raw lane r).taken)) := by
  have none_free : ((s.sent p d raw r).pool r).free = [] := (State.sent_pool p d raw r r s).1.trans h
  refine S.one ?_ ?_
  · rw [State.takeJob_fits S.newJob fits]
    exact State.askLanding_wait none_free
  · have serves : ((s.mover.withJob c (.serve (entryBuf raw) none (some (s.now + s.theMap.landingWait)))
        (s.sendJob p d raw lane r).taken).chan c).serving = some (entryBuf raw) := by
      rw [Mover.withJob_chan]
      rfl
    have found := jobs_find_last (k := (s.sendJob p d raw lane r).taken) S.new rfl
    exact State.withJob_atRest (k := (s.sendJob p d raw lane r).taken) S.rest rfl S.unserved (fun h => nomatch h)
      (State.chanStep_landing (b := entryBuf raw) serves found (fun h => nomatch h))

variable (hl : (s.pool r).free = l :: rest)
include hl

/-- A turn of two moves: the landing buffer taken, then one move of the copying channel. -/
theorem two {t : State} (h : ((s.landed p d raw r l rest).modMover (Mover.withJob c (.serve (entryBuf raw) none none)
      ((s.sendJob p d raw lane r).copyTo l))).proceed c ((s.sendJob p d raw lane r).copyTo l) = t)
    (ht : t.moverAtRest) : exec (.send p) s = .next t := by
  have head : ((s.sent p d raw r).pool r).free = l :: rest := (State.sent_pool p d raw r r s).1.trans hl
  have step := State.chanStep_take (k := s.sendJob p d raw lane r) (u := (s.sent p d raw r).modMover (Mover.withJob c .idle
    (s.sendJob p d raw lane r))) S.rest S.idle rfl rfl
  have taken := (State.takeJob_fits (c := c) S.newJob fits).trans
    (State.askLanding_give (k := (s.sendJob p d raw lane r).taken) S.newJob head rfl)
  rw [taken] at step
  have next := State.chanStep_proceed (u := (s.landed p d raw r l rest).modMover (Mover.withJob c (.serve (entryBuf raw) none none)
    ((s.sendJob p d raw lane r).copyTo l))) (s := s) (k := (s.sendJob p d raw lane r).copyTo l) rfl S.new rfl rfl rfl
  rw [h] at next
  rw [S.start, State.settle_moves step next (fun hc => ⟨S.first (k := s.sendJob p d raw lane r) rfl rfl hc,
    S.first (k := (s.sendJob p d raw lane r).copyTo l) rfl rfl hc⟩) ht]

/-- A job of length 0 succeeds with no burst: the source enters its free list and the landing buffer is QUEUED (R135, R144). -/
theorem lengthZero (zero : entryLength raw = 0) (hlb : l ≠ entryBuf raw) (queue : (s.pool (s.poolOf (entryBuf raw))).waiting = []) :
    exec (.send p) s = .next ((((s.acceptTaken p).handedAcross (entryBuf raw) l (s.poolOf (entryBuf raw)) r rest p d lane
      (entryTag raw)).modMover (Mover.idled c)).endWaiting p .send (entryBuf raw) .ok .zero) := by
  have done : ((s.sendJob p d raw lane r).copyTo l).length ≤ ((s.sendJob p d raw lane r).copyTo l).progress := zero.le
  have still : ((((s.acceptTaken p).handedAcross (entryBuf raw) l (s.poolOf (entryBuf raw)) r rest p d lane (entryTag raw)).modMover
      (Mover.idled c)).endWaiting p .send (entryBuf raw) .ok .zero).moverAtRest := by
    refine State.idled_atRest S.rest ?_ S.idle S.unserved
    rfl
  have waiting : ((s.landed p d raw r l rest).pool (s.poolOf (entryBuf raw))).waiting = [] := by
    rw [State.landed_waiting, queue]
  have port : ((s.acceptTaken p).port d).inbox.reservations = (s.port d).inbox.reservations := by
    rw [State.acceptTaken, State.modPort_port_ne _ _ S.other]
  have freed : ((s.landed p d raw r l rest).modMover (Mover.idled c)).freeFrom (entryBuf raw) p =
      ((s.acceptTaken p).sourceFreed (entryBuf raw) l (s.poolOf (entryBuf raw)) r rest p d).modMover (Mover.idled c) := by
    rw [State.freeFrom_modMover (State.landed_poolOf ..) waiting, State.landed, State.sent, State.sourceFreed]
  refine S.two fits hl ?_ still
  rw [State.proceed, if_pos done, State.moveSucceed_last S.landedJob rfl]
  show (((((((s.landed p d raw r l rest).modMover (Mover.idled c)).freeFrom (entryBuf raw) p).toQueued l p d (entryLength raw)
    (entryTag raw)).deliver (entryBuf raw) l p d lane (entryLength raw) (entryTag raw)).convertDest (entryBuf raw)).endWaiting p .send
      (entryBuf raw) .ok .zero) = _
  rw [freed, zero, State.deliver_modMover, State.handOver (u := s.acceptTaken p) hlb (by rw [port]; exact S.inboxes) S.dests]

variable {i : PortId} (some_left : 0 < entryLength raw) (home : (s.poolEntry (s.poolOf (entryBuf raw))).home = i)
include some_left home

/-- The read of the first burst is presented through the source pool's home port (R135, R139). -/
theorem reads (active : s.active i = true) : exec (.send p) s = .next ((s.landed p d raw r l rest).modMover (fun m =>
    { m.withJob c (.serve (entryBuf raw) (some (.read i)) none) ((s.sendJob p d raw lane r).copyTo l) with
      presented := m.presented ++ [c] })) := by
  have chan := Mover.withJob_chan c (.serve (entryBuf raw) (some (.read i)) none) ((s.sendJob p d raw lane r).copyTo l) s.mover
  have step := State.proceed_read (u := s.landed p d raw r l rest) (c := c) (k := (s.sendJob p d raw lane r).copyTo l)
    (x := .serve (entryBuf raw) none none) rfl (not_le.mpr some_left) (State.landed_home home) ((State.landed_active ..).trans active)
  refine S.two fits hl step ?_
  refine State.withJob_atRest (c := c) (x := .serve (entryBuf raw) (some (.read i)) none) (k := (s.sendJob p d raw lane r).copyTo l)
    (l := s.mover.presented ++ [c]) S.rest ?_ S.unserved (fun h => nomatch h)
    (State.chanStep_presented (b := entryBuf raw) ?_ ?_)
  · rw [State.modMover_mover, State.landed_mover]
  · rw [State.modMover_mover, State.landed_mover]
    exact congrArg Chan.serving chan
  · rw [State.modMover_mover, State.landed_mover]
    exact fun h => nomatch (congrArg Chan.req chan).symm.trans h

/-- Where that port is not ACTIVE the job fails, and the landing buffer enters its free list (R139, R145). -/
theorem sourceError (inactive : s.active i = false) (hlb : l ≠ entryBuf raw) (pool : s.poolOf l = r)
    (queue : (s.pool r).waiting = []) : exec (.send p) s = .next
      (((((s.acceptTaken p).modPool r (fun x => { x with free := rest ++ [l] })).modRecord l Record.enterFree).modMover
        (Mover.idled c)).endWaiting p .send (entryBuf raw) .moveFailed (.move .sourceError)) := by
  generalize hv : (((s.acceptTaken p).modPool r (fun x => { x with free := rest ++ [l] })).modRecord l Record.enterFree).modMover
    (Mover.idled c) = v
  have record : v.record (entryBuf raw) = s.record (entryBuf raw) := by
    rw [← hv]
    show ((s.acceptTaken p).modRecord l _).record (entryBuf raw) = _
    rw [State.modRecord_record, if_neg (fun h => hlb h.1.symm)]
    rfl
  have port : v.port d = s.port d := by
    rw [← hv]
    exact State.modPort_port_ne _ _ S.other
  have none_waits : (((s.landed p d raw r l rest).modMover (Mover.idled c)).pool r).waiting = [] := by
    rw [State.modMover_pool, State.landed_waiting, queue]
  have freed : ((s.landed p d raw r l rest).modMover (Mover.idled c)).enterFreeList l = v.moving (entryBuf raw) p d r := by
    have pool' : ((s.landed p d raw r l rest).modMover (Mover.idled c)).poolOf l = r := by
      rw [State.modMover_poolOf, State.landed_poolOf, pool]
    have moved : (s.landed p d raw r l rest).modMover (Mover.idled c) = ((((s.acceptTaken p).modPool r (fun x =>
        { x with free := rest })).modRecord l (fun x => { x with custody := .landing p d })).modMover (Mover.idled c)).moving
          (entryBuf raw) p d r := by
      rw [State.landed, State.sent, State.moving_modPool_free (fun _ => rest), State.setCustody, State.moving_modRecord hlb,
        State.moving_modMover]
    rw [State.enterFreeList_plain (by rw [pool']; exact none_waits), pool', moved, State.moving_modRecord hlb,
      State.moving_modPool_free (fun x => x ++ [l]), ← hv]
    refine congrArg (State.moving (entryBuf raw) p d r) ?_
    show (((((s.acceptTaken p).modPool r (fun x => { x with free := rest })).modPool r (fun x =>
      { x with free := x.free ++ [l] })).modRecord l (fun x => { x with custody := .landing p d })).modRecord l
      Record.enterFree).modMover (Mover.idled c) = _
    rw [State.modPool_modPool, State.modRecord_modRecord]
    rfl
  have undone : ((((v.moving (entryBuf raw) p d r).closeDest (entryBuf raw)).releaseRes d .send (entryBuf raw)).sourceBack
      (entryBuf raw)) = v := by
    refine State.undo_moving ?_ ?_ ?_
    · rw [record]
      exact S.held
    · rw [← hv]
      exact S.dests
    · rw [port]
      exact S.inboxes
  have still : (v.endWaiting p .send (entryBuf raw) .moveFailed (.move .sourceError)).moverAtRest := by
    refine State.idled_atRest S.rest ?_ S.idle S.unserved
    rw [State.endWaiting, State.modPort_mover, ← hv]
    rfl
  refine S.two fits hl ?_ still
  rw [State.proceed_inactive rfl (not_le.mpr some_left) (State.landed_home home) ((State.landed_active ..).trans inactive),
    State.moveFail_last S.landedJob rfl]
  show (((((((s.landed p d raw r l rest).modMover (Mover.idled c)).enterFreeList l).closeDest (entryBuf raw)).releaseRes d .send
      (entryBuf raw)).sourceBack (entryBuf raw)).endWaiting p .send (entryBuf raw) .moveFailed (.move .sourceError)) = _
  rw [freed, undone]

end SendIdle

end Sys2Proof.Machine
end

