-- ==== Sys2Proof/Proofs/SendAcrossMemories.lean ====
section
/-!
THEOREMS. SEND out of reach, whole (O38): each clause of the statement from the rules of the parts before.
-/
open Sys2Proof Sys2Proof.Machine

namespace Sys2Proof.Machine

variable {s t u : State} {p d : PortId} {raw : List Byte} {lane : Lane} {r : PoolId} {c : ChanId} {l : BufId} {rest : List BufId}

/-- A Mover at rest stays so where its places alone are written. -/
theorem State.atRest_of_jobs (still : s.moverAtRest) (chans : ∀ e, t.mover.chan e = s.mover.chan e)
    (jobs : t.mover.jobs = s.mover.jobs) : t.moverAtRest := by
  refine State.moverAtRest_iff.mpr (fun e => ?_)
  have other : (s.mover.chan e).serving ≠ some ((s.mover.chan e).serving.getD 0 + 1) := by
    cases (s.mover.chan e).serving with
    | none => nofun
    | some b => simp
  exact State.chanStep_other [] (chans e) (by rw [jobs, List.append_nil]) (by simp) other (by simp) (State.moverAtRest_iff.mp still e)

/-- A waiting command ends with the handle of the buffer's generation. -/
theorem State.endWaiting_gen {op : CmdOp} {b : BufId} {code : ResultCode} {x : Detail} {g : Byte} (h : (u.record b).gen = g) :
    u.endWaiting p op b code x = u.modPort p (Port.endCommand (CmdRec.isWaiting op b)
      { code := code, handle := some (handleWord b g), detail := x }) := by
  subst h
  rfl

/-- The landing buffer's way back into its list leaves the source its generation. -/
theorem State.gen_sourceError {b : BufId} (hlb : l ≠ b) (f : Mover → Mover) (g : PoolState → PoolState) :
    (((((u.acceptTaken p).modPool r g).modRecord l Record.enterFree).modMover f).record b).gen = (u.record b).gen := by
  show (((u.acceptTaken p).modRecord l Record.enterFree).record b).gen = _
  rw [State.modRecord_record, if_neg (fun h => hlb h.1.symm)]
  rfl

/-- The source that has entered its free list has the next generation (R27). -/
theorem State.gen_handedAcross {b : BufId} {q : PoolId} {tag : Word} (hlb : l ≠ b) (inRange : b < u.records.length) (f : Mover → Mover) :
    (((u.handedAcross b l q r rest p d lane tag).modMover f).record b).gen = (u.record b).gen + 1 := by
  show (((u.modRecord b Record.enterFree).modRecord l _).record b).gen = _
  rw [State.modRecord_record, if_neg (fun h => hlb h.1.symm), State.modRecord_record, if_pos ⟨rfl, inRange⟩]
  rfl

namespace SendAcross
variable (S : SendAcross s p d raw lane r) (room : s.mover.usedPlaces < 16)
include S room

/-- From a caching holder the SEND reserves, and waits for the DROP it asks (R73, R131). -/
theorem asksDrop (caching : s.caching p = true) : exec (.send p) s = .next (((((s.acceptTaken p).reserveFor (entryBuf raw) d r).modMover
    (fun m => { m with reserved := m.reserved ++ [entryBuf raw] })).setCustody (entryBuf raw)
      (.owned { holder := p, readers := [], leases := [], op := .send d, orphan := false })).modYields
        (YieldUnit.take { buf := entryBuf raw, target := p, kind := .drop, op := .send })) := by
  rw [S.room room, S.asked caching, State.settle_rest]
  exact State.atRest_of_jobs S.rest (fun _ => rfl) rfl

/-- Where both channels serve jobs, the SEND's job waits in the queue (R132, R134). -/
theorem queues (caching : s.caching p = false) (serve : ∀ c, (s.mover.jobOf c).isSome = true) (free : entryBuf raw ∉ s.mover.reserved)
    (alone : ∀ x ∈ (s.port p).cmd.outstanding, x.isWaiting .send (entryBuf raw) = false) : exec (.send p) s = .next
      ((s.sent p d raw r).modMover (fun m => { m with jobs := m.jobs ++ [s.sendJob p d raw lane r] })) := by
  rw [S.room room, S.entered caching free alone, State.settle_rest]
  · rfl
  · exact State.addJob_atRest S.rest serve (fun _ => rfl) rfl

end SendAcross

end Sys2Proof.Machine

/-- Settles O38: the checks leave the two refusals, and an accepted SEND is what the Mover's turn makes of its one new job. -/
theorem sendAcrossMemoriesEntersTheMover : Obligations.SendAcrossMemoriesEntersTheMover := by
  unfold Obligations.SendAcrossMemoriesEntersTheMover
  intro s p d raw lane takes current still b q held dest other fits lane' reach present refused
  have O : SendOut s p d raw lane := ⟨takes, current, still, held, dest, other, fits, lane', reach, present⟩
  refine ⟨O.denied, ?_⟩
  intro r landing active charge place reserved job
  have A : SendAcross s p d raw lane r := ⟨O, landing, active, charge, place⟩
  refine ⟨A.full, A.asksDrop, A.queues, ?_⟩
  intro room caching free alone new dests inboxes unserved c idle turn moving serve leave ended gen home delivery
  have S : SendIdle s p d raw lane r c := ⟨A, room, caching, free, alone, new, dests, inboxes, unserved, idle, turn⟩
  refine ⟨S.tooLong, fun fits' => S.waits (not_lt.mpr fits'), ?_⟩
  intro l rest fits' hl hlb
  refine ⟨?_, ?_, ?_⟩
  · exact fun some_left active' => S.reads (not_lt.mpr fits') hl some_left rfl active'
  · intro some_left inactive pool queue
    rw [S.sourceError (not_lt.mpr fits') hl some_left rfl inactive hlb pool queue]
    exact congrArg Host.Outcome.next (State.endWaiting_gen (State.gen_sourceError hlb _ _))
  · intro zero queue
    rw [S.lengthZero (not_lt.mpr fits') hl zero hlb queue,
      State.endWaiting_gen (State.gen_handedAcross (u := s.acceptTaken p) hlb S.inRange (Mover.idled c))]
    rfl

end

