-- ==== Sys2Proof/Proofs/HandleChecks.lean ====
section
/-!
THEOREMS. The common checks of the handle (R28, R29, R65, R67): which of them each command makes, and how a command that fails one ends.
-/
open Sys2Proof Sys2Proof.Machine

namespace Sys2Proof.Machine

variable {s : State} {p : PortId} {raw : List Byte}

/-- Which of the checks of the handle a command makes (R65). -/
def CmdOp.handleUse (op : CmdOp) : HandleUse := if op.namesCurrent then .full else if op = .query then .form else .none

theorem CmdOp.handleUse_full {op : CmdOp} (h : op.namesCurrent = true) : op.handleUse = .full := by
  rw [CmdOp.handleUse, if_pos h]

theorem CmdOp.handleUse_ne_none {op : CmdOp} (h : op.namesCurrent = true ∨ op = .query) : op.handleUse ≠ .none := by
  obtain h | rfl := h
  · rw [CmdOp.handleUse_full h]
    nofun
  · nofun

/-- Each custody row judges the entry it takes by the checks of the handle that its command makes. -/
theorem exec_custodyRow_handleUse (op : CmdOp) (p : PortId) (s : State) :
    ∃ (own : State → List Byte → List (Bool × ResultCode)) (accept : List Byte → State → State),
      exec (custodyRow op p) s = .next (s.taking p op (fun raw s => s.judge p op.handleUse raw (own s raw) (accept raw))) := by
  cases op <;> exact ⟨_, _, rfl⟩

/-- A command that is taken ends as its entry is judged. -/
theorem State.takes.exec {op : CmdOp} (h : s.takes p op raw) :
    ∃ own accept, Machine.exec (custodyRow op p) s = .next (s.judge p op.handleUse raw own accept) := by
  obtain ⟨-, -, ho, r, hr, rfl⟩ := h
  obtain ⟨own, accept, row⟩ := exec_custodyRow_handleUse op p s
  exact ⟨own s r.raw, accept r.raw, by rw [row, State.taking_of _ hr ho]⟩

/-- The handle fails the check of its form where its id is no buffer's or an unused bit is set (R28). -/
theorem State.handleOk_eq_false {w : Word} : s.handleOk w = false ↔ s.records.length ≤ handleId w ∨ handleUnused w ≠ 0 := by
  rw [State.handleOk, Bool.and_eq_false_iff, decide_eq_false_iff_not, not_lt, beq_eq_false_iff_ne]

section Judge
variable {u : HandleUse} (ready : s.mapState = .ready) (active : s.active p = true) (own : List (Bool × ResultCode))
  (accept : State → State)
include ready active

/-- A handle that names no buffer ends the command BAD_COMMAND (R28, R65). -/
theorem State.judge_noBuffer (hu : u ≠ .none) (h : s.handleOk (entryHandle raw) = false) :
    s.judge p u raw own accept = s.endTaken p (Result.bare .badCommand) :=
  State.judge_early u raw own accept (by simp [State.earlyChecks, firstRefusal, ready, active, hu, h])

/-- A handle of an old generation ends the command STALE, with the buffer's handle as it stands (R29, R65). -/
theorem State.judge_stale (ok : s.handleOk (entryHandle raw) = true)
    (old : handleGen (entryHandle raw) ≠ (s.record (entryBuf raw)).gen) :
    s.judge p .full raw own accept = s.endTakenOn p (entryBuf raw) .stale := by
  have early : firstRefusal (s.earlyChecks p .full raw) = none := by simp [State.earlyChecks, firstRefusal, ready, active, ok]
  have stale : firstRefusal (s.staleCheck .full raw ++ own) = some .stale := firstRefusal_cons_true (by simpa using old) _ _
  rw [State.judge, early]
  dsimp only
  rw [stale]
  rfl

end Judge

end Sys2Proof.Machine

/-- Settles O34: the row judges the entry by the checks its command makes, and the first of them that fails ends it. -/
theorem badHandlesAreRefused : Obligations.BadHandlesAreRefused := by
  unfold Obligations.BadHandlesAreRefused
  intro s p op raw takes names
  obtain ⟨own, accept, row⟩ := takes.exec
  obtain ⟨ready, active, -⟩ := takes
  refine ⟨fun bad => ?_, fun current ok old => ?_⟩
  · rw [row, State.judge_noBuffer ready active own accept (CmdOp.handleUse_ne_none names) (State.handleOk_eq_false.mpr bad)]
  · rw [row, CmdOp.handleUse_full current, State.judge_stale ready active own accept ok old]
    rfl
end

