-- ==== Sys2Proof/Proofs/PortResetOfHolder.lean ====
section
/-!
THEOREMS. The reset of a port that holds one buffer plainly, with nothing else under way (R38, R175, R176): the port's own part, the sweep
that frees the one buffer, and the yields and bursts that are not there.
-/
open Sys2Proof Sys2Proof.Machine

namespace Sys2Proof.Machine

variable {s : State} {p : PortId} {b : BufId}

/-! ### The port's own part (R62, R110, R175) -/

/-- An inbox that delivers nothing has no flag to clear. -/
theorem Inbox.clearDelivering_of {x : Inbox} (h : ∀ i ∈ x.urgent ++ x.routine, i.delivering = false) : x.clearDelivering = x := by
  have still : ∀ l : List Item, (∀ i ∈ l, i.delivering = false) → l.map (fun i => { i with delivering := false }) = l := by
    intro l hl
    conv_rhs => rw [← List.map_id l]
    refine List.map_congr_left (fun i hi => ?_)
    rw [← hl i hi]
    rfl
  rw [Inbox.clearDelivering, still _ (fun i hi => h i (List.mem_append_left _ hi)), still _ (fun i hi => h i (List.mem_append_right _ hi))]

theorem Inbox.delivering_none {x : Inbox} (h : ∀ i ∈ x.urgent ++ x.routine, i.delivering = false) : x.delivering = none := by
  have urgent : x.urgent.find? Item.delivering = none := List.find?_eq_none.mpr (fun i hi => by simp [h i (List.mem_append_left _ hi)])
  have routine : x.routine.find? Item.delivering = none := List.find?_eq_none.mpr (fun i hi => by simp [h i (List.mem_append_right _ hi)])
  rw [Inbox.delivering, urgent, routine]

/-- A port with no command outstanding and no item being delivered, as its reset leaves it: no discard is counted, and the inbox stays. -/
def Port.wentDown (P : Port) : Port :=
  { P with
    state := .down
    slots := .fill none
    rotation := [.yield, .record, .move]
    recordTurn := .command
    events := P.events &&& 0x200
    cmd := { P.cmd with state := .stopped, run := false, next := 0, load := none, held := none, deadline := none }
    arr := { P.arr with state := .stopped, run := false, next := 0, load := none, store := none, stopWaiting := false, deadline := none } }

/-- A Command Process with nothing outstanding is stopped with nothing to discard (R62). -/
theorem Port.cmdShut_idle {P : Port} (h : P.cmd.outstanding = []) : P.cmdShut true = { P with cmd := { P.cmd with
    state := .stopped, run := false, next := 0, load := none, held := none, deadline := none } } := by
  have stores : P.cmd.outstanding.filter (fun r => !r.notEnded) = [] := by rw [h]; rfl
  have marked : markNotEnded (P.cmd.outstanding.filter CmdRec.notEnded) = P.cmd.outstanding := by rw [h]; rfl
  rw [Port.cmdShut]
  dsimp only
  rw [stores, marked]
  rfl

theorem Port.doReset_idle {P : Port} (outstanding : P.cmd.outstanding = [])
    (still : ∀ i ∈ P.inbox.urgent ++ P.inbox.routine, i.delivering = false) : P.doReset = P.wentDown := by
  rw [Port.doReset, Port.cmdShut_idle (by exact outstanding), Port.arrShut, Port.modArr, Port.modInbox]
  dsimp only
  rw [Inbox.clearDelivering_of still]
  rfl

/-! ### The sweep (R38) -/

/-- A buffer held plainly is lent to nobody, so no DROP is asked for it. -/
theorem State.recallAsks_plain (held : (s.record b).custody = .heldPlain p) : s.recallAsks b = [] := by
  rw [State.recallAsks, State.owned_of held]
  rfl

theorem State.sweepAsks_plain (held : (s.record b).custody = .heldPlain p) : s.sweepAsks [b] = [] := by
  simp [State.sweepAsks, State.recallAsks_plain held]

/-- The sweep frees a buffer held plainly. -/
theorem State.sweepHeld_plain (held : (s.record b).custody = .heldPlain p) : s.sweepHeld b p = s.freeFrom b p := by
  rw [State.sweepHeld, State.owned_of held]
  rfl

/-- Buffer `b` given back by port `p`: at the tail of its pool's list, with the next generation and `p`'s charge one less (R27, R33). -/
def State.givenBack (b : BufId) (p : PortId) (s : State) : State :=
  (s.modRecord b Record.enterFree).modPool (s.poolOf b) (fun q =>
    { q with free := q.free ++ [b], charge := q.charge.set p (q.charge.get p - 1) })

/-- With no channel waiting on the pool, a freed buffer is given back and goes to nobody (R31). -/
theorem State.freeFrom_plain (waiting : (s.pool (s.poolOf b)).waiting = []) : s.freeFrom b p = s.givenBack b p := by
  rw [State.freeFrom, State.enterFreeList_plain waiting, State.chargeDown, State.modPool_modPool]
  rfl

/-- A FREE record names no port. -/
theorem Record.apartFrom_free {r : Record} (h : r.custody = .free) (p : PortId) : r.apartFrom p := by
  rw [Record.apartFrom, h]
  trivial

/-- With its one buffer given back, no record concerns the port. -/
theorem State.givenBack_apart (others : ∀ x, x ≠ b → (s.record x).apartFrom p) (inRange : b < s.records.length) (x : BufId) :
    ((s.givenBack b p).record x).apartFrom p := by
  show ((s.modRecord b Record.enterFree).record x).apartFrom p
  rw [State.modRecord_record]
  split
  · exact Record.apartFrom_free rfl p
  · rename_i other
    exact others x (fun e => other ⟨e, inRange⟩)

/-- The sweep of a port that one record concerns, as the plain holder of its buffer (R38). -/
theorem State.sweep_plain (others : ∀ x, x ≠ b → (s.record x).apartFrom p) (held : (s.record b).custody = .heldPlain p)
    (waiting : (s.pool (s.poolOf b)).waiting = []) :
    s.sweep p = { s.givenBack b p with freeCount := s.freeCount + 1 } := by
  have inRange : b < s.records.length := State.record_inRange (by rw [held]; nofun)
  have idle : s.sweepList (Record.idleOf p) = [b] :=
    State.sweepList_one inRange (by simp [Record.idleOf, Custody.heldBy, Custody.heldPlain, held])
      (fun x hx => Record.idleOf_apart (others x hx))
  have apart := State.givenBack_apart others inRange
  unfold State.sweep
  rw [idle]
  simp only [State.sweepAsks_plain held, List.foldl_cons, List.foldl_nil, State.sweepHeld_plain held, State.freeFrom_plain waiting,
    State.records_map (fun x => Record.orphaned_apart (apart x)), State.sweepList_none (fun x => Record.readBy_apart (apart x))]
  rfl

/-! ### The yields that are not there -/

/-- With no yield asked, none ends (R125, R126). -/
theorem YieldUnit.endFor_none {y : YieldUnit} (live : y.live = []) (waiting : y.waiting = []) (p : PortId) : y.endFor p = y := by
  obtain ⟨_, tags, _⟩ := y
  subst live waiting
  simp [YieldUnit.endFor, YieldUnit.serveAll, YieldUnit.serve]

theorem YieldUnit.asksFor_none {y : YieldUnit} (live : y.live = []) (waiting : y.waiting = []) (p : PortId) : y.asksFor p = [] := by
  simp [YieldUnit.asksFor, live, waiting]

/-- LINK_LOSS and a CONTROL write with RESET set are both the port reset (R150 step 1, R174). -/
theorem exec_portReset {w : Word} {c : Instr} (h : c = .linkLoss p ∨ (c = .controlReset p w ∧ ctlReset w = true)) :
    exec c s = .next (s.portReset p) := by
  obtain rfl | ⟨rfl, reset⟩ := h
  · rfl
  · show Host.Outcome.next (s.controlWrite p w) = _
    rw [State.controlWrite, if_pos reset]

end Sys2Proof.Machine

/-- Settles O19: the port goes down, the sweep gives its one buffer back, and no yield or burst is there to end. -/
theorem portResetFreesAHeldBuffer : Obligations.PortResetFreesAHeldBuffer := by
  unfold Obligations.PortResetFreesAHeldBuffer
  intro s p w c b r row there plain others waiting outstanding still live places bursts rest
  have held : (s.record b).custody = .heldPlain p := by simp [State.record, there, plain]
  have down : s.modPort p Port.doReset = s.modPort p Port.wentDown := State.modPort_congr (Port.doReset_idle outstanding still)
  have swept : ((s.modPort p Port.doReset).leaseAbandoned (s.port p).inbox.delivering p).sweep p =
      { (s.modPort p Port.wentDown).givenBack b p with freeCount := s.freeCount + 1 } := by
    rw [Inbox.delivering_none still, down]
    exact State.sweep_plain (s := s.modPort p Port.wentDown) others held waiting
  rw [exec_portReset row, State.portReset_of _ swept (YieldUnit.asksFor_none live places p) rfl bursts rest]
  show Host.Outcome.next { (s.modPort p Port.wentDown).givenBack b p with
    yields := s.yields.endFor p, freeCount := s.freeCount + 1 } = _
  rw [YieldUnit.endFor_none live places]
  rfl
end

