-- ==== Sys2Proof/Proofs/PackedWords.lean ====
section
/-!
SUPPORT. A register word as fields that lie apart (R182), and what a read of one field gives; a set of ports as a mask (R180).
-/
namespace Sys2Proof.Machine
open Sys2Proof

/-- A field of a register word: the bit it begins at, its width and its value. -/
structure WordField where
  place : Nat
  width : Nat
  value : Word

/-- The word with each field's value at its place. -/
def packWord (l : List WordField) : Word := l.foldr (fun f w => f.value <<< f.place ||| w) 0

namespace WordField

/-- The field's value needs no more bits than it has. -/
def fits (f : WordField) : Prop := f.value.toNat < 2 ^ f.width

/-- Two fields share no bit. -/
def apart (f g : WordField) : Prop := f.place + f.width ≤ g.place ∨ g.place + g.width ≤ f.place

/-- Bit `j` lies outside of the field. -/
def misses (f : WordField) (j : Nat) : Prop := j < f.place ∨ f.place + f.width ≤ j

theorem apart.symm {f g : WordField} (h : f.apart g) : g.apart f := Or.symm h

theorem apart.misses {f g : WordField} (h : g.apart f) {i : Nat} (hi : i < f.width) : g.misses (f.place + i) := by
  unfold WordField.apart at h
  unfold WordField.misses
  omega

end WordField

theorem Word.getLsbD_of_lt {x : Word} {m i : Nat} (h : x.toNat < 2 ^ m) (hi : m ≤ i) : x.getLsbD i = false := by
  rw [← BitVec.testBit_toNat]
  exact Nat.testBit_eq_false_of_lt (h.trans_le (Nat.pow_le_pow_right (by decide) hi))

/-- A field that fits shows nothing outside of its place. -/
theorem WordField.getLsbD_shift {f : WordField} {j : Nat} (fits : f.fits) (h : f.misses j) : (f.value <<< f.place).getLsbD j = false := by
  obtain below | above := h
  · simp [below]
  · simp [Word.getLsbD_of_lt fits (show f.width ≤ j - f.place by omega)]

theorem packWord_cons (f : WordField) (l : List WordField) : packWord (f :: l) = f.value <<< f.place ||| packWord l := rfl

variable {l : List WordField}

/-- A bit of no field reads 0. -/
theorem getLsbD_packWord_unused {j : Nat} (fits : ∀ f ∈ l, f.fits) (h : ∀ f ∈ l, f.misses j) : (packWord l).getLsbD j = false := by
  induction l with
  | nil => simp [packWord]
  | cons f l ih =>
    rw [packWord_cons, BitVec.getLsbD_or, WordField.getLsbD_shift (fits f (by simp)) (h f (by simp)),
      ih (fun g hg => fits g (by simp [hg])) (fun g hg => h g (by simp [hg])), Bool.or_self]

/-- A bit of a field reads as in the field's value. -/
theorem getLsbD_packWord {f : WordField} {i : Nat} (fits : ∀ f ∈ l, f.fits) (apart : l.Pairwise WordField.apart) (hf : f ∈ l)
    (hi : i < f.width) (inWord : f.place + i < 32) : (packWord l).getLsbD (f.place + i) = f.value.getLsbD i := by
  induction l with
  | nil => cases hf
  | cons g l ih =>
    obtain ⟨first, rest⟩ := List.pairwise_cons.mp apart
    have fits' : ∀ x ∈ l, x.fits := fun x hx => fits x (by simp [hx])
    rw [packWord_cons, BitVec.getLsbD_or]
    obtain rfl | hf := List.mem_cons.mp hf
    · rw [getLsbD_packWord_unused fits' (fun x hx => (first x hx).symm.misses hi), Bool.or_false, BitVec.getLsbD_shiftLeft,
        Nat.add_sub_cancel_left]
      simp [inWord]
    · rw [WordField.getLsbD_shift (fits g (by simp)) ((first f hf).misses hi), ih fits' rest hf, Bool.false_or]

/-- The bits of a field read as the field's value. -/
theorem extract_packWord {f : WordField} (fits : ∀ f ∈ l, f.fits) (apart : l.Pairwise WordField.apart) (hf : f ∈ l)
    (inWord : f.place + f.width ≤ 32) : (packWord l).extractLsb' f.place f.width = f.value.setWidth f.width := by
  refine BitVec.eq_of_getLsbD_eq (fun i hi => ?_)
  rw [BitVec.getLsbD_extractLsb', getLsbD_packWord fits apart hf hi (by omega)]
  simp [hi]

theorem extract_packWord_unused {s n : Nat} (fits : ∀ f ∈ l, f.fits) (h : ∀ f ∈ l, ∀ i < n, f.misses (s + i)) :
    (packWord l).extractLsb' s n = 0 := by
  refine BitVec.eq_of_getLsbD_eq (fun i hi => ?_)
  rw [BitVec.getLsbD_extractLsb', getLsbD_packWord_unused fits (fun f hf => h f hf i hi)]
  simp

/-- A value that fits in a field stands whole in it. -/
theorem setWidth_of_fits {x : Word} {n : Nat} (h : x.toNat < 2 ^ n) : (x.setWidth n).setWidth 32 = x := by
  refine BitVec.eq_of_toNat_eq ?_
  rw [BitVec.toNat_setWidth, BitVec.toNat_setWidth, Nat.mod_eq_of_lt h, Nat.mod_eq_of_lt x.isLt]

/-! ### What a read of a packed word shows -/

theorem boolBit_lt (b : Bool) : (boolBit b).toNat < 2 ^ 1 := by cases b <;> decide

theorem byte_lt (b : Byte) : (b.zeroExtend 32).toNat < 2 ^ 8 := by
  rw [BitVec.toNat_setWidth]
  omega

/-- The word `w` holds the fields `l`, which fit and lie apart. -/
structure Packs (w : Word) (l : List WordField) : Prop where
  word : w = packWord l
  fits : ∀ f ∈ l, f.fits
  apart : l.Pairwise WordField.apart

namespace Packs
variable {w x : Word} {k n : Nat} (h : Packs w l)
include h

theorem bit {i : Nat} (hf : ⟨k, n, x⟩ ∈ l) (hi : i < n) (inWord : k + i < 32) : w.getLsbD (k + i) = x.getLsbD i := by
  rw [h.word]
  exact getLsbD_packWord h.fits h.apart hf hi inWord

theorem field (hf : ⟨k, n, x⟩ ∈ l) (inWord : k + n ≤ 32) : w.extractLsb' k n = x.setWidth n := by
  rw [h.word]
  exact extract_packWord h.fits h.apart hf inWord

theorem code (hf : ⟨k, n, x⟩ ∈ l) (inWord : k + n ≤ 32) : (w.extractLsb' k n).zeroExtend 32 = x := by
  rw [h.field hf inWord]
  exact setWidth_of_fits (h.fits _ hf)

theorem number (hf : ⟨k, n, x⟩ ∈ l) (inWord : k + n ≤ 32) : (w.extractLsb' k n).toNat = x.toNat := by
  rw [h.field hf inWord, BitVec.toNat_setWidth]
  exact Nat.mod_eq_of_lt (h.fits _ hf)

theorem byte {b : Byte} (hf : ⟨k, 8, b.zeroExtend 32⟩ ∈ l) (inWord : k + 8 ≤ 32) : w.extractLsb' k 8 = b := by
  rw [h.field hf inWord]
  simp

theorem flag {b : Bool} (hf : ⟨k, 1, boolBit b⟩ ∈ l) (inWord : k < 32) : w.getLsbD k = b := by
  rw [show w.getLsbD k = _ from h.bit (i := 0) hf Nat.one_pos inWord]
  cases b <;> rfl

theorem unused (miss : ∀ f ∈ l, ∀ i < n, f.misses (k + i)) : w.extractLsb' k n = 0 := by
  rw [h.word]
  exact extract_packWord_unused h.fits miss

end Packs

/-! ### Masks (R180) -/

/-- Bit n of a mask is set where port n is in the set. -/
theorem portMask_getLsbD (l : List PortId) (n : PortId) : (portMask l).getLsbD n.val = decide (n ∈ l) := by
  induction l with
  | nil => simp [portMask]
  | cons p l ih =>
    have one : (1#8 <<< p.val).getLsbD n.val = decide (n = p) := by
      fin_cases p <;> fin_cases n <;> rfl
    have step : portMask (p :: l) = portMask l ||| (1#8 <<< p.val) := rfl
    rw [step, BitVec.getLsbD_or, ih, one, Bool.or_comm]
    simp

theorem State.fencedMask_getLsbD (s : State) (n : PortId) : s.fencedMask.getLsbD n.val = s.fenced n := by
  have listed : n ∈ fourIds := by fin_cases n <;> decide
  rw [State.fencedMask, portMask_getLsbD]
  simp [listed]

end Sys2Proof.Machine
end

