-- ==== Sys2Proof/Proofs/Layouts.lean ====
section
/-!
THEOREMS. The words and images an agent reads (R28, R46, R100, R180 to R182): the handle word, the completion, the arrival record, and the
registers of the window as fields that lie apart.
-/
open Sys2Proof Sys2Proof.Machine

namespace Sys2Proof.Machine

/-! ### Handles (R28, R180) -/

section Handle
variable {b : Nat} (g : Byte) (h : b < 4096)
include h

theorem handleWord_toNat : (handleWord b g).toNat = b + 4096 * g.toNat := by
  have id : (BitVec.ofNat 12 b).toNat = b := by rw [BitVec.toNat_ofNat, Nat.mod_eq_of_lt h]
  have low : (g ++ BitVec.ofNat 12 b).toNat = b + 4096 * g.toNat := by
    rw [BitVec.toNat_append, id, ← Nat.shiftLeft_add_eq_or_of_lt (show b < 2 ^ 12 from h), Nat.shiftLeft_eq]
    omega
  rw [handleWord, BitVec.toNat_append, low]
  simp

theorem handleId_handleWord : handleId (handleWord b g) = b := by
  rw [handleId, BitVec.extractLsb'_toNat, handleWord_toNat g h, Nat.shiftRight_eq_div_pow]
  show (b + 4096 * g.toNat) / 2 ^ 0 % 2 ^ 12 = b
  omega

theorem handleGen_handleWord : handleGen (handleWord b g) = g := by
  refine BitVec.eq_of_toNat_eq ?_
  rw [handleGen, BitVec.extractLsb'_toNat, handleWord_toNat g h, Nat.shiftRight_eq_div_pow]
  omega

theorem handleUnused_handleWord : handleUnused (handleWord b g) = 0 := by
  refine BitVec.eq_of_toNat_eq ?_
  rw [handleUnused, BitVec.extractLsb'_toNat, handleWord_toNat g h, Nat.shiftRight_eq_div_pow]
  show (b + 4096 * g.toNat) / 2 ^ 20 % 2 ^ 12 = 0
  omega

end Handle

/-! ### Bytes and words -/

/-- Four bytes that are a word's read as the word. -/
theorem word32At_of_bytes {l : List Byte} {k : Nat} {w : Word} (h0 : byteAt l k = w.extractLsb' 0 8)
    (h1 : byteAt l (k + 1) = w.extractLsb' 8 8) (h2 : byteAt l (k + 2) = w.extractLsb' 16 8)
    (h3 : byteAt l (k + 3) = w.extractLsb' 24 8) : word32At l k = w := by
  rw [word32At, word16At, word16At, show k + 2 + 1 = k + 3 from rfl, h0, h1, h2, h3,
    BitVec.extractLsb'_append_extractLsb'_eq_extractLsb' (by rfl),
    BitVec.extractLsb'_append_extractLsb'_eq_extractLsb' (by rfl), BitVec.extractLsb'_append_extractLsb'_eq_extractLsb' (by rfl)]
  exact BitVec.extractLsb'_eq_self

/-- The lower three bytes of a number's word hold the number up to 24 bits. -/
theorem threeBytes_toNat (n : Nat) : ((BitVec.ofNat 32 n).extractLsb' 0 8).toNat + 2 ^ 8 * ((BitVec.ofNat 32 n).extractLsb' 8 8).toNat +
    2 ^ 16 * ((BitVec.ofNat 32 n).extractLsb' 16 8).toNat = n % 2 ^ 24 := by
  simp only [BitVec.extractLsb'_toNat, BitVec.toNat_ofNat, Nat.shiftRight_eq_div_pow]
  omega

/-! ### The completion (R46, R181) -/

/-- Bytes 0 to 19 of a completion: owner AGENT, and what was loaded. -/
def loadedBytes (raw : List Byte) : List Byte := [0] ++ (List.range 19).map (fun i => byteAt raw (i + 1))

/-- Bytes 20 to 31 of a completion. -/
def resultBytes (r : Result) : List Byte :=
  [r.code.byte] ++ r.detail.bytes.take 3 ++ wordBytes (r.handle.getD noneHandle) ++ r.detail.bytes.drop 3

section Completion
variable (raw : List Byte) (r : Result)

theorem completionBytes_eq : completionBytes raw r = loadedBytes raw ++ resultBytes r := by
  simp only [completionBytes, loadedBytes, resultBytes, List.append_assoc]

@[simp] theorem loadedBytes_length : (loadedBytes raw).length = 20 := by simp [loadedBytes]

@[simp] theorem resultBytes_length : (resultBytes r).length = 12 := by
  obtain ⟨_, _, detail⟩ := r
  cases detail <;> rfl

theorem completionBytes_length : (completionBytes raw r).length = 32 := by
  rw [completionBytes_eq, List.length_append, loadedBytes_length, resultBytes_length]

theorem byteAt_completion_loaded {i : Nat} (low : 1 ≤ i) (high : i ≤ 19) : byteAt (completionBytes raw r) i = byteAt raw i := by
  obtain ⟨k, rfl⟩ := Nat.exists_eq_add_of_le' low
  rw [completionBytes_eq, byteAt, List.getD_append _ _ _ _ (by rw [loadedBytes_length]; omega), loadedBytes, List.singleton_append,
    List.getD_cons_succ, List.getD_eq_getElem?_getD, List.getElem?_map, List.getElem?_range (by omega)]
  rfl

theorem byteAt_completion_result (k : Nat) : byteAt (completionBytes raw r) (20 + k) = byteAt (resultBytes r) k := by
  rw [completionBytes_eq, byteAt, List.getD_append_right _ _ _ _ (by simp), loadedBytes_length, Nat.add_sub_cancel_left]
  rfl

theorem word32At_completion_handle : word32At (completionBytes raw r) 24 = r.handle.getD noneHandle := by
  have at' := byteAt_completion_result raw r
  obtain ⟨code, handle, detail⟩ := r
  refine word32At_of_bytes ((at' 4).trans ?_) ((at' 5).trans ?_) ((at' 6).trans ?_) ((at' 7).trans ?_) <;> cases detail <;> rfl

/-- The seven detail bytes stand at 21 to 23 and 28 to 31. -/
theorem completion_detail : [21, 22, 23, 28, 29, 30, 31].map (byteAt (completionBytes raw r)) = r.detail.bytes := by
  have at' := byteAt_completion_result raw r
  have places : [21, 22, 23, 28, 29, 30, 31].map (byteAt (completionBytes raw r)) =
      [1, 2, 3, 8, 9, 10, 11].map (byteAt (resultBytes r)) := by
    simp only [List.map_cons, List.map_nil, ← at']
  rw [places]
  obtain ⟨code, handle, detail⟩ := r
  cases detail <;> rfl

variable {r}

theorem completion_zero (h : r.detail = .zero) : ∀ i ∈ [21, 22, 23, 28, 29, 30, 31], byteAt (completionBytes raw r) i = 0 := by
  have detail := completion_detail raw r
  rw [h] at detail
  simpa [Detail.bytes] using detail

theorem completion_move {m : MoveReason} (h : r.detail = .move m) : byteAt (completionBytes raw r) 21 = m.byte ∧
    ∀ i ∈ [22, 23, 28, 29, 30, 31], byteAt (completionBytes raw r) i = 0 := by
  have detail := completion_detail raw r
  rw [h] at detail
  simpa [Detail.bytes] using detail

theorem completion_query {q : Snapshot} (h : r.detail = .query q) :
    let out := completionBytes raw r
    byteAt out 21 = q.state.byte ∧ byteAt out 22 = portByte q.holder ∧
    (∀ n : Fin 4, (byteAt out 23).getLsbD n.val = decide (n ∈ q.readers)) ∧ byteAt out 28 = q.gen ∧
    (byteAt out 29).toNat + 2 ^ 8 * (byteAt out 30).toNat + 2 ^ 16 * (byteAt out 31).toNat = q.length % 2 ^ 24 := by
  have detail := completion_detail raw r
  rw [h] at detail
  simp only [List.map_cons, List.map_nil, Detail.bytes, wordBytes, List.take, List.cons_append, List.nil_append, List.cons.injEq,
    and_true] at detail
  obtain ⟨state, holder, readers, gen, low, mid, high⟩ := detail
  refine ⟨state, holder, fun n => ?_, gen, ?_⟩
  · rw [readers, portMask_getLsbD]
  · rw [low, mid, high, threeBytes_toNat]

end Completion

theorem portByte_toNat (p : PortId) : (portByte (some p)).toNat = p.val := by fin_cases p <;> rfl

/-! ### The registers of the window as fields (R166, R182) -/

theorem PortState.code_lt (x : PortState) : x.code.toNat < 2 ^ 2 := by cases x <;> decide
theorem CmdState.code_lt (x : CmdState) : x.code.toNat < 2 ^ 3 := by cases x <;> decide
theorem ArrState.code_lt (x : ArrState) : x.code.toNat < 2 ^ 2 := by cases x <;> decide
theorem MapState.code_lt (x : MapState) : x.code.toNat < 2 ^ 2 := by cases x <;> decide
theorem FailReason.code_lt (x : FailReason) : x.code.toNat < 2 ^ 2 := by cases x <;> decide
theorem FaultKind.code_lt (x : FaultKind) : x.code.toNat < 2 ^ 4 := by cases x <;> decide

theorem FaultKind.isAddress_iff (k : FaultKind) :
    k.isAddress = true ↔ k = .fetchError ∨ k = .arrivalError ∨ k = .responseExpired := by
  cases k <;> simp [FaultKind.isAddress]

/-- The fields of STATUS. -/
def State.statusFields (s : State) (p : PortId) : List WordField :=
  [⟨0, 2, (s.port p).state.code⟩, ⟨4, 3, (s.port p).cmd.state.code⟩, ⟨8, 2, (s.port p).arr.state.code⟩, ⟨12, 2, s.mapState.code⟩,
    ⟨16, 2, s.reason.code⟩, ⟨20, 1, boolBit (s.cfg p).present⟩, ⟨21, 1, boolBit (s.cfg p).caching⟩,
    ⟨22, 1, boolBit (s.cfg p).recovery⟩, ⟨24, 8, s.fencedMask.zeroExtend 32⟩]

theorem State.statusWord_packs (s : State) (p : PortId) : Packs (s.statusWord p) (s.statusFields p) where
  word := by simp [State.statusWord, State.statusFields, packWord, BitVec.or_assoc]
  fits := by
    simp only [State.statusFields, List.forall_mem_cons]
    exact ⟨PortState.code_lt _, CmdState.code_lt _, ArrState.code_lt _, MapState.code_lt _, FailReason.code_lt _, boolBit_lt _,
      boolBit_lt _, boolBit_lt _, byte_lt _, by simp⟩
  apart := by simp [State.statusFields, WordField.apart]

theorem State.statusWord_shows (s : State) (p : PortId) :
    let w := s.statusWord p
    (w.extractLsb' 0 2).zeroExtend 32 = (s.port p).state.code ∧ (w.extractLsb' 4 3).zeroExtend 32 = (s.port p).cmd.state.code ∧
    (w.extractLsb' 8 2).zeroExtend 32 = (s.port p).arr.state.code ∧ (w.extractLsb' 12 2).zeroExtend 32 = s.mapState.code ∧
    (w.extractLsb' 16 2).zeroExtend 32 = s.reason.code ∧ w.getLsbD 20 = (s.cfg p).present ∧ w.getLsbD 21 = (s.cfg p).caching ∧
    w.getLsbD 22 = (s.cfg p).recovery ∧ ∀ n : Fin 4, w.getLsbD (24 + n.val) = s.fenced n := by
  have h := s.statusWord_packs p
  refine ⟨h.code ?_ (by decide), h.code ?_ (by decide), h.code ?_ (by decide), h.code ?_ (by decide), h.code ?_ (by decide),
    h.flag ?_ (by decide), h.flag ?_ (by decide), h.flag ?_ (by decide), fun n => ?_⟩
  case refine_9 =>
    have mask : (⟨24, 8, s.fencedMask.zeroExtend 32⟩ : WordField) ∈ s.statusFields p := by simp [State.statusFields]
    rw [h.bit mask (by omega) (by omega), BitVec.getLsbD_setWidth, State.fencedMask_getLsbD]
    simp [show n.val < 32 by omega]
  all_goals simp [State.statusFields]

/-- The upper bits of the info, for the three address kinds (R166). -/
def FaultRecord.upperInfo (f : FaultRecord) : Byte :=
  if f.kind = .fetchError ∨ f.kind = .arrivalError ∨ f.kind = .responseExpired then f.info.extractLsb' 32 8 else 0

/-- The fields of FAULT. -/
def FaultRecord.fields (f : FaultRecord) : List WordField :=
  [⟨0, 4, f.kind.code⟩, ⟨4, 1, boolBit (decide (f.kind = .unsolicited ∧ f.source = .data))⟩, ⟨8, 8, f.count.zeroExtend 32⟩,
    ⟨16, 8, f.discards.zeroExtend 32⟩, ⟨24, 8, f.upperInfo.zeroExtend 32⟩]

theorem FaultRecord.faultWord_packs (f : FaultRecord) : Packs f.faultWord f.fields where
  word := by
    have mark : (f.kind == .unsolicited && f.source == .data) = decide (f.kind = .unsolicited ∧ f.source = .data) :=
      (Bool.decide_and _ _).symm
    have upper : (if f.kind.isAddress then (f.info.extractLsb' 32 8).zeroExtend 32 <<< 24 else 0 : Word) =
        f.upperInfo.zeroExtend 32 <<< 24 := by
      simp only [FaultRecord.upperInfo, FaultKind.isAddress_iff]
      split <;> rfl
    rw [FaultRecord.faultWord, mark, upper]
    simp [FaultRecord.fields, packWord, BitVec.or_assoc]
  fits := by
    simp only [FaultRecord.fields, List.forall_mem_cons]
    exact ⟨FaultKind.code_lt _, boolBit_lt _, byte_lt _, byte_lt _, byte_lt _, by simp⟩
  apart := by simp [FaultRecord.fields, WordField.apart]

theorem FaultRecord.faultWord_shows (f : FaultRecord) :
    let w := f.faultWord
    (w.extractLsb' 0 4).zeroExtend 32 = f.kind.code ∧ w.getLsbD 4 = decide (f.kind = .unsolicited ∧ f.source = .data) ∧
    w.extractLsb' 5 3 = 0 ∧ w.extractLsb' 8 8 = f.count ∧ w.extractLsb' 16 8 = f.discards ∧ w.extractLsb' 24 8 = f.upperInfo := by
  have h := f.faultWord_packs
  refine ⟨h.code ?_ (by decide), h.flag ?_ (by decide), h.unused ?_, h.byte ?_ (by decide), h.byte ?_ (by decide),
    h.byte ?_ (by decide)⟩
  case refine_3 =>
    simp only [FaultRecord.fields, WordField.misses, List.forall_mem_cons]
    exact ⟨by omega, by omega, by omega, by omega, by omega, by simp⟩
  all_goals simp [FaultRecord.fields]

/-- The fields of INBOX. -/
def Inbox.fields (x : Inbox) : List WordField :=
  [⟨0, 9, BitVec.ofNat 32 x.urgent.length⟩, ⟨10, 9, BitVec.ofNat 32 x.routine.length⟩, ⟨20, 9, BitVec.ofNat 32 x.reserved⟩]

theorem ofNat_toNat_of_count {n : Nat} (h : n < 512) : (BitVec.ofNat 32 n).toNat = n := by
  rw [BitVec.toNat_ofNat]
  omega

theorem Inbox.word_packs {x : Inbox} (urgent : x.urgent.length < 512) (routine : x.routine.length < 512) (reserved : x.reserved < 512) :
    Packs x.word x.fields where
  word := by simp [Inbox.word, Inbox.fields, packWord, BitVec.or_assoc]
  fits := by
    have fits : ∀ n < 512, (BitVec.ofNat 32 n).toNat < 2 ^ 9 := fun n h => (ofNat_toNat_of_count h).trans_lt h
    simp only [Inbox.fields, List.forall_mem_cons]
    exact ⟨fits _ urgent, fits _ routine, fits _ reserved, by simp⟩
  apart := by simp [Inbox.fields, WordField.apart]

theorem Inbox.word_shows {x : Inbox} (urgent : x.urgent.length < 512) (routine : x.routine.length < 512) (reserved : x.reserved < 512) :
    (x.word.extractLsb' 0 9).toNat = x.urgent.length ∧ (x.word.extractLsb' 10 9).toNat = x.routine.length ∧
    (x.word.extractLsb' 20 9).toNat = x.reserved := by
  have h := Inbox.word_packs urgent routine reserved
  refine ⟨(h.number ?_ (by decide)).trans (ofNat_toNat_of_count urgent), (h.number ?_ (by decide)).trans (ofNat_toNat_of_count routine),
    (h.number ?_ (by decide)).trans (ofNat_toNat_of_count reserved)⟩ <;> simp [Inbox.fields]

/-- The word at 24h: the high bits of the two ring bases. -/
def Port.highWord (P : Port) : Word :=
  (P.cmd.base.extractLsb' 32 8).zeroExtend 32 ||| ((P.arr.base.extractLsb' 32 8).zeroExtend 32 <<< 16)

theorem State.windowRead_high (s : State) (p : PortId) : s.windowRead p 0x24 = some (s.port p).highWord := rfl

/-- The fields of the word at 24h. -/
def Port.highFields (P : Port) : List WordField :=
  [⟨0, 8, (P.cmd.base.extractLsb' 32 8).zeroExtend 32⟩, ⟨16, 8, (P.arr.base.extractLsb' 32 8).zeroExtend 32⟩]

theorem Port.highWord_packs (P : Port) : Packs P.highWord P.highFields where
  word := by simp [Port.highWord, Port.highFields, packWord]
  fits := by
    simp only [Port.highFields, List.forall_mem_cons]
    exact ⟨byte_lt _, byte_lt _, by simp⟩
  apart := by simp [Port.highFields, WordField.apart]

theorem Port.highWord_shows (P : Port) :
    P.highWord.extractLsb' 0 8 = P.cmd.base.extractLsb' 32 8 ∧ P.highWord.extractLsb' 16 8 = P.arr.base.extractLsb' 32 8 ∧
    P.highWord.extractLsb' 8 8 = 0 ∧ P.highWord.extractLsb' 24 8 = 0 := by
  have h := P.highWord_packs
  refine ⟨h.byte ?_ (by decide), h.byte ?_ (by decide), h.unused ?_, h.unused ?_⟩
  case refine_1 => simp [Port.highFields]
  case refine_2 => simp [Port.highFields]
  all_goals
    simp only [Port.highFields, WordField.misses, List.forall_mem_cons]
    exact ⟨by omega, by omega, by simp⟩

end Sys2Proof.Machine

/-- Settles O54: the images byte by byte, and each register by its fields, which fit and lie apart. -/
theorem recordsAndRegistersAreLaidOut : Obligations.RecordsAndRegistersAreLaidOut := by
  unfold Obligations.RecordsAndRegistersAreLaidOut
  refine ⟨fun b g h => ?_, fun raw r => ?_, fun lane it => ?_, fun s p => ?_⟩
  · exact ⟨handleWord_toNat g h, handleId_handleWord g h, handleGen_handleWord g h, handleUnused_handleWord g h⟩
  · exact ⟨completionBytes_length raw r, rfl, fun i => byteAt_completion_loaded raw r, byteAt_completion_result raw r 0,
      word32At_completion_handle raw r, completion_zero raw, fun m => completion_move raw, fun q => completion_query raw⟩
  · exact ⟨rfl, rfl, rfl, rfl, portByte_toNat it.source, word32At_of_bytes rfl rfl rfl rfl, word32At_of_bytes rfl rfl rfl rfl,
      word32At_of_bytes rfl rfl rfl rfl⟩
  · exact ⟨rfl, rfl, rfl, rfl, rfl, rfl, rfl, rfl, rfl, rfl, rfl, rfl, ⟨_, s.windowRead_high p, (s.port p).highWord_shows⟩,
      ⟨_, rfl, (s.port p).fault.faultWord_shows⟩, fun urgent routine reserved => ⟨_, rfl, Inbox.word_shows urgent routine reserved⟩,
      ⟨_, rfl, s.statusWord_shows p⟩⟩
end

