-- ==== Sys2Proof/Proofs/ProcessRanges.lean ====
section
/-!
THEOREMS. The values of the processes stay in their ranges along a step (R43, R44, R49, R99).
-/
open Sys2Proof Sys2Proof.Machine

namespace Sys2Proof.Machine

variable {s t : State}

/-- The processes of a port after device reset have their values in range (R43, R99). -/
theorem Port.legal_deviceReset : Port.reset.legal := by
  refine ⟨⟨?_, ?_, ?_, ?_, ?_, nofun⟩, ⟨?_, ?_, ?_, ?_⟩⟩ <;> decide

/-- The passage to READY starts auto-poll intervals, and leaves the rings and what is outstanding (R9). -/
theorem Port.keepsLegal_atReady (now : Nat) (e : PortEntry) {P : Port} (h : P.legal) : (P.atReady now e).legal := by
  obtain ⟨cmd, arr⟩ := h
  rw [Port.atReady_eq]
  constructor
  · dsimp only
    split
    · exact CmdProc.legal_of cmd rfl rfl (.inl rfl) (le_refl _) (.inl rfl)
    · exact cmd
  · dsimp only
    split
    · exact ArrProc.legal_of arr rfl rfl (.inl rfl)
    · exact arr

theorem State.processesLegal.mapPorts {f : PortId → Port → Port} (h : s.processesLegal)
    (hf : ∀ p P, Port.legal P → (f p P).legal) : (s.mapPorts f).processesLegal := by
  intro p
  rw [State.mapPorts_port]
  exact hf p _ (h p)

/-- A refused map raises an event on every port and no more (R11). -/
theorem State.processesLegal.mapFailed (h : s.processesLegal) (r : FailReason) : (s.mapFailed r).processesLegal :=
  State.processesLegal.mapPorts (s := { s with mapState := .failed, reason := r }) h (fun _ => Port.keepsLegal_raise _)

theorem State.processesLegal.mapReady (h : s.processesLegal) (m : CustodyMap) : (s.mapReady m).processesLegal := by
  unfold State.mapReady
  refine State.processesLegal.mapPorts h (fun p P hP => ?_)
  dsimp only
  split
  · exact Port.keepsLegal_raise _ _ (Port.keepsLegal_atReady _ _ hP)
  · exact Port.keepsLegal_atReady _ _ hP

theorem State.processesLegal.endLoad (h : s.processesLegal) (rom : List Byte) : (s.endLoad rom).processesLegal := by
  unfold State.endLoad
  split
  · exact h.mapReady _
  all_goals exact h.mapFailed _

/-- Every row keeps the processes' values in range. -/
theorem State.processesLegal.exec {c : Instr} (h : s.processesLegal) (he : exec c s = .next t) : t.processesLegal := by
  by_cases hr : c = .deviceReset
  · subst hr
    cases he
    intro p
    show Port.legal ((Four.fill Port.reset).get p)
    rw [Four.get_fill]
    exact Port.legal_deviceReset
  by_cases hm : ∃ rom, c = .mapLoadEnd rom
  · obtain ⟨rom, rfl⟩ := hm
    cases he
    split
    · exact h.endLoad _
    · exact h
  · obtain ⟨t', ht', writes⟩ := exec_kept keptLegal c s hr (fun rom e => hm ⟨rom, e⟩)
    rw [he] at ht'
    cases ht'
    exact writes.keepsPorts h

end Sys2Proof.Machine

/-- Settles O57: each operation that a row makes on a port keeps both its processes legal (`keptLegal`), a device reset makes them so, and
the end of a map load does not touch the values in question. -/
theorem stepKeepsProcessesLegal : Obligations.StepKeepsProcessesLegal := by
  intro s t h hstep
  obtain ⟨-, rfl⟩ | ⟨c, rest, -, hc⟩ := step_cases hstep
  · exact h
  · exact State.processesLegal.exec (s := { s with pending := rest }) h hc
end

