-- ==== Sys2Proof/Proofs/CommandProcess.lean ====
section
/-!
SUPPORT. The Command Process, one equation per case of each operation that several rows share: taking an entry (R50, R51, R54), what a
fall of the outstanding count opens the way for (R49, R51, R56), and the process's part of each answer to a ring request (R47, R55, R57,
R58).
-/
namespace Sys2Proof.Machine
open Sys2Proof

/-! ### Taking an entry (R50, R54) -/

/-- The outstanding record of the entry `raw`, taken at the process's next index (R43, R44). -/
def CmdProc.entryRecord (raw : List Byte) (phase : CmdPhase) (result : Option Result) (c : CmdProc) : CmdRec :=
  { index := c.next, addr := cringAddr c.base c.next, raw := raw, phase := phase, result := result, discard := false }

/-- The process with the entry `raw` taken: its record outstanding and the next index advanced (R50). -/
def CmdProc.taken (raw : List Byte) (phase : CmdPhase) (result : Option Result) (c : CmdProc) : CmdProc :=
  { c with next := (c.next + 1) % c.size, outstanding := c.outstanding ++ [c.entryRecord raw phase result] }

/-- The process with its held entry taken, which it does with nothing outstanding (R51). -/
def CmdProc.heldTaken (raw : List Byte) (phase : CmdPhase) (result : Option Result) (c : CmdProc) : CmdProc :=
  { c with held := none, next := (c.next + 1) % c.size, outstanding := [c.entryRecord raw phase result] }

/-- A RUNNING process with its next load presented where R49 allows. -/
def CmdProc.presenting (c : CmdProc) : CmdProc := { c with load := c.nextLoad false }

variable {P : Port} {raw : List Byte} {h : HeldEntry}

theorem Port.takeEntry_known (known : (entryOp raw).isSome = true) :
    P.takeEntry raw = { P with cmd := P.cmd.taken raw .handed none } := by
  simp only [Port.takeEntry, known, if_true]
  rfl

theorem Port.takeEntry_unknown (unknown : entryOp raw = none) : P.takeEntry raw = { P with
    fault := P.fault.record .badEntry ((entrySeq raw).zeroExtend 40) .yield
    cmd := P.cmd.taken raw .presented (some .badEntry) } := by
  simp only [Port.takeEntry, unknown, Option.isSome_none, Bool.false_eq_true, if_false]
  rfl

theorem CmdProc.taken_held {c : CmdProc} (empty : c.outstanding = []) (raw : List Byte) (phase : CmdPhase) (result : Option Result) :
    CmdProc.taken raw phase result { c with held := none } = c.heldTaken raw phase result := by
  simp [CmdProc.taken, CmdProc.heldTaken, CmdProc.entryRecord, empty]

theorem Port.takeHeld_waits (busy : P.cmd.outstanding ≠ []) : P.takeHeld = P := by
  unfold Port.takeHeld
  split
  · exact if_neg busy
  · rfl

theorem Port.takeHeld_known (held : P.cmd.held = some h) (empty : P.cmd.outstanding = []) (known : (entryOp h.raw).isSome = true) :
    P.takeHeld = { P with cmd := P.cmd.heldTaken h.raw .handed none } := by
  simp only [Port.takeHeld, held, empty, if_true]
  rw [Port.takeEntry_known known, ← CmdProc.taken_held empty]
  rfl

theorem Port.takeHeld_unknown (held : P.cmd.held = some h) (empty : P.cmd.outstanding = []) (unknown : entryOp h.raw = none) :
    P.takeHeld = { P with
      fault := P.fault.record .badEntry ((entrySeq h.raw).zeroExtend 40) .yield
      cmd := P.cmd.heldTaken h.raw .presented (some .badEntry) } := by
  simp only [Port.takeHeld, held, empty, if_true]
  rw [Port.takeEntry_unknown unknown, ← CmdProc.taken_held empty]
  rfl

/-! ### Going on (R49, R51, R56) -/

theorem Port.cmdAdvance_other (state : P.cmd.state = .stopped ∨ P.cmd.state = .suspended ∨ P.cmd.state = .halted) : P.cmdAdvance = P := by
  unfold Port.cmdAdvance
  rcases state with e | e | e <;> rw [e]

theorem Port.cmdAdvance_stopping (state : P.cmd.state = .stopping) :
    P.cmdAdvance = { P with cmd := { P.cmd with state := if P.cmd.outstanding = [] then .stopped else .stopping } } := by
  unfold Port.cmdAdvance
  rw [state]
  dsimp only
  split
  · rfl
  · rw [← state]

/-- A process that is not RUNNING goes on only to the end of STOPPING. -/
theorem Port.cmdAdvance_notRunning (state : P.cmd.state ≠ .running) : P.cmdAdvance = { P with cmd := { P.cmd with
    state := if P.cmd.state = .stopping ∧ P.cmd.outstanding = [] then .stopped else P.cmd.state } } := by
  by_cases stopping : P.cmd.state = .stopping
  · rw [Port.cmdAdvance_stopping stopping]
    simp only [stopping, true_and]
  · have idle : P.cmd.state = .stopped ∨ P.cmd.state = .suspended ∨ P.cmd.state = .halted := by
      cases e : P.cmd.state <;> simp_all
    rw [Port.cmdAdvance_other idle]
    simp only [stopping, false_and, if_false]

theorem Port.cmdAdvance_heldWaits (state : P.cmd.state = .running) (held : P.cmd.held = some h) (busy : P.cmd.outstanding ≠ []) :
    P.cmdAdvance = P := by
  unfold Port.cmdAdvance
  rw [state]
  dsimp only
  have same : P.cmd.nextLoad false = P.cmd.load := by simp [CmdProc.nextLoad, CmdProc.freeToLoad, held]
  rw [Port.takeHeld_waits busy, Port.cmdPresent_running false state, same]

theorem Port.cmdAdvance_heldKnown (state : P.cmd.state = .running) (held : P.cmd.held = some h) (empty : P.cmd.outstanding = [])
    (known : (entryOp h.raw).isSome = true) :
    P.cmdAdvance = { P with cmd := (P.cmd.heldTaken h.raw .handed none).presenting } := by
  unfold Port.cmdAdvance
  rw [state]
  dsimp only
  rw [Port.takeHeld_known held empty known]
  exact Port.cmdPresent_running false state

theorem Port.cmdAdvance_heldUnknown (state : P.cmd.state = .running) (held : P.cmd.held = some h) (empty : P.cmd.outstanding = [])
    (unknown : entryOp h.raw = none) :
    P.cmdAdvance = { P with
      fault := P.fault.record .badEntry ((entrySeq h.raw).zeroExtend 40) .yield
      cmd := (P.cmd.heldTaken h.raw .presented (some .badEntry)).presenting } := by
  unfold Port.cmdAdvance
  rw [state]
  dsimp only
  rw [Port.takeHeld_unknown held empty unknown]
  exact Port.cmdPresent_running false state

/-! ### A ring load answered (R47, R56, R57) -/

variable {k : SlotId} {l : RingLoad} {now interval : Nat} {auto : Bool}

theorem ownerIsPart_iff : ownerIsPart raw = true ↔ byteAt raw 0 = 0x01 := by
  simp [ownerIsPart]

/-- The port with the load in slot `k` answered: the slot FREE and no load in flight. -/
def Port.loadAnswered (k : SlotId) (P : Port) : Port := { P with slots := P.slots.set k none, cmd := { P.cmd with load := none } }

theorem Port.cmdLoadAck_read (load : P.cmd.load = some l) (kept : l.discard = false) :
    P.cmdLoadAck now interval k raw = (P.loadAnswered k).cmdLoaded now interval l.auto raw := by
  simp only [Port.cmdLoadAck, load, kept, Bool.false_eq_true, if_false]
  rfl

theorem Port.cmdLoadAck_discarded (load : P.cmd.load = some l) (discarded : l.discard = true) :
    P.cmdLoadAck now interval k raw = (P.loadAnswered k).cmdAdvance := by
  simp only [Port.cmdLoadAck, load, discarded, if_true]
  rfl

theorem Port.cmdLoaded_take (owner : byteAt raw 0 = 0x01) (free : entryWait raw = false ∨ P.cmd.outstanding = []) :
    P.cmdLoaded now interval auto raw = (P.takeEntry raw).cmdAdvance := by
  unfold Port.cmdLoaded
  rw [if_pos (ownerIsPart_iff.mpr owner), if_neg]
  rintro ⟨wait, busy⟩
  rcases free with free | free
  · simp [free] at wait
  · exact busy free

theorem Port.cmdLoaded_hold (owner : byteAt raw 0 = 0x01) (wait : entryWait raw = true) (busy : P.cmd.outstanding ≠ []) :
    P.cmdLoaded now interval auto raw = { P with cmd := { P.cmd with held := some { index := P.cmd.next, raw := raw } } } := by
  unfold Port.cmdLoaded
  rw [if_pos (ownerIsPart_iff.mpr owner), if_pos ⟨wait, busy⟩]
  rfl

theorem Port.cmdLoaded_suspend (owner : byteAt raw 0 ≠ 0x01) :
    P.cmdLoaded now interval auto raw = { P with
      events := if auto then P.events else P.events ||| Event.cmdSuspended.bit
      cmd := { P.cmd with state := .suspended, deadline := if interval = 0 then none else some (now + interval) } } := by
  unfold Port.cmdLoaded Port.cmdSuspend
  rw [if_neg (fun e => owner (ownerIsPart_iff.mp e))]
  cases auto <;> rfl

theorem Port.cmdLoadFail_halts {a : Addr} (load : P.cmd.load = some l)
    (live : l.discard = false ∨ (P.cmd.state ≠ .stopped ∧ P.cmd.state ≠ .running)) :
    P.cmdLoadFail k a = (P.cmdLoadLost k a).modCmd CmdProc.halt := by
  simp only [Port.cmdLoadFail, load]
  refine if_neg ?_
  rintro ⟨discarded, state⟩
  rcases live with kept | ⟨notStopped, notRunning⟩
  · simp [kept] at discarded
  · exact state.elim notStopped notRunning

theorem Port.cmdLoadFail_discarded {a : Addr} (load : P.cmd.load = some l) (discarded : l.discard = true)
    (state : P.cmd.state = .stopped) : P.cmdLoadFail k a = P.cmdLoadLost k a := by
  simp only [Port.cmdLoadFail, load]
  rw [if_pos ⟨discarded, .inl state⟩]
  exact Port.cmdAdvance_other (.inl state)

/-! ### A completion store answered (R55, R58) -/

variable {before after : List CmdRec} {r : CmdRec}

theorem CmdRec.isIssued_iff : r.isIssued k = true ↔ r.phase = .issued k := by
  simp [CmdRec.isIssued]

/-- The record whose store is issued in slot `k` leaves the outstanding ones. -/
theorem removeFirst_isIssued (first : ∀ x ∈ before, x.phase ≠ .issued k) (issued : r.phase = .issued k) :
    removeFirst (CmdRec.isIssued k) (before ++ r :: after) = before ++ after := by
  refine removeFirst_append _ _ _ _ (fun x hx => ?_) (CmdRec.isIssued_iff.mpr issued)
  exact Bool.eq_false_iff.mpr (fun e => first x hx (CmdRec.isIssued_iff.mp e))

theorem Port.storeSeq_of (out : P.cmd.outstanding = before ++ r :: after) (first : ∀ x ∈ before, x.phase ≠ .issued k)
    (issued : r.phase = .issued k) : P.storeSeq k = entrySeq r.raw := by
  have found : (before ++ r :: after).find? (CmdRec.isIssued k) = some r :=
    find?_append _ _ _ _ (fun x hx => Bool.eq_false_iff.mpr (fun e => first x hx (CmdRec.isIssued_iff.mp e)))
      (CmdRec.isIssued_iff.mpr issued)
  simp only [Port.storeSeq, out, found]

theorem Port.completionAck_of (out : P.cmd.outstanding = before ++ r :: after) (first : ∀ x ∈ before, x.phase ≠ .issued k)
    (issued : r.phase = .issued k) :
    P.completionAck k = Port.cmdAdvance { P with
      slots := P.slots.set k none
      events := P.events ||| Event.completion.bit
      cmd := { P.cmd with outstanding := before ++ after } } := by
  rw [← removeFirst_isIssued (after := after) first issued, ← out]
  rfl

theorem Port.completionLost_of (out : P.cmd.outstanding = before ++ r :: after) (first : ∀ x ∈ before, x.phase ≠ .issued k)
    (issued : r.phase = .issued k) :
    P.completionLost k = { P with
      slots := P.slots.set k none
      fault := P.fault.record .writebackError ((entrySeq r.raw).zeroExtend 40) .yield
      cmd := { P.cmd with outstanding := before ++ after } } := by
  rw [← removeFirst_isIssued (after := after) first issued, ← out, ← Port.storeSeq_of out first issued]
  rfl

theorem Port.completionFail_keeps (state : P.cmd.state = .halted ∨ P.cmd.state = .stopped) :
    P.completionFail k = P.completionLost k := by
  unfold Port.completionFail
  rcases state with e | e <;> rw [e]

theorem Port.completionFail_halts (state : P.cmd.state = .running ∨ P.cmd.state = .suspended ∨ P.cmd.state = .stopping) :
    P.completionFail k = ((P.completionLost k).modCmd CmdProc.halt).raise .cmdHalted := by
  unfold Port.completionFail
  rcases state with e | e | e <;> rw [e]

/-! ### A command ended at the Custody Table (R55, R61) -/

variable {ends : CmdRec → Bool}

theorem Port.endCommand_presents (out : P.cmd.outstanding = before ++ r :: after) (first : ∀ x ∈ before, ends x = false)
    (ended : ends r = true) (kept : r.discard = false) (res : Result) :
    P.endCommand ends res = { P with cmd := { P.cmd with
      outstanding := before ++ after ++ [{ r with phase := .presented, result := some res }] } } := by
  simp only [Port.endCommand, out, extractFirst_append ends before r after first ended, kept, Bool.false_eq_true, if_false]
  rfl

theorem Port.endCommand_drops (out : P.cmd.outstanding = before ++ r :: after) (first : ∀ x ∈ before, ends x = false)
    (ended : ends r = true) (discarded : r.discard = true) (res : Result) :
    P.endCommand ends res = Port.cmdAdvance { P with
      fault := { P.fault with discards := satInc P.fault.discards }
      cmd := { P.cmd with outstanding := before ++ after } } := by
  simp only [Port.endCommand, out, extractFirst_append ends before r after first ended, discarded, if_true]
  rfl

end Sys2Proof.Machine
end

