-- ==== Sys2Proof/Proofs/CommandRing.lean ====
section
/-!
THEOREMS. The command ring (chapter 3): what the answers to a ring load and to a completion store, the end of a command at the Custody
Table and the auto-poll expiries do to the process.
-/
open Sys2Proof Sys2Proof.Machine

namespace Sys2Proof.Machine

variable {s : State} {p : PortId} {k : SlotId}

/-! ### The rows, on a slot known to hold their request -/

theorem exec_cmdLoadResponse {a : Addr} (req : (s.port p).dataReq k = some (.ringLoad a)) (raw : List Byte) :
    exec (.cmdLoadResponse p k raw) s = .next (s.modPort p (Port.cmdLoadAck s.now (s.cfg p).cmdPoll k raw)) :=
  congrArg _ (State.dataResponse_of req)

theorem exec_ringLoadError {a : Addr} (req : (s.port p).dataReq k = some (.ringLoad a)) :
    exec (.ringLoadError p k) s = .next (s.modPort p (Port.cmdLoadFail k a)) :=
  congrArg _ (State.dataResponse_of req)

theorem exec_completionStoreAck {a : Addr} {bytes : List Byte} (req : (s.port p).dataReq k = some (.completionStore a bytes)) :
    exec (.completionStoreAck p k) s = .next (s.modPort p (Port.completionAck k)) :=
  congrArg _ (State.dataResponse_of req)

theorem exec_completionStoreError {a : Addr} {bytes : List Byte} (req : (s.port p).dataReq k = some (.completionStore a bytes)) :
    exec (.completionStoreError p k) s = .next (s.modPort p (Port.completionFail k)) :=
  congrArg _ (State.dataResponse_of req)

/-- Two rows that change one port alike answer alike. -/
theorem next_modPort {f g : Port → Port} (h : f (s.port p) = g (s.port p)) :
    (.next (s.modPort p f) : Host.Outcome State Fault Refusal) = .next (s.modPort p g) :=
  congrArg _ (State.modPort_congr h)

/-! ### The auto-poll (R53, R105) -/

variable {P : Port} {d now : Nat}

theorem Port.cmdPollDue_iff (state : P.cmd.state = .suspended) (deadline : P.cmd.deadline = some d) :
    P.cmdPollDue now = true ↔ d ≤ now := by
  simp [Port.cmdPollDue, state, deadline]

theorem Port.arrPollDue_iff (state : P.arr.state = .suspended) (deadline : P.arr.deadline = some d) :
    P.arrPollDue now = true ↔ d ≤ now := by
  simp [Port.arrPollDue, state, deadline]

theorem Port.cmdWake_suspended (state : P.cmd.state = .suspended) (auto : Bool) :
    P.cmdWake auto = { P with cmd := { P.cmd with state := .running, deadline := none, load := P.cmd.nextLoad auto } } :=
  (if_pos state).trans (Port.cmdPresent_running auto rfl)

theorem Port.arrWake_suspended (state : P.arr.state = .suspended) (auto : Bool) :
    P.arrWake auto = { P with arr := { P.arr with state := .running, deadline := none, load := P.arr.nextLoad auto P.inbox } } :=
  (if_pos state).trans (Port.arrPresent_running auto rfl)

end Sys2Proof.Machine

/-- Settles O26: the entry is taken, and the process, still RUNNING with nothing held, goes on by presenting its next load. -/
theorem loadedCommandIsTaken : Obligations.LoadedCommandIsTaken := by
  unfold Obligations.LoadedCommandIsTaken
  intro s p k raw a l req load kept state held owner free
  have taken : (s.port p).cmdLoadAck s.now (s.cfg p).cmdPoll k raw = (((s.port p).loadAnswered k).takeEntry raw).cmdAdvance := by
    rw [Port.cmdLoadAck_read load kept]
    exact Port.cmdLoaded_take owner free
  refine ⟨fun known => ?_, fun unknown => ?_⟩
  · rw [exec_cmdLoadResponse req]
    refine next_modPort ?_
    rw [taken, Port.takeEntry_known known]
    exact Port.cmdAdvance_running state held
  · rw [exec_cmdLoadResponse req]
    refine next_modPort ?_
    rw [taken, Port.takeEntry_unknown unknown]
    exact Port.cmdAdvance_running state held

/-- Settles O27: the three ways in which an answer brings no command, by the discard mark, the owner and the wait flag. -/
theorem loadedEntryIsHeldOrSuspends : Obligations.LoadedEntryIsHeldOrSuspends := by
  unfold Obligations.LoadedEntryIsHeldOrSuspends
  intro s p k raw a l req load
  rw [exec_cmdLoadResponse req]
  refine ⟨fun kept owner wait busy => next_modPort ?_, fun kept owner => next_modPort ?_, fun discarded state => next_modPort ?_⟩
  · rw [Port.cmdLoadAck_read load kept]
    exact Port.cmdLoaded_hold owner wait busy
  · rw [Port.cmdLoadAck_read load kept]
    exact Port.cmdLoaded_suspend owner
  · rw [Port.cmdLoadAck_discarded load discarded]
    exact Port.cmdAdvance_other (state.imp_right .inr)

/-- Settles O28: FETCH_ERROR and CMD_HALTED in both cases, and HALTED unless the load was a STOPPED process's. -/
theorem ringLoadErrorHaltsTheProcess : Obligations.RingLoadErrorHaltsTheProcess := by
  unfold Obligations.RingLoadErrorHaltsTheProcess
  intro s p k a l req load
  rw [exec_ringLoadError req]
  refine ⟨fun live => next_modPort ?_, fun discarded state => next_modPort ?_⟩
  · rw [Port.cmdLoadFail_halts load live]
    rfl
  · rw [Port.cmdLoadFail_discarded load discarded state]
    rfl

/-- Settles O29: the record goes and COMPLETION is raised, and the process goes on by its state and its held entry. -/
theorem acknowledgedCompletionEndsTheCommand : Obligations.AcknowledgedCompletionEndsTheCommand := by
  unfold Obligations.AcknowledgedCompletionEndsTheCommand
  intro s p k a bytes before after r req out first issued
  rw [exec_completionStoreAck req]
  have row := Port.completionAck_of (P := s.port p) out first issued
  refine ⟨fun notRunning => next_modPort (row.trans ?_), fun state held => next_modPort (row.trans ?_),
    fun h state held busy => next_modPort (row.trans ?_), fun h state held empty known => next_modPort (row.trans ?_)⟩
  · exact Port.cmdAdvance_notRunning notRunning
  · exact Port.cmdAdvance_running state held
  · exact Port.cmdAdvance_heldWaits state held busy
  · exact Port.cmdAdvance_heldKnown state held empty known

/-- Settles O30: the completion is lost in every state, and HALTED is entered from the three states in which the process is at work. -/
theorem lostCompletionHaltsTheProcess : Obligations.LostCompletionHaltsTheProcess := by
  unfold Obligations.LostCompletionHaltsTheProcess
  intro s p k a bytes before after r req out first issued
  rw [exec_completionStoreError req]
  refine ⟨fun state => next_modPort ?_, fun state => next_modPort ?_⟩
  · rw [Port.completionFail_keeps state, Port.completionLost_of out first issued]
  · rw [Port.completionFail_halts state, Port.completionLost_of out first issued]
    rfl

/-- Settles O31: the deadline decides whether the row acts, and a process woken presents as a RUNNING one. -/
theorem autoPollExpiryWakesTheProcess : Obligations.AutoPollExpiryWakesTheProcess := by
  unfold Obligations.AutoPollExpiryWakesTheProcess
  intro s p d
  refine ⟨fun state deadline => ?_, fun state deadline => ?_⟩
  · show execCommandAutoPollExpiry p s = _
    rw [execCommandAutoPollExpiry]
    refine congrArg _ (if_congr (Port.cmdPollDue_iff state deadline) (State.modPort_congr ?_) rfl)
    exact Port.cmdWake_suspended state true
  · show execArrivalAutoPollExpiry p s = _
    rw [execArrivalAutoPollExpiry]
    refine congrArg _ (if_congr (Port.arrPollDue_iff state deadline) (State.modPort_congr ?_) rfl)
    exact Port.arrWake_suspended state true

/-- Settles O32: the record that `ends` selects is found first; with its discard mark it is dropped, and the process goes on by its state
and its held entry. -/
theorem endedCommandPresentsItsStore : Obligations.EndedCommandPresentsItsStore := by
  unfold Obligations.EndedCommandPresentsItsStore
  refine ⟨fun s p res => rfl, ?_⟩
  intro P ends res before after r out first ended dropped
  refine ⟨fun kept => Port.endCommand_presents out first ended kept res, fun discarded => ?_⟩
  have drops : P.endCommand ends res = dropped.cmdAdvance := Port.endCommand_drops out first ended discarded res
  rw [drops]
  refine ⟨fun state => Port.cmdAdvance_other state, fun state => Port.cmdAdvance_stopping state,
    fun state held => Port.cmdAdvance_running state held, fun h state held => ⟨fun busy => Port.cmdAdvance_heldWaits state held busy,
    fun empty => ⟨fun known => Port.cmdAdvance_heldKnown state held empty known,
      fun unknown => Port.cmdAdvance_heldUnknown state held empty unknown⟩⟩⟩
end

