-- ==== Sys2Proof/Proofs/WindowWrites.lean ====
section
/-!
THEOREMS. Window writes that a Command Process or a ring takes: the run field of CONTROL (R48, R56, R59, R150) and the ring registers
(R44, R99, R182).
-/
open Sys2Proof Sys2Proof.Machine

namespace Sys2Proof.Machine

variable {s : State} {p : PortId} {P : Port} {w : Word} {b : Byte}

/-! ### The fields of CONTROL (R150) -/

/-- Steps 3 to 5 of a CONTROL write, the port state of step 3 by name. -/
theorem Port.controlFields_eq (w : Word) (P : Port) : P.controlFields w =
    (Port.cmdRunField (ctlCmdRun w) { P with state := P.stateEnabled w }).arrRunField (ctlArrRun w) := by
  have enabled : (if ctlEnable w ∧ P.state = .down then { P with state := .active } else P) = { P with state := P.stateEnabled w } := by
    unfold Port.stateEnabled
    split <;> rfl
  rw [Port.controlFields, enabled]

@[simp] theorem Port.cmdRunField_arr (run : Bool) (P : Port) : (P.cmdRunField run).arr = P.arr := by
  unfold Port.cmdRunField
  split
  · split
    · rfl
    · split <;> simp
  · split
    · rfl
    · split <;> rfl
    · split <;> rfl
    · rfl
    · rfl

/-- A write whose arrival run field is as ARR_RUN stands asks the Arrival Process nothing (R101). -/
theorem Port.arrRunField_same {run : Bool} (same : run = P.arr.run) : P.arrRunField run = P := by
  subst same
  unfold Port.arrRunField
  cases e : P.arr.run <;> simp

/-- Such a write to CONTROL, with RESET clear and the port not FENCED, is the command run field's. -/
theorem next_controlWrite (reset : ctlReset w = false) (unfenced : (s.port p).state ≠ .fenced) (same : ctlArrRun w = (s.port p).arr.run)
    {g : Port → Port} (h : Port.cmdRunField (ctlCmdRun w) { s.port p with state := (s.port p).stateEnabled w } = g (s.port p)) :
    (.next (s.controlWrite p w) : Host.Outcome State Fault Refusal) = .next (s.modPort p g) := by
  have fields : s.controlWrite p w = s.modPort p (Port.controlFields w) := by
    simp [State.controlWrite, reset, State.fenced, unfenced]
  rw [fields]
  refine next_modPort ?_
  rw [Port.controlFields_eq, Port.arrRunField_same (by simpa using same), h]

theorem Port.cmdRunField_starts (stopped : P.cmd.state = .stopped) (run : P.cmd.run = false) (active : P.state = .active)
    (held : P.cmd.held = none) : P.cmdRunField true =
      { P with cmd := { P.cmd with state := .running, run := true, load := P.cmd.nextLoad false } } := by
  unfold Port.cmdRunField
  rw [if_pos rfl, if_neg (by simp [run]), if_pos ⟨stopped, active⟩]
  exact Port.cmdAdvance_running (P := P.modCmd (fun c => { c with run := true, state := .running })) rfl held

theorem Port.cmdRunField_startRefused (run : P.cmd.run = false) (other : P.state ≠ .active ∨ P.cmd.state ≠ .stopped) :
    P.cmdRunField true = P.recordFault .windowRefused 0x00 := by
  have refused : ¬(P.cmd.state = .stopped ∧ P.state = .active) := fun h => other.elim (· h.2) (· h.1)
  simp only [Port.cmdRunField, run, if_true, Bool.false_eq_true, if_false, refused]
  rfl

theorem Port.cmdRunField_stops (state : P.cmd.state = .running ∨ P.cmd.state = .suspended) (run : P.cmd.run = true) :
    P.cmdRunField false = P.modCmd CmdProc.stop := by
  rcases state with e | e <;> simp [Port.cmdRunField, e, run]

theorem Port.cmdRunField_stopHalted (state : P.cmd.state = .halted) :
    P.cmdRunField false = { P with cmd := { P.cmd with state := .stopped, run := false } } := by
  simp only [Port.cmdRunField, state, Bool.false_eq_true, if_false]
  rfl

theorem RingLoad.abandon_eq (l : RingLoad) : l.abandon = if l.slot = none then none else some { l with discard := true } := by
  cases e : l.slot <;> simp [RingLoad.abandon, e]

/-- What a stop leaves (R56, R163): a presented load is withdrawn, an issued one left with its answer to be discarded. -/
theorem CmdProc.stop_eq (c : CmdProc) : c.stop = { c with
    state := if c.outstanding = [] then .stopped else .stopping
    run := false
    deadline := none
    held := none
    load := match c.load with
      | some l => if l.slot = none then none else some { l with discard := true }
      | none => none } := by
  unfold CmdProc.stop
  cases c.load with
  | none => rfl
  | some l => rw [Option.bind_some, RingLoad.abandon_eq]

/-! ### Ring registers (R44, R99, R182) -/

theorem Port.cringOpen_iff : P.cringOpen = true ↔ P.cmd.state = .stopped ∧ P.state ≠ .fenced := by
  simp [Port.cringOpen]

theorem Port.aringOpen_iff : P.aringOpen = true ↔ P.arr.state = .stopped ∧ P.state ≠ .fenced := by
  simp [Port.aringOpen]

theorem ringSizeOk_iff {n : Nat} : ringSizeOk n = true ↔ 4 ≤ n ∧ n ≤ 1024 := by
  simp [ringSizeOk]

/-- A size is accepted on an open ring and from 4 to 1024 only. -/
theorem size_refused {ring : Prop} {n : Nat} (h : ¬ring ∨ n < 4 ∨ 1024 < n) : ¬(ring ∧ 4 ≤ n ∧ n ≤ 1024) := by
  rintro ⟨hr, low, high⟩
  rcases h with h | h | h
  · exact h hr
  · omega
  · omega

theorem Port.writeCringLo_eq : P.writeCringLo w = if P.cmd.state = .stopped ∧ P.state ≠ .fenced then
    { P with cmd := { P.cmd with base := P.cmd.base.extractLsb' 32 8 ++ (w.extractLsb' 5 27 ++ 0#5), next := 0 } }
    else P.recordFault .windowRefused 0x14 :=
  if_congr Port.cringOpen_iff rfl rfl

theorem Port.writeCringSize_eq : P.writeCringSize w =
    if (P.cmd.state = .stopped ∧ P.state ≠ .fenced) ∧ 4 ≤ sizeField w ∧ sizeField w ≤ 1024 then
      { P with cmd := { P.cmd with size := sizeField w, next := 0 } }
    else P.recordFault .windowRefused 0x18 :=
  if_congr (and_congr Port.cringOpen_iff ringSizeOk_iff) rfl rfl

theorem Port.writeAringLo_eq : P.writeAringLo w = if P.arr.state = .stopped ∧ P.state ≠ .fenced then
    { P with arr := { P.arr with base := P.arr.base.extractLsb' 32 8 ++ (w.extractLsb' 4 28 ++ 0#4), next := 0 } }
    else P.recordFault .windowRefused 0x1C :=
  if_congr Port.aringOpen_iff rfl rfl

theorem Port.writeAringSize_eq : P.writeAringSize w =
    if (P.arr.state = .stopped ∧ P.state ≠ .fenced) ∧ 4 ≤ sizeField w ∧ sizeField w ≤ 1024 then
      { P with arr := { P.arr with size := sizeField w, next := 0 } }
    else P.recordFault .windowRefused 0x20 :=
  if_congr (and_congr Port.aringOpen_iff ringSizeOk_iff) rfl rfl

theorem Port.writeCringHi_same (same : b = P.cmd.base.extractLsb' 32 8) : P.writeCringHi b = P := if_pos same

theorem Port.writeCringHi_changed (changed : b ≠ P.cmd.base.extractLsb' 32 8) :
    P.writeCringHi b = if P.cmd.state = .stopped ∧ P.state ≠ .fenced then
      { P with cmd := { P.cmd with base := b ++ P.cmd.base.extractLsb' 0 32, next := 0 } }
    else P.recordFault .windowRefused 0x24 :=
  (if_neg changed).trans (if_congr Port.cringOpen_iff rfl rfl)

theorem Port.writeAringHi_same (same : b = P.arr.base.extractLsb' 32 8) : P.writeAringHi b = P := if_pos same

theorem Port.writeAringHi_changed (changed : b ≠ P.arr.base.extractLsb' 32 8) :
    P.writeAringHi b = if P.arr.state = .stopped ∧ P.state ≠ .fenced then
      { P with arr := { P.arr with base := b ++ P.arr.base.extractLsb' 0 32, next := 0 } }
    else P.recordFault .windowRefused 0x24 :=
  (if_neg changed).trans (if_congr Port.aringOpen_iff rfl rfl)

/-- The command half of a write of 24h leaves the Arrival Process and the port state. -/
theorem Port.writeCringHi_frame (b : Byte) (P : Port) : (P.writeCringHi b).arr = P.arr ∧ (P.writeCringHi b).state = P.state := by
  unfold Port.writeCringHi
  split
  · exact ⟨rfl, rfl⟩
  · split <;> exact ⟨rfl, rfl⟩

/-- Either ring's row of 24h is the write of the whole place (R182, log 25). -/
theorem exec_writeHigh {c : Instr} (h : c = .cringRegisterWrite p .baseHi w ∨ c = .aringRegisterWrite p .baseHi w) :
    exec c s = .next (s.modPort p (Port.writeHigh w)) := by
  rcases h with rfl | rfl <;> rfl

end Sys2Proof.Machine

/-- Settles O10: with the arrival run field asking nothing the write is the command run field's, on the port as step 3 leaves it. -/
theorem commandRunFieldStartsAndStops : Obligations.CommandRunFieldStartsAndStops := by
  unfold Obligations.CommandRunFieldStartsAndStops
  refine ⟨fun s p w start reset unfenced run same => ⟨fun active stopped held => ?_, fun other => ?_⟩,
    fun s p w stop reset unfenced same => ⟨fun state run => ?_, fun halted => ?_⟩⟩
  · refine next_controlWrite reset unfenced same ?_
    rw [start, active]
    exact Port.cmdRunField_starts stopped run rfl held
  · refine next_controlWrite reset unfenced same ?_
    rw [start]
    exact Port.cmdRunField_startRefused run other
  · refine next_controlWrite reset unfenced same ?_
    rw [stop]
    have stops := Port.cmdRunField_stops (P := { s.port p with state := (s.port p).stateEnabled w }) state run
    exact stops.trans (congrArg (fun c => { s.port p with state := (s.port p).stateEnabled w, cmd := c }) (CmdProc.stop_eq _))
  · refine next_controlWrite reset unfenced same ?_
    rw [stop]
    exact Port.cmdRunField_stopHalted halted

/-- Settles O13: each register's write by its own rule, and 24h as the command half's write followed by the arrival half's. -/
theorem ringRegisterWrites : Obligations.RingRegisterWrites := by
  unfold Obligations.RingRegisterWrites
  intro s p w refused cmdOpen arrOpen size cmdHi arrHi
  refine ⟨fun ring => next_modPort ?_, fun shut => next_modPort ?_, fun ring low high => next_modPort ?_, fun bad => next_modPort ?_,
    fun ring changed same => next_modPort ?_, fun ring => next_modPort ?_, fun shut => next_modPort ?_,
    fun ring low high => next_modPort ?_, fun bad => next_modPort ?_, fun ring same changed => next_modPort ?_, ?_⟩
  · exact Port.writeCringLo_eq.trans (if_pos ring)
  · exact Port.writeCringLo_eq.trans (if_neg shut)
  · exact Port.writeCringSize_eq.trans (if_pos ⟨ring, low, high⟩)
  · exact Port.writeCringSize_eq.trans (if_neg (size_refused bad))
  · exact (congrArg _ ((Port.writeCringHi_changed changed).trans (if_pos ring))).trans (Port.writeAringHi_same same)
  · exact Port.writeAringLo_eq.trans (if_pos ring)
  · exact Port.writeAringLo_eq.trans (if_neg shut)
  · exact Port.writeAringSize_eq.trans (if_pos ⟨ring, low, high⟩)
  · exact Port.writeAringSize_eq.trans (if_neg (size_refused bad))
  · exact (congrArg _ (Port.writeCringHi_same same)).trans ((Port.writeAringHi_changed changed).trans (if_pos ring))
  · intro c row cmdSame arrSame cmdHalf arrHalf
    rw [exec_writeHigh row]
    have cmdChanges : ¬cmdSame → (s.port p).writeCringHi cmdHi = cmdHalf (s.port p) := Port.writeCringHi_changed
    obtain ⟨arrKept, stateKept⟩ := Port.writeCringHi_frame cmdHi (s.port p)
    refine ⟨fun cmdOld arrOld => ?_, fun cmdNew arrOld => next_modPort ?_, fun cmdOld arrNew => next_modPort ?_,
      fun cmdNew arrNew => next_modPort ?_⟩
    · refine congrArg _ (State.modPort_id ?_)
      exact (congrArg _ (Port.writeCringHi_same cmdOld)).trans (Port.writeAringHi_same arrOld)
    · exact (Port.writeAringHi_same (arrOld.trans (by rw [arrKept]))).trans (cmdChanges cmdNew)
    · exact (congrArg _ (Port.writeCringHi_same cmdOld)).trans (Port.writeAringHi_changed arrNew)
    · have arrChanges : ((s.port p).writeCringHi cmdHi).writeAringHi arrHi = arrHalf ((s.port p).writeCringHi cmdHi) :=
        (Port.writeAringHi_changed (by rw [arrKept]; exact arrNew)).trans (if_congr (by rw [arrKept, stateKept]) rfl rfl)
      exact arrChanges.trans (congrArg arrHalf (cmdChanges cmdNew))
end

