-- ==== Sys2Proof/Proofs/RecordGrants.lean ====
section
/-!
THEOREMS. The grant of a RECORD request: which process's request RECORD presents, and what issuing it writes (R44, R49, R55, R99, R103,
R161 to R163).
-/
open Sys2Proof Sys2Proof.Machine

namespace Sys2Proof.Machine

variable {s : State} {p : PortId} {k : SlotId} {P : Port}

/-! ### What each process has ready (R163) -/

/-- The Command Process has a completion store or a load presented. -/
def CmdProc.ready (c : CmdProc) : Bool := c.outstanding.any (fun r => r.phase == .presented) || c.load.any (fun l => l.slot == none)

/-- The Arrival Process has a load or a record store presented. -/
def ArrProc.ready (a : ArrProc) : Bool := a.load.any (fun l => l.slot == none) || a.store.any (fun x => x.slot == none)

theorem presentedLoad_isSome (load : Option RingLoad) : (presentedLoad load).isSome = load.any (fun l => l.slot == none) := by
  cases load with
  | none => rfl
  | some l => cases e : l.slot <;> simp [presentedLoad, e]

theorem presentedLoad_of {load : Option RingLoad} {l : RingLoad} (h : load = some l) (free : l.slot = none) :
    presentedLoad load = some l := by
  simp [presentedLoad, h, free]

theorem CmdProc.offer_isSome (c : CmdProc) : c.offer.isSome = c.ready := by
  unfold CmdProc.offer CmdProc.ready
  rw [← presentedLoad_isSome, ← List.isSome_find?]
  cases c.outstanding.find? (fun r => r.phase == .presented) with
  | some r => simp
  | none => simp

theorem ArrProc.offer_isSome (a : ArrProc) : a.offer.isSome = a.ready := by
  unfold ArrProc.offer ArrProc.ready
  rw [← presentedLoad_isSome]
  cases presentedLoad a.load with
  | some l => rfl
  | none =>
    cases a.store with
    | none => rfl
    | some x => cases e : x.slot <;> simp [e]

/-- RECORD presents the request of the process whose turn it is where both have one ready, else of the one that has (R163). -/
theorem Port.recordSide_eq (P : Port) : P.recordSide =
    if P.cmd.ready && P.arr.ready then some P.recordTurn else if P.cmd.ready then some .command
    else if P.arr.ready then some .arrival else none := by
  rw [← CmdProc.offer_isSome, ← ArrProc.offer_isSome]
  unfold Port.recordSide
  cases P.cmd.offer <;> cases P.arr.offer <;> rfl

/-! ### What each process offers first, and its issuing (R44, R99, R103, R163) -/

variable {before after : List CmdRec} {r : CmdRec} {l : RingLoad}

theorem CmdProc.offer_store {c : CmdProc} (out : c.outstanding = before ++ r :: after) (first : ∀ x ∈ before, x.phase ≠ .presented)
    (presented : r.phase = .presented) : c.offer = some (.store r) := by
  have found : (before ++ r :: after).find? (fun r => r.phase == .presented) = some r :=
    find?_append _ _ _ _ (fun x hx => by simpa using first x hx) (by simpa using presented)
  simp only [CmdProc.offer, out, found]

theorem CmdProc.offer_load {c : CmdProc} (noStore : ∀ x ∈ c.outstanding, x.phase ≠ .presented) (load : c.load = some l)
    (free : l.slot = none) : c.offer = some (.load l) := by
  have absent : c.outstanding.find? (fun r => r.phase == .presented) = none :=
    List.find?_eq_none.mpr (fun x hx => by simpa using noStore x hx)
  simp only [CmdProc.offer, absent, presentedLoad_of load free, Option.map_some]

theorem ArrProc.offer_load {a : ArrProc} (load : a.load = some l) (free : l.slot = none) : a.offer = some (.load l) := by
  simp only [ArrProc.offer, presentedLoad_of load free]

theorem ArrProc.offer_store {a : ArrProc} {x : RingStore} (load : a.load = none) (store : a.store = some x) (free : x.slot = none) :
    a.offer = some (.store x) := by
  simp [ArrProc.offer, presentedLoad, load, store, free]

/-- The oldest presented store is the one issued. -/
theorem issueFirst_append (first : ∀ x ∈ before, x.phase ≠ .presented) (presented : r.phase = .presented) :
    issueFirst k (before ++ r :: after) = before ++ { r with phase := .issued k } :: after := by
  induction before with
  | nil => simp [issueFirst, presented]
  | cons x before ih =>
    obtain ⟨notX, notRest⟩ := List.forall_mem_cons.mp first
    simp [issueFirst, notX, ih notRest]

variable {deadline : Nat}

theorem Port.issueCmd_store {res : Result} (out : P.cmd.outstanding = before ++ r :: after)
    (first : ∀ x ∈ before, x.phase ≠ .presented) (presented : r.phase = .presented) (result : r.result = some res) :
    P.issueCmd k deadline = { P with
      slots := P.slots.set k (some { req := .completionStore r.addr (completionBytes r.raw res), deadline := deadline })
      cmd := { P.cmd with outstanding := before ++ { r with phase := .issued k } :: after } } := by
  unfold Port.issueCmd
  rw [CmdProc.offer_store out first presented, ← issueFirst_append first presented, ← out]
  simp only [result, Option.getD_some]
  rfl

theorem Port.issueCmd_load (noStore : ∀ x ∈ P.cmd.outstanding, x.phase ≠ .presented) (load : P.cmd.load = some l)
    (free : l.slot = none) :
    P.issueCmd k deadline = { P with
      slots := P.slots.set k (some { req := .ringLoad (cringAddr P.cmd.base l.index), deadline := deadline })
      cmd := { P.cmd with load := some { l with slot := some k } } } := by
  simp only [Port.issueCmd, CmdProc.offer_load noStore load free]
  rfl

theorem Port.issueArr_load (load : P.arr.load = some l) (free : l.slot = none) :
    P.issueArr k deadline = { P with
      slots := P.slots.set k (some { req := .arrivalLoad (aringAddr P.arr.base l.index), deadline := deadline })
      arr := { P.arr with load := some { l with slot := some k } } } := by
  simp only [Port.issueArr, ArrProc.offer_load load free]
  rfl

theorem Port.issueArr_store {x : RingStore} {lane : Lane} {it : Item} (load : P.arr.load = none) (store : P.arr.store = some x)
    (free : x.slot = none) (item : P.inbox.delivering = some (lane, it)) :
    P.issueArr k deadline = { P with
      slots := P.slots.set k (some { req := .arrivalStore (aringAddr P.arr.base x.index) (arrivalBytes lane it), deadline := deadline })
      arr := { P.arr with store := some { x with slot := some k } } } := by
  simp only [Port.issueArr, ArrProc.offer_store load store free, item]
  rfl

/-! ### The grant (R161, R162) -/

/-- In ROTATING mode the granted source moves to the end of the port's list; in FIXED mode the list stays (R162). -/
theorem State.rotate_eq (p : PortId) (x : Source) (s : State) :
    s.rotate p x = s.modPort p (fun P => { P with rotation := s.rotated x P.rotation }) := by
  unfold State.rotate State.rotated
  cases s.theMap.arbMode with
  | fixed => exact (State.modPort_id rfl).symm
  | rotating => rfl

/-- A grant to RECORD issues RECORD's request and rotates, in one write of the port. -/
theorem exec_grantRecord (granted : s.granted p k = some .record) {g : Port → Port}
    (h : { (s.port p).issueRecord k (s.respDeadline p) with
      rotation := s.rotated .record ((s.port p).issueRecord k (s.respDeadline p)).rotation } = g (s.port p)) :
    exec (.arbiterGrant p k) s = .next (s.modPort p g) := by
  show execArbiterGrant p k s = _
  simp only [execArbiterGrant, granted, State.grant]
  rw [State.rotate_eq, State.modPort_modPort]
  exact next_modPort h

theorem Port.issueRecord_command (side : P.recordSide = some .command) :
    P.issueRecord k deadline = { P.issueCmd k deadline with recordTurn := .arrival } := by
  simp only [Port.issueRecord, side]

theorem Port.issueRecord_arrival (side : P.recordSide = some .arrival) :
    P.issueRecord k deadline = { P.issueArr k deadline with recordTurn := .command } := by
  simp only [Port.issueRecord, side]

end Sys2Proof.Machine

/-- Settles O23: the side by what the two processes have ready, and each of the four requests as its process issues it. -/
theorem grantedRecordIsIssued : Obligations.GrantedRecordIsIssued := by
  unfold Obligations.GrantedRecordIsIssued
  refine ⟨Port.recordSide_eq, fun s p k granted => ?_⟩
  refine ⟨fun side before r after res out first presented result => ?_, fun side l noStore load free => ?_,
    fun side l load free => ?_, fun side x lane it load store free item => ?_⟩
  · refine exec_grantRecord granted ?_
    rw [Port.issueRecord_command side, Port.issueCmd_store out first presented result]
    rfl
  · refine exec_grantRecord granted ?_
    rw [Port.issueRecord_command side, Port.issueCmd_load noStore load free]
    rfl
  · refine exec_grantRecord granted ?_
    rw [Port.issueRecord_arrival side, Port.issueArr_load load free]
    rfl
  · refine exec_grantRecord granted ?_
    rw [Port.issueRecord_arrival side, Port.issueArr_store load store free item]
    rfl
end

