-- ==== Sys2Proof/Proofs/FinalExpiries.lean ====
section
/-!
THEOREMS. The final expiries (R60, R108, R123, R142, R169): each ends its own request, records its one fault, and fences the port as the
fence of R170 leaves it.
-/
open Sys2Proof Sys2Proof.Machine

namespace Sys2Proof.Machine

/-! ### The port-level parts of the fence (R170) -/

/-- Discards are counted apart from the faults (R165, R168). -/
theorem Port.countDiscards_fault (n : Nat) (P : Port) :
    (Port.countDiscards n P).fault = { P.fault with discards := (Port.countDiscards n P).fault.discards } := by
  induction n with
  | zero => rfl
  | succ n ih =>
    simp only [Port.countDiscards, Port.countDiscard]
    rw [ih]

section
variable (P : Port)

@[simp] theorem Port.fence_state : P.fence.state = .fenced := by simp [Port.fence, Port.arrShut, Port.modInbox, Port.modArr]

@[simp] theorem Port.fence_mask : P.fence.mask = P.mask := by simp [Port.fence, Port.arrShut, Port.modInbox, Port.modArr]

@[simp] theorem Port.fence_attnRelease : P.fence.attnRelease = P.attnRelease := by
  simp [Port.fence, Port.arrShut, Port.modInbox, Port.modArr]

@[simp] theorem Port.fence_events : P.fence.events = P.events ||| Event.fencedSelf.bit := by
  simp [Port.fence, Port.arrShut, Port.modInbox, Port.modArr, Port.raise]

/-- A fence counts discards, and records no fault. -/
theorem Port.fence_fault : P.fence.fault = { P.fault with discards := P.fence.fault.discards } := by
  simp only [Port.fence, Port.arrShut, Port.modInbox, Port.modArr, Port.cmdShut]
  rw [Port.countDiscards_fault]
  rfl

/-- A fence keeps the ring registers and the next index of both processes (R63, R109). -/
theorem Port.fence_rings : P.fence.cmd.base = P.cmd.base ∧ P.fence.cmd.size = P.cmd.size ∧ P.fence.cmd.next = P.cmd.next ∧
    P.fence.arr.base = P.arr.base ∧ P.fence.arr.size = P.arr.size ∧ P.fence.arr.next = P.arr.next := by
  simp [Port.fence, Port.arrShut, Port.modInbox, Port.modArr, Port.cmdShut, ArrProc.shut, Port.clearSlots]

end

/-! ### The expired request ended (R169, R170 part 1) -/

/-- `Q` is the port `P` with its expired request's fault recorded, and the halt of a ring request's process raised (R60, R108). -/
structure Port.Faulted (P Q : Port) (kind : FaultKind) (info : Addr) : Prop where
  mask : Q.mask = P.mask
  attnRelease : Q.attnRelease = P.attnRelease
  fault : Q.fault = P.fault.record kind info .yield
  cmdHalted : kind = .fetchError ∨ kind = .writebackError → Q.events.getLsbD 4 = true
  arrHalted : kind = .arrivalError → Q.events.getLsbD 5 = true
  cmdRing : Q.cmd.base = P.cmd.base ∧ Q.cmd.size = P.cmd.size ∧ Q.cmd.next = P.cmd.next
  arrRing : Q.arr.base = P.arr.base ∧ Q.arr.size = P.arr.size ∧ Q.arr.next = P.arr.next

section
variable (P : Port) (k : SlotId)

theorem Port.faulted_cmdLoadLost (a : Addr) : P.Faulted (P.cmdLoadLost k a) .fetchError a :=
  ⟨rfl, rfl, rfl, fun _ => by simp [Port.cmdLoadLost, Port.raise, Event.bit], nofun, ⟨rfl, rfl, rfl⟩, ⟨rfl, rfl, rfl⟩⟩

theorem Port.faulted_completionLost :
    P.Faulted ((P.completionLost k).raise .cmdHalted) .writebackError ((P.storeSeq k).zeroExtend 40) :=
  ⟨rfl, rfl, rfl, fun _ => by simp [Port.raise, Event.bit], nofun, ⟨rfl, rfl, rfl⟩, ⟨rfl, rfl, rfl⟩⟩

theorem Port.faulted_arrLost (a : Addr) : P.Faulted (P.arrLost k a) .arrivalError a :=
  ⟨rfl, rfl, rfl, nofun, fun _ => by simp [Port.arrLost, Port.arrFault, Port.raise, Event.bit], ⟨rfl, rfl, rfl⟩, ⟨rfl, rfl, rfl⟩⟩

/-- The expiry of a yield or a burst, whose faults belong to no process. -/
theorem Port.faulted_slot {kind : FaultKind} (h : kind = .yieldExpired ∨ kind = .responseExpired) (info : Addr) :
    P.Faulted ((P.setSlot k none).recordFault kind info) kind info := by
  refine ⟨rfl, rfl, rfl, ?_, ?_, ⟨rfl, rfl, rfl⟩, ⟨rfl, rfl, rfl⟩⟩
  · rcases h with rfl | rfl <;> simp
  · rcases h with rfl | rfl <;> simp

end

section
variable {P Q R : Port} {kind : FaultKind} {info : Addr}

theorem Port.Faulted.fault_kept (faulted : P.Faulted Q kind info) (kept : Q.fence.KeptSince R) :
    R.fault.kind = (P.fault.record kind info .yield).kind ∧ R.fault.info = (P.fault.record kind info .yield).info ∧
    R.fault.source = (P.fault.record kind info .yield).source ∧ R.fault.count = (P.fault.record kind info .yield).count := by
  have fault := Port.fence_fault Q
  rw [faulted.fault] at fault
  rw [kept.kind, kept.info, kept.source, kept.count, fault]
  exact ⟨rfl, rfl, rfl, rfl⟩

theorem Port.Faulted.cmdRing_kept (faulted : P.Faulted Q kind info) (kept : Q.fence.KeptSince R) :
    R.cmd.base = P.cmd.base ∧ R.cmd.size = P.cmd.size ∧ R.cmd.next = P.cmd.next := by
  obtain ⟨base, size, next, -⟩ := Port.fence_rings Q
  rw [kept.cmdBase, kept.cmdSize, kept.cmdNext, base, size, next]
  exact faulted.cmdRing

theorem Port.Faulted.arrRing_kept (faulted : P.Faulted Q kind info) (kept : Q.fence.KeptSince R) :
    R.arr.base = P.arr.base ∧ R.arr.size = P.arr.size ∧ R.arr.next = P.arr.next := by
  obtain ⟨-, -, -, base, size, next⟩ := Port.fence_rings Q
  rw [kept.arrBase, kept.arrSize, kept.arrNext, base, size, next]
  exact faulted.arrRing

end

variable {s u : State} {p : PortId} {c : Instr} {kind : FaultKind} {info : Addr}

/-- Each of the final expiries is the fence of its port, once the expired request has ended and its fault is recorded there. -/
theorem State.fence_of_expiresOn (h : s.expiresOn c p kind info) :
    ∃ (u : State) (e : Expired), exec c s = .next (u.fence p e) ∧ (s.port p).Faulted (u.port p) kind info ∧ ∀ q, u.cfg q = s.cfg q := by
  obtain ⟨k, rfl, due, req, rfl⟩ | ⟨k, a, bytes, rfl, due, req, rfl, rfl⟩ | ⟨k, rfl, due, req, rfl⟩ |
    ⟨t, e, k, rfl, due, rfl, last, rfl, rfl⟩ | ⟨ch, r, k, rfl, due, rfl, rfl⟩ := h
  case inl =>
    refine ⟨s.modPort p (Port.cmdLoadLost k info), .ring, ?_, ?_, fun _ => rfl⟩
    · show execRingRequestExpiry p k s = _
      simp only [execRingRequestExpiry, due, req, if_true]
    · rw [State.modPort_port_same]
      exact Port.faulted_cmdLoadLost _ k info
  case inr.inl =>
    refine ⟨s.modPort p (fun P => (P.completionLost k).raise .cmdHalted), .ring, ?_, ?_, fun _ => rfl⟩
    · show execRingRequestExpiry p k s = _
      simp only [execRingRequestExpiry, due, req, if_true]
    · rw [State.modPort_port_same]
      exact Port.faulted_completionLost _ k
  case inr.inr.inl =>
    refine ⟨s.modPort p (Port.arrLost k info), .ring, ?_, ?_, fun _ => rfl⟩
    · show execArrivalRequestExpiry p k s = _
      rcases req with req | ⟨bytes, req⟩ <;> simp only [execArrivalRequestExpiry, due, req, if_true]
    · rw [State.modPort_port_same]
      exact Port.faulted_arrLost _ k info
  case inr.inr.inr.inl =>
    refine ⟨(s.retireYield t e.ask.target k (fun a => a.target != e.ask.target)).modPort e.ask.target
      (Port.recordFault .yieldExpired (BitVec.ofNat 40 t.val)), .yield e.ask, ?_, ?_, fun _ => rfl⟩
    · show execYieldFinalExpiry t s = _
      simp only [execYieldFinalExpiry, due, if_neg (Nat.not_lt.mpr last)]
    · rw [State.modPort_port_same]
      show Port.Faulted _ (Port.recordFault _ _ ((s.modPort e.ask.target (Port.setSlot k none)).port e.ask.target)) _ _
      rw [State.modPort_port_same]
      exact Port.faulted_slot _ k (.inl rfl) _
  case inr.inr.inr.inr =>
    refine ⟨(s.endBurst r.port k ch).modPort r.port (Port.recordFault .responseExpired info),
      .burst ch (if r.write then .destError else .sourceError), ?_, ?_, fun _ => rfl⟩
    · show execBurstExpiry ch s = _
      simp only [execBurstExpiry, due]
    · rw [State.modPort_port_same]
      show Port.Faulted _ (Port.recordFault _ _ ((s.modPort r.port (Port.setSlot k none)).port r.port)) _ _
      rw [State.modPort_port_same]
      exact Port.faulted_slot _ k (.inr rfl) _

/-- An event whose flag is set shows in EVENTS. -/
theorem events_and_bit {events : BitVec 10} {e : Event} {i : Nat} (set : events.getLsbD i = true) (bit : e.bit.getLsbD i = true) :
    events &&& e.bit ≠ 0 := by
  intro clear
  have shown := congrArg (BitVec.getLsbD · i) clear
  simp [set, bit] at shown

end Sys2Proof.Machine

/-- Settles O20: a final expiry is a fence of the port on which its fault is recorded, and the fence keeps what the work of the other blocks
leaves (`State.fence_port`). -/
theorem finalExpiryFencesThePort : Obligations.FinalExpiryFencesThePort := by
  unfold Obligations.FinalExpiryFencesThePort
  intro s p c kind info expires
  obtain ⟨u, e, row, faulted, cfg⟩ := State.fence_of_expiresOn expires
  obtain ⟨kept, raised⟩ := State.fence_port u p e
  obtain ⟨slots, cmdState, cmdRun, cmdLoad, cmdHeld, cmdDeadline, lost, arrState, arrRun, arrLoad, arrStore, arrStop, arrDeadline⟩ :=
    kept.quiet
  obtain ⟨faultKind, faultInfo, faultSource, faultCount⟩ := faulted.fault_kept kept
  obtain ⟨cmdBase, cmdSize, cmdNext⟩ := faulted.cmdRing_kept kept
  obtain ⟨arrBase, arrSize, arrNext⟩ := faulted.arrRing_kept kept
  have state : ((u.fence p e).port p).state = .fenced := kept.state.trans (Port.fence_state _)
  have mask : ((u.fence p e).port p).mask = (s.port p).mask := kept.mask.trans ((Port.fence_mask _).trans faulted.mask)
  have attnRelease : ((u.fence p e).port p).attnRelease = (s.port p).attnRelease :=
    kept.attnRelease.trans ((Port.fence_attnRelease _).trans faulted.attnRelease)
  have shows : ∀ i, (u.port p).events.getLsbD i = true ∨ Event.fencedSelf.bit.getLsbD i = true →
      ((u.fence p e).port p).events.getLsbD i = true := fun i hi => raised i (by simpa using hi)
  have notice : ∀ q, (s.cfg q).recovery = true → ((u.fence p e).port q).events &&& Event.fenceNotice.bit ≠ 0 :=
    fun q right => events_and_bit (State.fence_notice u p e q (by rw [cfg]; exact right)) rfl
  exact ⟨_, row, state, slots, mask, attnRelease, events_and_bit (shows 6 (.inr rfl)) rfl,
    fun h => events_and_bit (shows 4 (.inl (faulted.cmdHalted h))) rfl,
    fun h => events_and_bit (shows 5 (.inl (faulted.arrHalted h))) rfl, notice, faultKind, faultInfo, faultSource, faultCount,
    cmdState, cmdRun, cmdBase, cmdSize, cmdNext, cmdLoad, cmdHeld, cmdDeadline, lost,
    arrState, arrRun, arrBase, arrSize, arrNext, arrLoad, arrStore, arrStop, arrDeadline⟩
end

