-- ==== Sys2Proof/Proofs/OwnChecks.lean ====
section
/-!
SUPPORT. A custody command that is taken, by its own checks (R64, R65): the check that fails ends it, and with none it is accepted; and
what those checks see of a HELD or SHARED buffer.
-/
namespace Sys2Proof.Machine
open Sys2Proof

variable {s u : State} {p : PortId} {b : BufId} {o : Owned} {raw : List Byte} {own : List (Bool × ResultCode)} {row : Instr}

/-! ### The row and its own checks -/

/-- The row `row`, taken in state `s`, is judged by the checks `own` alone: the first that fails ends the command as `ends` says, and where
none fails the state is `accepted`. -/
structure Judged (s : State) (row : Instr) (own : List (Bool × ResultCode)) (ends : ResultCode → State) (accepted : State) : Prop where
  refused : ∀ {c}, firstRefusal own = some c → exec row s = .next (ends c)
  accepted : firstRefusal own = none → exec row s = .next accepted

/-- Where the Mover's turn ends an accepted command that left the Mover alone, the turn changes nothing. -/
theorem Judged.settled {ends : ResultCode → State} {v t : State} (J : Judged s row own ends v.settle) (passed : firstRefusal own = none)
    (rest : s.moverAtRest) (becomes : v = t) (still : t.mover = s.mover) : exec row s = .next t := by
  rw [J.accepted passed, becomes, State.settle_of still rest]

/-- The command that is next to be taken is the one a row of its kind takes. -/
theorem State.takes.taken {op : CmdOp} (h : s.takes p op raw) (f : List Byte → State → State) : s.taking p op f = f raw s := by
  obtain ⟨-, -, ho, r, hr, rfl⟩ := h
  exact State.taking_of f hr ho

/-- A command with a current handle is judged by its own checks, and its refusals carry the handle (R65). -/
theorem State.takes.judged {op : CmdOp} {checks : List Byte → State → List (Bool × ResultCode)} {accept : List Byte → State → State}
    (takes : s.takes p op raw) (current : s.handleCurrent raw)
    (meaning : Machine.exec row s = .next (s.taking p op (fun raw s => s.judge p .full raw (checks raw s) (accept raw)))) :
    Judged s row (checks raw s) (s.endTakenOn p (entryBuf raw)) (accept raw s) := by
  have taken := takes.taken (fun raw s => s.judge p .full raw (checks raw s) (accept raw))
  obtain ⟨ready, active, -⟩ := takes
  rw [taken] at meaning
  exact ⟨fun h => by rw [meaning, State.judge_refused current ready active h],
    fun h => by rw [meaning, State.judge_accepted current ready active h]⟩

/-- A command that names no buffer is judged by its own checks, and its refusals carry no handle (R65). -/
theorem State.takes.judgedBare {op : CmdOp} {checks : List Byte → State → List (Bool × ResultCode)} {accept : List Byte → State → State}
    (takes : s.takes p op raw)
    (meaning : Machine.exec row s = .next (s.taking p op (fun raw s => s.judge p .none raw (checks raw s) (accept raw)))) :
    Judged s row (checks raw s) (fun c => s.endTaken p (Result.bare c)) (accept raw s) := by
  have taken := takes.taken (fun raw s => s.judge p .none raw (checks raw s) (accept raw))
  obtain ⟨ready, active, -⟩ := takes
  have early : firstRefusal (s.earlyChecks p .none raw) = none := by simp [State.earlyChecks, firstRefusal, ready, active]
  have stale : firstRefusal (s.staleCheck .none raw ++ checks raw s) = firstRefusal (checks raw s) :=
    firstRefusal_cons_false rfl _ _
  rw [taken, State.judge, early] at meaning
  dsimp only at meaning
  rw [stale] at meaning
  exact ⟨fun h => by rw [meaning, h]; rfl, fun h => by rw [meaning, h]⟩

/-! ### What the checks see of a HELD or SHARED buffer -/

theorem State.holds_owned (h : (s.record b).custody = .owned o) : s.holds p b = (o.holder == p) := by
  rw [State.holds, h, Custody.heldBy]
  by_cases hp : o.holder = p <;> simp [hp]

theorem State.pendingOf_owned (h : (s.record b).custody = .owned o) : s.pendingOf b = o.pending := by
  rw [State.pendingOf, h]
  rfl

theorem State.lent_owned (h : (s.record b).custody = .owned o) : s.lent b = o.lent := by
  rw [State.lent, State.owned_of h]

/-- The own checks that FREE and SEND begin with let a buffer held plainly pass (R70, R72). -/
theorem firstRefusal_freeChecks_plain (held : (s.record b).custody = .heldPlain p) (l : List (Bool × ResultCode)) :
    firstRefusal (s.freeChecks p b ++ l) = firstRefusal l := by
  simp [State.freeChecks, firstRefusal, State.holds_owned held, State.pendingOf_owned held, State.lent_owned held, Owned.pending, Owned.lent]

/-- With nothing pending, no holder-side operation is under way and no reader is returning (R21). -/
theorem Owned.op_of_pending (h : o.pending = .none) : o.op = .none := by
  unfold Owned.pending at h
  cases hop : o.op <;> simp_all

/-! ### Refusals of a command on a buffer that its issuer must hold -/

/-- The own checks 1 to 3 of FREE and SEND fail in this order, whatever checks follow (R70, R72). -/
theorem freeChecks_refused (J : ∀ {c}, firstRefusal (s.freeChecks p b ++ own) = some c → exec row s = .next (s.endTakenOn p b c)) :
    (s.holds p b = false → exec row s = .next (s.endTakenOn p b .notHeld)) ∧
    (s.holds p b = true → s.pendingOf b ≠ .none → exec row s = .next (s.endTakenOn p b .inTransit)) ∧
    (s.holds p b = true → s.pendingOf b = .none → s.lent b = true → exec row s = .next (s.endTakenOn p b .leased)) :=
  ⟨fun h => J (by simp [State.freeChecks, firstRefusal, h]),
    fun h busy => J (by simp [State.freeChecks, firstRefusal, h, busy]),
    fun h idle lent => J (by simp [State.freeChecks, firstRefusal, h, idle, lent])⟩

/-! ### The accepted command and its buffer -/

@[simp] theorem State.acceptTaken_inbox (p i : PortId) (s : State) : ((s.acceptTaken p).port i).inbox = (s.port i).inbox := by
  rw [State.acceptTaken, State.modPort_port]
  split <;> rfl

/-- Where the port's commands stand as the acceptance left them, the entry just accepted is the one found waiting (R64). -/
theorem State.takes.waitingEntry {op : CmdOp} (takes : s.takes p op raw)
    (alone : ∀ x ∈ (s.port p).cmd.outstanding, x.isWaiting op (entryBuf raw) = false) (port : u.port p = (s.acceptTaken p).port p) :
    u.waitingEntry p op (entryBuf raw) = raw := by
  obtain ⟨-, -, ho, r, hr, rfl⟩ := takes
  rw [State.waitingEntry, port]
  exact State.waitingEntry_accepted hr ho rfl alone

theorem State.owned_inRange (h : (s.record b).custody = .owned o) : b < s.records.length :=
  State.record_inRange (by rw [h]; nofun)

/-- Two changes of a pool that agree on what the pool holds are one. -/
theorem State.modPool_congr {q : PoolId} {f g : PoolState → PoolState} (h : f (s.pool q) = g (s.pool q)) :
    s.modPool q f = s.modPool q g := by
  have same : s.pools.modify q f = s.pools.modify q g := by
    refine List.ext_getElem? (fun i => ?_)
    rw [List.getElem?_modify, List.getElem?_modify]
    by_cases hi : q = i
    · subst hi
      cases hx : s.pools[q]? with
      | none => rfl
      | some x =>
        have pool : s.pool q = x := by rw [State.pool, List.getD_eq_getElem?_getD, hx, Option.getD_some]
        rw [pool] at h
        simp [h]
    · simp [hi]
  rw [State.modPool, State.modPool, same]

end Sys2Proof.Machine
end

