-- ==== Sys2Proof/Proofs/AllocateAndFree.lean ====
section
/-!
THEOREMS. ALLOCATE (R68, R33, R34) and FREE (R70, R71, R23, R27, R33): the way of a buffer out of its free list and back.
-/
open Sys2Proof Sys2Proof.Machine

namespace Sys2Proof.Machine

variable {s u : State} {p : PortId} {b : BufId} {o : Owned} {raw : List Byte} {q : PoolId} {rest : List BufId}

/-- ALLOCATE is judged by its own checks, without a handle (R65, R68). -/
theorem State.takes.allocate (takes : s.takes p .allocate raw) :
    Judged s (.allocate p) (s.allocateChecks p (entryPool raw)) (fun c => s.endTaken p (Result.bare c))
      (s.allocateFrom p (entryPool raw)) :=
  takes.judgedBare (checks := fun raw s => s.allocateChecks p (entryPool raw))
    (accept := fun raw => State.allocateFrom p (entryPool raw)) rfl

/-- The head of a free list leaves it and becomes HELD, charged to its holder (R33, R34, R68). -/
theorem State.allocateFrom_cons (free : (s.pool q).free = b :: rest) : s.allocateFrom p q =
    ((s.modPool q (fun x => { x with free := rest, charge := x.charge.set p (s.charge p q + 1) })).modRecord b
      (fun r => { r with custody := .heldPlain p })).endTakenOn p b .ok := by
  have charged : (s.modPool q (fun x => { x with free := rest })).chargeUp p q =
      s.modPool q (fun x => { x with free := rest, charge := x.charge.set p (s.charge p q + 1) }) := by
    rw [State.chargeUp, State.modPool_modPool]
    exact State.modPool_congr rfl
  rw [State.allocateFrom, free, ← charged]
  rfl

/-- FREE is judged by its own checks (R70). -/
theorem State.takes.free (takes : s.takes p .free raw) (current : s.handleCurrent raw) :
    Judged s (.free p) (s.freeChecks p (entryBuf raw)) (s.endTakenOn p (entryBuf raw)) (s.freeAccept p (entryBuf raw)).settle :=
  takes.judged (checks := fun raw s => s.freeChecks p (entryBuf raw))
    (accept := fun raw s => (s.freeAccept p (entryBuf raw)).settle) current rfl

/-- The acknowledged DROP of a FREE frees the buffer and ends the FREE (R71). -/
theorem State.freeOutcome_acked (owned : u.owned b = some o) (op : o.op = .free) :
    u.freeOutcome b .acked = (u.freeFrom b o.holder).endWaiting o.holder .free b .ok .zero := by
  rw [State.freeOutcome, owned]
  dsimp only
  rw [op]
  rfl

/-- A buffer that enters its free list has the next generation (R27). -/
theorem State.enterFree_gen (inRange : b < u.records.length) :
    ((u.modRecord b Record.enterFree).record b).gen = (u.record b).gen + 1 := by
  rw [State.modRecord_record, if_pos ⟨rfl, inRange⟩]
  rfl

/-- What custody a buffer had does not show once it is given back. -/
theorem State.givenBack_setCustody (c : Custody) : (u.setCustody b c).givenBack b p = u.givenBack b p := by
  have same : (u.setCustody b c).modRecord b Record.enterFree = u.modRecord b Record.enterFree := by
    rw [State.setCustody, State.modRecord_modRecord]
    rfl
  exact congrArg (fun v : State => v.modPool (u.poolOf b) (fun q =>
    { q with free := q.free ++ [b], charge := q.charge.set p (q.charge.get p - 1) })) same

/-- A FREE accepted from a caching holder waits for the DROP it asks (R70). -/
theorem State.freeAccept_asked (held : (s.record b).custody = .heldPlain p) (active : s.active p = true) (caching : s.caching p = true) :
    s.freeAccept p b = ((s.acceptTaken p).setCustody b
      (.owned { holder := p, readers := [], leases := [], op := .free, orphan := false })).modYields
        (YieldUnit.take { buf := b, target := p, kind := .drop, op := .free }) := by
  rw [State.freeAccept, State.beginOp_of (u := s.acceptTaken p) held]
  exact State.ask_asked caching (by simpa using active)

/-- A FREE accepted from a holder that does not cache frees the buffer at once and ends (R71, R114). -/
theorem State.freeAccept_freed (held : (s.record b).custody = .heldPlain p) (caching : s.caching p = false)
    (waiting : (s.pool (s.poolOf b)).waiting = []) :
    s.freeAccept p b = ((s.acceptTaken p).givenBack b p).modPort p (Port.endCommand (CmdRec.isWaiting .free b)
      { code := .ok, handle := some (handleWord b ((s.record b).gen + 1)), detail := .zero }) := by
  have inRange : b < (s.acceptTaken p).records.length := State.owned_inRange held
  have owned := State.setCustody_owned (s := s.acceptTaken p)
    { holder := p, readers := [], leases := [], op := .free, orphan := false } inRange
  rw [State.freeAccept, State.beginOp_of (u := s.acceptTaken p) held, State.ask_skipped (by exact caching)]
  show State.freeOutcome b .acked _ = _
  rw [State.freeOutcome_acked owned rfl]
  dsimp only
  rw [State.freeFrom_plain (s := (s.acceptTaken p).setCustody b _) waiting, State.givenBack_setCustody]
  exact State.endWaiting_gen (State.enterFree_gen inRange)

end Sys2Proof.Machine

/-- Settles O35: the first check that fails refuses, and with none the head of the free list is handed out. -/
theorem allocateTakesTheHead : Obligations.AllocateTakesTheHead := by
  unfold Obligations.AllocateTakesTheHead
  intro s p raw takes q quota charge refused
  have row := takes.allocate
  have checks : s.allocateChecks p q = [(decide (s.theMap.pools.length ≤ q), .noPool), (quota == 0, .denied),
    (decide (quota ≤ charge), .quota), ((s.pool q).free.isEmpty, .empty)] := rfl
  refine ⟨?_, ?_, ?_, ?_, ?_⟩
  · exact fun beyond => row.refused (by rw [checks]; simp [firstRefusal, beyond])
  · exact fun pool none => row.refused (by rw [checks]; simp [firstRefusal, not_le.mpr pool, none])
  · exact fun pool some full => row.refused (by rw [checks]; simp [firstRefusal, not_le.mpr pool, some, full])
  · exact fun pool below empty => row.refused (by
      rw [checks]; simp [firstRefusal, not_le.mpr pool, Nat.ne_zero_of_lt below, not_le.mpr below, empty])
  · intro b rest pool below free
    rw [row.accepted (by rw [checks]; simp [firstRefusal, not_le.mpr pool, Nat.ne_zero_of_lt below, not_le.mpr below, free]),
      State.allocateFrom_cons free]
    have gen : ((s.setCustody b (.heldPlain p)).record b).gen = (s.record b).gen := State.setCustody_gen b b _ s
    rw [← gen]
    rfl

/-- Settles O36: of a buffer held plainly no check refuses, and the DROP is asked or skipped as the holder caches or not. -/
theorem freeDropsThenFrees : Obligations.FreeDropsThenFrees := by
  unfold Obligations.FreeDropsThenFrees
  intro s p raw takes current rest b refused
  have row := takes.free current
  obtain ⟨-, active, -⟩ := takes
  obtain ⟨notHeld, inTransit, leased⟩ := freeChecks_refused (own := []) (s := s) (p := p) (b := b) (row := .free p)
    (fun h => row.refused (by simpa using h))
  refine ⟨notHeld, inTransit, leased, fun held => ?_⟩
  have passed : firstRefusal (s.freeChecks p b) = none := by simpa [firstRefusal] using firstRefusal_freeChecks_plain held []
  exact ⟨fun caching => row.settled passed rest (State.freeAccept_asked held active caching) rfl,
    fun caching waiting => row.settled passed rest (State.freeAccept_freed held caching waiting) rfl⟩
end

