-- ==== Sys2Proof/Proofs/SendInReach.lean ====
section
/-!
THEOREMS. SEND to a port in the pool's reach (R72, R73, R74, R94): its checks, what it reserves, and the hand-over in the step of its
acceptance where the sender does not cache.
-/
open Sys2Proof Sys2Proof.Machine

namespace Sys2Proof.Machine

variable {s u : State} {p d : PortId} {b : BufId} {o : Owned} {raw : List Byte} {lane : Lane}

/-- SEND is judged by its own checks (R72). -/
theorem State.takes.send (takes : s.takes p .send raw) (current : s.handleCurrent raw) :
    Judged s (.send p) (s.sendChecks p (entryBuf raw) raw) (s.endTakenOn p (entryBuf raw))
      (s.sendAccept p (entryBuf raw) ((entryPortId raw).getD 0)).settle :=
  takes.judged (checks := fun raw s => s.sendChecks p (entryBuf raw) raw)
    (accept := fun raw s => (s.sendAccept p (entryBuf raw) ((entryPortId raw).getD 0)).settle) current rfl

/-! ### The own checks (R72) -/

theorem entryPortId_none (h : 4 ≤ entryPort raw) : entryPortId raw = none := by
  rw [entryPortId, dif_neg (not_lt.mpr h)]

/-- A lane byte beyond 01h names no lane of a SEND. -/
theorem entryLane_none (h : 1 < (byteAt raw 3).toNat) : entryLane raw = none := by
  have routine : byteAt raw 3 ≠ 0 := fun e => by simp [e] at h
  have urgent : byteAt raw 3 ≠ 1 := fun e => by simp [e] at h
  rw [entryLane, laneOfByte, if_neg routine, if_neg urgent]

/-- Of a buffer held plainly, the port field decides first whether the SEND has a destination. -/
theorem sendChecks_noPort (held : (s.record b).custody = .heldPlain p) (port : 4 ≤ entryPort raw) :
    firstRefusal (s.sendChecks p b raw) = some .badCommand := by
  rw [State.sendChecks, firstRefusal_freeChecks_plain held, entryPortId_none port]
  rfl

theorem sendChecks_dest (held : (s.record b).custody = .heldPlain p) (dest : entryPort raw = d.val) :
    firstRefusal (s.sendChecks p b raw) = firstRefusal (s.sendDestChecks p b raw d) := by
  rw [State.sendChecks, firstRefusal_freeChecks_plain held, entryPortId_of dest]

/-- A destination that is the sender, a length beyond the buffer's, or a lane byte of no lane is refused BAD_COMMAND. -/
theorem sendDestChecks_badCommand (h : d = p ∨ (s.entryOf b).size < entryLength raw ∨ 1 < (byteAt raw 3).toNat) :
    firstRefusal (s.sendDestChecks p b raw d) = some .badCommand := by
  refine firstRefusal_cons_true ?_ _ _
  obtain same | long | unnamed := h
  · simp [same]
  · simp [long]
  · simp [entryLane_none unnamed]

/-- In the pool's reach, the checks behind those of the entry's fields are the destination's own. -/
theorem sendDestChecks_reach (other : d ≠ p) (fits : entryLength raw ≤ (s.entryOf b).size) (lane : entryLane raw = some lane)
    (reach : (s.entryOf b).reach.get d = true) : firstRefusal (s.sendDestChecks p b raw d) = firstRefusal
      [(!(s.cfg d).present || s.quota d (s.poolOf b) == 0, .denied), (!s.active d, .fenced),
        (decide (s.quota d (s.poolOf b) ≤ s.charge d (s.poolOf b)), .quota),
        (decide ((s.cfg d).inboxLimit ≤ (s.port d).inbox.occupancy), .full)] := by
  rw [State.sendDestChecks, firstRefusal_cons_false (by simp [other, fits, lane])]
  simp [reach, State.reservingPool]

/-- A SEND of a buffer held plainly, to another port in the pool's reach, with a length and lane that fit. -/
structure SendIn (s : State) (p d : PortId) (raw : List Byte) (lane : Lane) : Prop where
  takes : s.takes p .send raw
  current : s.handleCurrent raw
  rest : s.moverAtRest
  held : (s.record (entryBuf raw)).custody = .heldPlain p
  dest : entryPort raw = d.val
  other : d ≠ p
  fits : entryLength raw ≤ (s.entryOf (entryBuf raw)).size
  lane : entryLane raw = some lane
  reach : (s.entryOf (entryBuf raw)).reach.get d = true

namespace SendIn
variable (S : SendIn s p d raw lane)
include S

theorem judged : Judged s (.send p) (s.sendChecks p (entryBuf raw) raw) (s.endTakenOn p (entryBuf raw))
    (s.sendAccept p (entryBuf raw) d).settle := by
  have row := S.takes.send S.current
  rw [entryPortId_of S.dest] at row
  exact row

theorem checks : firstRefusal (s.sendChecks p (entryBuf raw) raw) = firstRefusal
    [(!(s.cfg d).present || s.quota d (s.poolOf (entryBuf raw)) == 0, .denied), (!s.active d, .fenced),
      (decide (s.quota d (s.poolOf (entryBuf raw)) ≤ s.charge d (s.poolOf (entryBuf raw))), .quota),
      (decide ((s.cfg d).inboxLimit ≤ (s.port d).inbox.occupancy), .full)] :=
  (sendChecks_dest S.held S.dest).trans (sendDestChecks_reach S.other S.fits S.lane S.reach)

theorem denied (h : (s.cfg d).present = false ∨ s.quota d (s.poolOf (entryBuf raw)) = 0) :
    exec (.send p) s = .next (s.endTakenOn p (entryBuf raw) .denied) :=
  S.judged.refused (by rw [S.checks, firstRefusal_cons_true (by simpa using h)])

section Present
variable (present : (s.cfg d).present = true) (quota : s.quota d (s.poolOf (entryBuf raw)) ≠ 0)
include present quota

theorem fenced (inactive : s.active d = false) : exec (.send p) s = .next (s.endTakenOn p (entryBuf raw) .fenced) :=
  S.judged.refused (by rw [S.checks]; simp [firstRefusal, present, quota, inactive])

theorem atQuota (active : s.active d = true) (h : s.quota d (s.poolOf (entryBuf raw)) ≤ s.charge d (s.poolOf (entryBuf raw))) :
    exec (.send p) s = .next (s.endTakenOn p (entryBuf raw) .quota) :=
  S.judged.refused (by rw [S.checks]; simp [firstRefusal, present, quota, active, h])

theorem full (active : s.active d = true) (below : s.charge d (s.poolOf (entryBuf raw)) < s.quota d (s.poolOf (entryBuf raw)))
    (h : (s.cfg d).inboxLimit ≤ (s.port d).inbox.occupancy) : exec (.send p) s = .next (s.endTakenOn p (entryBuf raw) .full) :=
  S.judged.refused (by rw [S.checks]; simp [firstRefusal, present, quota, active, not_le.mpr below, h])

theorem passed (active : s.active d = true) (below : s.charge d (s.poolOf (entryBuf raw)) < s.quota d (s.poolOf (entryBuf raw)))
    (place : (s.port d).inbox.occupancy < (s.cfg d).inboxLimit) : firstRefusal (s.sendChecks p (entryBuf raw) raw) = none := by
  rw [S.checks]
  simp [firstRefusal, present, quota, active, not_le.mpr below, not_le.mpr place]

end Present
end SendIn

/-! ### What the acceptance reserves (R73) -/

/-- In reach a SEND reserves in the buffer's own pool, and no place at the Mover (R32, R73). -/
theorem State.sendReserve_reach (reach : (u.entryOf b).reach.get d = true) : u.sendReserve b d = u.reserveFor b d (u.poolOf b) := by
  have pool : u.reservingPool b d = u.poolOf b := by simp [State.reservingPool, reach]
  rw [State.sendReserve, pool, if_pos reach]
  rfl

/-- The reservations of an accepted SEND, and its buffer with the SEND pending. -/
theorem State.sendBegun (held : (s.record b).custody = .heldPlain p) (reach : (s.entryOf b).reach.get d = true) :
    ((s.acceptTaken p).sendReserve b d).beginOp b (.send d) = ((s.acceptTaken p).reserveFor b d (s.poolOf b)).setCustody b
      (.owned { holder := p, readers := [], leases := [], op := .send d, orphan := false }) := by
  rw [State.sendReserve_reach (u := s.acceptTaken p) reach]
  exact State.beginOp_of (u := (s.acceptTaken p).reserveFor b d (s.poolOf b)) held _

/-- From a caching holder a DROP is asked, and the SEND waits for it (R73). -/
theorem State.sendAccept_asked (held : (s.record b).custody = .heldPlain p) (reach : (s.entryOf b).reach.get d = true)
    (active : s.active p = true) (caching : s.caching p = true) : s.sendAccept p b d =
      (((s.acceptTaken p).reserveFor b d (s.poolOf b)).setCustody b
        (.owned { holder := p, readers := [], leases := [], op := .send d, orphan := false })).modYields
          (YieldUnit.take { buf := b, target := p, kind := .drop, op := .send }) := by
  rw [State.sendAccept, State.sendBegun held reach]
  exact State.ask_asked caching (by simpa using active)

/-! ### The hand-over (R74) -/

/-- The acknowledged DROP of a SEND in reach hands the buffer over (R74). -/
theorem State.sendOutcome_reach (owned : u.owned b = some o) (op : o.op = .send d) (reach : (u.entryOf b).reach.get d = true) :
    u.sendOutcome b .acked = u.handOff b o.holder d (u.waitingEntry o.holder .send b) := by
  simp [State.sendOutcome, owned, op, reach]

/-- With the destination's charge at `n`, it rises by one, and the sender's then falls by one (R33). -/
def PoolState.moveCharge (p d : PortId) (n : Nat) (x : PoolState) : PoolState :=
  { x with charge := (x.charge.set d (n + 1)).set p ((x.charge.set d (n + 1)).get p - 1) }

/-- Buffer `b` QUEUED for `d` by `p`, the charges of both moved on, with its DELIVERY item in the inbox (R24, R33, R74, R92). -/
def State.handedOver (b : BufId) (p d : PortId) (lane : Lane) (raw : List Byte) (s : State) : State :=
  ((s.modRecord b (fun r => { r with custody := .queued p d, length := entryLength raw, tag := entryTag raw })).modPool (s.poolOf b)
    (PoolState.moveCharge p d (s.charge d (s.poolOf b)))).modPort d (fun P => (P.modInbox (fun x => x.push lane
      { kind := .delivery (entryLength raw) (entryTag raw), buf := b, gen := (s.record b).gen, source := p, delivering := false })).arrPresent
        false)

/-- A charge that rises for `d` and then falls for `p`, as one write of the pool. -/
theorem State.chargeDown_chargeUp (q : PoolId) :
    (u.chargeUp d q).chargeDown p q = u.modPool q (PoolState.moveCharge p d (u.charge d q)) := by
  rw [State.chargeUp, State.chargeDown, State.modPool_modPool]
  exact State.modPool_congr rfl

/-- Becoming QUEUED leaves nothing of the custody before (R24). -/
theorem State.toQueued_setCustody (c : Custody) (n : Nat) (tag : Word) :
    (u.setCustody b c).toQueued b p d n tag = u.toQueued b p d n tag :=
  State.modRecord_modRecord b _ _ u

theorem State.toQueued_gen (n : Nat) (tag : Word) : ((u.toQueued b p d n tag).record b).gen = (u.record b).gen := by
  rw [State.toQueued, State.modRecord_record]
  split <;> rfl

/-- The reservations that a SEND just took turn into the queued buffer, its item and its charge (R24, R33, R74). -/
theorem State.deliver_reserved (dests : ∀ x ∈ u.destRes, x.buf ≠ b) (places : ∀ x ∈ (u.port d).inbox.reservations, x.buf ≠ b) :
    ((((u.reserveFor b d (u.poolOf b)).toQueued b p d (entryLength raw) (entryTag raw)).deliver b b p d lane (entryLength raw)
      (entryTag raw)).chargeDown p (u.poolOf b)).convertDest b = u.handedOver b p d lane raw := by
  have gen : (((u.reserveFor b d (u.poolOf b)).toQueued b p d (entryLength raw) (entryTag raw)).record b).gen = (u.record b).gen :=
    State.toQueued_gen (u := u) _ _
  rw [State.convertDest_last (l := u.destRes) (b := b) (p := d) (q := u.poolOf b) rfl dests, State.deliver, gen]
  show (((((u.toQueued b p d (entryLength raw) (entryTag raw)).chargeUp d (u.poolOf b)).chargeDown p (u.poolOf b)).modPort d
    (Port.modInbox (Inbox.reserve .send b))).modPort d (fun P => (P.modInbox (fun x => (x.release .send b).push lane _)).arrPresent
      false)) = _
  rw [State.chargeDown_chargeUp, State.handOver_port _ (by exact places)]
  rfl

/-- The hand-off of a SEND just accepted, its reservations taken (R74). -/
theorem State.handOff_reserved (entry : entryLane raw = some lane) (dests : ∀ x ∈ u.destRes, x.buf ≠ b)
    (places : ∀ x ∈ (u.port d).inbox.reservations, x.buf ≠ b) (c : Custody) :
    ((u.reserveFor b d (u.poolOf b)).setCustody b c).handOff b p d raw =
      (u.handedOver b p d lane raw).modPort p (Port.endCommand (CmdRec.isWaiting .send b)
        { code := .ok, handle := some (handleWord b (u.record b).gen), detail := .zero }) := by
  rw [State.handOff, State.toQueued_setCustody, entry]
  exact (congrArg (State.endWaiting p .send b .ok .zero) (State.deliver_reserved dests places)).trans
    (State.endWaiting_gen (State.toQueued_gen (u := u) _ _))

namespace SendIn
variable (S : SendIn s p d raw lane)
include S

/-- From a holder that does not cache the buffer is handed over in the step of the acceptance (R74, R114). -/
theorem handsOver (caching : s.caching p = false) (dests : ∀ x ∈ s.destRes, x.buf ≠ entryBuf raw)
    (places : ∀ x ∈ (s.port d).inbox.reservations, x.buf ≠ entryBuf raw)
    (alone : ∀ x ∈ (s.port p).cmd.outstanding, x.isWaiting .send (entryBuf raw) = false) :
    s.sendAccept p (entryBuf raw) d = ((s.acceptTaken p).handedOver (entryBuf raw) p d lane raw).modPort p
      (Port.endCommand (CmdRec.isWaiting .send (entryBuf raw))
        { code := .ok, handle := some (handleWord (entryBuf raw) (s.record (entryBuf raw)).gen), detail := .zero }) := by
  have inRange : entryBuf raw < s.records.length := State.owned_inRange S.held
  rw [State.sendAccept, State.sendBegun S.held S.reach, State.ask_skipped (by exact caching)]
  generalize hv : ((s.acceptTaken p).reserveFor (entryBuf raw) d (s.poolOf (entryBuf raw))).setCustody (entryBuf raw)
    (.owned { holder := p, readers := [], leases := [], op := .send d, orphan := false }) = v
  have owned : v.owned (entryBuf raw) = some { holder := p, readers := [], leases := [], op := .send d, orphan := false } := by
    rw [← hv]
    exact State.setCustody_owned _ inRange
  have entry : v.waitingEntry p .send (entryBuf raw) = raw := by
    refine S.takes.waitingEntry alone ?_
    rw [← hv]
    show (((s.acceptTaken p).modPool _ _).modPort d _).port p = _
    rw [State.modPort_port_ne _ _ S.other.symm, State.modPool_port]
  show v.sendOutcome (entryBuf raw) .acked = _
  rw [State.sendOutcome_reach owned rfl (by rw [← hv]; exact S.reach)]
  dsimp only
  rw [entry, ← hv]
  exact State.handOff_reserved (u := s.acceptTaken p) S.lane dests (by simpa using places) _

end SendIn

end Sys2Proof.Machine

/-- Settles O37: behind the checks, an accepted SEND in reach waits for its DROP or hands the buffer over at once. -/
theorem sendHandsTheBufferOver : Obligations.SendHandsTheBufferOver := by
  unfold Obligations.SendHandsTheBufferOver
  intro s p raw takes current rest b q delivery refused
  have row := takes.send current
  obtain ⟨notHeld, inTransit, leased⟩ := freeChecks_refused (s := s) (p := p) (b := b) row.refused
  refine ⟨notHeld, inTransit, leased, fun held port => row.refused (sendChecks_noPort held port), ?_⟩
  intro d lane held dest
  refine ⟨fun bad => row.refused ((sendChecks_dest held dest).trans (sendDestChecks_badCommand bad)), ?_⟩
  intro other fits lane' reach quota charge
  have S : SendIn s p d raw lane := ⟨takes, current, rest, held, dest, other, fits, lane', reach⟩
  refine ⟨S.denied, fun present some_quota => ?_⟩
  refine ⟨S.fenced present some_quota, S.atQuota present some_quota, S.full present some_quota, fun active below place => ?_⟩
  have passed := S.passed present some_quota active below place
  obtain ⟨-, issuer, -⟩ := takes
  refine ⟨fun caching => S.judged.settled passed rest ?_ rfl, fun caching dests places alone =>
    S.judged.settled passed rest (S.handsOver caching dests places alone) rfl⟩
  rw [State.sendAccept_asked held reach issuer caching, State.reserveFor,
    show (s.acceptTaken p).modPool (s.poolOf b) (fun x => { x with charge := x.charge.set d (x.charge.get d + 1) }) =
      (s.acceptTaken p).modPool q (fun x => { x with charge := x.charge.set d (charge + 1) }) from State.modPool_congr rfl]
  rfl
end

