-- ==== Sys2Proof/Proofs/Withdraw.lean ====
section
/-!
THEOREMS. WITHDRAW (R78, R33, R98): the buffer taken back from its destination's inbox.
-/
open Sys2Proof Sys2Proof.Machine

namespace Sys2Proof.Machine

variable {s u : State} {p d : PortId} {b : BufId} {raw : List Byte}

/-- WITHDRAW is judged by its own checks (R78). -/
theorem State.takes.withdraw (takes : s.takes p .withdraw raw) (current : s.handleCurrent raw) :
    Judged s (.withdraw p) (s.withdrawChecks p (entryBuf raw)) (s.endTakenOn p (entryBuf raw)) (s.withdrawAccept p (entryBuf raw)) :=
  takes.judged (checks := fun raw s => s.withdrawChecks p (entryBuf raw))
    (accept := fun raw => State.withdrawAccept p (entryBuf raw)) current rfl

theorem State.queuedOf_queued (h : (s.record b).custody = .queued p d) : s.queuedOf b = some (p, d) := by
  rw [State.queuedOf, h]

/-- A buffer that `p` has not sent, or that is not QUEUED, is refused NOT_HELD. -/
theorem withdrawChecks_notHeld (h : ∀ d, (s.record b).custody ≠ .queued p d) :
    firstRefusal (s.withdrawChecks p b) = some .notHeld := by
  unfold State.withdrawChecks
  cases hq : s.queuedOf b with
  | none => rfl
  | some x =>
    obtain ⟨sender, d⟩ := x
    have queued : (s.record b).custody = .queued sender d := by
      unfold State.queuedOf at hq
      split at hq
      · rename_i custody
        cases hq
        exact custody
      · cases hq
    have other : sender ≠ p := fun e => h d (e ▸ queued)
    exact firstRefusal_cons_true (by simpa using other) _ _

/-- Of a buffer that `p` sent, the item and the quota decide. -/
theorem withdrawChecks_queued (h : (s.record b).custody = .queued p d) : firstRefusal (s.withdrawChecks p b) = firstRefusal
    [(s.beingDelivered b d, .tooLate), (decide (s.quota p (s.poolOf b) ≤ s.charge p (s.poolOf b)), .quota)] := by
  rw [State.withdrawChecks, State.queuedOf_queued h]
  exact firstRefusal_cons_false (by simp) _ _

theorem State.beingDelivered_iff : s.beingDelivered b d = true ↔
    ∃ i ∈ (s.port d).inbox.urgent ++ (s.port d).inbox.routine, i.isDeliveryOf b = true ∧ i.delivering = true := by
  rw [State.beingDelivered, List.any_eq_true]
  simp only [Bool.and_eq_true]
  rfl

/-- A command that ends in its taking step carries the generation its buffer then has. -/
theorem State.endTakenOn_gen {code : ResultCode} {g : Byte} (h : (u.record b).gen = g) :
    u.endTakenOn p b code = u.endTaken p { code := code, handle := some (handleWord b g), detail := .zero } := by
  subst h
  rfl

/-- The item leaves the destination's inbox, and the buffer and its charge go back to the sender (R33, R78). -/
theorem State.withdrawAccept_queued (h : (s.record b).custody = .queued p d) : s.withdrawAccept p b =
    (((s.modPort d (Port.modInbox (Inbox.remove (Item.isDeliveryOf b)))).modRecord b (fun r =>
      { r with custody := .heldPlain p })).modPool (s.poolOf b) (fun x =>
      { x with charge := (x.charge.set d (x.charge.get d - 1)).set p ((x.charge.set d (x.charge.get d - 1)).get p + 1) })).endTaken p
        { code := .ok, handle := some (handleWord b (s.record b).gen), detail := .zero } := by
  have charges : ∀ v : State, (v.chargeDown d (s.poolOf b)).chargeUp p (s.poolOf b) = v.modPool (s.poolOf b) (fun x =>
      { x with charge := (x.charge.set d (x.charge.get d - 1)).set p ((x.charge.set d (x.charge.get d - 1)).get p + 1) }) :=
    fun v => State.modPool_modPool _ _ _ v
  rw [State.withdrawAccept, State.queuedOf_queued h]
  dsimp only
  rw [charges]
  exact State.endTakenOn_gen (State.setCustody_gen b b _ s)

end Sys2Proof.Machine

/-- Settles O39: the checks of a buffer QUEUED by the issuer, and the one write of each part when they pass. -/
theorem withdrawTakesTheBufferBack : Obligations.WithdrawTakesTheBufferBack := by
  unfold Obligations.WithdrawTakesTheBufferBack
  intro s p raw takes current b q result refused
  have row := takes.withdraw current
  refine ⟨fun other => row.refused (withdrawChecks_notHeld other), fun d queued => ?_⟩
  intro late
  have checks := withdrawChecks_queued queued
  have timely : ¬late → s.beingDelivered b d = false := fun h => by
    rw [← Bool.not_eq_true, State.beingDelivered_iff]
    exact h
  refine ⟨fun h => ?_, fun h full => ?_, fun h below => ?_⟩
  · exact row.refused (checks.trans (firstRefusal_cons_true (State.beingDelivered_iff.mpr h) _ _))
  · refine row.refused (checks.trans ?_)
    rw [firstRefusal_cons_false (timely h)]
    exact firstRefusal_cons_true (decide_eq_true full) _ _
  · have passed : firstRefusal (s.withdrawChecks p b) = none := by
      rw [checks, firstRefusal_cons_false (timely h)]
      exact firstRefusal_cons_false (decide_eq_false (not_le.mpr below)) _ _
    rw [row.accepted passed, State.withdrawAccept_queued queued]
    rfl
end

