-- ==== Sys2Proof/Proofs/Lend.lean ====
section
/-!
THEOREMS. LEND (R80, R81, R94): its checks, the two places it reserves in the reader's inbox, and the lease queued in the step of its
acceptance where the holder does not cache.
-/
open Sys2Proof Sys2Proof.Machine

namespace Sys2Proof.Machine

variable {s u : State} {p r : PortId} {b : BufId} {o : Owned} {raw : List Byte} {lane : Lane}

/-- LEND is judged by its own checks (R80). -/
theorem State.takes.lend (takes : s.takes p .lend raw) (current : s.handleCurrent raw) :
    Judged s (.lend p) (s.lendChecks p (entryBuf raw) raw) (s.endTakenOn p (entryBuf raw))
      (s.lendAccept p (entryBuf raw) ((entryPortId raw).getD 0)).settle :=
  takes.judged (checks := fun raw s => s.lendChecks p (entryBuf raw) raw)
    (accept := fun raw s => (s.lendAccept p (entryBuf raw) ((entryPortId raw).getD 0)).settle) current rfl

/-! ### The own checks (R80) -/

/-- The checks of the holder let a buffer of the issuer's with nothing pending pass. -/
theorem firstRefusal_holderChecks (owned : (s.record b).custody = .owned o) (holder : o.holder = p) (idle : o.pending = .none)
    (l : List (Bool × ResultCode)) :
    firstRefusal ([(!s.holds p b, .notHeld), (s.pendingOf b != .none, .inTransit)] ++ l) = firstRefusal l := by
  simp [firstRefusal, State.holds_owned owned, holder, State.pendingOf_owned owned, idle]

theorem lendChecks_noPort (owned : (s.record b).custody = .owned o) (holder : o.holder = p) (idle : o.pending = .none)
    (port : 4 ≤ entryPort raw) : firstRefusal (s.lendChecks p b raw) = some .badCommand := by
  rw [State.lendChecks, firstRefusal_holderChecks owned holder idle, entryPortId_none port]
  rfl

theorem lendChecks_reader (owned : (s.record b).custody = .owned o) (holder : o.holder = p) (idle : o.pending = .none)
    (port : entryPort raw = r.val) : firstRefusal (s.lendChecks p b raw) = firstRefusal (s.lendReaderChecks p b r) := by
  rw [State.lendChecks, firstRefusal_holderChecks owned holder idle, entryPortId_of port]

/-- Own check 6 of R80: `r` reads the buffer or has a lease of it outstanding, or its three views are given. -/
theorem State.lendFull_owned (owned : (s.record b).custody = .owned o) : s.lendFull b r = true ↔
    o.hasReader r = true ∨ r ∈ o.leases ∨ 3 ≤ o.readers.length + o.leases.length := by
  rw [State.lendFull, State.owned_of owned]
  simp [or_assoc]

/-- A LEND of a buffer that `p` holds with nothing pending, to a port `r`. -/
structure LendTo (s : State) (p r : PortId) (raw : List Byte) (o : Owned) : Prop where
  takes : s.takes p .lend raw
  current : s.handleCurrent raw
  rest : s.moverAtRest
  owned : (s.record (entryBuf raw)).custody = .owned o
  holder : o.holder = p
  idle : o.pending = .none
  port : entryPort raw = r.val

namespace LendTo
variable (L : LendTo s p r raw o)
include L

theorem judged : Judged s (.lend p) (s.lendChecks p (entryBuf raw) raw) (s.endTakenOn p (entryBuf raw))
    (s.lendAccept p (entryBuf raw) r).settle := by
  have row := L.takes.lend L.current
  rw [entryPortId_of L.port] at row
  exact row

theorem checks : firstRefusal (s.lendChecks p (entryBuf raw) raw) = firstRefusal (s.lendReaderChecks p (entryBuf raw) r) :=
  lendChecks_reader L.owned L.holder L.idle L.port

theorem toHolder (same : r = p) : exec (.lend p) s = .next (s.endTakenOn p (entryBuf raw) .badCommand) :=
  L.judged.refused (L.checks.trans (firstRefusal_cons_true (by simpa using same) _ _))

theorem denied (other : r ≠ p) (h : (s.cfg r).present = false ∨ (s.entryOf (entryBuf raw)).reach.get r = false) :
    exec (.lend p) s = .next (s.endTakenOn p (entryBuf raw) .denied) := by
  refine L.judged.refused (L.checks.trans ?_)
  rw [State.lendReaderChecks, firstRefusal_cons_false (by simpa using other)]
  exact firstRefusal_cons_true (by simpa using h) _ _

section Reachable
variable (other : r ≠ p) (present : (s.cfg r).present = true) (reach : (s.entryOf (entryBuf raw)).reach.get r = true)
include other present reach

/-- Where the port may read the pool's buffers, its state, the views given and its inbox decide. -/
theorem reachable : firstRefusal (s.lendChecks p (entryBuf raw) raw) = firstRefusal [(!s.active r, .fenced),
    (s.lendFull (entryBuf raw) r, .leased), (decide ((s.cfg r).inboxLimit < (s.port r).inbox.occupancy + 2), .full)] := by
  rw [L.checks, State.lendReaderChecks, firstRefusal_cons_false (by simpa using other),
    firstRefusal_cons_false (by simp [present, reach])]

theorem fenced (inactive : s.active r = false) : exec (.lend p) s = .next (s.endTakenOn p (entryBuf raw) .fenced) :=
  L.judged.refused ((L.reachable other present reach).trans (firstRefusal_cons_true (by simp [inactive]) _ _))

variable (active : s.active r = true)
include active

theorem leased (h : o.hasReader r = true ∨ r ∈ o.leases ∨ 3 ≤ o.readers.length + o.leases.length) :
    exec (.lend p) s = .next (s.endTakenOn p (entryBuf raw) .leased) := by
  refine L.judged.refused ((L.reachable other present reach).trans ?_)
  rw [firstRefusal_cons_false (by simp [active])]
  exact firstRefusal_cons_true ((State.lendFull_owned L.owned).mpr h) _ _

variable (noReader : o.hasReader r = false) (noLease : r ∉ o.leases) (below : o.readers.length + o.leases.length < 3)
include noReader noLease below

theorem room : firstRefusal (s.lendChecks p (entryBuf raw) raw) =
    firstRefusal [(decide ((s.cfg r).inboxLimit < (s.port r).inbox.occupancy + 2), .full)] := by
  have views : s.lendFull (entryBuf raw) r = false := by
    rw [← Bool.not_eq_true, State.lendFull_owned L.owned, noReader]
    simp [noLease, below]
  rw [L.reachable other present reach, firstRefusal_cons_false (by simp [active]), firstRefusal_cons_false views]

theorem full (h : (s.cfg r).inboxLimit < (s.port r).inbox.occupancy + 2) :
    exec (.lend p) s = .next (s.endTakenOn p (entryBuf raw) .full) :=
  L.judged.refused ((L.room other present reach active noReader noLease below).trans (firstRefusal_cons_true (decide_eq_true h) _ _))

theorem passed (h : (s.port r).inbox.occupancy + 2 ≤ (s.cfg r).inboxLimit) :
    firstRefusal (s.lendChecks p (entryBuf raw) raw) = none :=
  (L.room other present reach active noReader noLease below).trans
    (firstRefusal_cons_false (decide_eq_false (not_lt.mpr h)) _ _)

end Reachable
end LendTo

/-! ### The acceptance (R81) -/

/-- From a caching holder a CLEAN is asked, and the LEND waits for it (R81). -/
theorem State.lendAccept_asked (owned : (s.record b).custody = .owned o) (active : s.active p = true) (caching : s.caching p = true) :
    s.lendAccept p b r = (((s.acceptTaken p).modPort r (Port.modInbox (Inbox.reserve .lend b))).setCustody b
      (.owned { o with op := .lend })).modYields (YieldUnit.take { buf := b, target := p, kind := .clean, op := .lend }) := by
  rw [State.lendAccept, State.beginOp_of (u := (s.acceptTaken p).modPort r _) owned]
  refine State.ask_asked caching ?_
  show ((s.acceptTaken p).modPort r (Port.modInbox (Inbox.reserve .lend b))).active p = true
  rw [State.port_active r (Port.modInbox (Inbox.reserve .lend b)) _ _ (fun _ => rfl), State.acceptTaken_active, active]

/-- A buffer that is not orphaned stays lent as it is (R39). -/
theorem State.orphanLent_kept (owned : u.owned b = some o) (kept : o.orphan = false) : u.orphanLent b = u := by
  rw [State.orphanLent, owned]
  dsimp only
  rw [if_neg (by rw [kept]; nofun)]

/-- The acknowledged CLEAN of a LEND queues the lease and ends the LEND (R81). -/
theorem State.lendOutcome_acked (owned : u.owned b = some o) (op : o.op = .lend) (kept : o.orphan = false) (inRange : b < u.records.length)
    (reader : entryPortId (u.waitingEntry o.holder .lend b) = some r) : u.lendOutcome b .acked =
      ((u.setCustody b (.owned { o with op := .none, leases := o.leases ++ [r] })).queueLease b o.holder r
        (entryLendLane (u.waitingEntry o.holder .lend b))).endWaiting o.holder .lend b .ok .zero := by
  rw [State.lendOutcome, owned]
  dsimp only
  rw [op]
  dsimp only
  rw [reader]
  exact State.orphanLent_kept (o := { o with op := .none, leases := o.leases ++ [r] }) (State.setCustody_owned _ inRange) kept

/-- Of the two places reserved for a LEND, one becomes its item's and one the lease's standing reservation (R81, R96). -/
theorem State.lease_port (item : Item) (places : ∀ x ∈ (u.port r).inbox.reservations, x.buf ≠ b) :
    (u.modPort r (Port.modInbox (Inbox.reserve .lend b))).modPort r (fun P =>
      (P.modInbox (fun x => ((x.release .lend b).reserve .standing b).push lane item)).arrPresent false) =
    u.modPort r (fun P => (P.modInbox (fun x => (x.reserve .standing b).push lane item)).arrPresent false) := by
  rw [State.modPort_modPort]
  refine State.modPort_congr ?_
  show ({ u.port r with
    inbox := ((((u.port r).inbox.reserve .lend b).release .lend b).reserve .standing b).push lane item } : Port).arrPresent false = _
  rw [Inbox.release_reserve places]
  rfl

/-- From a holder that does not cache the lease is queued in the step of the acceptance (R81, R114). -/
theorem LendTo.queues (L : LendTo s p r raw o) (other : r ≠ p) (caching : s.caching p = false) (kept : o.orphan = false)
    (places : ∀ x ∈ (s.port r).inbox.reservations, x.buf ≠ entryBuf raw)
    (alone : ∀ x ∈ (s.port p).cmd.outstanding, x.isWaiting .lend (entryBuf raw) = false) :
    s.lendAccept p (entryBuf raw) r = (((s.acceptTaken p).setCustody (entryBuf raw) (.owned { o with leases := o.leases ++ [r] })).modPort r
      (fun P => (P.modInbox (fun x => (x.reserve .standing (entryBuf raw)).push (entryLendLane raw)
        { kind := .lease, buf := entryBuf raw, gen := (s.record (entryBuf raw)).gen, source := p, delivering := false })).arrPresent
          false)).modPort p (Port.endCommand (CmdRec.isWaiting .lend (entryBuf raw))
            { code := .ok, handle := some (handleWord (entryBuf raw) (s.record (entryBuf raw)).gen), detail := .zero }) := by
  have inRange := State.owned_inRange L.owned
  obtain rfl := L.holder
  rw [State.lendAccept, State.beginOp_of (u := (s.acceptTaken o.holder).modPort r _) L.owned, State.ask_skipped (by exact caching)]
  generalize hv : ((s.acceptTaken o.holder).modPort r (Port.modInbox (Inbox.reserve .lend (entryBuf raw)))).setCustody (entryBuf raw)
    (.owned { o with op := .lend }) = v
  have owned : v.owned (entryBuf raw) = some { o with op := .lend } := by
    rw [← hv]
    exact State.setCustody_owned _ inRange
  have entry : v.waitingEntry o.holder .lend (entryBuf raw) = raw := by
    refine L.takes.waitingEntry alone ?_
    rw [← hv, State.setCustody_port, State.modPort_port_ne _ _ other.symm]
  have lent : v.setCustody (entryBuf raw) (.owned { o with op := .none, leases := o.leases ++ [r] }) =
      ((s.acceptTaken o.holder).setCustody (entryBuf raw) (.owned { o with leases := o.leases ++ [r] })).modPort r
        (Port.modInbox (Inbox.reserve .lend (entryBuf raw))) := by
    rw [← hv, State.setCustody_setCustody, ← Owned.op_of_pending L.idle]
    rfl
  have gen : ((((s.acceptTaken o.holder).setCustody (entryBuf raw) (.owned { o with leases := o.leases ++ [r] })).modPort r
      (Port.modInbox (Inbox.reserve .lend (entryBuf raw)))).record (entryBuf raw)).gen = (s.record (entryBuf raw)).gen :=
    State.setCustody_gen _ _ _ (s.acceptTaken o.holder)
  show v.lendOutcome (entryBuf raw) .acked = _
  rw [State.lendOutcome_acked owned rfl kept (by rw [← hv, State.setCustody_records_length]; exact inRange)
    (by dsimp only; rw [entry, entryPortId_of L.port])]
  dsimp only
  rw [entry, lent, State.queueLease, gen, State.lease_port _ (by simpa using places)]
  exact State.endWaiting_gen gen

end Sys2Proof.Machine

/-- Settles O40: behind the checks, an accepted LEND waits for its CLEAN or queues the lease at once. -/
theorem lendQueuesALease : Obligations.LendQueuesALease := by
  unfold Obligations.LendQueuesALease
  intro s p raw takes current rest b result refused lane lease
  have row := takes.lend current
  refine ⟨fun notHeld => row.refused (firstRefusal_cons_true (by rw [notHeld]; rfl) _ _), fun held busy => ?_, ?_⟩
  · refine row.refused ?_
    rw [State.lendChecks, List.cons_append, firstRefusal_cons_false (by rw [held]; rfl)]
    exact firstRefusal_cons_true (bne_iff_ne.mpr busy) _ _
  intro o owned holder idle
  refine ⟨fun port => row.refused (lendChecks_noPort owned holder idle port), ?_⟩
  intro r port
  have L : LendTo s p r raw o := ⟨takes, current, rest, owned, holder, idle, port⟩
  refine ⟨L.toHolder, L.denied, fun other present reach => ?_⟩
  refine ⟨L.fenced other present reach, L.leased other present reach, fun active noReader noLease below => ?_⟩
  refine ⟨L.full other present reach active noReader noLease below, fun place => ?_⟩
  have passed := L.passed other present reach active noReader noLease below place
  obtain ⟨-, issuer, -⟩ := takes
  exact ⟨fun caching => L.judged.settled passed rest (State.lendAccept_asked owned issuer caching) rfl,
    fun caching kept places alone => L.judged.settled passed rest (L.queues other caching kept places alone) rfl⟩
end

