-- ==== Sys2Proof/Proofs/ReturnAndRecall.lean ====
section
/-!
THEOREMS. RETURN (R82, R83, R22) and RECALL of a buffer lent to one port (R84, R85, R86): the two ends of a view.
-/
open Sys2Proof Sys2Proof.Machine

namespace Sys2Proof.Machine

variable {s u : State} {p r : PortId} {b : BufId} {o : Owned} {raw : List Byte}

/-! ### RETURN (R82, R83) -/

/-- RETURN is judged by its own checks (R82). -/
theorem State.takes.returnView (takes : s.takes p .ret raw) (current : s.handleCurrent raw) :
    Judged s (.returnView p) (s.returnChecks p (entryBuf raw)) (s.endTakenOn p (entryBuf raw)) (s.returnAccept p (entryBuf raw)).settle :=
  takes.judged (checks := fun raw s => s.returnChecks p (entryBuf raw))
    (accept := fun raw s => (s.returnAccept p (entryBuf raw)).settle) current rfl

/-- A port whose returning flag is set is a reader. -/
theorem State.reads_of_isReturning (h : s.isReturning p b = true) : s.reads p b = true := by
  unfold State.isReturning at h
  unfold State.reads
  cases howned : s.owned b with
  | none => simp [howned] at h
  | some o =>
    simp only [howned, List.any_eq_true, Bool.and_eq_true] at h
    obtain ⟨x, hx, port, -⟩ := h
    exact List.any_eq_true.mpr ⟨x, hx, port⟩

/-- The reader whose flag is set is still there to leave. -/
theorem Owned.hasReader_setReturning : (o.setReturning p).hasReader r = o.hasReader r := by
  rw [Owned.hasReader, Owned.setReturning, List.any_map, Owned.hasReader]
  congr 1
  funext x
  show ((if x.port = p then { x with returning := true } else x : Reader).port == r) = _
  split <;> rfl

theorem Owned.dropReader_setReturning : (o.setReturning p).dropReader p = o.dropReader p := by
  have readers : ∀ l : List Reader, (l.map (fun x => if x.port = p then { x with returning := true } else x)).filter
      (fun x => x.port != p) = l.filter (fun x => x.port != p) := by
    intro l
    induction l with
    | nil => rfl
    | cons x l ih => by_cases h : x.port = p <;> simp [h, ih]
  rw [Owned.dropReader, Owned.setReturning, readers]
  rfl

/-- A reader whose DROP was acknowledged leaves a pending RECALL to end as it would have (R86). -/
theorem HolderOp.degrade_false (x : HolderOp) : x.degrade false = x := by
  cases x <;> simp [HolderOp.degrade]

/-- A reader that leaves, its DROP acknowledged, gives its standing reservation back (R22, R86). -/
theorem State.readerOut_acked (owned : u.owned b = some o) (reader : o.hasReader r = true) :
    u.readerOut b r false = (u.setCustody b (.owned (o.dropReader r))).releaseRes r .standing b := by
  rw [State.readerOut, owned]
  dsimp only
  rw [if_pos reader, HolderOp.degrade_false]
  rfl

/-- Without a RECALL pending there is none to end. -/
theorem State.recallCheck_other (owned : u.owned b = some o) (h : ∀ x, o.op ≠ .recallViews x) : u.recallCheck b = u := by
  rw [State.recallCheck, owned]
  dsimp only
  split
  · rename_i x op
    exact absurd op (h x)
  · rfl

/-- A RECALL with a reader left goes on (R86). -/
theorem State.recallCheck_waits (owned : u.owned b = some o) (h : o.readers ≠ []) : u.recallCheck b = u := by
  rw [State.recallCheck, owned]
  dsimp only
  split
  · rw [if_neg (fun x => h x.1)]
  · rfl

theorem State.returnAccept_of (owned : (s.record b).custody = .owned o) : s.returnAccept p b =
    ((s.acceptTaken p).setCustody b (.owned (o.setReturning p))).ask { buf := b, target := p, kind := .drop, op := .ret } := by
  have accepted : (s.acceptTaken p).owned b = some o := State.owned_of owned
  rw [State.returnAccept, accepted]

/-- From a caching reader a DROP is asked, and the RETURN waits for it (R82). -/
theorem State.returnAccept_asked (owned : (s.record b).custody = .owned o) (active : s.active p = true) (caching : s.caching p = true) :
    s.returnAccept p b = ((s.acceptTaken p).setCustody b (.owned (o.setReturning p))).modYields
      (YieldUnit.take { buf := b, target := p, kind := .drop, op := .ret }) := by
  rw [State.returnAccept_of owned]
  exact State.ask_asked caching (by simpa using active)

/-- From a reader that does not cache the view ends in the step of the acceptance (R83, R114). -/
theorem State.returnAccept_left (owned : (s.record b).custody = .owned o) (reader : o.hasReader p = true) (caching : s.caching p = false)
    (noRecall : ∀ x, o.op ≠ .recallViews x) : s.returnAccept p b =
      (((s.acceptTaken p).setCustody b (.owned (o.dropReader p))).modPort p (Port.modInbox (Inbox.release .standing b))).modPort p
        (Port.endCommand (CmdRec.isWaiting .ret b)
          { code := .ok, handle := some (handleWord b (s.record b).gen), detail := .zero }) := by
  have inRange : b < (s.acceptTaken p).records.length := State.owned_inRange owned
  have flagged := State.setCustody_owned (s := s.acceptTaken p) (o.setReturning p) inRange
  have left : ((s.acceptTaken p).setCustody b (.owned (o.setReturning p))).readerOut b p false =
      ((s.acceptTaken p).setCustody b (.owned (o.dropReader p))).modPort p (Port.modInbox (Inbox.release .standing b)) := by
    rw [State.readerOut_acked flagged (Owned.hasReader_setReturning.trans reader), State.setCustody_setCustody,
      Owned.dropReader_setReturning]
    rfl
  rw [State.returnAccept_of owned, State.ask_skipped (by exact caching)]
  show State.returnOutcome b p .acked _ = _
  rw [State.returnOutcome, left]
  refine (State.recallCheck_other (o := o.dropReader p) (by exact State.setCustody_owned _ inRange) noRecall).trans ?_
  exact State.endWaiting_gen (State.setCustody_gen b b _ (s.acceptTaken p))

/-! ### RECALL: the checks (R84) -/

/-- RECALL is judged by its own checks (R84). -/
theorem State.takes.recallViews (takes : s.takes p .recallViews raw) (current : s.handleCurrent raw) :
    Judged s (.recallViews p) (s.recallChecks p (entryBuf raw)) (s.endTakenOn p (entryBuf raw))
      ((s.acceptTaken p).recallWhole (entryBuf raw) false).settle :=
  takes.judged (checks := fun raw s => s.recallChecks p (entryBuf raw))
    (accept := fun raw s => ((s.acceptTaken p).recallWhole (entryBuf raw) false).settle) current rfl

/-- A buffer that `p` holds and has lent, with no operation of its own under way, may be recalled. -/
theorem recallChecks_passed (owned : (s.record b).custody = .owned o) (holder : o.holder = p) (idle : o.pending = .none)
    (lent : o.lent = true) : firstRefusal (s.recallChecks p b) = none := by
  simp [State.recallChecks, firstRefusal, State.holds_owned owned, holder, State.pendingOf_owned owned, idle, State.lent_owned owned, lent]

/-! ### RECALL of one reader (R85, R86) -/

/-- What custody a buffer had does not show behind a write of a port. -/
theorem State.setCustody_modPort_setCustody (c e : Custody) (f : Port → Port) :
    ((u.setCustody b c).modPort r f).setCustody b e = (u.setCustody b e).modPort r f :=
  congrArg (State.modPort r f) (State.setCustody_setCustody b c e u)

/-- Held by `p` and read by `r` alone, returning or not, with the operation `op` under way. -/
def Owned.readByOne (p r : PortId) (returning : Bool) (op : HolderOp) : Owned :=
  { holder := p, readers := [{ port := r, returning := returning }], leases := [], op := op, orphan := false }

theorem Owned.takenOver_readByOne (p r : PortId) (op : HolderOp) : (Owned.readByOne p r false op).takenOver = [r] := by
  fin_cases r <;> rfl

theorem Owned.hasReader_readByOne (p r : PortId) (x : Bool) (op : HolderOp) : (Owned.readByOne p r x op).hasReader r = true := by
  simp [Owned.hasReader, Owned.readByOne]

/-- Held by `p` with a RECALL pending that has nothing left to wait for. -/
def Owned.recalled (p : PortId) : Owned := { holder := p, readers := [], leases := [], op := .recallViews false, orphan := false }

theorem Owned.dropReader_readByOne (p r : PortId) (x : Bool) :
    (Owned.readByOne p r x (.recallViews false)).dropReader r = .recalled p := by
  simp [Owned.dropReader, Owned.readByOne, Owned.recalled]

/-- Such a RECALL ends behind any write of a port (R86). -/
theorem State.recallCheck_recalled (inRange : b < u.records.length) (f : Port → Port) :
    ((u.setCustody b (.owned (.recalled p))).modPort r f).recallCheck b = ((u.setCustody b (.heldPlain p)).modPort r f).modPort p
      (Port.endCommand (CmdRec.isWaiting .recallViews b)
        { code := .ok, handle := some (handleWord b (u.record b).gen), detail := .zero }) := by
  have owned : ((u.setCustody b (.owned (.recalled p))).modPort r f).owned b = some (.recalled p) := State.setCustody_owned _ inRange
  rw [State.recallCheck_done owned, State.setCustody_modPort_setCustody]
  exact State.endWaiting_gen (State.setCustody_gen b b _ u)

/-- The reader being recalled returning, its REVOKED item in its inbox (R85). -/
def State.recalling (b : BufId) (p r : PortId) (u : State) : State :=
  (u.setCustody b (.owned (.readByOne p r true (.recallViews false)))).modPort r (Port.enqueue .standing .urgent
    { kind := .revoked, buf := b, gen := (u.record b).gen, source := p, delivering := false })

theorem State.recalling_owned (inRange : b < u.records.length) :
    (u.recalling b p r).owned b = some (.readByOne p r true (.recallViews false)) :=
  State.setCustody_owned _ inRange

/-- The begin of the recall of one reader that is not FENCED: it is taken over, and leaves at once where no DROP is asked (R85, R86). -/
theorem State.recallBegin_reader (owned : u.owned b = some (.readByOne p r false .none)) (unfenced : u.fenced r = false) :
    u.recallBegin b false = if u.askable r then u.recalling b p r else (u.recalling b p r).readerOut b r false := by
  have revoked : (u.setCustody b (.owned (.readByOne p r true (.recallViews false)))).revoke b p r = u.recalling b p r := by
    rw [State.revoke, State.setCustody_gen]
    rfl
  rw [State.recallBegin, owned]
  dsimp only
  rw [Owned.takenOver_readByOne]
  simp only [List.any_cons, List.any_nil, unfenced, List.foldl_cons, List.foldl_nil, List.filter_cons, List.filter_nil]
  show List.foldl _ ((u.setCustody b (.owned (.readByOne p r true (.recallViews false)))).revoke b p r) _ = _
  rw [revoked]
  cases u.askable r <;> rfl

theorem State.recallAsks_reader (owned : u.owned b = some (.readByOne p r false .none)) :
    u.recallAsks b = if u.askable r then [r] else [] := by
  rw [State.recallAsks, owned]
  dsimp only
  rw [Owned.takenOver_readByOne]
  simp [List.filter_cons]

/-- A reader that is ACTIVE is not FENCED. -/
theorem State.fenced_of_active (active : u.active r = true) : u.fenced r = false := by
  rw [State.fenced, State.active_state active]
  rfl

/-- A caching reader is asked a DROP, and the RECALL waits for it (R85). -/
theorem State.recallWhole_asked (owned : u.owned b = some (.readByOne p r false .none)) (inRange : b < u.records.length)
    (caching : u.caching r = true) (active : u.active r = true) : u.recallWhole b false =
      (u.recalling b p r).modYields (YieldUnit.take { buf := b, target := r, kind := .drop, op := .recallViews }) := by
  have askable : u.askable r = true := by rw [State.askable, caching, active]; rfl
  rw [State.recallWhole, State.recallAsks_reader owned, State.recallBegin_reader owned (State.fenced_of_active active), if_pos askable,
    if_pos askable, List.foldl_cons, List.foldl_nil]
  have pending : ((u.recalling b p r).askRecall b r).owned b = some (.readByOne p r true (.recallViews false)) :=
    (State.modYields_owned ..).trans (State.recalling_owned inRange)
  exact State.recallCheck_waits pending (List.cons_ne_nil _ _)

/-! ### The standing reservation of a view that ends at once -/

theorem extractFirst_none {α : Type} {q : α → Bool} {l : List α} (h : ∀ x ∈ l, q x = false) : extractFirst q l = none := by
  induction l with
  | nil => rfl
  | cons x l ih => simp [extractFirst, h x (by simp), ih (fun y hy => h y (by simp [hy]))]

/-- Without a reservation of the buffer nothing is released. -/
theorem Inbox.release_none {k : ResKind} {x : Inbox} (h : ∀ y ∈ x.reservations, y.buf ≠ b) : x.release k b = x := by
  rw [Inbox.release, removeFirst, extractFirst_none (fun y hy => by simp [h y hy])]

/-- With the one reservation of the buffer converted, none of it is left (R96). -/
theorem Inbox.release_last {k : ResKind} {x : Inbox} {y : Reservation} (one : x.reservations.filter (fun z => z.buf == b) = [y])
    (kind : y.kind = k) : ∀ z ∈ (x.release k b).reservations, z.buf ≠ b := by
  obtain ⟨before, after, split, hbefore, hy, hafter⟩ := List.filter_eq_cons_iff.mp one
  have released : removeFirst (fun z : Reservation => z.kind == k && z.buf == b) (before ++ y :: after) = before ++ after :=
    removeFirst_append _ before y after (fun z hz => by simp [show z.buf ≠ b by simpa using hbefore z hz]) (by simp [kind, hy])
  intro z hz
  rw [Inbox.release, split, released] at hz
  obtain hz | hz := List.mem_append.mp hz
  · simpa using hbefore z hz
  · simpa using List.filter_eq_nil_iff.mp hafter z hz

/-- The reservations behind an item do not depend on its lane. -/
theorem Inbox.push_reservations (lane : Lane) (item : Item) (x : Inbox) : (x.push lane item).reservations = x.reservations := by
  cases lane <;> rfl

/-- A REVOKED item stands in the place of its view's reservation, of which nothing is left to release (R85, R86). -/
theorem Port.release_enqueue {P : Port} {lane : Lane} {item : Item} {y : Reservation} (buf : item.buf = b)
    (one : P.inbox.reservations.filter (fun z => z.buf == b) = [y]) (kind : y.kind = .standing) :
    Port.modInbox (Inbox.release .standing b) (P.enqueue .standing lane item) = P.enqueue .standing lane item := by
  have inbox : (P.enqueue .standing lane item).inbox = (P.inbox.release .standing b).push lane item := by
    rw [Port.enqueue, Port.arrPresent_inbox, buf]
    rfl
  rw [Port.modInbox, Inbox.release_none (by rw [inbox, Inbox.push_reservations]; exact Inbox.release_last one kind)]

/-- A reader that does not cache leaves in the step of the acceptance, and the RECALL ends (R86, R114). -/
theorem State.recallWhole_left {y : Reservation} (owned : u.owned b = some (.readByOne p r false .none)) (inRange : b < u.records.length)
    (caching : u.caching r = false) (unfenced : u.fenced r = false)
    (one : (u.port r).inbox.reservations.filter (fun z => z.buf == b) = [y]) (kind : y.kind = .standing) : u.recallWhole b false =
      ((u.setCustody b (.heldPlain p)).modPort r (Port.enqueue .standing .urgent
        { kind := .revoked, buf := b, gen := (u.record b).gen, source := p, delivering := false })).modPort p
          (Port.endCommand (CmdRec.isWaiting .recallViews b)
            { code := .ok, handle := some (handleWord b (u.record b).gen), detail := .zero }) := by
  have gone : (u.recalling b p r).readerOut b r false = (u.setCustody b (.owned (.recalled p))).modPort r
      (Port.enqueue .standing .urgent { kind := .revoked, buf := b, gen := (u.record b).gen, source := p, delivering := false }) := by
    rw [State.readerOut_acked (State.recalling_owned inRange) (Owned.hasReader_readByOne ..), Owned.dropReader_readByOne, State.recalling,
      State.setCustody_modPort_setCustody, State.releaseRes, State.modPort_modPort]
    exact State.modPort_congr (Port.release_enqueue rfl one kind)
  have asks : ¬ u.askable r = true := by rw [State.askable, caching]; nofun
  rw [State.recallWhole, State.recallAsks_reader owned, State.recallBegin_reader owned unfenced, if_neg asks, if_neg asks, List.foldl_nil,
    gone, State.recallCheck_recalled inRange]

/-! ### RECALL of one lease (R85) -/

/-- A LEASE item that is not being delivered leaves the inbox with its standing reservation, and its port the leases (R85). -/
theorem State.removeLease_of (owned : (u.record b).custody = .owned o)
    (item : ∃ i ∈ (u.port r).inbox.urgent ++ (u.port r).inbox.routine, i.isLeaseOf b = true ∧ i.delivering = false) :
    u.removeLease b r = (u.modPort r (Port.modInbox (fun x => (x.remove (fun i => i.isLeaseOf b && !i.delivering)).release
      .standing b))).setCustody b (.owned (o.dropLease r)) := by
  have found : (u.port r).inbox.items.any (fun i => i.isLeaseOf b && !i.delivering) = true := by
    obtain ⟨i, hi, lease, still⟩ := item
    exact List.any_eq_true.mpr ⟨i, hi, by rw [lease, still]; rfl⟩
  rw [State.removeLease, if_pos found]
  exact State.modRecord_congr (by rw [State.modPort_record, owned])

/-- Held by `p` with one lease outstanding, to `r`, and the operation `op` under way. -/
def Owned.leasedToOne (p r : PortId) (op : HolderOp) : Owned := { holder := p, readers := [], leases := [r], op := op, orphan := false }

/-- The begin of the recall of one lease whose item is not being delivered takes it back (R85). -/
theorem State.recallBegin_lease (owned : u.owned b = some (.leasedToOne p r .none)) (inRange : b < u.records.length)
    (item : ∃ i ∈ (u.port r).inbox.urgent ++ (u.port r).inbox.routine, i.isLeaseOf b = true ∧ i.delivering = false) :
    u.recallBegin b false = (u.setCustody b (.owned (.recalled p))).modPort r
      (Port.modInbox (fun x => (x.remove (fun i => i.isLeaseOf b && !i.delivering)).release .standing b)) := by
  have pending : ((u.setCustody b (.owned (.leasedToOne p r (.recallViews false)))).record b).custody =
      .owned (.leasedToOne p r (.recallViews false)) := by
    rw [State.setCustody_record, if_pos ⟨rfl, inRange⟩]
  have ended : (Owned.leasedToOne p r (.recallViews false)).dropLease r = .recalled p := by
    simp [Owned.dropLease, Owned.leasedToOne, Owned.recalled]
  rw [State.recallBegin, owned]
  show (u.setCustody b (.owned (.leasedToOne p r (.recallViews false)))).removeLease b r = _
  rw [State.removeLease_of pending item, State.setCustody_modPort_setCustody, ended]

/-- With no reader there is no DROP to ask, and the RECALL of the lease ends (R85, R86). -/
theorem State.recallWhole_lease (owned : u.owned b = some (.leasedToOne p r .none)) (inRange : b < u.records.length)
    (item : ∃ i ∈ (u.port r).inbox.urgent ++ (u.port r).inbox.routine, i.isLeaseOf b = true ∧ i.delivering = false) :
    u.recallWhole b false = ((u.setCustody b (.heldPlain p)).modPort r (Port.modInbox (fun x =>
      (x.remove (fun i => i.isLeaseOf b && !i.delivering)).release .standing b))).modPort p
        (Port.endCommand (CmdRec.isWaiting .recallViews b)
          { code := .ok, handle := some (handleWord b (u.record b).gen), detail := .zero }) := by
  have asks : u.recallAsks b = [] := by
    rw [State.recallAsks, owned]
    rfl
  rw [State.recallWhole, asks, List.foldl_nil, State.recallBegin_lease owned inRange item, State.recallCheck_recalled inRange]

end Sys2Proof.Machine

/-- Settles O41: behind the two checks, the reader waits for its DROP or leaves at once. -/
theorem returnEndsAView : Obligations.ReturnEndsAView := by
  unfold Obligations.ReturnEndsAView
  intro s p raw takes current rest b result refused
  have row := takes.returnView current
  refine ⟨fun stranger => row.refused (firstRefusal_cons_true (by rw [stranger]; rfl) _ _), fun busy => row.refused ?_, ?_⟩
  · rw [State.returnChecks, firstRefusal_cons_false (by rw [State.reads_of_isReturning busy]; rfl)]
    exact firstRefusal_cons_true busy _ _
  intro o owned reader still returning
  have reads : s.reads p b = true := by rw [State.reads, State.owned_of owned]; exact reader
  have passed : firstRefusal (s.returnChecks p b) = none := by simp [State.returnChecks, firstRefusal, reads, still]
  obtain ⟨-, active, -⟩ := takes
  exact ⟨fun caching => row.settled passed rest (State.returnAccept_asked owned active caching) rfl,
    fun caching noRecall => row.settled passed rest (State.returnAccept_left owned reader caching noRecall) rfl⟩

/-- Settles O42: behind the checks, the recall of the one view there is, by what it finds: a caching reader, another, or a lease. -/
theorem recallEndsTheViews : Obligations.RecallEndsTheViews := by
  unfold Obligations.RecallEndsTheViews
  intro s p raw takes current rest b result refused revoked ended
  have row := takes.recallViews current
  refine ⟨fun stranger => row.refused (firstRefusal_cons_true (by rw [stranger]; rfl) _ _), ?_, ?_, ?_, ?_⟩
  · intro held busy noReturn
    refine row.refused ?_
    rw [State.recallChecks, firstRefusal_cons_false (by rw [held]; rfl)]
    exact firstRefusal_cons_true (Bool.and_eq_true_iff.mpr ⟨bne_iff_ne.mpr busy, bne_iff_ne.mpr noReturn⟩) _ _
  · intro held idle unlent
    refine row.refused ?_
    rw [State.recallChecks, firstRefusal_cons_false (by rw [held]; rfl),
      firstRefusal_cons_false (by obtain idle | idle := idle <;> rw [idle] <;> rfl)]
    exact firstRefusal_cons_true (by rw [unlent]; rfl) _ _
  · intro r owned
    have passed := recallChecks_passed owned rfl rfl rfl
    have accepted : (s.acceptTaken p).owned b = some (.readByOne p r false .none) := State.owned_of owned
    have inRange := State.owned_inRange owned
    refine ⟨fun caching active => ?_, fun caching unfenced ⟨y, one, kind⟩ => ?_⟩
    · exact row.settled passed rest (State.recallWhole_asked accepted inRange caching (by simpa using active)) rfl
    · have unfenced' : (s.acceptTaken p).fenced r = false := by
        rw [State.fenced, State.acceptTaken, State.modPort_port]
        split <;> exact unfenced
      exact row.settled passed rest (State.recallWhole_left accepted inRange caching unfenced' (by simpa using one) kind) rfl
  · intro r owned item
    exact row.settled (recallChecks_passed owned rfl rfl rfl) rest
      (State.recallWhole_lease (State.owned_of owned) (State.owned_inRange owned) (by simpa using item)) rfl
end

