-- ==== Sys2Proof/Proofs/RecoveryCommands.lean ====
section
/-!
THEOREMS. The two commands of the recovery right: RECLAIM (R88, R37, R26, R27) and UNFENCE (R89, R172).
-/
open Sys2Proof Sys2Proof.Machine

namespace Sys2Proof.Machine

variable {s u : State} {p h d : PortId} {b : BufId} {raw : List Byte}

/-! ### RECLAIM (R88) -/

/-- RECLAIM is judged by its own checks (R88). -/
theorem State.takes.reclaim (takes : s.takes p .reclaim raw) (current : s.handleCurrent raw) :
    Judged s (.reclaim p) (s.reclaimChecks p (entryBuf raw)) (s.endTakenOn p (entryBuf raw)) (s.reclaimAccept p (entryBuf raw)).settle :=
  takes.judged (checks := fun raw s => s.reclaimChecks p (entryBuf raw))
    (accept := fun raw s => (s.reclaimAccept p (entryBuf raw)).settle) current rfl

theorem reclaimChecks_noRight (right : (s.cfg p).recovery = false) : firstRefusal (s.reclaimChecks p b) = some .noRight :=
  firstRefusal_cons_true (by rw [right]; rfl) _ _

theorem State.lastHolder_stranded {x : Bool} (stranded : (s.record b).custody = .stranded h x) : s.lastHolder b = some h := by
  rw [State.lastHolder, stranded]

theorem State.lastHolder_none (other : ∀ h x, (s.record b).custody ≠ .stranded h x) : s.lastHolder b = none := by
  unfold State.lastHolder
  split
  · rename_i h x stranded
    exact absurd stranded (other h x)
  · rfl

theorem reclaimChecks_notHeld (right : (s.cfg p).recovery = true) (other : ∀ h x, (s.record b).custody ≠ .stranded h x) :
    firstRefusal (s.reclaimChecks p b) = some .notHeld := by
  rw [State.reclaimChecks, firstRefusal_cons_false (by rw [right]; rfl), State.lastHolder_none other]
  rfl

/-- Of a STRANDED buffer, a RECLAIM under way and the last holder's state decide. -/
theorem reclaimChecks_stranded {x : Bool} (right : (s.cfg p).recovery = true) (stranded : (s.record b).custody = .stranded h x) :
    firstRefusal (s.reclaimChecks p b) = firstRefusal [(x, .inTransit), (s.fenced h, .fenced)] := by
  have pending : (s.pendingOf b != .none) = x := by
    rw [State.pendingOf, stranded]
    cases x <;> rfl
  rw [State.reclaimChecks, firstRefusal_cons_false (by rw [right]; rfl), State.lastHolder_stranded stranded, ← pending]

/-- A DROP is asked of a last holder that is ACTIVE and caching, and the RECLAIM waits for it (R88). -/
theorem State.reclaimAccept_asked (stranded : (s.record b).custody = .stranded h false) (active : s.active h = true)
    (caching : s.caching h = true) : s.reclaimAccept p b = ((s.acceptTaken p).setCustody b (.stranded h true)).modYields
      (YieldUnit.take { buf := b, target := h, kind := .drop, op := .reclaim }) := by
  rw [State.reclaimAccept, State.lastHolder_stranded stranded]
  dsimp only
  rw [if_pos (by rw [active, caching]; rfl)]
  exact State.ask_asked caching (by simpa using active)

/-- From any other last holder the buffer enters its free list at once, and no charge changes (R27, R37, R88). -/
theorem State.reclaimAccept_freed (stranded : (s.record b).custody = .stranded h false) (silent : ¬(s.active h && s.caching h) = true)
    (waiting : (s.pool (s.poolOf b)).waiting = []) : s.reclaimAccept p b =
      ((s.modRecord b Record.enterFree).modPool (s.poolOf b) (fun x => { x with free := x.free ++ [b] })).endTaken p
        { code := .ok, handle := some (handleWord b ((s.record b).gen + 1)), detail := .zero } := by
  have inRange : b < s.records.length := State.record_inRange (by rw [stranded]; nofun)
  rw [State.reclaimAccept, State.lastHolder_stranded stranded]
  dsimp only
  rw [if_neg silent, State.enterFreeList_plain waiting]
  exact State.endTakenOn_gen (State.enterFree_gen inRange)

/-! ### UNFENCE (R89, R172) -/

/-- UNFENCE is judged by its own checks, without a handle (R65, R89). -/
theorem State.takes.unfence (takes : s.takes p .unfence raw) :
    Judged s (.unfence p) (s.unfenceChecks p raw) (fun c => s.endTaken p (Result.bare c))
      ((s.modPort ((entryPortId raw).getD 0) Port.unfence).endTaken p (Result.bare .ok)) :=
  takes.judgedBare (checks := fun raw s => s.unfenceChecks p raw)
    (accept := fun raw s => (s.modPort ((entryPortId raw).getD 0) Port.unfence).endTaken p (Result.bare .ok)) rfl

theorem unfenceChecks_noRight (right : (s.cfg p).recovery = false) : firstRefusal (s.unfenceChecks p raw) = some .noRight :=
  firstRefusal_cons_true (by rw [right]; rfl) _ _

/-- A port field that names no port, or a port that is not FENCED, is refused. -/
theorem unfenceChecks_badCommand (right : (s.cfg p).recovery = true)
    (other : ∀ d : PortId, entryPort raw = d.val → (s.port d).state ≠ .fenced) :
    firstRefusal (s.unfenceChecks p raw) = some .badCommand := by
  rw [State.unfenceChecks, firstRefusal_cons_false (by rw [right]; rfl)]
  refine firstRefusal_cons_true ?_ _ _
  by_cases port : entryPort raw < 4
  · rw [entryPortId_of (d := ⟨entryPort raw, port⟩) rfl]
    have unfenced : s.fenced ⟨entryPort raw, port⟩ = false := beq_eq_false_iff_ne.mpr (other _ rfl)
    show (!s.fenced ⟨entryPort raw, port⟩) = true
    rw [unfenced]
    rfl
  · rw [entryPortId_none (not_lt.mp port)]

theorem unfenceChecks_passed (right : (s.cfg p).recovery = true) (port : entryPort raw = d.val) (fenced : (s.port d).state = .fenced) :
    firstRefusal (s.unfenceChecks p raw) = none := by
  have named : (!s.fenced d) = false := by rw [show s.fenced d = true from beq_iff_eq.mpr fenced]; rfl
  rw [State.unfenceChecks, firstRefusal_cons_false (by rw [right]; rfl), entryPortId_of port]
  exact firstRefusal_cons_false named _ _

/-- The end of a command in its taking step leaves every port's state and events. -/
theorem State.endTaken_fenced (res : Result) (i : PortId) : (u.endTaken p res).fenced i = u.fenced i := by
  rw [State.fenced, State.endTaken, State.modPort_port]
  split
  · rw [Port.endCommand_state]
    rfl
  · rfl

theorem State.endTaken_events (res : Result) (i : PortId) : ((u.endTaken p res).port i).events = (u.port i).events := by
  rw [State.endTaken, State.modPort_port]
  split
  · rw [Port.endCommand_events]
  · rfl

/-- An unfenced port is no longer FENCED (R172). -/
theorem State.unfence_fenced : (s.modPort d Port.unfence).fenced d = false := by
  rw [State.fenced, State.modPort_port_same]
  rfl

/-- The other ports stand as they stood. -/
theorem State.unfence_others {i : PortId} (other : i ≠ d) : (s.modPort d Port.unfence).fenced i = s.fenced i := by
  rw [State.fenced, State.modPort_port_ne _ _ other]
  rfl

/-- UNFENCE raises no event. -/
theorem State.unfence_events (i : PortId) : ((s.modPort d Port.unfence).port i).events = (s.port i).events := by
  rw [State.modPort_port]
  split <;> rfl

end Sys2Proof.Machine

/-- Settles O43: behind the checks, a DROP of an ACTIVE caching last holder, or the free list at once. -/
theorem reclaimReturnsAStrandedBuffer : Obligations.ReclaimReturnsAStrandedBuffer := by
  unfold Obligations.ReclaimReturnsAStrandedBuffer
  intro s p raw takes current rest b refused
  have row := takes.reclaim current
  refine ⟨fun right => row.refused (reclaimChecks_noRight right), fun right => ?_⟩
  refine ⟨fun other => row.refused (reclaimChecks_notHeld right other),
    fun h stranded => row.refused (reclaimChecks_stranded right stranded), fun h stranded => ?_⟩
  have checks := reclaimChecks_stranded right stranded
  refine ⟨fun fenced => row.refused (checks.trans ?_), fun active caching => ?_, fun silent waiting => ?_⟩
  · have named : s.fenced h = true := beq_iff_eq.mpr fenced
    rw [named]
    rfl
  · have unfenced : s.fenced h = false := beq_eq_false_iff_ne.mpr (by rw [active]; nofun)
    have passed : firstRefusal (s.reclaimChecks p b) = none := by rw [checks, unfenced]; rfl
    exact row.settled passed rest (State.reclaimAccept_asked stranded (beq_iff_eq.mpr active) caching) rfl
  · have unfenced : s.fenced h = false := beq_eq_false_iff_ne.mpr (by
      obtain down | ⟨active, -⟩ := silent
      · rw [down]; nofun
      · rw [active]; nofun)
    have passed : firstRefusal (s.reclaimChecks p b) = none := by rw [checks, unfenced]; rfl
    have noDrop : ¬(s.active h && s.caching h) = true := by
      obtain down | ⟨-, caching⟩ := silent
      · simp [State.active, down]
      · simp [caching]
    exact row.settled passed rest (State.reclaimAccept_freed stranded noDrop waiting) rfl

/-- Settles O44: behind the two refusals, one write of the named port, of which the end of the command leaves state and events. -/
theorem unfenceMakesTheNamedPortActive : Obligations.UnfenceMakesTheNamedPortActive := by
  unfold Obligations.UnfenceMakesTheNamedPortActive
  intro s p raw takes
  have row := takes.unfence
  refine ⟨fun right => row.refused (unfenceChecks_noRight right),
    fun right other => row.refused (unfenceChecks_badCommand right other), ?_⟩
  intro d right port fenced
  have accepted := row.accepted (unfenceChecks_passed right port fenced)
  rw [entryPortId_of port] at accepted
  exact ⟨_, accepted, rfl, (State.endTaken_fenced _ d).trans State.unfence_fenced,
    fun x other => (State.endTaken_fenced _ x).trans (State.unfence_others other),
    fun x => (State.endTaken_events _ x).trans (State.unfence_events x)⟩
end

