-- ==== Sys2Proof/Proofs/QueryAndMarker.lean ====
section
/-!
THEOREMS. QUERY (R90) and MARKER (R91): a snapshot of the record in each state it can have, and the command that does nothing.
-/
open Sys2Proof Sys2Proof.Machine

namespace Sys2Proof.Machine

variable {s : State} {p : PortId} {r : CmdRec} {raw : List Byte}

/-- QUERY judges the entry it takes by the form of its handle alone (R65, R90). -/
theorem exec_query {t : State} (handed : (s.port p).cmd.nextHanded = some r) (op : entryOp r.raw = some .query)
    (judged : s.judge p .form r.raw [] (fun s => s.endTaken p
      { code := .ok, handle := some (s.handleOf (entryBuf r.raw)), detail := .query (s.record (entryBuf r.raw)).snapshot }) = t) :
    exec (.query p) s = .next t :=
  congrArg Host.Outcome.next ((State.taking_of _ handed op).trans judged)

/-- With a handle of good form and no check of its own, the command is accepted whatever the generation. -/
theorem State.judge_form (ready : s.mapState = .ready) (active : s.active p = true) (ok : s.handleOk (entryHandle raw) = true)
    (accept : State → State) : s.judge p .form raw [] accept = accept s := by
  have early : firstRefusal (s.earlyChecks p .form raw) = none := by simp [State.earlyChecks, firstRefusal, ready, active, ok]
  rw [State.judge, early]
  rfl

/-- MARKER has no check of its own (R91). -/
theorem State.takes.marker (takes : s.takes p .marker raw) :
    Judged s (.marker p) [] (fun c => s.endTaken p (Result.bare c)) (s.endTaken p (Result.bare .ok)) :=
  takes.judgedBare (checks := fun _ _ => []) (accept := fun _ s => s.endTaken p (Result.bare .ok)) rfl

/-! ### The snapshot in each custody state (R20, R90) -/

variable {x : Record} {c : Custody}

theorem Record.snapshot_of (h : x.custody = c) : x.snapshot =
    { state := c.state, holder := c.shownHolder, readers := c.shownReaders, gen := x.gen, length := x.length } := by
  subst h
  rfl

/-- A buffer some port holds is HELD where it has no reader. -/
theorem Record.snapshot_held {o : Owned} (h : x.custody = .owned o) (unread : o.readers = []) : x.snapshot =
    { state := .held, holder := some o.holder, readers := [], gen := x.gen, length := x.length } := by
  rw [Record.snapshot_of h, Custody.state, if_pos unread, Custody.shownHolder, Custody.shownReaders, unread, List.map_nil]

/-- And SHARED where it has one. -/
theorem Record.snapshot_shared {o : Owned} (h : x.custody = .owned o) (read : o.readers ≠ []) : x.snapshot =
    { state := .shared, holder := some o.holder, readers := o.readers.map Reader.port, gen := x.gen, length := x.length } := by
  rw [Record.snapshot_of h, Custody.state, if_neg read, Custody.shownHolder, Custody.shownReaders]

end Sys2Proof.Machine

/-- Settles O45: the common checks of QUERY in their order, its snapshot by the record's custody, and MARKER's end. -/
theorem queryAndMarkerEndAtOnce : Obligations.QueryAndMarkerEndAtOnce := by
  unfold Obligations.QueryAndMarkerEndAtOnce
  refine ⟨?_, fun s p raw takes => takes.marker.accepted rfl⟩
  intro s p r handed op b refused answers
  refine ⟨fun loading => exec_query handed op (State.judge_loading _ _ _ _ loading),
    fun failed => exec_query handed op (State.judge_failed _ _ _ _ failed),
    fun ready => ⟨fun inactive => ?_, fun active => ⟨fun bad => ?_, fun known unused => ?_⟩⟩⟩
  · exact exec_query handed op (State.judge_inactive _ _ _ _ ready (beq_eq_false_iff_ne.mpr inactive))
  · exact exec_query handed op
      (State.judge_noBuffer ready (beq_iff_eq.mpr active) _ _ (by nofun) (State.handleOk_eq_false.mpr bad))
  · have ok : s.handleOk (entryHandle r.raw) = true := by
      rw [← Bool.not_eq_false, State.handleOk_eq_false]
      exact fun bad => bad.elim (fun unknown => absurd known (not_lt.mpr unknown)) (fun used => used unused)
    have answered : ∀ {q : Snapshot}, (s.record b).snapshot = q → exec (.query p) s = .next (s.endTaken p
        { code := .ok, handle := some (handleWord b (s.record b).gen), detail := .query q }) := by
      rintro _ rfl
      exact exec_query handed op (State.judge_form ready (beq_iff_eq.mpr active) ok _)
    exact ⟨fun free => answered (Record.snapshot_of free), fun o owned unread => answered (Record.snapshot_held owned unread),
      fun o owned read => answered (Record.snapshot_shared owned read), fun h d queued => answered (Record.snapshot_of queued),
      fun h d x source => answered (Record.snapshot_of source), fun h d landing => answered (Record.snapshot_of landing),
      fun h x stranded => answered (Record.snapshot_of stranded)⟩
end

