-- ==== Sys2Proof/Proofs/ArrivalProcess.lean ====
section
/-!
SUPPORT. The Arrival Process, one equation per case of each operation that a row makes of it: a load presented where R102 allows, the run
field of CONTROL (R101, R106), the answers to its load (R102, R103, R105, R107), and the answers to its record store (R104, R106, R107).
-/
namespace Sys2Proof.Machine
open Sys2Proof

variable {P : Port} {x : Inbox} {it : Item} {rest : List Item} {k : SlotId} {l : RingLoad} {a : Addr} {raw : List Byte}
  {now interval : Nat} {auto : Bool}

/-! ### A load presented (R102) -/

/-- What the process has where R102 may allow a load: the next one, if it is RUNNING. -/
theorem Port.arrPresent_eq (auto : Bool) (P : Port) : P.arrPresent auto = { P with
    arr := if P.arr.state = .running then { P.arr with load := P.arr.nextLoad auto P.inbox } else P.arr } := by
  by_cases running : P.arr.state = .running
  · rw [if_pos running, Port.arrPresent_running auto running]
  · rw [if_neg running, Port.arrPresent_other auto running]

/-- A process that has just been given the chance to load does not take a second. -/
theorem Port.arrPresent_arrPresent (auto again : Bool) (P : Port) : (P.arrPresent auto).arrPresent again = P.arrPresent auto := by
  by_cases may : P.arrMayLoad = true
  · have loads : P.arrPresent auto = P.modArr (fun y => { y with
        load := some { index := y.next, slot := none, auto := auto, discard := false } }) := if_pos may
    rw [loads]
    exact if_neg (by simp [Port.arrMayLoad, Port.modArr])
  · have same : P.arrPresent auto = P := if_neg may
    rw [same]
    exact if_neg may

/-! ### The run field of CONTROL (R101, R106) -/

theorem Port.arrRunField_starts (stopped : P.arr.state = .stopped) (run : P.arr.run = false) (settled : P.arr.stopWaiting = false)
    (active : P.state = .active) : P.arrRunField true =
      { P with arr := { P.arr with state := .running, run := true, load := P.arr.nextLoad false P.inbox } } := by
  unfold Port.arrRunField
  rw [if_pos rfl, if_neg (by simp [run]), if_pos ⟨stopped, settled, active⟩]
  exact Port.arrPresent_running false rfl

theorem Port.arrRunField_startRefused (run : P.arr.run = false) (other : P.state ≠ .active ∨ P.arr.state ≠ .stopped) :
    P.arrRunField true = P.recordFault .windowRefused 0x00 := by
  have refused : ¬(P.arr.state = .stopped ∧ P.arr.stopWaiting = false ∧ P.state = .active) :=
    fun ⟨stopped, _, active⟩ => other.elim (· active) (· stopped)
  unfold Port.arrRunField
  rw [if_pos rfl, if_neg (by simp [run]), if_neg refused]
  rfl

theorem Port.arrRunField_stops (run : P.arr.run = true) : P.arrRunField false = P.modArr ArrProc.stop := by
  simp [Port.arrRunField, run]

/-- A stop with no store in flight: a presented load is withdrawn, an issued one left with its answer to be discarded (R106, R163). -/
theorem ArrProc.stop_idle {c : ArrProc} (state : c.state = .running ∨ c.state = .suspended) (store : c.store = none) :
    c.stop = { c with
      state := .stopped
      run := false
      deadline := none
      load := match c.load with
        | some l => if l.slot = none then none else some { l with discard := true }
        | none => none } := by
  have stops : c.stop = { c with state := .stopped, run := false, deadline := none, load := c.load.bind RingLoad.abandon } := by
    rcases state with e | e <;> simp [ArrProc.stop, e, store]
  rw [stops]
  cases c.load with
  | none => rfl
  | some l => rw [Option.bind_some, RingLoad.abandon_eq]

/-- A stop with a store in flight waits for the store's response (R106). -/
theorem ArrProc.stop_storing {c : ArrProc} (state : c.state = .running) (store : c.store ≠ none) :
    c.stop = { c with run := false, stopWaiting := true } := by
  simp [ArrProc.stop, state, Option.isSome_iff_ne_none.mpr store]

theorem ArrProc.stop_halted {c : ArrProc} (state : c.state = .halted) : c.stop = { c with state := .stopped, run := false } := by
  simp [ArrProc.stop, state]

/-! ### A load answered (R102, R103, R105) -/

theorem Inbox.isEmpty_iff : x.isEmpty = true ↔ x.urgent = [] ∧ x.routine = [] := by
  simp [Inbox.isEmpty]

theorem Inbox.pick_urgent (head : x.urgent = it :: rest) :
    x.pick = { x with urgent := { it with delivering := true } :: rest } := by
  rw [Inbox.pick, head]

theorem Inbox.pick_routine (urgent : x.urgent = []) (head : x.routine = it :: rest) :
    x.pick = { x with routine := { it with delivering := true } :: rest } := by
  rw [Inbox.pick, urgent]
  dsimp only
  rw [head]

theorem Inbox.filled_urgent (head : x.urgent = it :: rest) : ¬(x.urgent = [] ∧ x.routine = []) := by
  simp [head]

theorem Inbox.filled_routine (head : x.routine = it :: rest) : ¬(x.urgent = [] ∧ x.routine = []) := by
  simp [head]

/-- The port with the arrival load in slot `k` answered: the slot FREE and no load in flight. -/
def Port.arrLoadAnswered (k : SlotId) (P : Port) : Port := { P with slots := P.slots.set k none, arr := { P.arr with load := none } }

theorem Port.arrLoadAck_read (load : P.arr.load = some l) (kept : l.discard = false) :
    P.arrLoadAck now interval k raw = (P.arrLoadAnswered k).arrLoaded now interval l.auto raw := by
  simp only [Port.arrLoadAck, load, kept, Bool.false_eq_true, if_false]
  rfl

theorem Port.arrLoadAck_discarded (load : P.arr.load = some l) (discarded : l.discard = true) :
    P.arrLoadAck now interval k raw = (P.arrLoadAnswered k).arrPresent false := by
  simp only [Port.arrLoadAck, load, discarded, if_true]
  rfl

/-- With an empty inbox the answer is discarded (R102). -/
theorem Port.arrLoaded_empty (urgent : P.inbox.urgent = []) (routine : P.inbox.routine = []) :
    P.arrLoaded now interval auto raw = P :=
  if_pos (Inbox.isEmpty_iff.mpr ⟨urgent, routine⟩)

theorem Port.arrLoaded_pick (filled : ¬(P.inbox.urgent = [] ∧ P.inbox.routine = [])) (owner : byteAt raw 0 = 0x01) :
    P.arrLoaded now interval auto raw =
      { P with inbox := P.inbox.pick, arr := { P.arr with store := some { index := P.arr.next, slot := none } } } := by
  unfold Port.arrLoaded
  rw [if_neg (fun e => filled (Inbox.isEmpty_iff.mp e)), if_pos (ownerIsPart_iff.mpr owner)]
  rfl

theorem Port.arrLoaded_suspend (filled : ¬(P.inbox.urgent = [] ∧ P.inbox.routine = [])) (owner : byteAt raw 0 ≠ 0x01) :
    P.arrLoaded now interval auto raw = { P with
      events := if auto then P.events else P.events ||| Event.arrSuspended.bit
      arr := { P.arr with state := .suspended, deadline := if interval = 0 then none else some (now + interval) } } := by
  unfold Port.arrLoaded Port.arrSuspend
  rw [if_neg (fun e => filled (Inbox.isEmpty_iff.mp e)), if_neg (fun e => owner (ownerIsPart_iff.mp e))]
  cases auto <;> rfl

/-! ### A load that failed (R106, R107) -/

theorem Port.arrLoadFail_halts (load : P.arr.load = some l) (kept : l.discard = false) :
    P.arrLoadFail k a = ((P.arrLoadAnswered k).arrFault a).modArr (fun y => { y with state := .halted, deadline := none }) := by
  simp only [Port.arrLoadFail, load, kept, Bool.false_eq_true, if_false]
  rfl

theorem Port.arrLoadFail_discarded (load : P.arr.load = some l) (discarded : l.discard = true) :
    P.arrLoadFail k a = ((P.arrLoadAnswered k).arrFault a).arrPresent false := by
  simp only [Port.arrLoadFail, load, discarded, if_true]
  rfl

/-! ### A record store answered (R104, R106, R107) -/

theorem ArrProc.stored_eq (c : ArrProc) : c.stored = { c with
    state := if c.stopWaiting then .stopped else c.state
    store := none
    next := (c.next + 1) % c.size
    stopWaiting := false } := by
  unfold ArrProc.stored ArrProc.endStopWaiting
  cases c.stopWaiting <;> simp

theorem ArrProc.storeFailed_eq (c : ArrProc) : c.storeFailed = { c with
    state := if c.stopWaiting then .stopped else .halted
    store := none
    stopWaiting := false
    deadline := none } := by
  unfold ArrProc.storeFailed
  cases c.stopWaiting <;> simp

/-- The port once its record store is acknowledged, with the inbox `x` left by the delivery: the index advanced, ARRIVAL raised, a waiting
stop ended, and the next load where R102 allows (R104, R106). -/
def Port.storeEnded (k : SlotId) (x : Inbox) (P : Port) : Port :=
  let arr : ArrProc := { P.arr with
    state := if P.arr.stopWaiting then .stopped else P.arr.state
    store := none
    next := (P.arr.next + 1) % P.arr.size
    stopWaiting := false }
  { P with
    slots := P.slots.set k none
    events := P.events ||| Event.arrival.bit
    inbox := x
    arr := if arr.state = .running then { arr with load := arr.nextLoad false x } else arr }

/-- The port as its store ends, `f` being what the delivered item makes of its inbox. -/
theorem Port.arrStored_present (k : SlotId) (f : Inbox → Inbox) (P : Port) :
    ((P.arrStored k).modInbox f).arrPresent false = P.storeEnded k (f (P.inbox.remove Item.delivering)) := by
  rw [Port.arrPresent_eq, Port.storeEnded, ← ArrProc.stored_eq]
  rfl

end Sys2Proof.Machine
end

