-- ==== Sys2Proof/Proofs/Arrivals.lean ====
section
/-!
THEOREMS. Arrivals (chapter 5): the arrival run field of CONTROL (R101, R106, R150), and what the answers to an arrival load and to a record
store do to the process, its inbox and the custody of the item's buffer (R102 to R107, R86).
-/
open Sys2Proof Sys2Proof.Machine

namespace Sys2Proof.Machine

variable {s : State} {p : PortId} {P : Port} {w : Word} {k : SlotId} {a : Addr} {it : Item} {lane : Lane} {o : Owned} {b : BufId}

/-! ### The arrival run field's write (R150) -/

/-- A write whose command run field is as CMD_RUN stands asks the Command Process nothing, unless it is HALTED with CMD_RUN clear (R48). -/
theorem Port.cmdRunField_same {run : Bool} (same : run = P.cmd.run) (live : ¬(P.cmd.state = .halted ∧ P.cmd.run = false)) :
    P.cmdRunField run = P := by
  subst same
  cases hrun : P.cmd.run with
  | true => simp [Port.cmdRunField, hrun]
  | false =>
    have cleared : P.modCmd (fun c => { c with run := false }) = P := by rw [Port.modCmd, ← hrun]
    cases hstate : P.cmd.state with
    | halted => exact absurd ⟨hstate, hrun⟩ live
    | running => simp [Port.cmdRunField, hstate, hrun]
    | suspended => simp [Port.cmdRunField, hstate, hrun]
    | stopped => simpa only [Port.cmdRunField, hstate, Bool.false_eq_true, if_false] using cleared
    | stopping => simpa only [Port.cmdRunField, hstate, Bool.false_eq_true, if_false] using cleared

/-- Such a write to CONTROL, with RESET clear and the port not FENCED, is the arrival run field's. -/
theorem next_arrivalControlWrite (reset : ctlReset w = false) (unfenced : (s.port p).state ≠ .fenced)
    (same : ctlCmdRun w = (s.port p).cmd.run) (live : ¬((s.port p).cmd.state = .halted ∧ (s.port p).cmd.run = false)) {g : Port → Port}
    (h : Port.arrRunField (ctlArrRun w) { s.port p with state := (s.port p).stateEnabled w } = g (s.port p)) :
    (.next (s.controlWrite p w) : Host.Outcome State Fault Refusal) = .next (s.modPort p g) := by
  have fields : s.controlWrite p w = s.modPort p (Port.controlFields w) := by
    simp [State.controlWrite, reset, State.fenced, unfenced]
  rw [fields]
  refine next_modPort ?_
  rw [Port.controlFields_eq, Port.cmdRunField_same (by exact same) (by exact live), h]

/-- A write that stops the Arrival Process, by what the stop makes of it. -/
theorem next_arrivalStop (stop : ctlArrRun w = false) (reset : ctlReset w = false) (unfenced : (s.port p).state ≠ .fenced)
    (run : (s.port p).arr.run = true) (same : ctlCmdRun w = (s.port p).cmd.run)
    (live : ¬((s.port p).cmd.state = .halted ∧ (s.port p).cmd.run = false)) {g : Port → ArrProc}
    (h : (s.port p).arr.stop = g (s.port p)) :
    (.next (s.controlWrite p w) : Host.Outcome State Fault Refusal) =
      .next (s.modPort p (fun P => { P with state := P.stateEnabled w, arr := g P })) := by
  refine next_arrivalControlWrite reset unfenced same live ?_
  rw [stop, Port.arrRunField_stops (by exact run), ← h]
  rfl

/-! ### The rows, on a slot known to hold their request -/

theorem exec_arrivalLoadResponse (req : (s.port p).dataReq k = some (.arrivalLoad a)) (raw : List Byte) :
    exec (.arrivalLoadResponse p k raw) s = .next (s.modPort p (Port.arrLoadAck s.now (s.cfg p).arrPoll k raw)) :=
  congrArg _ (State.dataResponse_of req)

theorem exec_arrivalStoreAck {bytes : List Byte} (req : (s.port p).dataReq k = some (.arrivalStore a bytes)) :
    exec (.arrivalStoreAck p k) s = .next (s.arrivalAck p k).settle :=
  congrArg _ (State.dataResponse_of req)

theorem exec_arrivalLoadError (req : (s.port p).dataReq k = some (.arrivalLoad a)) :
    exec (.arrivalRequestError p k) s = .next (s.modPort p (Port.arrLoadFail k a)) :=
  congrArg _ (State.dataResponse_of req)

theorem exec_arrivalStoreError {bytes : List Byte} (req : (s.port p).dataReq k = some (.arrivalStore a bytes)) :
    exec (.arrivalRequestError p k) s = .next (s.arrivalStoreFailed p k a).settle :=
  congrArg _ (State.dataResponse_of req)

/-! ### The custody effect of a delivered item (R104, R86) -/

/-- A port that joins the readers where no recall waits may keep its view. -/
theorem Owned.join_kept (unrecalled : ∀ x, o.op ≠ .recallViews x) : o.join p = { o with
    leases := o.leases.filter (· != p), readers := o.readers ++ [{ port := p, returning := false }] } := by
  unfold Owned.join
  split
  · rename_i x op
    exact absurd op (unrecalled x)
  · rfl

/-- A port that joins the readers while a recall waits is to give its view back (R22, R104). -/
theorem Owned.join_recalled {x : Bool} (op : o.op = .recallViews x) : o.join p = { o with
    leases := o.leases.filter (· != p), readers := o.readers ++ [{ port := p, returning := true }] } := by
  simp [Owned.join, op, Owned.dropLease]

theorem State.delivered_queued {h d : PortId} (queued : (s.record b).custody = .queued h d) :
    s.delivered b p = s.setCustody b (.heldPlain p) := by
  rw [State.delivered, queued]

theorem State.leased_kept (owned : s.owned b = some o) (unrecalled : ∀ x, o.op ≠ .recallViews x) :
    s.leased b p = s.setCustody b (.owned (o.join p)) := by
  rw [State.leased, owned]
  dsimp only
  split
  · rename_i x op
    exact absurd op (unrecalled x)
  · rfl

theorem State.leased_recalled {x : Bool} (owned : s.owned b = some o) (op : o.op = .recallViews x) :
    s.leased b p = (s.setCustody b (.owned (o.join p))).takeOver b o.holder p := by
  rw [State.leased, owned]
  dsimp only
  rw [op]

/-- A caching reader on an ACTIVE port that a recall takes over has its REVOKED item queued and a DROP asked, which the recall
awaits (R86). -/
theorem State.takeOver_asked {h : PortId} (owned : s.owned b = some o) (read : o.readers ≠ []) (caching : s.caching p = true)
    (active : s.active p = true) : s.takeOver b h p =
      (s.modPort p (Port.enqueue .standing .urgent
        { kind := .revoked, buf := b, gen := (s.record b).gen, source := h, delivering := false })).modYields
          (YieldUnit.take { buf := b, target := p, kind := .drop, op := .recallViews }) := by
  have still : (s.revoke b h p).active p = true := (State.port_active p _ s p (Port.enqueue_state _ _ _)).trans active
  have askable : (s.revoke b h p).askable p = true := by
    rw [State.askable, still, Bool.and_true]
    exact caching
  rw [State.takeOver, if_pos askable]
  exact State.recallCheck_waits (o := o) owned read

/-! ### The end of a record store -/

theorem State.arrivalAck_of (delivering : (s.port p).inbox.delivering = some (lane, it)) :
    s.arrivalAck p k = ((s.modPort p (Port.arrStored k)).itemEffect it p).modPort p (Port.arrPresent false) := by
  rw [State.arrivalAck, delivering]

/-- The end of the store on the port, where the item leaves the rest of the inbox as it is. -/
theorem State.storeEnded_plain (k : SlotId) (p : PortId) (s : State) :
    (s.modPort p (Port.arrStored k)).modPort p (Port.arrPresent false) =
      s.modPort p (fun P => P.storeEnded k (P.inbox.remove Item.delivering)) := by
  rw [State.modPort_modPort]
  exact State.modPort_congr (Port.arrStored_present k id _)

/-- The end of the store on the port, where a REVOKED item has taken the place of the view's reservation (R86). -/
theorem State.storeEnded_enqueue (k : SlotId) (p : PortId) (kind : ResKind) (lane : Lane) (it : Item) (s : State) :
    ((s.modPort p (Port.arrStored k)).modPort p (Port.enqueue kind lane it)).modPort p (Port.arrPresent false) =
      s.modPort p (fun P => P.storeEnded k (((P.inbox.remove Item.delivering).release kind it.buf).push lane it)) := by
  rw [State.modPort_modPort, State.modPort_modPort]
  refine State.modPort_congr ?_
  rw [Port.enqueue, Port.arrPresent_arrPresent]
  exact Port.arrStored_present k (fun x => (x.release kind it.buf).push lane it) _

/-- A delivered item that writes the custody of its buffer alone leaves the port's part of the step as it is. -/
theorem State.arrivalAck_custody {c : Custody} (delivering : (s.port p).inbox.delivering = some (lane, it))
    (effect : (s.modPort p (Port.arrStored k)).itemEffect it p = (s.modPort p (Port.arrStored k)).setCustody b c) :
    s.arrivalAck p k = (s.modPort p (fun P => P.storeEnded k (P.inbox.remove Item.delivering))).setCustody b c := by
  rw [State.arrivalAck_of delivering, effect]
  exact congrArg (State.setCustody b c) (State.storeEnded_plain k p s)

/-- Writes of a port stand together, before those of the custody and of the Yield Unit. -/
theorem State.modPort_custody_modYields_modPort (c : Custody) (f g : Port → Port) (y : YieldUnit → YieldUnit) (s : State) :
    (((s.setCustody b c).modPort p f).modYields y).modPort p g = (((s.modPort p f).modPort p g).setCustody b c).modYields y := rfl

/-- A LEASE delivered while a recall waits on it (R86): the port joins the readers, and its view is taken over in the same step. -/
theorem State.takenOver_storeEnded {x : Bool} (owned : (s.record b).custody = .owned o) (op : o.op = .recallViews x)
    (caching : s.caching p = true) (active : s.active p = true) :
    ((s.modPort p (Port.arrStored k)).leased b p).modPort p (Port.arrPresent false) =
      ((s.modPort p (fun P => P.storeEnded k (((P.inbox.remove Item.delivering).release .standing b).push .urgent
        { kind := .revoked, buf := b, gen := (s.record b).gen, source := o.holder, delivering := false }))).setCustody b
          (.owned (o.join p))).modYields (YieldUnit.take { buf := b, target := p, kind := .drop, op := .recallViews }) := by
  have stored : (s.modPort p (Port.arrStored k)).owned b = some o := State.owned_of owned
  have joined : ((s.modPort p (Port.arrStored k)).setCustody b (.owned (o.join p))).owned b = some (o.join p) :=
    State.setCustody_owned _ (State.owned_inRange owned)
  have read : (o.join p).readers ≠ [] := by simp [Owned.join]
  have still : (s.modPort p (Port.arrStored k)).active p = true := (State.port_active p _ s p (Port.arrStored_state k)).trans active
  rw [State.leased_recalled stored op, State.takeOver_asked joined read (by exact caching) (by exact still), State.setCustody_gen,
    State.modPort_custody_modYields_modPort, State.storeEnded_enqueue]
  rfl

/-- The ACK is what the end of the store gives, with the Mover at rest. -/
theorem next_storeAck {bytes : List Byte} {t : State} (req : (s.port p).dataReq k = some (.arrivalStore a bytes)) (rest : s.moverAtRest)
    (ended : s.arrivalAck p k = t) (mover : t.mover = s.mover) : exec (.arrivalStoreAck p k) s = .next t := by
  rw [exec_arrivalStoreAck req, ended, State.settle_of mover rest]

/-- Likewise the ERROR, where the failed store writes the port alone. -/
theorem next_storeError {bytes : List Byte} {f : Port → Port} (req : (s.port p).dataReq k = some (.arrivalStore a bytes))
    (rest : s.moverAtRest) (failed : s.arrivalStoreFailed p k a = s.modPort p f) :
    exec (.arrivalRequestError p k) s = .next (s.modPort p f) := by
  rw [exec_arrivalStoreError req, failed, State.settle_of (State.modPort_mover p f s) rest]

theorem State.custody_of_owned (owned : s.owned b = some o) : (s.record b).custody = .owned o := by
  unfold State.owned at owned
  split at owned
  · rename_i custody
    rw [custody, Option.some.inj owned]
  · cases owned

/-- A failed store whose item no recall waits on touches no custody (R107). -/
theorem State.arrivalStoreFailed_of (delivering : (s.port p).inbox.delivering = some (lane, it))
    (unrecalled : ∀ o x, it.kind = .lease → (s.record it.buf).custody = .owned o → o.op ≠ .recallViews x) :
    s.arrivalStoreFailed p k a = s.modPort p (Port.arrStoreFail k a) := by
  rw [State.arrivalStoreFailed, delivering, State.leaseAbandoned]
  split
  · rename_i lease
    rw [State.leaseFailed, State.modPort_owned]
    cases owned : s.owned it.buf with
    | none => rfl
    | some o =>
      dsimp only
      split
      · rename_i x op
        exact absurd op (unrecalled o x lease (State.custody_of_owned owned))
      · rfl
  · rfl

end Sys2Proof.Machine

/-- Settles O11: with the command run field asking nothing the write is the arrival run field's, on the port as step 3 leaves it. -/
theorem arrivalRunFieldStartsAndStops : Obligations.ArrivalRunFieldStartsAndStops := by
  unfold Obligations.ArrivalRunFieldStartsAndStops
  refine ⟨fun s p w start reset unfenced run same live => ⟨fun active stopped settled => ?_, fun other => ?_⟩,
    fun s p w stop reset unfenced run same live => ⟨fun state store => ?_, fun state store => ?_, fun halted => ?_⟩⟩
  · refine next_arrivalControlWrite reset unfenced same live ?_
    rw [start, active]
    exact Port.arrRunField_starts stopped run settled rfl
  · refine next_arrivalControlWrite reset unfenced same live ?_
    rw [start]
    exact Port.arrRunField_startRefused run other
  · exact next_arrivalStop stop reset unfenced run same live (ArrProc.stop_idle state store)
  · exact next_arrivalStop stop reset unfenced run same live (ArrProc.stop_storing state store)
  · exact next_arrivalStop stop reset unfenced run same live (ArrProc.stop_halted halted)

/-- Settles O46: an answer that is kept is judged by the inbox and the owner; one to be discarded gives way to the next load. -/
theorem arrivalLoadPicksOrSuspends : Obligations.ArrivalLoadPicksOrSuspends := by
  unfold Obligations.ArrivalLoadPicksOrSuspends
  intro s p k data a l req load
  rw [exec_arrivalLoadResponse req]
  refine ⟨fun it rest kept owner head => next_modPort ?_, fun it rest kept owner empty head => next_modPort ?_,
    fun kept owner filled => next_modPort ?_, fun kept urgent routine => next_modPort ?_, fun discarded => next_modPort ?_⟩
  · rw [Port.arrLoadAck_read load kept, Port.arrLoaded_pick (by exact Inbox.filled_urgent head) owner,
      Inbox.pick_urgent (by exact head)]
    rfl
  · rw [Port.arrLoadAck_read load kept, Port.arrLoaded_pick (by exact Inbox.filled_routine head) owner,
      Inbox.pick_routine (by exact empty) (by exact head)]
    rfl
  · rw [Port.arrLoadAck_read load kept]
    exact Port.arrLoaded_suspend filled owner
  · rw [Port.arrLoadAck_read load kept]
    exact Port.arrLoaded_empty urgent routine
  · rw [Port.arrLoadAck_discarded load discarded]
    by_cases running : (s.port p).arr.state = .running
    · rw [if_pos running]
      exact Port.arrPresent_running false running
    · rw [if_neg running]
      exact Port.arrPresent_other false running

/-- Settles O47: the port's part of the step is the same for every item, and the custody of the buffer goes by the item's kind. -/
theorem arrivalStoreAcknowledged : Obligations.ArrivalStoreAcknowledged := by
  unfold Obligations.ArrivalStoreAcknowledged
  intro s p k a bytes lane it req delivering rest without ended plain
  refine ⟨fun length tag h d kind queued => ?_, fun o kind owned unrecalled => ?_,
    fun o x kind owned op caching active => ?_, fun kind => ?_⟩
  · refine next_storeAck req rest (State.arrivalAck_custody delivering ?_) rfl
    rw [State.itemEffect, kind]
    exact State.delivered_queued (s := s.modPort p (Port.arrStored k)) queued
  · refine next_storeAck req rest (State.arrivalAck_custody delivering ?_) rfl
    rw [State.itemEffect, kind, ← Owned.join_kept unrecalled]
    exact State.leased_kept (s := s.modPort p (Port.arrStored k)) (State.owned_of owned) unrecalled
  · refine next_storeAck req rest ?_ rfl
    rw [State.arrivalAck_of delivering, State.itemEffect, kind, ← Owned.join_recalled op]
    dsimp only
    exact State.takenOver_storeEnded owned op caching active
  · refine next_storeAck req rest ?_ rfl
    rw [State.arrivalAck_of delivering, State.itemEffect, kind]
    exact State.storeEnded_plain k p s

/-- Settles O48: ARRIVAL_ERROR and ARR_HALTED in every case, and HALTED unless the process is, or by a waiting stop becomes, STOPPED. -/
theorem arrivalRequestErrorHaltsTheProcess : Obligations.ArrivalRequestErrorHaltsTheProcess := by
  unfold Obligations.ArrivalRequestErrorHaltsTheProcess
  intro s p k a
  refine ⟨fun l req load kept => ?_, fun l req load discarded stopped => ?_, fun bytes lane it req delivering rest unrecalled => ?_⟩
  · rw [exec_arrivalLoadError req]
    refine next_modPort ?_
    rw [Port.arrLoadFail_halts load kept]
    rfl
  · rw [exec_arrivalLoadError req]
    refine next_modPort ?_
    have idle : (((s.port p).arrLoadAnswered k).arrFault a).arr.state ≠ .running := by
      show (s.port p).arr.state ≠ .running
      rw [stopped]
      nofun
    rw [Port.arrLoadFail_discarded load discarded, Port.arrPresent_other false idle]
    rfl
  · rw [next_storeError req rest (State.arrivalStoreFailed_of delivering unrecalled)]
    refine next_modPort ?_
    rw [Port.arrStoreFail, Port.modArr, ArrProc.storeFailed_eq]
    rfl
end

