-- ==== Sys2Proof/Proofs/YieldTags.lean ====
section
/-!
THEOREMS. The eight yield tags along a step: shared out between the free-tag list and the live entries, none twice (R115, R116, R128).
-/
open Sys2Proof Sys2Proof.Machine

namespace Sys2Proof.Machine

variable {s t : State}

/-- After device reset no yield is live, and all eight tags are free (R128). -/
theorem YieldUnit.tagsShared_reset : YieldUnit.reset.tagsShared := List.Perm.refl allTags

/-- The end of a map load asks no yield and ends none, however it judges the image (R6). -/
theorem State.endLoad_yields (rom : List Byte) (s : State) : (s.endLoad rom).yields = s.yields := by
  unfold State.endLoad
  split <;> exact State.mapPorts_yields _ _

/-- Every row keeps the tags shared out. -/
theorem State.tagsShared_exec {c : Instr} (h : s.yields.tagsShared) (he : exec c s = .next t) : t.yields.tagsShared := by
  by_cases hr : c = .deviceReset
  · subst hr
    cases he
    exact YieldUnit.tagsShared_reset
  by_cases hm : ∃ rom, c = .mapLoadEnd rom
  · obtain ⟨rom, rfl⟩ := hm
    cases he
    split
    · rw [State.endLoad_yields]
      exact h
    · exact h
  · obtain ⟨t', ht', writes⟩ := exec_kept keptTags c s hr (fun rom e => hm ⟨rom, e⟩)
    rw [he] at ht'
    cases ht'
    exact writes.keepsYields h

end Sys2Proof.Machine

/-- Settles O55: each operation that a row makes on the Yield Unit keeps the tags shared out (`keptTags`), a device reset frees them all,
and the end of a map load leaves the Yield Unit as it is. -/
theorem stepKeepsYieldTagsShared : Obligations.StepKeepsYieldTagsShared := by
  intro s t h hstep
  obtain ⟨-, rfl⟩ | ⟨c, rest, -, hc⟩ := step_cases hstep
  · exact h
  · exact State.tagsShared_exec (s := { s with pending := rest }) h hc
end

