-- ==== Sys2Proof/Proofs/YieldRequests.lean ====
section
/-!
THEOREMS. A yield's request on the link (R112, R118, R122, R159): its grant, its reissue, and the responses that match none (R119, R121, R160).
-/
open Sys2Proof Sys2Proof.Machine

namespace Sys2Proof.Machine

variable {s : State} {p : PortId} {n : Word} {t : TagId} {e : YieldEntry} {k : SlotId}

/-! ### The entry that a number names (R119) -/

theorem tagOf_of (h : n.toNat = t.val) : tagOf n = some t := by
  rw [tagOf, dif_pos (by omega)]
  simp [h]

theorem tagOf_val (h : tagOf n = some t) : t.val = n.toNat := by
  unfold tagOf at h
  split at h
  · cases h
    rfl
  · cases h

theorem slotOf_val (h : slotOf n = some k) : k.val = n.toNat := by
  unfold slotOf at h
  split at h
  · cases h
    rfl
  · cases h

/-- The entry found by its tag is an ISSUED one where its phase says so. -/
theorem State.issuedEntry_of (entry : s.yields.entry t = some e) (issued : e.phase = .issued k) : s.issuedEntry t = some (e, k) := by
  rw [State.issuedEntry, entry]
  dsimp only
  rw [issued]

/-- What a tag is found to name is a live entry with this tag, ISSUED in this slot. -/
theorem State.issuedEntry_mem (h : s.issuedEntry t = some (e, k)) : e ∈ s.yields.live ∧ e.tag = t ∧ e.phase = .issued k := by
  unfold State.issuedEntry at h
  split at h
  · rename_i x entry
    have tag : x.tag = t := by simpa using List.find?_some entry
    split at h
    · rename_i issued
      cases h
      exact ⟨List.mem_of_find?_eq_some entry, tag, issued⟩
    · cases h
  · cases h

/-- A response that names the tag of an ISSUED entry with this target matches it. -/
theorem State.matched_of (issued : s.issuedEntry t = some (e, k)) (number : n.toNat = t.val) (target : e.ask.target = p) :
    s.matched p n = some (e, k) := by
  rw [State.matched, tagOf_of number, Option.bind_some, issued]
  exact if_pos target

/-- A number that is the tag of no ISSUED entry with this target matches nothing. -/
theorem State.matched_none (unmatched : ∀ e ∈ s.yields.live, ∀ k, e.tag.val = n.toNat → e.ask.target = p → e.phase ≠ .issued k) :
    s.matched p n = none := by
  unfold State.matched
  split
  · rename_i e k found
    obtain ⟨t, named, issued⟩ := Option.bind_eq_some_iff.mp found
    obtain ⟨live, rfl, phase⟩ := State.issuedEntry_mem issued
    exact if_neg (fun target => unmatched e live k (tagOf_val named) target phase)
  · rfl

/-- A number that is no slot's, or that of a slot whose request awaits no data, finds no request (R160). -/
theorem Port.dataReq_slotOf_none {P : Port} (unmatched : ∀ k : SlotId, k.val = n.toNat → P.dataReq k = none) :
    (slotOf n).bind P.dataReq = none :=
  Option.bind_eq_none_iff.mpr (fun k named => unmatched k (slotOf_val named))

/-! ### The grant (R118, R162) -/

/-- A grant to YIELD issues the entry the Yield Unit offers, and rotates, in one write of the port and one of the table. -/
theorem State.grant_yield (offer : s.yields.offer p = some e) : s.grant p k .yield =
    (s.modPort p (fun P => { P.issue k (s.yieldReq e) (s.respDeadline p) with rotation := s.rotated .yield P.rotation })).modYields
      (YieldUnit.modEntry e.tag (fun e => { e with phase := .issued k, attempts := 1 })) := by
  have issued : s.issueYield p k =
      (s.modYields (YieldUnit.modEntry e.tag (fun e => { e with phase := .issued k, attempts := 1 }))).modPort p
        (Port.issue k (s.yieldReq e) (s.respDeadline p)) := by
    rw [State.issueYield, offer]
  show (s.issueYield p k).rotate p .yield = _
  rw [issued, State.rotate_eq, State.modPort_modPort]
  rfl

/-! ### The expiry of an attempt (R122) -/

theorem Port.slotDue_of {P : Port} {r : SlotReq} {now : Nat} (slot : P.slots.get k = some r) (passed : r.deadline ≤ now) :
    P.slotDue now k = true := by
  rw [Port.slotDue, slot]
  exact decide_eq_true passed

/-- An ISSUED entry whose deadline has passed is due. -/
theorem State.dueEntry_of {r : SlotReq} (issued : s.issuedEntry t = some (e, k)) (slot : (s.port e.ask.target).slots.get k = some r)
    (passed : r.deadline ≤ s.now) : s.dueEntry t = some (e, k) := by
  rw [State.dueEntry, issued]
  exact if_pos (Port.slotDue_of slot passed)

/-- An attempt that is not the last is made again in its slot. -/
theorem exec_yieldDeadlineExpiry (due : s.dueEntry t = some (e, k)) (more : e.attempts < s.maxAttempts e.ask.target) :
    exec (.yieldDeadlineExpiry t) s = .next (s.reissue e k) := by
  show execYieldDeadlineExpiry t s = _
  rw [execYieldDeadlineExpiry, due]
  exact congrArg _ (if_pos more)

end Sys2Proof.Machine

/-- Settles O22: the entry offered is the one granted, and its tag is that of the entry the table issues. -/
theorem grantedYieldIsIssued : Obligations.GrantedYieldIsIssued := by
  unfold Obligations.GrantedYieldIsIssued
  intro s p k e granted offer
  show execArbiterGrant p k s = _
  rw [execArbiterGrant, granted]
  exact congrArg _ (State.grant_yield offer)

/-- Settles O25: a number that finds no request, or no entry, leaves the record of it and nothing else. -/
theorem unsolicitedResponsesAreRecorded : Obligations.UnsolicitedResponsesAreRecorded := by
  unfold Obligations.UnsolicitedResponsesAreRecorded
  intro s p n code
  refine ⟨fun unmatched => ?_, fun unmatched => ?_⟩
  · show execUnsolicitedDataResponse p n s = _
    rw [execUnsolicitedDataResponse, Port.dataReq_slotOf_none unmatched]
    rfl
  · show execYieldResponse p n code s = _
    rw [execYieldResponse, State.matched_none unmatched]
    rfl

/-- Settles O50: the due entry is found by its tag, and its attempt is not the last. -/
theorem nonFinalExpiryReissuesTheYield : Obligations.NonFinalExpiryReissuesTheYield := by
  unfold Obligations.NonFinalExpiryReissuesTheYield
  intro s t e k r entry phase slot passed more
  have issued := State.issuedEntry_of entry phase
  obtain ⟨-, rfl, -⟩ := State.issuedEntry_mem issued
  rw [exec_yieldDeadlineExpiry (State.dueEntry_of issued slot passed) more]
  rfl
end

