-- ==== Sys2Proof/Proofs/YieldOutcomes.lean ====
section
/-!
SUPPORT. What the Custody Table makes of a yield's outcome, one lemma for each operation that asks a yield and each way it goes on (R71, R74,
R81, R83, R86, R88).
-/
namespace Sys2Proof.Machine
open Sys2Proof

variable {u : State} {p h d r : PortId} {b : BufId} {o : Owned}

/-- Held by `h`, lent to nobody, with the operation `op` under way. -/
def Owned.busyPlain (h : PortId) (op : HolderOp) : Owned := { holder := h, readers := [], leases := [], op := op, orphan := false }

/-! ### FREE (R71) -/

/-- The acknowledged DROP of a FREE gives the buffer back. -/
theorem State.freeOutcome_freed (busy : (u.record b).custody = .owned (.busyPlain h .free)) (waiting : (u.pool (u.poolOf b)).waiting = []) :
    u.freeOutcome b .acked = (u.givenBack b h).modPort h (Port.endCommand (CmdRec.isWaiting .free b)
      { code := .ok, handle := some (handleWord b ((u.modRecord b Record.enterFree).record b).gen), detail := .zero }) := by
  rw [State.freeOutcome_acked (State.owned_of busy) rfl]
  show (u.freeFrom b h).endWaiting h .free b .ok .zero = _
  rw [State.freeFrom_plain waiting]
  exact State.endWaiting_gen rfl

/-- A refused DROP undoes the FREE. -/
theorem State.freeOutcome_undone (busy : (u.record b).custody = .owned (.busyPlain h .free)) :
    u.freeOutcome b .refused = (u.setCustody b (.heldPlain h)).modPort h (Port.endCommand (CmdRec.isWaiting .free b)
      { code := .yieldRefused, handle := some (handleWord b (u.record b).gen), detail := .zero }) := by
  rw [State.freeOutcome, State.owned_of busy]
  exact State.endWaiting_gen (State.setCustody_gen b b _ u)

/-- A DROP that has expired strands the buffer. -/
theorem State.freeOutcome_stranded (busy : (u.record b).custody = .owned (.busyPlain h .free)) :
    u.freeOutcome b .expired = (u.strand b h).endWaiting h .free b .yieldTimeout .zero := by
  rw [State.freeOutcome, State.owned_of busy]
  rfl

/-! ### SEND within reach (R74) -/

/-- The acknowledged DROP hands the buffer over as the waiting SEND's entry says. -/
theorem State.sendOutcome_handsOver {x : CmdRec} (busy : (u.record b).custody = .owned (.busyPlain h (.send d)))
    (entry : (u.port h).cmd.outstanding.find? (CmdRec.isWaiting .send b) = some x) (reach : (u.entryOf b).reach.get d = true) :
    u.sendOutcome b .acked = ({ (((u.toQueued b h d (entryLength x.raw) (entryTag x.raw)).modPort d (fun P =>
      (P.modInbox (fun i => (i.release .send b).push ((entryLane x.raw).getD .routine)
        { kind := .delivery (entryLength x.raw) (entryTag x.raw), buf := b, gen := (u.record b).gen, source := h,
          delivering := false })).arrPresent false)).chargeDown h (u.poolOf b)) with
      destRes := removeFirst (fun x => x.buf == b) u.destRes } : State).modPort h (Port.endCommand (CmdRec.isWaiting .send b)
        { code := .ok, handle := some (handleWord b (u.record b).gen), detail := .zero }) := by
  have raw : u.waitingEntry h .send b = x.raw := by rw [State.waitingEntry, entry]
  have gen := State.toQueued_gen (u := u) (p := h) (d := d) (b := b) (entryLength x.raw) (entryTag x.raw)
  rw [State.sendOutcome_reach (State.owned_of busy) rfl reach]
  show u.handOff b h d (u.waitingEntry h .send b) = _
  rw [raw, State.handOff, State.deliver, gen]
  exact State.endWaiting_gen gen

/-! ### LEND (R81) -/

/-- The acknowledged CLEAN queues the lease for the reader that the waiting LEND's entry names. -/
theorem State.lendOutcome_queues {x : CmdRec} (owned : (u.record b).custody = .owned o) (op : o.op = .lend) (kept : o.orphan = false)
    (entry : (u.port o.holder).cmd.outstanding.find? (CmdRec.isWaiting .lend b) = some x) (reader : entryPort x.raw = d.val) :
    u.lendOutcome b .acked = ((u.setCustody b (.owned { o with op := .none, leases := o.leases ++ [d] })).modPort d (fun P =>
      (P.modInbox (fun i => ((i.release .lend b).reserve .standing b).push (entryLendLane x.raw)
        { kind := .lease, buf := b, gen := (u.record b).gen, source := o.holder, delivering := false })).arrPresent false)).modPort o.holder
          (Port.endCommand (CmdRec.isWaiting .lend b)
            { code := .ok, handle := some (handleWord b (u.record b).gen), detail := .zero }) := by
  have raw : u.waitingEntry o.holder .lend b = x.raw := by rw [State.waitingEntry, entry]
  have gen := State.setCustody_gen b b (.owned { o with op := .none, leases := o.leases ++ [d] }) u
  rw [State.lendOutcome_acked (r := d) (State.owned_of owned) op kept (State.owned_inRange owned)
    (by rw [raw]; exact entryPortId_of reader), raw, State.queueLease, gen]
  exact State.endWaiting_gen gen

/-! ### RETURN (R83) -/

/-- Whatever the outcome of the DROP, the view ends, and where no recall waits the RETURN is all that ends. -/
theorem State.returnOutcome_left (owned : (u.record b).custody = .owned o) (reader : o.hasReader r = true)
    (unrecalled : ∀ x, o.op ≠ .recallViews x) (oc : YieldOutcome) :
    u.returnOutcome b r oc = ((u.setCustody b (.owned (o.dropReader r))).modPort r (Port.modInbox (Inbox.release .standing b))).modPort r
      (Port.endCommand (CmdRec.isWaiting .ret b)
        { code := if oc = .acked then .ok else .okFenced, handle := some (handleWord b (u.record b).gen), detail := .zero }) := by
  have left : (u.setCustody b (.owned (o.dropReader r))).owned b = some (o.dropReader r) :=
    State.setCustody_owned _ (State.owned_inRange owned)
  rw [State.returnOutcome, State.readerOut_acked (State.owned_of owned) reader,
    State.recallCheck_other (o := o.dropReader r) (by exact left) unrecalled]
  exact State.endWaiting_gen (State.setCustody_gen b b _ u)

/-! ### RECALL of one reader (R86) -/

/-- The one reader leaves, its RECALL marked to end OK_FENCED or not. -/
theorem State.readerOut_readByOne {x : Bool} (read : u.owned b = some (.readByOne h r true (.recallViews x))) (fenced : Bool) :
    u.readerOut b r fenced = (u.setCustody b (.owned (.busyPlain h (.recallViews (x || fenced))))).modPort r
      (Port.modInbox (Inbox.release .standing b)) := by
  have left : { (Owned.readByOne h r true (.recallViews x)).dropReader r with op := (HolderOp.recallViews x).degrade fenced } =
      Owned.busyPlain h (.recallViews (x || fenced)) := by
    simp [Owned.dropReader, Owned.readByOne, Owned.busyPlain, HolderOp.degrade]
  rw [State.readerOut, read, ← left]
  exact if_pos (Owned.hasReader_readByOne h r true (.recallViews x))

/-- With its DROP ended the RECALL of one reader ends: OK_FENCED where it was marked so, or the DROP was not acknowledged. -/
theorem State.recallOutcome_ends {x : Bool} (read : (u.record b).custody = .owned (.readByOne h r true (.recallViews x)))
    (oc : YieldOutcome) : u.recallOutcome b r oc = ((u.setCustody b (.heldPlain h)).modPort r
      (Port.modInbox (Inbox.release .standing b))).modPort h (Port.endCommand (CmdRec.isWaiting .recallViews b)
        { code := if x || oc != .acked then .okFenced else .ok, handle := some (handleWord b (u.record b).gen), detail := .zero }) := by
  have left : ((u.setCustody b (.owned (.busyPlain h (.recallViews (x || oc != .acked))))).modPort r
      (Port.modInbox (Inbox.release .standing b))).owned b = some (.busyPlain h (.recallViews (x || oc != .acked))) :=
    State.setCustody_owned _ (State.owned_inRange read)
  rw [State.recallOutcome, State.readerOut_readByOne (State.owned_of read), State.recallCheck_done left,
    State.setCustody_modPort_setCustody]
  exact State.endWaiting_gen (State.setCustody_gen b b _ u)

/-! ### RECLAIM (R88) -/

/-- The acknowledged DROP puts the buffer into its free list. -/
theorem State.reclaimOutcome_freed (stranded : (u.record b).custody = .stranded h true) (waiting : (u.pool (u.poolOf b)).waiting = []) :
    u.reclaimOutcome b .acked = ((u.modRecord b Record.enterFree).modPool (u.poolOf b) (fun x =>
      { x with free := x.free ++ [b] })).mapPorts (fun _ => Port.endCommand (CmdRec.isWaiting .reclaim b)
        { code := .ok, handle := some (handleWord b ((u.modRecord b Record.enterFree).record b).gen), detail := .zero }) := by
  rw [State.reclaimOutcome, stranded]
  dsimp only
  rw [State.enterFreeList_plain waiting]
  rfl

/-- A refused DROP leaves the buffer STRANDED. -/
theorem State.reclaimOutcome_refused (stranded : (u.record b).custody = .stranded h true) :
    u.reclaimOutcome b .refused = (u.setCustody b (.stranded h false)).mapPorts (fun _ => Port.endCommand (CmdRec.isWaiting .reclaim b)
      { code := .yieldRefused, handle := some (handleWord b (u.record b).gen), detail := .zero }) := by
  rw [State.reclaimOutcome, stranded]
  dsimp only
  rw [State.endReclaim, State.handleOf, State.setCustody_gen]
  rfl

end Sys2Proof.Machine
end

