-- ==== Sys2Proof/Proofs/YieldAnswers.lean ====
section
/-!
THEOREMS. YIELD_RESPONSE to an ISSUED entry (R119, R120): the entry retires, and the operation that asked for the yield goes on.
-/
open Sys2Proof Sys2Proof.Machine

namespace Sys2Proof.Machine

variable {s : State} {p : PortId} {n : Word} {before after : List YieldEntry} {e : YieldEntry} {k : SlotId}

/-- The response on port `p` with the number `n` is to the ISSUED entry `e` in slot `k`, no place waits for its tag, and the Mover is at rest. -/
structure YieldAnswered (s : State) (p : PortId) (n : Word) (before after : List YieldEntry) (e : YieldEntry) (k : SlotId) : Prop where
  live : s.yields.live = before ++ e :: after
  first : ∀ x ∈ before, x.tag ≠ e.tag
  places : s.yields.waiting = []
  number : n.toNat = e.tag.val
  target : e.ask.target = p
  issued : e.phase = .issued k
  rest : s.moverAtRest

/-- The slot freed and the Yield Unit left as `y` by the entry's retiring. -/
def State.yieldEnded (p : PortId) (k : SlotId) (y : YieldUnit) (s : State) : State :=
  (s.modPort p (Port.setSlot k none)).modYields (fun _ => y)

/-- The end of a yield leaves the commands outstanding on every port. -/
theorem State.yieldEnded_cmd (y : YieldUnit) (i : PortId) : ((s.yieldEnded p k y).port i).cmd = (s.port i).cmd := by
  show ((s.modPort p (Port.setSlot k none)).port i).cmd = _
  rw [State.modPort_port]
  split <;> rfl

/-- With no place waiting, retiring an entry frees its slot and its tag (R119, R123). -/
theorem State.retireYield_plain (live : s.yields.live = before ++ e :: after) (first : ∀ x ∈ before, x.tag ≠ e.tag)
    (places : s.yields.waiting = []) (ok : YieldAsk → Bool) : s.retireYield e.tag p k ok =
      s.yieldEnded p k { live := before ++ after, freeTags := s.yields.freeTags ++ [e.tag], waiting := [] } := by
  rw [State.yieldEnded, ← YieldUnit.retire_serve live first places ok]
  rfl

namespace YieldAnswered
variable (A : YieldAnswered s p n before after e k)
include A

theorem matched : s.matched p n = some (e, k) :=
  State.matched_of (State.issuedEntry_of (by
    rw [YieldUnit.entry, A.live]
    exact find?_append _ before e after (fun x hx => by simpa using A.first x hx) (by simp)) A.issued) A.number A.target

/-- The answer is what the Custody Table makes of the outcome, once the entry has retired and an ERROR is recorded; the Mover stays at rest. -/
theorem answers {code : AnswerCode} {t : State}
    (becomes : ((s.yieldEnded p k { live := before ++ after, freeTags := s.yields.freeTags ++ [e.tag], waiting := [] }).recordRefusal p
      e.tag code).yieldOutcome e.ask (outcomeOf code) = t) (still : t.mover = s.mover) : exec (.yieldResponse p n code) s = .next t := by
  show execYieldResponse p n code s = _
  rw [execYieldResponse, A.matched]
  dsimp only
  rw [State.retireYield_plain A.live A.first A.places, becomes, State.settle_of still A.rest]

end YieldAnswered

end Sys2Proof.Machine

/-- Settles O49: the entry retires alike for every operation, and each goes on by its own outcome. -/
theorem answeredYieldEndsItsOperation : Obligations.AnsweredYieldEndsItsOperation := by
  unfold Obligations.AnsweredYieldEndsItsOperation
  intro s p n before after e k live first places number target issued rest
  have A : YieldAnswered s p n before after e k := ⟨live, first, places, number, target, issued, rest⟩
  subst target
  intro b q acked refused handle item done
  refine ⟨fun h op busy => ⟨fun waiting => ?_, ?_⟩, fun h d r op busy entry reach => ?_, fun o r d op owned lend kept entry reader => ?_,
    fun o code op owned reader unrecalled => ?_, fun h x code op read => ?_, fun h op stranded => ⟨fun waiting => ?_, ?_⟩⟩
  · refine A.answers ?_ (by simp [done, acked])
    rw [State.yieldOutcome, op]
    exact State.freeOutcome_freed busy waiting
  · refine A.answers ?_ (by simp [done, refused, acked])
    rw [State.yieldOutcome, op]
    exact State.freeOutcome_undone busy
  · refine A.answers ?_ (by simp [done, acked])
    rw [State.yieldOutcome, op]
    refine State.sendOutcome_handsOver busy ?_ reach
    rw [State.recordRefusal, State.yieldEnded_cmd]
    exact entry
  · refine A.answers ?_ (by simp [done, acked])
    rw [State.yieldOutcome, op]
    refine State.lendOutcome_queues owned lend kept ?_ reader
    rw [State.recordRefusal, State.yieldEnded_cmd]
    exact entry
  · cases code
    · rw [if_pos rfl, if_pos rfl]
      refine A.answers ?_ (by simp [done, acked])
      rw [State.yieldOutcome, op]
      exact State.returnOutcome_left (by exact owned) reader unrecalled .acked
    · rw [if_neg nofun, if_neg nofun]
      refine A.answers ?_ (by simp [done, refused, acked])
      rw [State.yieldOutcome, op]
      exact State.returnOutcome_left (by exact owned) reader unrecalled .refused
  · cases code
    · rw [if_pos rfl]
      refine A.answers ?_ (by simp [done, acked])
      rw [State.yieldOutcome, op]
      refine (State.recallOutcome_ends (by exact read) .acked).trans ?_
      cases x <;> rfl
    · rw [if_neg nofun, if_neg nofun]
      refine A.answers ?_ (by simp [done, refused, acked])
      rw [State.yieldOutcome, op]
      refine (State.recallOutcome_ends (by exact read) .refused).trans ?_
      cases x <;> rfl
  · refine A.answers ?_ (by simp [acked])
    rw [State.yieldOutcome, op]
    exact State.reclaimOutcome_freed stranded waiting
  · refine A.answers ?_ (by simp [refused, acked])
    rw [State.yieldOutcome, op]
    exact State.reclaimOutcome_refused stranded
end

