-- ==== Sys2Proof/Proofs/FinalYieldExpiry.lean ====
section
/-!
THEOREMS. YIELD_FINAL_EXPIRY of the DROP of a FREE on a port with nothing else under way (R123, R35, R71): the fence finds nothing to end but
the expired yield itself, whose outcome strands the buffer.
-/
open Sys2Proof Sys2Proof.Machine

namespace Sys2Proof.Machine

variable {s u : State} {p d : PortId} {b : BufId} {t : TagId} {e : YieldEntry} {k : SlotId} {x : Record}

/-! ### A fence with nothing else under way (R170) -/

theorem State.modYields_id {f : YieldUnit → YieldUnit} (h : f u.yields = u.yields) : u.modYields f = u := by
  rw [State.modYields, h]

theorem State.modMover_id {f : Mover → Mover} (h : f u.mover = u.mover) : u.modMover f = u := by
  rw [State.modMover, h]

theorem State.moverAtRest_of (mover : u.mover = s.mover) (rest : s.moverAtRest) : u.moverAtRest :=
  State.moverAtRest_iff.mpr (fun c => State.chanStep_none_of c mover (State.moverAtRest_iff.mp rest c))

/-- Port `p` FENCED and FENCE_NOTICE raised: what a fence does before the outcomes of what it ends (R170 parts 2 to 6). -/
def State.fenceRaised (p : PortId) (u : State) : State := (u.modPort p Port.fence).raiseRecovery .fenceNotice

/-- With no item being delivered, no yield asked and no burst on the port, a fence hands over the expired request's outcome alone. -/
theorem State.fence_alone (delivering : (u.port p).inbox.delivering = none) (live : u.yields.live = []) (places : u.yields.waiting = [])
    (bursts : ∀ c, u.mover.reqOn p c = none) (e : Expired) : u.fence p e = ((u.fenceRaised p).expiredOutcome e).settle := by
  have yields : (u.fenceRaised p).modYields (YieldUnit.endFor p) = u.fenceRaised p :=
    State.modYields_id (YieldUnit.endFor_none live places p)
  have mover : (u.fenceRaised p).modMover (Mover.endOn p) = u.fenceRaised p := State.modMover_id (Mover.endOn_none bursts)
  have asks : (u.fenceRaised p).yields.asksFor p = [] := YieldUnit.asksFor_none live places p
  have fails : (u.fenceRaised p).mover.failsOn p = [] := Mover.failsOn_none bursts
  rw [State.fence, delivering]
  show (((((((u.fenceRaised p).modYields (YieldUnit.endFor p)).modMover (Mover.endOn p)).expiredOutcome e).yieldOutcomes
    ((u.fenceRaised p).yields.asksFor p) .expired).moveFails
      (((u.fenceRaised p).modYields (YieldUnit.endFor p)).mover.failsOn p)).settle) = _
  rw [yields, mover, asks, fails]
  rfl

/-! ### A STRANDED buffer (R35) -/

/-- The record of a buffer whose record is known, given another custody. -/
theorem State.setCustody_records_set (there : u.records[b]? = some x) (c : Custody) :
    (u.setCustody b c).records = u.records.set b { x with custody := c } := by
  rw [State.setCustody, State.modRecord, List.modify_eq_set_getElem?, there]
  rfl

/-- What the fence of port `p` makes of buffer `b`, whose FREE the port had under way: STRANDED, and the FREE ended (R71, R170). -/
def State.fenceStranded (b : BufId) (p : PortId) (u : State) : State :=
  ((u.fenceRaised p).strand b p).endWaiting p .free b .yieldTimeout .zero

theorem State.fenceStranded_records : (u.fenceStranded b p).records = (u.setCustody b (.stranded p false)).records := rfl

theorem State.fenceStranded_pools : (u.fenceStranded b p).pools = (u.chargeDown p (u.poolOf b)).pools := rfl

/-- What is neither a port, a record nor a pool stays as it is. -/
theorem State.fenceStranded_rest : (u.fenceStranded b p).yields = u.yields ∧ (u.fenceStranded b p).mover = u.mover ∧
    (u.fenceStranded b p).destRes = u.destRes ∧ (u.fenceStranded b p).map = u.map ∧ (u.fenceStranded b p).mapState = u.mapState ∧
    (u.fenceStranded b p).now = u.now := by
  simp [State.fenceStranded, State.fenceRaised, State.strand, State.endWaiting, State.raiseRecovery]

/-- STRANDED is raised on every port with the recovery right, and its flag stays as the FREE ends. -/
theorem State.fenceStranded_raised (right : (u.cfg d).recovery = true) :
    ((u.fenceStranded b p).port d).events &&& Event.stranded.bit ≠ 0 := by
  have raised : (((u.fenceRaised p).strand b p).port d).events.getLsbD 8 = true := by
    rw [State.strand, State.raiseRecovery, State.mapPorts_port]
    show (if (u.cfg d).recovery then _ else _ : Port).events.getLsbD 8 = true
    rw [if_pos right]
    simp [Port.raise, Event.bit]
  refine events_and_bit (i := 8) ?_ rfl
  rw [State.fenceStranded, State.endWaiting, State.modPort_port]
  split
  · rw [Port.endCommand_events]
    exact raised
  · exact raised

/-- The fence of a port whose one yield was the DROP of a FREE strands the buffer. -/
theorem State.fence_strands (delivering : (u.port p).inbox.delivering = none) (live : u.yields.live = []) (places : u.yields.waiting = [])
    (bursts : ∀ c, u.mover.reqOn p c = none) (rest : u.moverAtRest) (busy : (u.record b).custody = .owned (.busyPlain p .free)) :
    u.fence p (.yield { buf := b, target := p, kind := .drop, op := .free }) = u.fenceStranded b p := by
  have stranded : (u.fenceRaised p).expiredOutcome (.yield { buf := b, target := p, kind := .drop, op := .free }) =
      u.fenceStranded b p := State.freeOutcome_stranded (u := u.fenceRaised p) busy
  rw [State.fence_alone delivering live places bursts, stranded]
  obtain ⟨-, mover, -⟩ := State.fenceStranded_rest (u := u) (b := b) (p := p)
  exact State.settle_of mover rest

/-! ### The row (R123) -/

/-- The expired entry retired, the Yield Unit left as `y`, and its fault recorded (R123). -/
def State.yieldExpired (p : PortId) (k : SlotId) (t : TagId) (y : YieldUnit) (s : State) : State :=
  (s.yieldEnded p k y).modPort p (Port.recordFault .yieldExpired (BitVec.ofNat 40 t.val))

/-- The last attempt's expiry, with no place waiting: the entry retires, and the target is fenced. -/
theorem exec_yieldFinalExpiry {before after : List YieldEntry} (due : s.dueEntry e.tag = some (e, k))
    (last : s.maxAttempts e.ask.target ≤ e.attempts) (live : s.yields.live = before ++ e :: after) (first : ∀ x ∈ before, x.tag ≠ e.tag)
    (places : s.yields.waiting = []) : exec (.yieldFinalExpiry e.tag) s = .next ((s.yieldExpired e.ask.target k e.tag
      { live := before ++ after, freeTags := s.yields.freeTags ++ [e.tag], waiting := [] }).fence e.ask.target (.yield e.ask)) := by
  show execYieldFinalExpiry e.tag s = _
  rw [execYieldFinalExpiry, due]
  dsimp only
  rw [if_neg (Nat.not_lt.mpr last), State.retireYield_plain live first places]
  rfl

section Expired
variable {y : YieldUnit}

@[simp] theorem State.yieldExpired_mapState : (s.yieldExpired p k t y).mapState = s.mapState := rfl
@[simp] theorem State.yieldExpired_map : (s.yieldExpired p k t y).map = s.map := rfl
@[simp] theorem State.yieldExpired_records : (s.yieldExpired p k t y).records = s.records := rfl
@[simp] theorem State.yieldExpired_destRes : (s.yieldExpired p k t y).destRes = s.destRes := rfl
@[simp] theorem State.yieldExpired_yields : (s.yieldExpired p k t y).yields = y := rfl
@[simp] theorem State.yieldExpired_mover : (s.yieldExpired p k t y).mover = s.mover := rfl
@[simp] theorem State.yieldExpired_now : (s.yieldExpired p k t y).now = s.now := rfl
@[simp] theorem State.yieldExpired_cfg : (s.yieldExpired p k t y).cfg d = s.cfg d := rfl
@[simp] theorem State.yieldExpired_record : (s.yieldExpired p k t y).record b = s.record b := rfl

@[simp] theorem State.yieldExpired_inbox : ((s.yieldExpired p k t y).port p).inbox = (s.port p).inbox := by
  rw [State.yieldExpired, State.modPort_port_same]
  show ((s.modPort p (Port.setSlot k none)).port p).inbox = _
  rw [State.modPort_port_same]
  rfl

end Expired

end Sys2Proof.Machine

/-- Settles O51: the entry is the one of the table, so the fence finds nothing else to end, and the outcome of the DROP strands the buffer. -/
theorem finalExpiryOfAFreeStrandsTheBuffer : Obligations.FinalExpiryOfAFreeStrandsTheBuffer := by
  unfold Obligations.FinalExpiryOfAFreeStrandsTheBuffer
  intro s t e k r b x p live places tag phase ask slot passed last there custody delivering bursts rest
  subst tag
  have target : e.ask.target = p := by rw [ask]
  have entry : s.yields.entry e.tag = some e := by simp [YieldUnit.entry, live]
  have due : s.dueEntry e.tag = some (e, k) :=
    State.dueEntry_of (State.issuedEntry_of entry phase) (by rw [target]; exact slot) passed
  have row := exec_yieldFinalExpiry (before := []) (after := []) due (by rw [target]; exact last) live nofun places
  rw [target, ask] at row
  have busy : (s.record b).custody = .owned (.busyPlain p .free) := by
    rw [State.record, List.getD_eq_getElem?_getD, there]
    exact custody
  generalize hv : s.yieldExpired p k e.tag { live := [] ++ [], freeTags := s.yields.freeTags ++ [e.tag], waiting := [] } = v at row
  have mover : v.mover = s.mover := by simp [← hv]
  have yields : v.yields = { live := [], freeTags := s.yields.freeTags ++ [e.tag], waiting := [] } := by simp [← hv]
  have strands : v.fence p (.yield { buf := b, target := p, kind := .drop, op := .free }) = v.fenceStranded b p :=
    State.fence_strands (by simpa [← hv] using delivering) (by rw [yields]) (by rw [yields]) (by rw [mover]; exact bursts)
      (State.moverAtRest_of mover rest) (by simpa [← hv] using busy)
  obtain ⟨kept, -⟩ := State.fence_port v p (.yield { buf := b, target := p, kind := .drop, op := .free })
  have fenced := kept.state.trans (Port.fence_state _)
  rw [strands] at row fenced
  obtain ⟨yields', mover', dest, map, mapState, now⟩ := State.fenceStranded_rest (u := v) (b := b) (p := p)
  refine ⟨_, row, ?_, ?_, yields'.trans yields, fun d right => State.fenceStranded_raised (by simpa [← hv] using right), fenced,
    mover'.trans mover, dest.trans (by simp [← hv]), map.trans (by simp [← hv]), mapState.trans (by simp [← hv]),
    now.trans (by simp [← hv])⟩
  · have known : v.records[b]? = some x := by simpa [← hv] using there
    rw [State.fenceStranded_records, State.setCustody_records_set known, ← hv, State.yieldExpired_records]
  · rw [State.fenceStranded_pools, ← hv]
    rfl
end

