-- ==== Sys2Proof/Proofs/MoverWork.lean ====
section
/-!
SUPPORT. The end of the Mover's turn (R134, R135, log 16): what is left to do falls with every move of a channel, so that a turn, of at most
three moves a job and two, leaves both channels at rest, from whatever state it begins.
-/
namespace Sys2Proof.Machine
open Sys2Proof

variable {s t : State} {c : ChanId} {b : BufId} {j : Job} {f : Job → Job}

/-! ### When a channel has nothing to do -/

theorem Mover.jobOf_eq_some {m : Mover} : m.jobOf c = some j ↔
    ∃ b, (m.chan c).serving = some b ∧ m.jobs.find? (fun j => j.source == b) = some j := by
  unfold Mover.jobOf
  cases (m.chan c).serving <;> simp

/-- A channel serves a job of the queue, by its source (R132). -/
theorem Mover.serving_of_jobOf {m : Mover} (job : m.jobOf c = some j) : (m.chan c).serving = some j.source ∧ j ∈ m.jobs := by
  obtain ⟨b, serves, found⟩ := Mover.jobOf_eq_some.mp job
  have source : j.source = b := by simpa using List.find?_some found
  exact ⟨source ▸ serves, List.mem_of_find?_eq_some found⟩

/-- A channel is at rest when it is not idle beside a WAITING job, nor copying without a request (R134, R135). -/
theorem State.chanStep_eq_none : s.chanStep c = none ↔
    ((s.mover.chan c).serving = none → ∀ j ∈ s.mover.jobs, j.state ≠ .waiting) ∧
    ∀ j, s.mover.jobOf c = some j → j.state = .copying → (s.mover.chan c).req ≠ none := by
  unfold State.chanStep
  cases serves : (s.mover.chan c).serving with
  | none =>
    have none' : s.mover.jobOf c = none := by simp [Mover.jobOf, serves]
    cases found : s.mover.jobs.find? (fun j => j.state == .waiting) with
    | none => simpa [none'] using found
    | some j =>
      have waits : j.state = .waiting := by simpa using List.find?_some found
      simp only [reduceCtorEq, false_iff, not_and]
      exact fun alone => absurd waits (alone trivial j (List.mem_of_find?_eq_some found))
  | some b => cases s.mover.jobOf c <;> simp

/-! ### What is left to do -/

/-- What the jobs have before them: each its end, and a WAITING one to be taken (R134, R144, R145). -/
def jobsWork (l : List Job) : Nat := l.length + l.countP (fun j => j.state == .waiting)

/-- A channel without a request may present one (R139). -/
def Chan.unasked (x : Chan) : Nat := if x.req = none then 1 else 0

/-- What the Mover has before it: no move of a channel can be made without its falling. -/
def Mover.work (m : Mover) : Nat := jobsWork m.jobs + (m.chan0.unasked + m.chan1.unasked)

theorem Chan.unasked_le (x : Chan) : x.unasked ≤ 1 := by
  unfold Chan.unasked
  split <;> decide

theorem Chan.unasked_of {x : Chan} (h : x.req = none) : x.unasked = 1 := if_pos h

/-- At most two moves a job, and two requests. -/
theorem Mover.work_le (m : Mover) : m.work ≤ 2 * m.jobs.length + 2 := by
  have jobs : m.jobs.countP (fun j => j.state == .waiting) ≤ m.jobs.length := List.countP_le_length
  have first := m.chan0.unasked_le
  have second := m.chan1.unasked_le
  unfold Mover.work jobsWork
  omega

/-! ### Writes of the jobs and of a channel -/

theorem jobsWork_append (l l' : List Job) : jobsWork (l ++ l') = jobsWork l + jobsWork l' := by
  simp only [jobsWork, List.length_append, List.countP_append]
  omega

theorem jobsWork_cons (j : Job) (l : List Job) : jobsWork (j :: l) = jobsWork [j] + jobsWork l := jobsWork_append [j] l

theorem jobsWork_map_le (leaves : ∀ j, (f j).state ≠ .waiting) (l : List Job) :
    jobsWork (l.map (fun j => if j.source = b then f j else j)) ≤ jobsWork l := by
  rw [jobsWork, List.length_map, List.countP_map]
  refine Nat.add_le_add_left (List.countP_mono_left (fun j _ waits => ?_)) _
  by_cases same : j.source = b
  · simp [same, leaves j] at waits
  · simpa [same] using waits

/-- A WAITING job that is taken has one move less before it. -/
theorem jobsWork_map_lt {l : List Job} (leaves : ∀ j, (f j).state ≠ .waiting) (mem : j ∈ l) (waits : j.state = .waiting) :
    jobsWork (l.map (fun i => if i.source = j.source then f i else i)) < jobsWork l := by
  obtain ⟨before, after, rfl⟩ := List.append_of_mem mem
  have first := jobsWork_map_le (b := j.source) leaves before
  have last := jobsWork_map_le (b := j.source) leaves after
  have taken : jobsWork [f j] < jobsWork [j] := by simp [jobsWork, leaves j, waits]
  rw [List.map_append, List.map_cons, if_pos rfl, jobsWork_append, jobsWork_append, jobsWork_cons, jobsWork_cons j]
  omega

/-- Jobs that leave the queue have no move left. -/
theorem jobsWork_filter_lt {l : List Job} (mem : j ∈ l) : jobsWork (l.filter (fun i => i.source != j.source)) < jobsWork l := by
  have shorter : (l.filter (fun i => i.source != j.source)).length < l.length :=
    List.length_filter_lt_length_iff_exists.mpr ⟨j, mem, by simp⟩
  have waiting : (l.filter (fun i => i.source != j.source)).countP (fun i => i.state == .waiting) ≤
      l.countP (fun i => i.state == .waiting) := List.Sublist.countP_le List.filter_sublist
  unfold jobsWork
  omega

theorem Mover.modChan_work (g : Chan → Chan) (m : Mover) :
    (m.modChan c g).work + (m.chan c).unasked = m.work + (g (m.chan c)).unasked := by
  fin_cases c <;> simp only [Mover.work, Mover.modChan, Mover.chan] <;> omega

/-- A channel's request apart, what is written of it leaves the work as it was. -/
theorem Mover.modChan_work_of_req {g : Chan → Chan} {m : Mover} (same : (g (m.chan c)).req = (m.chan c).req) :
    (m.modChan c g).work = m.work := by
  have parts := Mover.modChan_work (c := c) g m
  rw [Chan.unasked, Chan.unasked, same] at parts
  omega

/-- A request presented is a move made. -/
theorem Mover.modChan_work_present {g : Chan → Chan} {m : Mover} (asks : (g (m.chan c)).req ≠ none) (free : (m.chan c).req = none) :
    (m.modChan c g).work < m.work := by
  have parts := Mover.modChan_work (c := c) g m
  rw [Chan.unasked_of free, Chan.unasked, if_neg asks] at parts
  omega

theorem Mover.modJob_work_le (leaves : ∀ j, (f j).state ≠ .waiting) (m : Mover) : (m.modJob b f).work ≤ m.work :=
  Nat.add_le_add_right (jobsWork_map_le leaves m.jobs) _

theorem Mover.modJob_work_lt {m : Mover} (leaves : ∀ j, (f j).state ≠ .waiting) (mem : j ∈ m.jobs) (waits : j.state = .waiting) :
    (m.modJob j.source f).work < m.work :=
  Nat.add_lt_add_right (jobsWork_map_lt leaves mem waits) _

/-! ### Landing buffers and ended jobs -/

/-- A job that has its landing buffer does not wait. -/
theorem State.giveLanding_work (c : ChanId) (l : BufId) (s : State) : (s.giveLanding c l).mover.work ≤ s.mover.work := by
  unfold State.giveLanding
  split
  · exact (Mover.modChan_work_of_req rfl).trans_le (Mover.modJob_work_le (by simp) _)
  · exact le_rfl

theorem State.serveLanding_work (q : PoolId) (s : State) : (s.serveLanding q).mover.work ≤ s.mover.work := by
  unfold State.serveLanding
  split
  · exact State.giveLanding_work _ _ _
  · exact le_rfl
  · exact le_rfl

theorem State.enterFreeList_work (b : BufId) (s : State) : (s.enterFreeList b).mover.work ≤ s.mover.work :=
  State.serveLanding_work _ _

theorem State.freeFrom_work (b : BufId) (p : PortId) (s : State) : (s.freeFrom b p).mover.work ≤ s.mover.work :=
  State.enterFreeList_work b s

theorem State.freeLanding_work (l : Option BufId) (s : State) : (s.freeLanding l).mover.work ≤ s.mover.work := by
  cases l with
  | none => exact le_rfl
  | some b => exact State.enterFreeList_work b s

theorem State.sourceBack_work (b : BufId) (s : State) : (s.sourceBack b).mover.work ≤ s.mover.work := by
  unfold State.sourceBack
  split
  · split
    · exact State.freeFrom_work _ _ _
    · exact le_rfl
  · exact le_rfl

@[simp] theorem State.closeDest_mover (b : BufId) (s : State) : (s.closeDest b).mover = s.mover := by
  unfold State.closeDest
  split <;> rfl

@[simp] theorem State.queueLanding_mover (j : Job) (s : State) : (s.queueLanding j).mover = s.mover := by
  unfold State.queueLanding
  split <;> rfl

/-- A job's end takes it from the work; what its channel may then present was counted where it had no request. -/
theorem State.dropJob_work (job : s.mover.jobOf c = some j) :
    (s.dropJob c j.source).mover.work + (s.mover.chan c).unasked ≤ s.mover.work := by
  obtain ⟨-, mem⟩ := Mover.serving_of_jobOf job
  have left := jobsWork_filter_lt mem
  have idle := Mover.modChan_work (c := c) (fun _ => Chan.idle) s.mover
  have last := Chan.unasked_le Chan.idle
  have parts : (s.dropJob c j.source).mover.work + jobsWork s.mover.jobs = (s.mover.modChan c (fun _ => .idle)).work +
      jobsWork (s.mover.jobs.filter (fun i => i.source != j.source)) := by
    simp only [State.dropJob, State.modMover_mover, Mover.work, Mover.modChan_jobs]
    omega
  omega

theorem State.moveFail_work (job : s.mover.jobOf c = some j) (r : MoveReason) :
    (s.moveFail c r).mover.work + (s.mover.chan c).unasked ≤ s.mover.work := by
  have ended := State.dropJob_work job
  have landing := State.freeLanding_work j.landing (s.dropJob c j.source)
  have back := State.sourceBack_work j.source
    ((((s.dropJob c j.source).freeLanding j.landing).closeDest j.source).releaseRes j.dest .send j.source)
  have closed : ((((s.dropJob c j.source).freeLanding j.landing).closeDest j.source).releaseRes j.dest .send j.source).mover =
      ((s.dropJob c j.source).freeLanding j.landing).mover := State.closeDest_mover _ _
  rw [closed] at back
  rw [State.moveFail, job]
  exact (Nat.add_le_add_right (back.trans landing) _).trans ended

theorem State.moveSucceed_work (job : s.mover.jobOf c = some j) :
    (s.moveSucceed c).mover.work + (s.mover.chan c).unasked ≤ s.mover.work := by
  have ended := State.dropJob_work job
  have freed := State.freeFrom_work j.source j.sender (s.dropJob c j.source)
  have queued : (s.moveSucceed c).mover = ((s.dropJob c j.source).freeFrom j.source j.sender).mover := by
    rw [State.moveSucceed, job]
    exact State.queueLanding_mover j _
  rw [queued]
  exact (Nat.add_le_add_right freed _).trans ended

/-! ### The moves of a channel -/

theorem State.askLanding_work (c : ChanId) (q : PoolId) (s : State) : (s.askLanding c q).mover.work ≤ s.mover.work := by
  unfold State.askLanding
  split
  · exact State.giveLanding_work _ _ _
  · exact (Mover.modChan_work_of_req rfl).le

/-- Channel `c` serves the jobs of source `b`, which no longer wait (R134). -/
def Mover.serve (c : ChanId) (b : BufId) (m : Mover) : Mover :=
  (m.modChan c (fun x => { x with serving := some b })).modJob b (fun i => { i with state := .landing })

theorem Mover.serve_work {m : Mover} (mem : j ∈ m.jobs) (waits : j.state = .waiting) : (m.serve c j.source).work < m.work := by
  have served : (m.modChan c (fun x => { x with serving := some j.source })).work = m.work := Mover.modChan_work_of_req rfl
  rw [← served]
  exact Mover.modJob_work_lt (fun _ => nofun) (by rwa [Mover.modChan_jobs]) waits

/-- The channel that serves a source in the queue has a job. -/
theorem Mover.serve_jobOf {m : Mover} (mem : j ∈ m.jobs) : ∃ i, (m.serve c j.source).jobOf c = some i := by
  have serves : ((m.serve c j.source).chan c).serving = some j.source := congrArg Chan.serving (Mover.modChan_same c _ m)
  have found : ((m.serve c j.source).jobs.find? (fun i => i.source == j.source)).isSome :=
    List.find?_isSome.mpr ⟨{ j with state := .landing }, List.mem_map.mpr ⟨j, by rwa [Mover.modChan_jobs], if_pos rfl⟩, by simp⟩
  obtain ⟨i, found⟩ := Option.isSome_iff_exists.mp found
  exact ⟨i, Mover.jobOf_eq_some.mpr ⟨_, serves, found⟩⟩

theorem State.takeJob_eq (c : ChanId) (j : Job) (s : State) : s.takeJob c j =
    if (s.poolEntry j.landPool).size < j.length then (s.modMover (Mover.serve c j.source)).moveFail c .destError
    else (s.modMover (Mover.serve c j.source)).askLanding c j.landPool := rfl

/-- A job found WAITING is taken (R134). -/
theorem State.takeJob_work (mem : j ∈ s.mover.jobs) (waits : j.state = .waiting) : (s.takeJob c j).mover.work < s.mover.work := by
  have less : (s.modMover (Mover.serve c j.source)).mover.work < s.mover.work := Mover.serve_work mem waits
  rw [State.takeJob_eq]
  split
  · obtain ⟨i, job⟩ := Mover.serve_jobOf (c := c) mem
    have failed := State.moveFail_work (s := s.modMover (Mover.serve c j.source)) job .destError
    omega
  · exact (State.askLanding_work c j.landPool _).trans_lt less

theorem State.presentBurst_work (job : s.mover.jobOf c = some j) (free : (s.mover.chan c).req = none) (write : Bool) (p : PortId) :
    (s.presentBurst c write p).mover.work < s.mover.work := by
  unfold State.presentBurst
  split
  · exact Mover.modChan_work_present (c := c) (g := fun x => { x with req := some { write := write, port := p, slot := none } }) nofun free
  · have failed := State.moveFail_work job (if write then .destError else .sourceError)
    rw [Chan.unasked_of free] at failed
    exact failed

/-- A copying channel without a request presents one or ends its job (R135). -/
theorem State.proceed_work (job : s.mover.jobOf c = some j) (free : (s.mover.chan c).req = none) :
    (s.proceed c j).mover.work < s.mover.work := by
  unfold State.proceed
  split
  · have succeeded := State.moveSucceed_work job
    rw [Chan.unasked_of free] at succeeded
    exact succeeded
  · split
    · exact State.presentBurst_work job free true _
    · exact State.presentBurst_work job free false _

theorem State.chanStep_work (move : s.chanStep c = some t) : t.mover.work < s.mover.work := by
  unfold State.chanStep at move
  split at move
  · split at move
    · rename_i found
      cases move
      exact State.takeJob_work (List.mem_of_find?_eq_some found) (by simpa using List.find?_some found)
    · cases move
  · split at move
    · split at move
      · rename_i copying
        obtain ⟨-, free⟩ := copying
        cases move
        exact State.proceed_work ‹_› free
      · cases move
    · cases move

/-! ### The turn -/

/-- As many moves as there is work leave the Mover at rest. -/
theorem State.moverSteps_atRest (n : Nat) (enough : s.mover.work ≤ n) : (State.moverSteps n s).moverAtRest := by
  induction n generalizing s with
  | zero =>
    refine State.moverAtRest_iff.mpr (fun c => ?_)
    cases move : s.chanStep c with
    | none => exact move
    | some t => exact absurd (State.chanStep_work move) (by omega)
  | succ n ih =>
    unfold State.moverSteps
    cases first : s.chanStep 0 with
    | some t => exact ih (Nat.le_of_lt_succ ((State.chanStep_work first).trans_le enough))
    | none =>
      cases second : s.chanStep 1 with
      | some t => exact ih (Nat.le_of_lt_succ ((State.chanStep_work second).trans_le enough))
      | none => exact ⟨first, second⟩

/-- After its turn the Mover is at rest, whatever the step wrote before (log 16). -/
theorem State.settle_atRest (s : State) : s.settle.moverAtRest := by
  have bound := s.mover.work_le
  exact State.moverSteps_atRest _ (by omega)

end Sys2Proof.Machine
end

