-- ==== Sys2Proof/Proofs/MoverAtRest.lean ====
section
/-!
THEOREMS. Every step leaves the Mover at rest (R134, R135, log 16): a row that can give it work ends with its turn, a grant issues a request
a channel has presented, and every other row leaves the Mover as it was.
-/
open Sys2Proof Sys2Proof.Machine

namespace Sys2Proof.Machine

variable {s : State} {p : PortId} {k : SlotId}

/-! ### Shapes that several rows share -/

theorem State.modPort_atRest (rest : s.moverAtRest) (f : Port → Port) : (s.modPort p f).moverAtRest :=
  State.moverAtRest_of (s := s) rfl rest

theorem State.fence_atRest (s : State) (p : PortId) (e : Expired) : (s.fence p e).moverAtRest := State.settle_atRest _

theorem State.portReset_atRest (s : State) (p : PortId) : (s.portReset p).moverAtRest := State.settle_atRest _

theorem State.controlWrite_atRest (rest : s.moverAtRest) (p : PortId) (w : Word) : (s.controlWrite p w).moverAtRest := by
  unfold State.controlWrite
  split
  · exact State.portReset_atRest s p
  · split <;> exact State.modPort_atRest rest _

theorem State.windowAccess_atRest (rest : s.moverAtRest) (p : PortId) (a : WindowAccess) : (s.windowAccess p a).moverAtRest := by
  unfold State.windowAccess
  split
  · exact State.modPort_atRest rest _
  · split
    · unfold State.windowWrite
      split
      · exact State.controlWrite_atRest rest p _
      all_goals exact State.moverAtRest_of (s := s) rfl rest
    · exact rest

theorem State.dataResponse_atRest (rest : s.moverAtRest) {f : LinkReq → State → State} (answered : ∀ r, (f r s).moverAtRest) :
    (s.dataResponse p k f).moverAtRest := by
  unfold State.dataResponse
  split
  · exact answered _
  · exact State.modPort_atRest rest _

/-- A command that is refused leaves the Mover as it was (R65). -/
theorem State.judge_atRest (rest : s.moverAtRest) {u : HandleUse} {raw : List Byte} {own : List (Bool × ResultCode)}
    {accept : State → State} (accepted : (accept s).moverAtRest) : (s.judge p u raw own accept).moverAtRest := by
  unfold State.judge
  split
  · exact State.modPort_atRest rest _
  · split
    · exact State.modPort_atRest rest _
    · exact accepted

theorem State.taking_atRest (rest : s.moverAtRest) {op : CmdOp} {f : List Byte → State → State}
    (taken : ∀ raw, (f raw s).moverAtRest) : (s.taking p op f).moverAtRest := by
  unfold State.taking
  split
  · split
    · exact taken _
    · exact rest
  · exact rest

/-! ### The commands that give the Mover no work -/

theorem State.allocateFrom_atRest (rest : s.moverAtRest) (p : PortId) (q : PoolId) : (s.allocateFrom p q).moverAtRest := by
  unfold State.allocateFrom
  split
  · exact State.moverAtRest_of (s := s) rfl rest
  · exact rest

theorem State.withdrawAccept_atRest (rest : s.moverAtRest) (p : PortId) (b : BufId) : (s.withdrawAccept p b).moverAtRest := by
  unfold State.withdrawAccept
  split
  · exact State.moverAtRest_of (s := s) rfl rest
  · exact rest

/-! ### The grant (R139, R161) -/

/-- The request of channel `c` issued in slot `k`: it is no longer presented (R139). -/
def Mover.issue (c : ChanId) (r : BurstReq) (k : SlotId) (m : Mover) : Mover :=
  { m.modChan c (fun x => { x with req := some { r with slot := some k } }) with presented := m.presented.filter (· != c) }

/-- Writes of the Mover that leave its jobs and what each channel serves, and take no channel's request, leave it at rest. -/
theorem State.moverAtRest_of_requests {t : State} (rest : s.moverAtRest) (jobs : t.mover.jobs = s.mover.jobs)
    (serving : ∀ e, (t.mover.chan e).serving = (s.mover.chan e).serving)
    (req : ∀ e, (s.mover.chan e).req ≠ none → (t.mover.chan e).req ≠ none) : t.moverAtRest := by
  refine State.moverAtRest_iff.mpr (fun e => State.chanStep_eq_none.mpr ?_)
  obtain ⟨idle, copying⟩ := State.chanStep_eq_none.mp (State.moverAtRest_iff.mp rest e)
  have job : t.mover.jobOf e = s.mover.jobOf e := by rw [Mover.jobOf, Mover.jobOf, serving, jobs]
  rw [serving, jobs, job]
  exact ⟨idle, fun j h c => req e (copying j h c)⟩

theorem Mover.issue_chan (c e : ChanId) (r : BurstReq) (m : Mover) : (m.issue c r k).chan e =
    if e = c then { m.chan e with req := some { r with slot := some k } } else m.chan e := by
  split
  · subst e
    exact Mover.modChan_same c _ m
  · exact Mover.modChan_ne ‹_› _ m

theorem State.issue_atRest (rest : s.moverAtRest) (c : ChanId) (r : BurstReq) (k : SlotId) :
    (s.modMover (Mover.issue c r k)).moverAtRest := by
  refine State.moverAtRest_of_requests rest (Mover.modChan_jobs c _ _) (fun e => ?_) (fun e asks => ?_) <;>
    rw [State.modMover_mover, Mover.issue_chan] <;> split
  · rfl
  · rfl
  · nofun
  · exact asks

theorem State.grant_atRest (rest : s.moverAtRest) (p : PortId) (k : SlotId) (x : Source) : (s.grant p k x).moverAtRest := by
  unfold State.grant
  rw [State.rotate_eq]
  refine State.modPort_atRest ?_ _
  cases x with
  | yield =>
    dsimp only
    unfold State.issueYield
    split
    · exact State.moverAtRest_of (s := s) rfl rest
    · exact rest
  | record => exact State.modPort_atRest rest _
  | move =>
    dsimp only
    unfold State.issueBurst
    split
    · split
      · exact State.modPort_atRest (State.issue_atRest rest _ _ _) _
      · exact rest
    · exact rest

/-! ### The rows -/

theorem State.endLoad_atRest (rest : s.moverAtRest) (rom : List Byte) : (s.endLoad rom).moverAtRest := by
  unfold State.endLoad
  split <;> exact State.moverAtRest_of (s := s) rfl rest

/-- Every command answers a next state with the Mover at rest. -/
theorem exec_atRest (c : Instr) (rest : s.moverAtRest) : ∃ t, exec c s = .next t ∧ t.moverAtRest := by
  cases c with
  | deviceReset => exact ⟨_, rfl, rfl, rfl⟩
  | mapLoadEnd rom =>
    refine ⟨_, rfl, ?_⟩
    split
    · exact State.endLoad_atRest rest _
    · exact rest
  | linkLoss p => exact ⟨_, rfl, State.portReset_atRest s p⟩
  | controlReset | enable | cmdStart | cmdStop | arrStart | arrStop => exact ⟨_, rfl, State.controlWrite_atRest rest _ _⟩
  | commandPollDemand | arrivalPollDemand | cringRegisterWrite | aringRegisterWrite | eventsWrite | maskWrite | attnReleaseEnd
  | faultWrite => exact ⟨_, rfl, State.modPort_atRest rest _⟩
  | badWindow => exact ⟨_, rfl, State.windowAccess_atRest rest _ _⟩
  | arbiterGrant p k =>
    refine ⟨_, rfl, ?_⟩
    split
    · exact State.grant_atRest rest p k _
    · exact rest
  | cmdLoadResponse | ringLoadError | completionStoreAck | completionStoreError | arrivalLoadResponse =>
    refine ⟨_, rfl, State.dataResponse_atRest rest (fun r => ?_)⟩
    split
    · exact State.modPort_atRest rest _
    · exact rest
  | arrivalStoreAck =>
    refine ⟨_, rfl, State.dataResponse_atRest rest (fun r => ?_)⟩
    split
    · exact State.settle_atRest _
    · exact rest
  | arrivalRequestError =>
    refine ⟨_, rfl, State.dataResponse_atRest rest (fun r => ?_)⟩
    split
    · exact State.modPort_atRest rest _
    · exact State.settle_atRest _
    · exact rest
  | burstReadResponse | burstWriteResponse =>
    refine ⟨_, rfl, State.dataResponse_atRest rest (fun r => ?_)⟩
    split
    · split <;> exact State.settle_atRest _
    · exact rest
  | ringRequestExpiry | arrivalRequestExpiry =>
    refine ⟨_, rfl, ?_⟩
    split
    · split
      · exact State.fence_atRest _ _ _
      · exact State.fence_atRest _ _ _
      · exact rest
    · exact rest
  | commandAutoPollExpiry | arrivalAutoPollExpiry =>
    refine ⟨_, rfl, ?_⟩
    split
    · exact State.modPort_atRest rest _
    · exact rest
  | allocate => exact ⟨_, rfl, State.taking_atRest rest (fun _ => State.judge_atRest rest (State.allocateFrom_atRest rest _ _))⟩
  | withdraw => exact ⟨_, rfl, State.taking_atRest rest (fun _ => State.judge_atRest rest (State.withdrawAccept_atRest rest _ _))⟩
  | free | send | lend | returnView | recallViews | reclaim =>
    exact ⟨_, rfl, State.taking_atRest rest (fun _ => State.judge_atRest rest (State.settle_atRest _))⟩
  | unfence | query | marker =>
    exact ⟨_, rfl, State.taking_atRest rest (fun _ => State.judge_atRest rest (State.moverAtRest_of (s := s) rfl rest))⟩
  | yieldResponse =>
    refine ⟨_, rfl, ?_⟩
    split
    · exact State.settle_atRest _
    · exact State.modPort_atRest rest _
  | yieldDeadlineExpiry =>
    refine ⟨_, rfl, ?_⟩
    split
    · split
      · exact State.moverAtRest_of (s := s) rfl rest
      · exact rest
    · exact rest
  | yieldFinalExpiry =>
    refine ⟨_, rfl, ?_⟩
    split
    · split
      · exact rest
      · exact State.fence_atRest _ _ _
    · exact rest
  | unsolicitedDataResponse =>
    refine ⟨_, rfl, ?_⟩
    split
    · exact rest
    · exact State.modPort_atRest rest _
  | burstExpiry =>
    refine ⟨_, rfl, ?_⟩
    split
    · exact State.fence_atRest _ _ _
    · exact rest
  | landingWaitExpiry =>
    refine ⟨_, rfl, ?_⟩
    split
    · exact State.settle_atRest _
    · exact rest

end Sys2Proof.Machine

/-- Settles O60: the row of a command waiting leaves the Mover at rest (`exec_atRest`), and a microsecond that passes does not concern it. -/
theorem stepKeepsTheMoverAtRest : Obligations.StepKeepsTheMoverAtRest := by
  unfold Obligations.StepKeepsTheMoverAtRest
  intro s t rest stepped
  unfold step at stepped
  split at stepped
  · cases stepped
    exact State.moverAtRest_of (s := s) rfl rest
  · rename_i c later _
    have rest' : ({ s with pending := later } : State).moverAtRest := State.moverAtRest_of (s := s) rfl rest
    obtain ⟨u, row, still⟩ := exec_atRest c rest'
    rw [row] at stepped
    cases stepped
    exact still
end

