-- ==== Sys2Proof/Proofs/BurstGrants.lean ====
section
/-!
THEOREMS. The grant of a burst (R138, R139): the first-presented request of a channel through the port is issued, for the bytes at its job's
progress.
-/
open Sys2Proof Sys2Proof.Machine

namespace Sys2Proof.Machine

variable {s : State} {p : PortId} {k : SlotId} {c : ChanId} {r : BurstReq} {j : Job} {l : BufId}

/-- The channel offered to the port has its request through it (R139). -/
theorem Mover.reqOn_of_offer {m : Mover} (offer : m.offer p = some c) (req : (m.chan c).req = some r) : m.reqOn p c = some r := by
  have through := List.find?_some offer
  unfold Mover.reqOn at through ⊢
  rw [req] at through ⊢
  dsimp only at through ⊢
  split at through
  · exact if_pos ‹_›
  · cases through

/-- The burst offered is issued, and its channel leaves those that present (R139). -/
theorem State.issueBurst_of (offer : s.mover.offer p = some c) (req : (s.mover.chan c).req = some r) (job : s.mover.jobOf c = some j) :
    s.issueBurst p k = (s.modPort p (Port.issue k (s.burstReq c j r.write) (s.respDeadline p))).modMover (Mover.issue c r k) := by
  rw [State.issueBurst, offer]
  dsimp only
  rw [Mover.reqOn_of_offer offer req, job]
  rfl

theorem State.burstReq_of (landing : j.landing = some l) (write : Bool) : s.burstReq c j write =
    if write then .burstWrite c (s.bufAddr l + BitVec.ofNat 40 j.progress) (s.mover.chan c).data
    else .burstRead c (s.bufAddr j.source + BitVec.ofNat 40 j.progress) (min 256 (j.length - j.progress)) := by
  rw [State.burstReq, landing]
  rfl

/-- A grant to the Mover issues the burst offered and rotates, in one write of the port (R139, R162). -/
theorem State.grant_move (offer : s.mover.offer p = some c) (req : (s.mover.chan c).req = some r) (job : s.mover.jobOf c = some j) :
    s.grant p k .move = (s.modPort p (fun P => { P.issue k (s.burstReq c j r.write) (s.respDeadline p) with
      rotation := s.rotated .move P.rotation })).modMover (Mover.issue c r k) := by
  have once : (s.modPort p (Port.issue k (s.burstReq c j r.write) (s.respDeadline p))).modPort p (fun P =>
      { P with rotation := s.rotated .move P.rotation }) = s.modPort p (fun P =>
        { P.issue k (s.burstReq c j r.write) (s.respDeadline p) with rotation := s.rotated .move P.rotation }) :=
    State.modPort_modPort p _ _ s
  rw [State.grant, State.rotate_eq]
  dsimp only
  rw [State.issueBurst_of offer req job]
  exact congrArg (State.modMover (Mover.issue c r k)) once

end Sys2Proof.Machine

/-- Settles O24: the offered channel's request is the one issued, and the rotation is one more write of the port. -/
theorem grantedBurstIsIssued : Obligations.GrantedBurstIsIssued := by
  unfold Obligations.GrantedBurstIsIssued
  intro s p k c r j l granted offer req job landing
  show execArbiterGrant p k s = _
  rw [execArbiterGrant, granted]
  dsimp only
  rw [State.grant_move offer req job, State.burstReq_of landing]
  rfl
end

