-- ==== Sys2Proof/Proofs/OtherChannel.lean ====
section
/-!
SUPPORT. A turn in which one channel alone has a move (R134, R135): what leaves the other channel at rest, the presenting of the next burst
(R138, R139), and the end of a job (R144, R145).
-/
namespace Sys2Proof.Machine
open Sys2Proof

variable {s u v : State} {c e : ChanId} {b : BufId} {j i : Job} {g : Job → Job}

/-! ### The channels a write leaves at rest -/

/-- Of the channels but `c`, `u` is as `s` was: each has the job it served, in the same state, and no job has begun to wait. -/
structure State.OthersKept (c : ChanId) (s u : State) : Prop where
  chan : ∀ e, e ≠ c → u.mover.chan e = s.mover.chan e
  waits : ∀ j ∈ u.mover.jobs, j.state = .waiting → ∃ i ∈ s.mover.jobs, i.state = .waiting
  job : ∀ e, e ≠ c → ∀ j, u.mover.jobOf e = some j → ∃ i, s.mover.jobOf e = some i ∧ i.state = j.state

theorem State.OthersKept.rest (kept : s.OthersKept c u) (rest : s.moverAtRest) : ∀ e, e ≠ c → u.chanStep e = none := by
  intro e other
  obtain ⟨idle, copying⟩ := State.chanStep_eq_none.mp (State.moverAtRest_iff.mp rest e)
  refine State.chanStep_eq_none.mpr ⟨fun serves j mem waits => ?_, fun j served state => ?_⟩ <;> rw [kept.chan e other] at *
  · obtain ⟨i, mem', waits'⟩ := kept.waits j mem waits
    exact idle serves i mem' waits'
  · obtain ⟨i, served', same⟩ := kept.job e other j served
    exact copying i served' (same.trans state)

/-- With channel `c` at rest too, the Mover is. -/
theorem State.OthersKept.atRest (kept : s.OthersKept c u) (rest : s.moverAtRest) (own : u.chanStep c = none) : u.moverAtRest := by
  refine State.moverAtRest_iff.mpr (fun e => ?_)
  by_cases other : e = c
  · exact other ▸ own
  · exact kept.rest rest e other

/-- What is written of every job, but for its source, is written of the job a channel serves. -/
theorem Mover.jobOf_map {m m' : Mover} (serving : (m'.chan e).serving = (m.chan e).serving) (jobs : m'.jobs = m.jobs.map g)
    (source : ∀ j, (g j).source = j.source) : m'.jobOf e = (m.jobOf e).map g := by
  unfold Mover.jobOf
  rw [serving, jobs]
  cases (m.chan e).serving with
  | none => rfl
  | some b =>
    dsimp only
    rw [List.find?_map]
    simp only [Function.comp_def, source]

theorem State.OthersKept.of_map (chan : ∀ e, e ≠ c → u.mover.chan e = s.mover.chan e) (jobs : u.mover.jobs = s.mover.jobs.map g)
    (source : ∀ j, (g j).source = j.source) (state : ∀ j, (g j).state = j.state) : s.OthersKept c u where
  chan := chan
  waits j mem waits := by
    rw [jobs] at mem
    obtain ⟨i, mem', rfl⟩ := List.mem_map.mp mem
    exact ⟨i, mem', (state i).symm.trans waits⟩
  job e other j served := by
    rw [Mover.jobOf_map (congrArg Chan.serving (chan e other)) jobs source] at served
    obtain ⟨i, served', rfl⟩ := Option.map_eq_some_iff.mp served
    exact ⟨i, served', (state i).symm⟩

/-! ### Presenting the next burst (R138, R139) -/

/-- Channel `c` presents the request `q`, behind those presented before. -/
def Mover.present (c : ChanId) (q : BurstReq) (m : Mover) : Mover :=
  { m.modChan c (fun x => { x with req := some q }) with presented := m.presented ++ [c] }

theorem Mover.present_chan (c : ChanId) (q : BurstReq) (m : Mover) : (m.present c q).chan c = { m.chan c with req := some q } :=
  Mover.modChan_same c _ m

theorem State.chanStep_copying (job : u.mover.jobOf c = some i) (copying : i.state = .copying) (free : (u.mover.chan c).req = none) :
    u.chanStep c = some (u.proceed c i) := by
  obtain ⟨serves, -⟩ := Mover.serving_of_jobOf job
  rw [State.chanStep, serves, job]
  exact if_pos ⟨copying, free⟩

/-- The bytes read are written through the landing pool's home port (R138). -/
theorem State.proceed_presentsWrite (left : i.progress < i.length) (data : (u.mover.chan c).data ≠ [])
    (active : u.active (u.poolEntry i.landPool).home = true) :
    u.proceed c i = u.modMover (Mover.present c { write := true, port := (u.poolEntry i.landPool).home, slot := none }) := by
  rw [State.proceed, if_neg (not_le.mpr left), if_pos data, State.presentBurst, if_pos active]
  rfl

/-- With the burst store empty, the next bytes are read through the source pool's home port (R138). -/
theorem State.proceed_presentsRead (left : i.progress < i.length) (data : (u.mover.chan c).data = [])
    (active : u.active (u.poolEntry i.srcPool).home = true) :
    u.proceed c i = u.modMover (Mover.present c { write := false, port := (u.poolEntry i.srcPool).home, slot := none }) := by
  rw [State.proceed, if_neg (not_le.mpr left), if_neg (not_not.mpr data), State.presentBurst, if_pos active]
  rfl

/-- Presenting a burst is all of the turn. -/
theorem State.settle_present {q : BurstReq} (rest : s.moverAtRest) (chan : ∀ e, e ≠ c → u.mover.chan e = s.mover.chan e)
    (jobs : u.mover.jobs = s.mover.jobs.map g) (source : ∀ j, (g j).source = j.source) (state : ∀ j, (g j).state = j.state)
    (job : u.mover.jobOf c = some i) (copying : i.state = .copying) (free : (u.mover.chan c).req = none)
    (presents : u.proceed c i = u.modMover (Mover.present c q)) : u.settle = u.modMover (Mover.present c q) := by
  have move := State.chanStep_copying job copying free
  rw [presents] at move
  obtain ⟨serves, -⟩ := Mover.serving_of_jobOf job
  have presented : (u.modMover (Mover.present c q)).mover.chan c = { u.mover.chan c with req := some q } := Mover.present_chan c q u.mover
  have others : ∀ e, e ≠ c → (u.modMover (Mover.present c q)).mover.chan e = s.mover.chan e :=
    fun e other => (Mover.modChan_ne other _ u.mover).trans (chan e other)
  have jobs' : (u.modMover (Mover.present c q)).mover.jobs = s.mover.jobs.map g := (Mover.modChan_jobs c _ u.mover).trans jobs
  refine State.settle_one c move ((State.OthersKept.of_map chan jobs source state).rest rest)
    ((State.OthersKept.of_map others jobs' source state).atRest rest (State.chanStep_presented (b := i.source) ?_ ?_))
  · rw [presented]
    exact serves
  · rw [presented]
    nofun

/-! ### The end of a job (R144, R145) -/

/-- The jobs of source `b` gone, and channel `c` idle, with no request presented. -/
def Mover.ended (c : ChanId) (b : BufId) (m : Mover) : Mover :=
  { m.modChan c (fun _ => .idle) with jobs := m.jobs.filter (fun j => j.source != b), presented := m.presented.filter (· != c) }

/-- Nothing that was written of the channel is left. -/
theorem Mover.ended_modChan (f : Chan → Chan) (m : Mover) : (m.modChan c f).ended c b = m.ended c b := by
  fin_cases c <;> rfl

/-- Nor of the jobs that are gone. -/
theorem Mover.ended_modJob (source : ∀ j, (g j).source = j.source) (m : Mover) : (m.modJob b g).ended c b = m.ended c b := by
  have left : (m.jobs.map (fun j => if j.source = b then g j else j)).filter (fun j => j.source != b) =
      m.jobs.filter (fun j => j.source != b) := by
    induction m.jobs with
    | nil => rfl
    | cons j l ih => by_cases gone : j.source = b <;> simp [gone, source, ih]
  have jobs : (m.modJob b g).jobs.filter (fun j => j.source != b) = m.jobs.filter (fun j => j.source != b) := left
  unfold Mover.ended
  rw [jobs]
  fin_cases c <;> rfl

/-- A job found among those left is the one that was found before. -/
theorem jobs_find_of_filter {l : List Job} {a : BufId}
    (found : (l.filter (fun i => i.source != b)).find? (fun i => i.source == a) = some j) : l.find? (fun i => i.source == a) = some j := by
  obtain rfl : j.source = a := by simpa using List.find?_some found
  have stays : j.source ≠ b := by simpa using (List.mem_filter.mp (List.mem_of_find?_eq_some found)).2
  rw [← found, List.find?_filter]
  refine congrArg (fun q => l.find? q) (funext (fun i => ?_))
  by_cases same : i.source = j.source <;> simp [same, stays]

theorem State.OthersKept.of_ended (mover : u.mover = s.mover.ended c b) : s.OthersKept c u where
  chan e other := by
    rw [mover]
    exact Mover.modChan_ne other _ s.mover
  waits j mem waits := by
    rw [mover] at mem
    exact ⟨j, List.mem_of_mem_filter mem, waits⟩
  job e other j served := by
    obtain ⟨b', serves, found⟩ := Mover.jobOf_eq_some.mp served
    have chan : u.mover.chan e = s.mover.chan e := by
      rw [mover]
      exact Mover.modChan_ne other _ s.mover
    rw [chan] at serves
    rw [mover] at found
    exact ⟨j, Mover.jobOf_eq_some.mpr ⟨b', serves, jobs_find_of_filter found⟩, rfl⟩

/-- Where no job waits, the end of a job leaves the Mover at rest (R134). -/
theorem State.ended_atRest (rest : s.moverAtRest) (none_waits : ∀ i ∈ s.mover.jobs, i.state ≠ .waiting)
    (mover : u.mover = s.mover.ended c b) : u.moverAtRest := by
  refine (State.OthersKept.of_ended mover).atRest rest (State.chanStep_eq_none.mpr ?_)
  have chan : u.mover.chan c = .idle := by
    rw [mover]
    exact Mover.modChan_same c _ s.mover
  rw [chan]
  refine ⟨fun _ j mem => ?_, fun j job => ?_⟩
  · rw [mover] at mem
    exact none_waits j (List.mem_of_mem_filter mem)
  · obtain ⟨serves, -⟩ := Mover.serving_of_jobOf job
    rw [chan] at serves
    cases serves

end Sys2Proof.Machine
end

