-- ==== Sys2Proof/Proofs/BurstAnswers.lean ====
section
/-!
THEOREMS. The answers to a burst (R135, R138 to R141, R144): the bytes read are written, the bytes written move the job on, and at its
length the move succeeds.
-/
open Sys2Proof Sys2Proof.Machine

namespace Sys2Proof.Machine

variable {s u : State} {p d : PortId} {k : SlotId} {c : ChanId} {b : BufId} {a : Addr} {j : Job} {l : BufId} {f : Chan → Chan}

/-! ### The slot freed, and its channel written -/

/-- Slot `k` of port `p` FREE, its answer having come (R140, R141). -/
def State.freeSlot (p : PortId) (k : SlotId) (s : State) : State := s.modPort p (fun P => { P with slots := P.slots.set k none })

@[simp] theorem State.freeSlot_active : (s.freeSlot p k).active d = s.active d := State.port_active p _ s d (fun _ => rfl)

/-- A write of the channel that leaves the job it serves leaves it that job. -/
theorem Mover.jobOf_modChan {m : Mover} (serves : (f (m.chan c)).serving = (m.chan c).serving) : (m.modChan c f).jobOf c = m.jobOf c := by
  rw [Mover.jobOf, Mover.jobOf, Mover.modChan_same, serves, Mover.modChan_jobs]

/-! ### A burst read (R140) -/

/-- The channel whose read has brought `data`: it has no request, and the data in its burst store (R140). -/
def Chan.filled (data : List Byte) (x : Chan) : Chan := { x with req := none, data := data }

/-- The slot of that read freed, and its data in channel `c`'s burst store (R140). -/
def State.filled (p : PortId) (k : SlotId) (c : ChanId) (data : List Byte) (s : State) : State :=
  (s.freeSlot p k).modMover (Mover.modChan c (Chan.filled data))

/-- The row keeps the data as it came, where it is as long as the burst. -/
theorem exec_burstReadAck {n : Nat} {data : List Byte} (req : (s.port p).dataReq k = some (.burstRead c a n)) (whole : data.length = n) :
    exec (.burstReadResponse p k (.ack data)) s = .next (s.filled p k c data).settle := by
  have kept : (s.endBurst p k c).keepData c n data = s.filled p k c data := by
    subst whole
    rw [State.keepData, List.take_length]
    fin_cases c <;> rfl
  rw [← kept]
  exact congrArg _ (State.dataResponse_of req)

theorem exec_burstReadError {n : Nat} (req : (s.port p).dataReq k = some (.burstRead c a n)) :
    exec (.burstReadResponse p k .error) s = .next ((s.endBurst p k c).moveFail c .sourceError).settle :=
  congrArg _ (State.dataResponse_of req)

/-- The write of the bytes read is presented (R135, R138, R139). -/
theorem exec_burstRead_presents {n : Nat} {data : List Byte} (rest : s.moverAtRest) (job : s.mover.jobOf c = some j)
    (copying : j.state = .copying) (req : (s.port p).dataReq k = some (.burstRead c a n)) (whole : data.length = n) (some_data : 0 < n)
    (left : j.progress < j.length) (active : s.active (s.poolEntry j.landPool).home = true) :
    exec (.burstReadResponse p k (.ack data)) s = .next ((s.filled p k c data).modMover
      (Mover.present c { write := true, port := (s.poolEntry j.landPool).home, slot := none })) := by
  have chan : (s.mover.modChan c (Chan.filled data)).chan c = Chan.filled data (s.mover.chan c) := Mover.modChan_same c _ _
  have job' : (s.mover.modChan c (Chan.filled data)).jobOf c = some j := (Mover.jobOf_modChan rfl).trans job
  have nonempty : ((s.mover.modChan c (Chan.filled data)).chan c).data ≠ [] := by
    rw [chan]
    exact List.length_pos_iff.mp (whole ▸ some_data)
  have free : ((s.mover.modChan c (Chan.filled data)).chan c).req = none := congrArg Chan.req chan
  have presents := State.proceed_presentsWrite (u := s.filled p k c data) left nonempty
    (State.freeSlot_active.trans active)
  rw [exec_burstReadAck req whole, State.settle_present (g := id) rest (fun e other => Mover.modChan_ne other _ s.mover)
    ((Mover.modChan_jobs c _ s.mover).trans (List.map_id _).symm) (fun _ => rfl) (fun _ => rfl) job' copying free presents]
  rfl

/-! ### A burst written (R141) -/

/-- A job with the burst at its progress written (R141). -/
def Job.advanced (j : Job) : Job := { j with progress := j.progress + min 256 (j.length - j.progress) }

/-- The Mover with channel `c`'s burst written: the progress of its job, of source `b`, raised, and its burst store empty (R141). -/
def Mover.burstWritten (c : ChanId) (b : BufId) (m : Mover) : Mover := (m.modChan c (Chan.filled [])).modJob b Job.advanced

/-- The slot of that write freed, and the job of source `b` moved on by its burst (R141). -/
def State.written (p : PortId) (k : SlotId) (c : ChanId) (b : BufId) (s : State) : State :=
  (s.freeSlot p k).modMover (Mover.burstWritten c b)

theorem exec_burstWriteAck {bytes : List Byte} (job : s.mover.jobOf c = some j)
    (req : (s.port p).dataReq k = some (.burstWrite c a bytes)) :
    exec (.burstWriteResponse p k .ack) s = .next (s.written p k c j.source).settle := by
  have job' : (s.endBurst p k c).mover.jobOf c = some j := (Mover.jobOf_modChan rfl).trans job
  have written : (s.endBurst p k c).burstWritten c = s.written p k c j.source := by
    rw [State.burstWritten, job']
    fin_cases c <;> rfl
  rw [← written]
  exact congrArg _ (State.dataResponse_of req)

theorem exec_burstWriteError {bytes : List Byte} (req : (s.port p).dataReq k = some (.burstWrite c a bytes)) :
    exec (.burstWriteResponse p k .error) s = .next ((s.endBurst p k c).moveFail c .destError).settle :=
  congrArg _ (State.dataResponse_of req)

section Written
variable (c) (b) (m : Mover)

theorem Mover.burstWritten_chan : (m.burstWritten c b).chan c = Chan.filled [] (m.chan c) := Mover.modChan_same c _ m

theorem Mover.burstWritten_chan_ne {e : ChanId} (other : e ≠ c) : (m.burstWritten c b).chan e = m.chan e := Mover.modChan_ne other _ m

theorem Mover.burstWritten_jobs : (m.burstWritten c b).jobs = m.jobs.map (fun i => if i.source = b then i.advanced else i) :=
  congrArg (List.map _) (Mover.modChan_jobs c _ m)

/-- Raising the progress of the jobs of a source leaves each its source and its state. -/
theorem Job.advanced_source (j : Job) : (if j.source = b then j.advanced else j).source = j.source := by split <;> rfl

theorem Job.advanced_state (j : Job) : (if j.source = b then j.advanced else j).state = j.state := by split <;> rfl

end Written

theorem State.written_mover : (s.written p k c b).mover = s.mover.burstWritten c b := rfl

theorem Mover.burstWritten_jobOf {m : Mover} (job : m.jobOf c = some j) : (m.burstWritten c j.source).jobOf c = some j.advanced := by
  have serving : ((m.burstWritten c j.source).chan c).serving = (m.chan c).serving := by
    rw [Mover.burstWritten_chan]
    rfl
  rw [Mover.jobOf_map serving (Mover.burstWritten_jobs c j.source m)
    (Job.advanced_source j.source), job]
  exact congrArg some (if_pos rfl)

/-- Short of the length, the read of the next burst is presented (R135, R138, R139). -/
theorem exec_burstWrite_presents {bytes : List Byte} (rest : s.moverAtRest) (job : s.mover.jobOf c = some j)
    (copying : j.state = .copying) (req : (s.port p).dataReq k = some (.burstWrite c a bytes))
    (left : j.advanced.progress < j.length) (active : s.active (s.poolEntry j.srcPool).home = true) :
    exec (.burstWriteResponse p k .ack) s = .next ((s.written p k c j.source).modMover
      (Mover.present c { write := false, port := (s.poolEntry j.srcPool).home, slot := none })) := by
  have chan := Mover.burstWritten_chan c j.source s.mover
  have presents := State.proceed_presentsRead (u := s.written p k c j.source) (c := c) (i := j.advanced)
    left (congrArg Chan.data chan) (State.freeSlot_active.trans active)
  rw [exec_burstWriteAck job req, State.settle_present rest (fun e other => Mover.burstWritten_chan_ne c j.source s.mover other)
    (Mover.burstWritten_jobs c j.source s.mover) (Job.advanced_source j.source) (Job.advanced_state j.source)
    (i := j.advanced) (Mover.burstWritten_jobOf job) copying (congrArg Chan.req chan) presents]
  rfl

/-! ### The move succeeds (R144) -/

/-- The DELIVERY item of job `j`'s landing buffer `l`, as the move ends (R144). -/
def State.landingDelivery (j : Job) (l : BufId) (u : State) : Item :=
  { kind := .delivery j.length j.tag, buf := l, gen := (u.record l).gen, source := j.sender, delivering := false }

/-- What the success of job `j` makes of `u`, the Mover apart: the source FREE, the landing buffer `l` QUEUED with its DELIVERY, and the
SEND ended (R144). -/
def State.moved (j : Job) (l : BufId) (u : State) : State :=
  ((({ ((u.modRecord j.source Record.enterFree).modPool (u.poolOf j.source) (fun x =>
      { x with free := x.free ++ [j.source], charge := x.charge.set j.sender (x.charge.get j.sender - 1) })).modRecord l (fun x =>
    { x with custody := .queued j.sender j.dest, length := j.length, tag := j.tag }) with
      destRes := removeFirst (fun x => x.buf == j.source) u.destRes } : State).modPort j.dest (fun P =>
    { P with inbox := (P.inbox.release .send j.source).push j.lane (u.landingDelivery j l) }.arrPresent false)).modPort j.sender
      (Port.endCommand (CmdRec.isWaiting .send j.source)
        { code := .ok, handle := some (handleWord j.source ((u.record j.source).gen + 1)), detail := .zero }))

theorem State.moved_eq (landing : j.landing = some l) (waiting : (u.pool (u.poolOf j.source)).waiting = []) (apart : l ≠ j.source)
    (inRange : j.source < u.records.length) : ((((u.freeFrom j.source j.sender).queueLanding j).convertDest j.source).endWaiting
      j.sender .send j.source .ok .zero) = u.moved j l := by
  have freed : u.freeFrom j.source j.sender = (u.modRecord j.source Record.enterFree).modPool (u.poolOf j.source) (fun x =>
      { x with free := x.free ++ [j.source], charge := x.charge.set j.sender (x.charge.get j.sender - 1) }) :=
    State.freeFrom_modMover (f := id) rfl waiting
  generalize queued : (u.freeFrom j.source j.sender).toQueued l j.sender j.dest j.length j.tag = w
  have landGen : (w.record l).gen = (u.record l).gen := by
    rw [← queued, freed, State.toQueued, State.modRecord_record]
    split <;> rw [State.modPool_record, State.modRecord_record, if_neg (fun h => apart h.1)]
  have sourceGen : (w.record j.source).gen = (u.record j.source).gen + 1 := by
    rw [← queued, freed, State.toQueued, State.modRecord_record, if_neg (fun h => apart h.1.symm), State.modPool_record,
      State.modRecord_record, if_pos ⟨rfl, inRange⟩]
    rfl
  rw [State.queueLanding, landing]
  dsimp only
  rw [queued, State.endWaiting_gen (u := (w.deliver j.source l j.sender j.dest j.lane j.length j.tag).convertDest j.source) sourceGen,
    State.deliver, landGen, ← queued, freed]
  rfl

/-- At its length the job succeeds (R135, R144). -/
theorem exec_burstWrite_succeeds {bytes : List Byte} (rest : s.moverAtRest) (none_waits : ∀ i ∈ s.mover.jobs, i.state ≠ .waiting)
    (job : s.mover.jobOf c = some j) (copying : j.state = .copying) (landing : j.landing = some l)
    (req : (s.port p).dataReq k = some (.burstWrite c a bytes)) (done : j.advanced.length ≤ j.advanced.progress)
    (waiting : (s.pool (s.poolOf j.source)).waiting = []) (apart : l ≠ j.source) (inRange : j.source < s.records.length) :
    exec (.burstWriteResponse p k .ack) s = .next (((s.freeSlot p k).modMover (Mover.ended c j.source)).moved j l) := by
  have job' := Mover.burstWritten_jobOf job
  have free : ((s.mover.burstWritten c j.source).chan c).req = none := congrArg Chan.req (Mover.burstWritten_chan c j.source s.mover)
  have ended : (s.mover.burstWritten c j.source).ended c j.source = s.mover.ended c j.source := by
    rw [Mover.burstWritten, Mover.ended_modJob (g := Job.advanced) (fun _ => rfl), Mover.ended_modChan]
  have dropped : (s.written p k c j.source).dropJob c j.source =
      (s.freeSlot p k).modMover (Mover.ended c j.source) :=
    congrArg (fun m => { s.freeSlot p k with mover := m }) ended
  have succeeds : (s.written p k c j.source).proceed c j.advanced =
      ((s.freeSlot p k).modMover (Mover.ended c j.source)).moved j l := by
    rw [State.proceed, if_pos done, State.moveSucceed, State.written_mover, job']
    dsimp only [Job.advanced]
    rw [dropped]
    exact State.moved_eq (u := (s.freeSlot p k).modMover (Mover.ended c j.source)) landing waiting apart inRange
  have move := State.chanStep_copying (u := s.written p k c j.source) job' copying free
  rw [succeeds] at move
  have kept : s.OthersKept c (s.written p k c j.source) :=
    .of_map (fun e other => Mover.burstWritten_chan_ne c j.source s.mover other) (Mover.burstWritten_jobs c j.source s.mover)
      (Job.advanced_source j.source) (Job.advanced_state j.source)
  rw [exec_burstWriteAck job req, State.settle_one c move (kept.rest rest) (State.ended_atRest rest none_waits rfl)]

end Sys2Proof.Machine

/-- Settles O52: each answer leaves its channel one move, the presenting of the next burst or the success of the move. -/
theorem answeredBurstMovesTheJobOn : Obligations.AnsweredBurstMovesTheJobOn := by
  unfold Obligations.AnsweredBurstMovesTheJobOn
  intro s p k c a j l rest job copying landing presented freed progress delivery
  refine ⟨fun n data req whole some_data left active => ?_, fun bytes req left active => ?_,
    fun bytes req done none_waits waiting apart inRange => ?_⟩
  · rw [exec_burstRead_presents rest job copying req whole some_data left active]
    fin_cases c <;> rfl
  · rw [exec_burstWrite_presents rest job copying req left active]
    fin_cases c <;> rfl
  · exact exec_burstWrite_succeeds rest none_waits job copying landing req done waiting apart inRange
end

