-- ==== Sys2Proof/Proofs/FailedMoves.lean ====
section
/-!
THEOREMS. A move that fails (R137, R140, R141, R145): the job's place and its channel free, every reservation of its SEND released, the
source HELD by the sender again.
-/
open Sys2Proof Sys2Proof.Machine

namespace Sys2Proof.Machine

variable {s u : State} {d h : PortId} {c : ChanId} {b l : BufId} {j : Job} {f : Chan → Chan} {before after : List DestReservation}
  {r : DestReservation} {x : Record} {reason : MoveReason}

/-! ### What a failure undoes (R145) -/

/-- What the failure of job `j` leaves of `u`, the Mover and the landing buffer apart: the destination reservation `r` closed, those of
`left` still open, the inbox reservation released, the source HELD by `h`, and the SEND ended with the source's generation `g` in its handle. -/
def State.moveUndone (j : Job) (h : PortId) (g : Byte) (r : DestReservation) (left : List DestReservation) (reason : MoveReason)
    (u : State) : State :=
  ((({ u.modPool r.pool (fun x => { x with charge := x.charge.set r.port (x.charge.get r.port - 1) }) with
      destRes := left } : State).modPort j.dest (Port.modInbox (Inbox.release .send j.source))).setCustody j.source (.heldPlain h)).modPort
    j.sender (Port.endCommand (CmdRec.isWaiting .send j.source)
      { code := .moveFailed, handle := some (handleWord j.source g), detail := .move reason })

/-- The first destination reservation of the SEND closes, and its charge falls (R32, R33). -/
theorem State.closeDest_append (dest : u.destRes = before ++ r :: after) (first : ∀ y ∈ before, y.buf ≠ b) (own : r.buf = b) :
    u.closeDest b = { u.chargeDown r.port r.pool with destRes := before ++ after } := by
  have taken : extractFirst (fun y : DestReservation => y.buf == b) u.destRes = some (r, before ++ after) := by
    rw [dest]
    exact extractFirst_append _ before r after (fun y mem => by simpa using first y mem) (by simpa using own)
  rw [State.closeDest, taken]

theorem State.moveUndone_eq (dest : u.destRes = before ++ r :: after) (first : ∀ y ∈ before, y.buf ≠ j.source)
    (own : r.buf = j.source) (source : (u.record j.source).custody = .source h d false) :
    (((u.closeDest j.source).releaseRes j.dest .send j.source).sourceBack j.source).endWaiting j.sender .send j.source .moveFailed
      (.move reason) = u.moveUndone j h (u.record j.source).gen r (before ++ after) reason := by
  generalize released : (u.closeDest j.source).releaseRes j.dest .send j.source = w
  have record : w.record j.source = u.record j.source := by
    rw [← released, State.closeDest_append dest first own]
    rfl
  have back : w.sourceBack j.source = w.setCustody j.source (.heldPlain h) := by
    rw [State.sourceBack, record, source]
    exact if_neg Bool.false_ne_true
  rw [back, State.endWaiting_gen ((State.setCustody_gen ..).trans (congrArg Record.gen record)), ← released,
    State.closeDest_append dest first own]
  rfl

/-- The landing buffer of a job that failed enters its free list (R145). -/
theorem State.freeLanding_plain (waiting : (u.pool (u.poolOf l)).waiting = []) : u.freeLanding (some l) =
    (u.modRecord l Record.enterFree).modPool (u.poolOf l) (fun y => { y with free := y.free ++ [l] }) :=
  State.enterFreeList_plain waiting

/-! ### The turn after it -/

/-- A job on channel `c` whose source, sent by `h`, is to be HELD again when it fails, with `r` the first destination reservation of its
SEND, and no job WAITING for the channel. -/
structure FailingMove (s : State) (c : ChanId) (j : Job) (h d : PortId) (before after : List DestReservation) (r : DestReservation)
    (x : Record) : Prop where
  rest : s.moverAtRest
  job : s.mover.jobOf c = some j
  none_waits : ∀ i ∈ s.mover.jobs, i.state ≠ .waiting
  there : s.records[j.source]? = some x
  source : x.custody = .source h d false
  dest : s.destRes = before ++ r :: after
  first : ∀ y ∈ before, y.buf ≠ j.source
  own : r.buf = j.source

namespace FailingMove
variable (F : FailingMove s c j h d before after r x)
include F

theorem record : s.record j.source = x := by rw [State.record, List.getD_eq_getElem?_getD, F.there, Option.getD_some]

/-- The failure of the job, its channel written before by `f`, and the Mover's turn, which then has nothing to do. `u` is the state before,
and `v` that state with the landing buffer, if there is one, in its free list. -/
theorem fails {u v : State} (mover : u.mover = s.mover) (serves : (f (s.mover.chan c)).serving = (s.mover.chan c).serving)
    (returned : (u.modMover (Mover.ended c j.source)).freeLanding j.landing = v.modMover (Mover.ended c j.source))
    (mover' : v.mover = s.mover) (dest : v.destRes = s.destRes) (record : v.record j.source = s.record j.source) :
    ((u.modMover (Mover.modChan c f)).moveFail c reason).settle =
      (v.modMover (Mover.ended c j.source)).moveUndone j h x.gen r (before ++ after) reason := by
  have job : (u.modMover (Mover.modChan c f)).mover.jobOf c = some j := by
    rw [State.modMover_mover, mover, Mover.jobOf_modChan serves, F.job]
  have dropped : (u.modMover (Mover.modChan c f)).dropJob c j.source = u.modMover (Mover.ended c j.source) :=
    congrArg (fun m => { u with mover := m }) (Mover.ended_modChan f u.mover)
  have record' : (v.modMover (Mover.ended c j.source)).record j.source = x := record.trans F.record
  have undone := State.moveUndone_eq (u := v.modMover (Mover.ended c j.source)) (j := j) (h := h) (d := d) (reason := reason)
    (dest.trans F.dest) F.first F.own (by rw [record']; exact F.source)
  rw [record'] at undone
  rw [State.moveFail, job]
  dsimp only
  rw [dropped, returned, undone]
  refine State.settle_rest (State.ended_atRest (c := c) (b := j.source) F.rest F.none_waits ?_)
  show v.mover.ended c j.source = _
  rw [mover']

/-- An ERROR to a burst: the landing buffer is given back as well (R140, R141). -/
theorem burstFails (landing : j.landing = some l) (apart : l ≠ j.source) (waiting : (s.pool (s.poolOf l)).waiting = []) (p : PortId)
    (k : SlotId) (reason : MoveReason) : ((s.endBurst p k c).moveFail c reason).settle =
      ((((s.freeSlot p k).modRecord l Record.enterFree).modPool (s.poolOf l) (fun y => { y with free := y.free ++ [l] })).modMover
        (Mover.ended c j.source)).moveUndone j h x.gen r (before ++ after) reason := by
  refine F.fails (u := s.freeSlot p k) (f := fun x => { x with req := none }) rfl rfl ?_ rfl rfl ?_
  · rw [landing]
    exact State.freeLanding_plain (u := (s.freeSlot p k).modMover (Mover.ended c j.source)) waiting
  · rw [State.modPool_record, State.modRecord_record, if_neg (fun e => apart e.1.symm)]
    rfl

/-- The end of a landing wait: the channel no longer waits on the pool (R137). -/
theorem waitFails {t : Nat} (landing : j.landing = none) (deadline : (s.mover.chan c).deadline = some t) :
    exec (.landingWaitExpiry c) s = .next (if t ≤ s.now then
      ((s.leaveWaiting c).modMover (Mover.ended c j.source)).moveUndone j h x.gen r (before ++ after) .noLanding else s) := by
  have due : s.mover.landingDue s.now c = decide (t ≤ s.now) := by rw [Mover.landingDue, deadline]
  show execLandingWaitExpiry c s = _
  rw [execLandingWaitExpiry, due]
  by_cases passed : t ≤ s.now
  · have failed := F.fails (u := s.leaveWaiting c) (v := s.leaveWaiting c) (f := fun x => { x with deadline := none })
      (reason := .noLanding) rfl rfl (by rw [landing]; rfl) rfl rfl rfl
    rw [if_pos passed, if_pos (decide_eq_true passed), failed]
  · rw [if_neg passed, if_neg (by simpa using passed)]

end FailingMove

end Sys2Proof.Machine

/-- Settles O53: the failure of the job undoes its SEND, and as no job waits the Mover's turn has nothing to do. -/
theorem failedMoveIsUndone : Obligations.FailedMoveIsUndone := by
  unfold Obligations.FailedMoveIsUndone
  intro s c j h d before after r x rest job none_waits there source dest first own undone
  have F : FailingMove s c j h d before after r x := ⟨rest, job, none_waits, there, source, dest, first, own⟩
  refine ⟨fun l p k a landing apart waiting => ⟨fun n req => ?_, fun bytes req => ?_⟩,
    fun t landing deadline => F.waitFails landing deadline⟩
  · rw [exec_burstReadError req, F.burstFails landing apart waiting]
    rfl
  · rw [exec_burstWriteError req, F.burstFails landing apart waiting]
    rfl
end

