-- ==== Sys2Proof/Proofs/QuietPorts.lean ====
section
/-!
THEOREMS. A port that is DOWN or FENCED stays quiet along a step (R161, R62, R63, R109, R110).
-/
open Sys2Proof Sys2Proof.Machine

namespace Sys2Proof.Machine

variable {I : Port → Prop} {J : YieldUnit → Prop} {s t : State}

/-! ### A property of every port along a row -/

/-- The passage to READY, on every port: its part of R9 and R162, and MAP_DONE where it is present (R11). -/
theorem State.mapReady_keepsPorts (raise : ∀ e P, I P → I (P.raise e)) (ready : ∀ now e P, I P → I (P.atReady now e))
    (h : ∀ p, I (s.port p)) (m : CustodyMap) (p : PortId) : I ((s.mapReady m).port p) := by
  unfold State.mapReady
  rw [State.mapPorts_port]
  dsimp only
  split
  · exact raise _ _ (ready _ _ _ (h p))
  · exact ready _ _ _ (h p)

/-- A refused map raises MAP_DONE on every port and no more (R11). -/
theorem State.mapFailed_keepsPorts (raise : ∀ e P, I P → I (P.raise e)) (h : ∀ p, I (s.port p)) (r : FailReason) (p : PortId) :
    I ((s.mapFailed r).port p) := by
  unfold State.mapFailed
  rw [State.mapPorts_port]
  exact raise _ _ (h p)

/-- A property of ports that outlasts every operation of a command, the passage to READY among them, and holds after device reset, is one
that every row keeps on all four ports. -/
theorem exec_keepsPorts (K : Kept I J) (reset : I .reset) (ready : ∀ now e P, I P → I (P.atReady now e)) {c : Instr}
    (he : exec c s = .next t) (h : ∀ p, I (s.port p)) (p : PortId) : I (t.port p) := by
  by_cases hr : c = .deviceReset
  · subst hr
    cases he
    show I ((Four.fill Port.reset).get p)
    rw [Four.get_fill]
    exact reset
  by_cases hm : ∃ rom, c = .mapLoadEnd rom
  · obtain ⟨rom, rfl⟩ := hm
    cases he
    split
    · by_cases accepted : loadReason (romClocked rom) = .none
      · rw [State.endLoad_accepted s accepted]
        exact State.mapReady_keepsPorts K.raise ready h _ p
      · rw [State.endLoad_refused s accepted]
        exact State.mapFailed_keepsPorts K.raise h _ p
    · exact h p
  · obtain ⟨t', ht', writes⟩ := exec_kept K c s hr (fun rom e => hm ⟨rom, e⟩)
    rw [he] at ht'
    cases ht'
    exact writes.keepsPorts h p

/-! ### Quiet (R161) -/

/-- A port after device reset is DOWN and quiet (R177). -/
theorem Port.quiet_deviceReset : Port.reset.quiet := by
  simp [Port.quiet, Port.reset, CmdProc.reset, ArrProc.reset]

/-- The passage to READY starts intervals of SUSPENDED processes only (R9), so it does not touch a quiet port's. -/
theorem Port.keepsQuiet_atReady (now : Nat) (e : PortEntry) (P : Port) (h : P.quietUnlessActive) : (P.atReady now e).quietUnlessActive := by
  rw [Port.atReady_eq]
  intro inactive
  have quiet : P.quiet := h inactive
  obtain ⟨-, cmdStopped, -, -, -, -, -, arrStopped, -⟩ := h inactive
  exact Port.quiet_of P _ quiet rfl (if_neg (by simp [cmdStopped])) (if_neg (by simp [arrStopped]))

end Sys2Proof.Machine

/-- Settles O56: each operation that a row makes on a port keeps a port that is not ACTIVE quiet (`keptQuiet`), device reset makes it so, and
the passage to READY changes nothing of a process that is STOPPED. -/
theorem stepKeepsInactivePortsQuiet : Obligations.StepKeepsInactivePortsQuiet := by
  intro s t h hstep
  obtain ⟨-, rfl⟩ | ⟨c, rest, -, hc⟩ := step_cases hstep
  · exact h
  · exact exec_keepsPorts keptQuiet (fun _ => Port.quiet_deviceReset) Port.keepsQuiet_atReady (s := { s with pending := rest }) hc h
end

