-- ==== Sys2Proof/Proofs/PortWindow.lean ====
section
/-!
THEOREMS. The port window apart from the processes' starts and stops: ENABLE (R149, R150), what a FENCED port refuses (R150, R152), poll
demands (R53, R105, R154), EVENTS, MASK and the attention line (R155, R157, R158), and bad accesses (R151, R166).
-/
open Sys2Proof Sys2Proof.Machine

namespace Sys2Proof

/-! ### Bad accesses (R151, R166) -/

/-- The place an access falls in begins at the multiple of 4 at or below its offset. -/
theorem WindowAccess.place_toNat (a : WindowAccess) : a.place.toNat = 4 * (a.offset.toNat / 4) := by
  have every : ∀ o : BitVec 6, (o &&& 0x3C).toNat = 4 * (o.toNat / 4) := by decide
  exact every a.offset

theorem WindowAccess.place_zeroExtend (a : WindowAccess) : a.place.zeroExtend 40 = BitVec.ofNat 40 (4 * (a.offset.toNat / 4)) := by
  rw [← a.place_toNat]
  exact BitVec.eq_of_toNat_eq (by simp)

theorem WindowAccess.bad_iff (a : WindowAccess) : a.bad = true ↔
    a.bits ≠ 32 ∨ a.offset.toNat % 4 ≠ 0 ∨ a.offset = 0x34 ∨ a.offset = 0x38 ∨ a.offset = 0x3C ∨
      (a.write ≠ none ∧ (a.offset = 0x04 ∨ a.offset = 0x2C ∨ a.offset = 0x30)) := by
  have isPlace : ∀ n : BitVec 6, a.offset.toNat = n.toNat ↔ a.offset = n := fun n => BitVec.toNat_inj
  simp only [WindowAccess.bad, Bool.or_eq_true, Bool.and_eq_true, bne_iff_ne, beq_iff_eq, Option.isSome_iff_ne_none, or_assoc,
    ← isPlace]
  rfl

end Sys2Proof

namespace Sys2Proof.Machine

variable {s : State} {p : PortId} {P : Port} {w : Word}

/-! ### ENABLE (R149, R150) -/

/-- Step 3 of a CONTROL write with ENABLE leaves a port ACTIVE that is not FENCED. -/
theorem Port.stateEnabled_enable (enable : ctlEnable w = true) (unfenced : P.state ≠ .fenced) : P.stateEnabled w = .active := by
  unfold Port.stateEnabled
  cases state : P.state with
  | down => simp [enable]
  | active => simp
  | fenced => exact absurd state unfenced

/-! ### What a FENCED port refuses (R150, R152) -/

theorem State.controlWrite_fenced (reset : ctlReset w = false) (fenced : (s.port p).state = .fenced) :
    s.controlWrite p w = s.modPort p (Port.recordFault .windowRefused 0x00) := by
  simp only [State.controlWrite, reset, State.fenced, fenced, Bool.false_eq_true, if_false, beq_self_eq_true, if_true]
  rfl

theorem Port.pollWrite_fenced (fenced : P.state = .fenced) : P.pollWrite w = P.recordFault .windowRefused 0x10 := if_pos fenced

theorem Port.writeFault_fenced (fenced : P.state = .fenced) : P.writeFault = P.recordFault .windowRefused 0x28 := if_pos fenced

/-- No ring of a FENCED port is open to a write (R44, R99). -/
theorem Port.ring_shut (fenced : P.state = .fenced) (stopped : Prop) : ¬(stopped ∧ P.state ≠ .fenced) := fun ring => ring.2 fenced

/-! ### Poll demands (R53, R105, R154) -/

/-- A demand of a Command Process in another state than SUSPENDED is ignored. -/
theorem Port.cmdWake_other (state : P.cmd.state ≠ .suspended) (auto : Bool) : P.cmdWake auto = P := if_neg state

/-- A demand of an Arrival Process in another state than SUSPENDED is ignored. -/
theorem Port.arrWake_other (state : P.arr.state ≠ .suspended) (auto : Bool) : P.arrWake auto = P := if_neg state

/-- What the command demand of a POLL write makes of the port, set or clear. -/
theorem Port.cmdDemand_eq (demand : Bool) (P : Port) : (if demand then P.cmdWake false else P) = { P with
    cmd := if demand = true ∧ P.cmd.state = .suspended then
      { P.cmd with state := .running, deadline := none, load := P.cmd.nextLoad false } else P.cmd } := by
  cases demand with
  | false => simp
  | true =>
    by_cases state : P.cmd.state = .suspended
    · simp [state, Port.cmdWake_suspended state]
    · simp [state, Port.cmdWake_other state]

/-- What the arrival demand of a POLL write makes of the port, set or clear. -/
theorem Port.arrDemand_eq (demand : Bool) (P : Port) : (if demand then P.arrWake false else P) = { P with
    arr := if demand = true ∧ P.arr.state = .suspended then
      { P.arr with state := .running, deadline := none, load := P.arr.nextLoad false P.inbox } else P.arr } := by
  cases demand with
  | false => simp
  | true =>
    by_cases state : P.arr.state = .suspended
    · simp [state, Port.arrWake_suspended state]
    · simp [state, Port.arrWake_other state]

/-- A write to POLL on a port that is not FENCED makes both demands, each on its own process. -/
theorem Port.pollWrite_demands (unfenced : P.state ≠ .fenced) : P.pollWrite w = { P with
    cmd := if pollCmd w = true ∧ P.cmd.state = .suspended then
      { P.cmd with state := .running, deadline := none, load := P.cmd.nextLoad false } else P.cmd
    arr := if pollArr w = true ∧ P.arr.state = .suspended then
      { P.arr with state := .running, deadline := none, load := P.arr.nextLoad false P.inbox } else P.arr } := by
  rw [Port.pollWrite, if_neg unfenced]
  dsimp only
  rw [Port.cmdDemand_eq, Port.arrDemand_eq]

/-- Either demand's row is the write of the whole register (R154, log 5). -/
theorem exec_pollDemand {c : Instr} (row : c = .commandPollDemand p w ∨ c = .arrivalPollDemand p w) :
    exec c s = .next (s.modPort p (Port.pollWrite w)) := by
  rcases row with rfl | rfl <;> rfl

/-! ### The attention line (R157, R158) -/

/-- While a release runs the line is not asserted. -/
theorem Port.attnAsserted_released {ends : Nat} (release : P.attnRelease = some ends) : P.attnAsserted = false := by
  simp [Port.attnAsserted, release]

/-- With no release running the line is asserted exactly if a flag is set and enabled. -/
theorem Port.attnAsserted_free (release : P.attnRelease = none) : P.attnAsserted = (P.events &&& P.mask != 0) := by
  simp [Port.attnAsserted, Port.flagged, release]

theorem Port.endRelease_due {ends now : Nat} (release : P.attnRelease = some ends) (due : ends ≤ now) :
    P.endRelease now = { P with attnRelease := none } := by
  simp only [Port.endRelease, release, due, if_true]

/-! ### The record of a bad access (R151, R166) -/

theorem State.windowAccess_bad {a : WindowAccess} (bad : a.bad = true) :
    s.windowAccess p a = s.modPort p (Port.recordFault .badWindow (BitVec.ofNat 40 (4 * (a.offset.toNat / 4)))) := by
  rw [State.windowAccess, if_pos bad, a.place_zeroExtend]

end Sys2Proof.Machine

/-- Settles O8: neither run field asks anything, so the write is step 3's. -/
theorem enableMakesADownPortActive : Obligations.EnableMakesADownPortActive := by
  unfold Obligations.EnableMakesADownPortActive
  intro s p w enable reset unfenced cmdSame arrSame live
  refine next_arrivalControlWrite reset unfenced cmdSame live ?_
  rw [Port.arrRunField_same (by exact arrSame), Port.stateEnabled_enable enable unfenced]

/-- Settles O9: CONTROL, POLL and FAULT refuse at once, and each ring register, a half of 24h among them, finds its ring not open. -/
theorem fencedPortRefusesWrites : Obligations.FencedPortRefusesWrites := by
  unfold Obligations.FencedPortRefusesWrites
  intro s p w fenced refused
  refine ⟨fun reset => ?_, next_modPort (Port.pollWrite_fenced fenced), next_modPort (Port.pollWrite_fenced fenced),
    next_modPort ?_, next_modPort ?_, next_modPort ?_, next_modPort ?_, fun changed same => next_modPort ?_,
    fun same changed => next_modPort ?_, next_modPort (Port.writeFault_fenced fenced)⟩
  · have control : (.next (s.controlWrite p w) : Host.Outcome State Fault Refusal) = refused 0x00 :=
      congrArg _ (State.controlWrite_fenced reset fenced)
    exact ⟨control, control, control, control, control⟩
  · exact Port.writeCringLo_eq.trans (if_neg (Port.ring_shut fenced _))
  · exact Port.writeCringSize_eq.trans (if_neg (fun ring => Port.ring_shut fenced _ ring.1))
  · exact Port.writeAringLo_eq.trans (if_neg (Port.ring_shut fenced _))
  · exact Port.writeAringSize_eq.trans (if_neg (fun ring => Port.ring_shut fenced _ ring.1))
  · have command := (Port.writeCringHi_changed changed).trans (if_neg (Port.ring_shut fenced _))
    exact (congrArg _ command).trans (Port.writeAringHi_same same)
  · have arrival := (Port.writeAringHi_changed changed).trans (if_neg (Port.ring_shut fenced _))
    exact (congrArg _ (Port.writeCringHi_same same)).trans arrival

/-- Settles O12: either row is the POLL write, which a FENCED port refuses and any other answers by its two demands. -/
theorem pollDemandsWakeSuspendedProcesses : Obligations.PollDemandsWakeSuspendedProcesses := by
  unfold Obligations.PollDemandsWakeSuspendedProcesses
  intro s p w c row
  rw [exec_pollDemand row]
  exact ⟨rfl, fun fenced => next_modPort (Port.pollWrite_fenced fenced), fun unfenced => next_modPort (Port.pollWrite_demands unfenced)⟩

/-- Settles O14: each write by its release, and the line by whether a release runs. -/
theorem eventsMaskAndTheAttentionLine : Obligations.EventsMaskAndTheAttentionLine := by
  unfold Obligations.EventsMaskAndTheAttentionLine
  intro s p w P release cleared enables
  refine ⟨next_modPort rfl, next_modPort rfl, fun ends running => ⟨Port.attnAsserted_released running, fun due => ?_⟩⟩
  refine ⟨_, rfl, State.modPort_congr (Port.endRelease_due running due), ?_⟩
  rw [State.modPort_port_same, Port.endRelease_due running due]
  exact Port.attnAsserted_free rfl

/-- Settles O16: each of the six is a bad access, recorded at its place. -/
theorem badAccessOnlyRecordsAFault : Obligations.BadAccessOnlyRecordsAFault := by
  unfold Obligations.BadAccessOnlyRecordsAFault
  intro s p a bad
  exact congrArg _ (State.windowAccess_bad (a.bad_iff.mpr bad))
end

