-- ==== Sys2Proof/Proofs/Arbiter.lean ====
section
/-!
THEOREMS. Which source the arbiter grants, and the rotation that a grant leaves (R161, R162).
-/
open Sys2Proof Sys2Proof.Machine

namespace Sys2Proof.Machine

variable {s t : State} {p : PortId} {k : SlotId} {x : Source}

/-! ### The source granted (R161, R162) -/

/-- Nothing is granted on a port that is not ACTIVE, or into a slot that is not FREE. -/
theorem State.granted_shut (shut : ¬((s.port p).state = .active ∧ (s.port p).slots.get k = none)) : s.granted p k = none :=
  if_neg (fun ⟨active, free⟩ => shut ⟨State.active_state active, free⟩)

/-- On an ACTIVE port and into a FREE slot the grant goes to the first source of the order that presents. -/
theorem State.granted_open (active : (s.port p).state = .active) (free : (s.port p).slots.get k = none) :
    s.granted p k = (s.grantOrder p).find? (s.presents p) :=
  if_pos ⟨by simp [State.active, active], free⟩

/-- With nothing presented there is nothing to grant. -/
theorem State.granted_idle (idle : ∀ x, s.presents p x = false) : s.granted p k = none := by
  unfold State.granted
  split
  · exact List.find?_eq_none.mpr (fun x _ => by simp [idle x])
  · rfl

theorem State.grantOrder_fixed (mode : s.theMap.arbMode = .fixed) : s.grantOrder p = [.yield, .record, .move] := by
  rw [State.grantOrder, mode]
  rfl

theorem State.grantOrder_rotating (mode : s.theMap.arbMode = .rotating) : s.grantOrder p = (s.port p).rotation := by
  rw [State.grantOrder, mode]

/-- The first of the three sources in the FIXED order. -/
theorem find?_sources (q : Source → Bool) : [Source.yield, .record, .move].find? q =
    if q .yield then some .yield else if q .record then some .record else if q .move then some .move else none := by
  cases hy : q .yield <;> cases hr : q .record <;> cases hm : q .move <;> simp [hy, hr, hm]

/-! ### The rotation after a grant (R162) -/

@[simp] theorem Port.issueCmd_rotation (k : SlotId) (d : Nat) (P : Port) : (P.issueCmd k d).rotation = P.rotation := by
  unfold Port.issueCmd
  split <;> rfl

@[simp] theorem Port.issueArr_rotation (k : SlotId) (d : Nat) (P : Port) : (P.issueArr k d).rotation = P.rotation := by
  unfold Port.issueArr
  split
  · rfl
  · split <;> rfl
  · rfl

@[simp] theorem Port.issueRecord_rotation (k : SlotId) (d : Nat) (P : Port) : (P.issueRecord k d).rotation = P.rotation := by
  unfold Port.issueRecord
  split
  · exact Port.issueCmd_rotation k d P
  · exact Port.issueArr_rotation k d P
  · rfl

/-- What the issuing of a request leaves for the rotation to act on: the map, and the port's list of sources. -/
structure State.SameOrder (p : PortId) (s t : State) : Prop where
  map : t.theMap = s.theMap
  rotation : (t.port p).rotation = (s.port p).rotation

theorem State.SameOrder.refl (p : PortId) (s : State) : State.SameOrder p s s := ⟨rfl, rfl⟩

theorem State.SameOrder.modPort (same : State.SameOrder p s t) {f : Port → Port} (rotation : ∀ P, (f P).rotation = P.rotation) :
    State.SameOrder p s (t.modPort p f) :=
  ⟨same.map, by rw [State.modPort_port_same, rotation, same.rotation]⟩

theorem State.SameOrder.modYields (same : State.SameOrder p s t) (f : YieldUnit → YieldUnit) : State.SameOrder p s (t.modYields f) :=
  ⟨same.map, same.rotation⟩

theorem State.SameOrder.modMover (same : State.SameOrder p s t) (f : Mover → Mover) : State.SameOrder p s (t.modMover f) :=
  ⟨same.map, same.rotation⟩

theorem State.sameOrder_issueYield (p : PortId) (k : SlotId) (s : State) : State.SameOrder p s (s.issueYield p k) := by
  unfold State.issueYield
  split
  · exact ((State.SameOrder.refl p s).modYields _).modPort (Port.issue_rotation k _ _)
  · exact .refl p s

theorem State.sameOrder_issueBurst (p : PortId) (k : SlotId) (s : State) : State.SameOrder p s (s.issueBurst p k) := by
  unfold State.issueBurst
  split
  · split
    · exact ((State.SameOrder.refl p s).modMover _).modPort (Port.issue_rotation k _ _)
    · exact .refl p s
  · exact .refl p s

/-- The list after the rotation, in the mode and from the list as the grant found them. -/
theorem State.rotate_rotation (same : State.SameOrder p s t) (x : Source) :
    ((t.rotate p x).port p).rotation = s.rotated x (s.port p).rotation := by
  rw [State.rotate_eq, State.modPort_port_same]
  show t.rotated x (t.port p).rotation = _
  rw [State.rotated, same.map, same.rotation, State.rotated]

/-- Whatever is issued, the granted source moves as R162 gives. -/
theorem State.grant_rotation (p : PortId) (k : SlotId) (x : Source) (s : State) :
    ((s.grant p k x).port p).rotation = s.rotated x (s.port p).rotation := by
  cases x with
  | yield => exact State.rotate_rotation (State.sameOrder_issueYield p k s) .yield
  | record => exact State.rotate_rotation ((State.SameOrder.refl p s).modPort (Port.issueRecord_rotation k _)) .record
  | move => exact State.rotate_rotation (State.sameOrder_issueBurst p k s) .move

/-! ### The row -/

theorem exec_arbiterGrant_none (granted : s.granted p k = none) : exec (.arbiterGrant p k) s = .next s := by
  show execArbiterGrant p k s = _
  rw [execArbiterGrant, granted]

theorem exec_arbiterGrant_some (granted : s.granted p k = some x) : exec (.arbiterGrant p k) s = .next (s.grant p k x) := by
  show execArbiterGrant p k s = _
  rw [execArbiterGrant, granted]

end Sys2Proof.Machine

/-- Settles O21: the grant is a search of the mode's order for a source that presents, and the rotation is its last write. -/
theorem arbiterTakesTheFirstSource : Obligations.ArbiterTakesTheFirstSource := by
  unfold Obligations.ArbiterTakesTheFirstSource
  intro s p k
  refine ⟨fun closed => ?_, fun active free => ⟨fun fixed => ?_, fun rotating x => ?_, fun x granted => ?_⟩⟩
  · have nothing : s.granted p k = none := by
      rcases closed with inactive | taken | idle
      · exact State.granted_shut (fun ready => inactive ready.1)
      · exact State.granted_shut (fun ready => taken ready.2)
      · exact State.granted_idle idle
    exact ⟨nothing, exec_arbiterGrant_none nothing⟩
  · rw [State.granted_open active free, State.grantOrder_fixed fixed, find?_sources]
  · rw [State.granted_open active free, State.grantOrder_rotating rotating, List.find?_eq_some_iff_append]
    constructor
    · rintro ⟨presents, before, after, split, earlier⟩
      exact ⟨before, after, split, presents, fun y hy => by simpa using earlier y hy⟩
    · rintro ⟨before, after, split, presents, earlier⟩
      exact ⟨presents, before, after, split, fun y hy => by simp [earlier y hy]⟩
  · exact ⟨_, exec_arbiterGrant_some granted, State.grant_rotation p k x s⟩
end

