-- ==== Sys2Proof/Proofs/PortResets.lean ====
section
/-!
THEOREMS. The port reset of a link loss or a CONTROL write (R62, R110, R174, R175): what it keeps of the port, and what becomes of its inbox
where no record, one reader's record or one recalled lease concerns it (R40, R86).
-/
open Sys2Proof Sys2Proof.Machine

namespace Sys2Proof.Machine

/-! ### The port's own part (R62, R110, R175) -/

section
variable (P : Port)

@[simp] theorem Port.doReset_state : P.doReset.state = .down := by simp [Port.doReset, Port.arrShut, Port.modInbox, Port.modArr]

@[simp] theorem Port.doReset_mask : P.doReset.mask = P.mask := by simp [Port.doReset, Port.arrShut, Port.modInbox, Port.modArr]

@[simp] theorem Port.doReset_attnRelease : P.doReset.attnRelease = P.attnRelease := by
  simp [Port.doReset, Port.arrShut, Port.modInbox, Port.modArr]

/-- Of the flags only MAP_DONE stays. -/
@[simp] theorem Port.doReset_events : P.doReset.events = P.events &&& 0x200 := by
  simp [Port.doReset, Port.arrShut, Port.modInbox, Port.modArr, Event.bit]

/-- The arbiter is as after device reset. -/
theorem Port.doReset_arbiter : P.doReset.rotation = sourceOrder ∧ P.doReset.recordTurn = .command := by
  simp [Port.doReset, Port.arrShut, Port.modInbox, Port.modArr]

/-- A port reset counts discards, and touches no fault recorded before (R62, R168). -/
theorem Port.doReset_fault : P.doReset.fault = { P.fault with discards := P.doReset.fault.discards } := by
  simp only [Port.doReset, Port.arrShut, Port.modInbox, Port.modArr, Port.cmdShut]
  rw [Port.countDiscards_fault]

/-- Both processes keep their ring registers and go on from index 0 (R62, R110). -/
theorem Port.doReset_rings : P.doReset.cmd.base = P.cmd.base ∧ P.doReset.cmd.size = P.cmd.size ∧ P.doReset.cmd.next = 0 ∧
    P.doReset.arr.base = P.arr.base ∧ P.doReset.arr.size = P.arr.size ∧ P.doReset.arr.next = 0 := by
  simp [Port.doReset, Port.arrShut, Port.modInbox, Port.modArr, Port.cmdShut, ArrProc.shut]

end

theorem Port.KeptSince.fault_reset {P R : Port} (kept : P.doReset.KeptSince R) :
    R.fault.kind = P.fault.kind ∧ R.fault.info = P.fault.info ∧ R.fault.source = P.fault.source ∧ R.fault.count = P.fault.count := by
  rw [kept.kind, kept.info, kept.source, kept.count, Port.doReset_fault]
  exact ⟨rfl, rfl, rfl, rfl⟩

/-! ### The item whose record store is abandoned (R98, R110) -/

/-- The item being delivered stands in the inbox, its flag cleared, once the store is abandoned. -/
theorem Inbox.clearDelivering_mem {x : Inbox} {lane : Lane} {it : Item} (h : x.delivering = some (lane, it)) :
    { it with delivering := false } ∈ x.clearDelivering.urgent ++ x.clearDelivering.routine := by
  have stood : it ∈ x.urgent ++ x.routine := by
    unfold Inbox.delivering at h
    split at h
    case h_1 i found =>
      cases h
      exact List.mem_append_left _ (List.mem_of_find?_eq_some found)
    case h_2 =>
      split at h
      case h_1 i found =>
        cases h
        exact List.mem_append_right _ (List.mem_of_find?_eq_some found)
      case h_2 => cases h
  show { it with delivering := false } ∈ x.urgent.map _ ++ x.routine.map _
  rw [← List.map_append]
  exact List.mem_map_of_mem stood

/-- Where nothing is being delivered, the LEASE items that a recall may take back are all of the buffer's. -/
theorem Inbox.remove_leases {x : Inbox} (still : ∀ i ∈ x.urgent ++ x.routine, i.delivering = false) (b : BufId) :
    x.remove (fun i => i.isLeaseOf b && !i.delivering) = x.remove (Item.isLeaseOf b) := by
  have lane : ∀ l : List Item, (∀ i ∈ l, i.delivering = false) →
      l.filter (fun i => !(i.isLeaseOf b && !i.delivering)) = l.filter (fun i => !i.isLeaseOf b) :=
    fun l hl => List.filter_congr (fun i hi => by rw [hl i hi, Bool.not_false, Bool.and_true])
  rw [Inbox.remove, Inbox.remove, lane _ (fun i hi => still i (List.mem_append_left _ hi)),
    lane _ (fun i hi => still i (List.mem_append_right _ hi))]

variable {s : State} {p h : PortId} {b : BufId}

/-- A recall that waits on one lease alone ends when that lease's store fails: the item goes with its standing reservation (R86). -/
theorem State.leaseFailed_recalled {x : Bool} (waits : (s.record b).custody = .owned (.leasedToOne h p (.recallViews x)))
    (item : ∃ i ∈ (s.port p).inbox.urgent ++ (s.port p).inbox.routine, i.isLeaseOf b = true ∧ i.delivering = false) :
    s.leaseFailed b p = ((s.modPort p (Port.modInbox (fun y => (y.remove (fun i => i.isLeaseOf b && !i.delivering)).release
      .standing b))).setCustody b (.heldPlain h)).endWaiting h .recallViews b (if x then .okFenced else .ok) .zero := by
  have last : (Owned.leasedToOne h p (.recallViews x)).dropLease p = .busyPlain h (.recallViews x) := by
    simp [Owned.dropLease, Owned.leasedToOne, Owned.busyPlain]
  have failed : s.leaseFailed b p = (s.removeLease b p).recallCheck b := by
    rw [State.leaseFailed, State.owned_of waits]
    rfl
  have inRange : b < s.records.length := State.owned_inRange waits
  have left : ((s.modPort p (Port.modInbox (fun y => (y.remove (fun i => i.isLeaseOf b && !i.delivering)).release
      .standing b))).setCustody b (.owned (.busyPlain h (.recallViews x)))).owned b = some (.busyPlain h (.recallViews x)) :=
    State.setCustody_owned _ inRange
  rw [failed, State.removeLease_of waits item, last, State.recallCheck_done left, State.setCustody_setCustody]

/-! ### The reset of a port with no yield, no burst and few records on it (R38 to R41, R176) -/

/-- A buffer held plainly by another port does not concern this one. -/
theorem Record.apartFrom_heldPlain {r : Record} (held : r.custody = .heldPlain h) (other : h ≠ p) : r.apartFrom p := by
  rw [Record.apartFrom, held]
  exact ⟨other, rfl⟩

/-- Where the abandoned lease leaves no record that concerns the port, the sweep does nothing more. -/
theorem State.portReset_apart {u : State} (left : (s.modPort p Port.doReset).leaseAbandoned (s.port p).inbox.delivering p = u)
    (apart : ∀ x, (u.record x).apartFrom p) (asked : u.yields.asksFor p = []) (mover : u.mover = s.mover)
    (bursts : ∀ c, s.mover.reqOn p c = none) (rest : s.moverAtRest) :
    s.portReset p = ({ u with freeCount := u.freeCount + 1 } : State).modYields (YieldUnit.endFor p) :=
  State.portReset_of { u with freeCount := u.freeCount + 1 } (by rw [left, State.sweep_none apart]) asked mover bursts rest

section
variable (asked : s.yields.asksFor p = []) (bursts : ∀ c, s.mover.reqOn p c = none) (rest : s.moverAtRest)
include asked bursts rest

/-- With no record that concerns the port and nothing being delivered, the inbox is kept whole (R110). -/
theorem State.portReset_inbox_unconcerned (apart : ∀ x, (s.record x).apartFrom p) (still : (s.port p).inbox.delivering = none) :
    ((s.portReset p).port p).inbox = (s.port p).inbox.clearDelivering := by
  have reset := State.portReset_apart (s := s) (p := p) rfl
  rw [still, State.leaseAbandoned] at reset
  rw [reset apart asked rfl bursts rest]
  show ((s.modPort p Port.doReset).port p).inbox = _
  rw [State.modPort_port_same, Port.doReset_inbox]

/-- Of a buffer the port reads, with no recall pending, the view ends and its standing reservation goes (R40). -/
theorem State.portReset_reader {o : Owned} (others : ∀ x, x ≠ b → (s.record x).apartFrom p)
    (still : (s.port p).inbox.delivering = none) (owned : (s.record b).custody = .owned o) (holder : o.holder ≠ p)
    (reader : o.hasReader p = true) (unrecalled : ∀ x, o.op ≠ .recallViews x) :
    ((s.portReset p).port p).inbox = (s.port p).inbox.clearDelivering.release .standing b ∧
      ((s.portReset p).record b).custody = .owned (o.dropReader p) := by
  have inRange : b < (s.modPort p Port.doReset).records.length := State.owned_inRange owned
  have left : ((s.modPort p Port.doReset).setCustody b (.owned (o.dropReader p))).owned b = some (o.dropReader p) :=
    State.setCustody_owned _ inRange
  have swept : (s.modPort p Port.doReset).sweepReader b p =
      ((s.modPort p Port.doReset).setCustody b (.owned (o.dropReader p))).releaseRes p .standing b := by
    rw [State.sweepReader, State.readerOut_acked (State.owned_of (by exact owned)) reader]
    exact State.recallCheck_other (o := o.dropReader p) left unrecalled
  have reset := State.portReset_of (s := s) (p := p) _ rfl
  rw [still, State.leaseAbandoned, State.sweep_one (s := s.modPort p Port.doReset) others owned holder reader, swept] at reset
  rw [reset asked rfl bursts rest]
  constructor
  · show ((((s.modPort p Port.doReset).setCustody b (.owned (o.dropReader p))).releaseRes p .standing b).port p).inbox = _
    rw [State.releaseRes, State.modPort_port_same]
    show ((s.modPort p Port.doReset).port p).inbox.release .standing b = _
    rw [State.modPort_port_same, Port.doReset_inbox]
  · exact State.custody_of_owned left

/-- Of a buffer whose recall waits on the lease being delivered alone, the LEASE item and its standing reservation go, and the recall ends
(R86). -/
theorem State.portReset_recalledLease {x : Bool} {lane : Lane} {it : Item} (apart : ∀ y, (s.record y).apartFrom p)
    (delivering : (s.port p).inbox.delivering = some (lane, it)) (lease : it.kind = .lease) (buffer : it.buf = b)
    (waits : (s.record b).custody = .owned (.leasedToOne h p (.recallViews x))) :
    ((s.portReset p).port p).inbox = ((s.port p).inbox.clearDelivering.remove (Item.isLeaseOf b)).release .standing b ∧
      ((s.portReset p).record b).custody = .heldPlain h := by
  have inRange : b < s.records.length := State.owned_inRange waits
  have other : h ≠ p := by
    have concern := apart b
    rw [Record.apartFrom, waits] at concern
    exact concern.1
  have down : ((s.modPort p Port.doReset).port p).inbox = (s.port p).inbox.clearDelivering := by
    rw [State.modPort_port_same, Port.doReset_inbox]
  have item : ∃ i ∈ ((s.modPort p Port.doReset).port p).inbox.urgent ++ ((s.modPort p Port.doReset).port p).inbox.routine,
      i.isLeaseOf b = true ∧ i.delivering = false := by
    rw [down]
    exact ⟨_, Inbox.clearDelivering_mem delivering, by simp [Item.isLeaseOf, lease, buffer], rfl⟩
  have failed := State.leaseFailed_recalled (s := s.modPort p Port.doReset) waits item
  have held : ((s.setCustody b (.heldPlain h)).record b).custody = .heldPlain h := by
    rw [State.setCustody_record, if_pos ⟨rfl, inRange⟩]
  have left : ∀ y, ((s.setCustody b (.heldPlain h)).record y).apartFrom p := by
    intro y
    rw [State.setCustody_record]
    split
    · exact Record.apartFrom_heldPlain rfl other
    · exact apart y
  have reset := State.portReset_apart (s := s) (p := p) rfl
  rw [delivering, State.leaseAbandoned, if_pos lease, buffer, failed] at reset
  rw [reset left asked rfl bursts rest]
  constructor
  · show (State.port (State.modPort h _ (State.modPort p _ (s.modPort p Port.doReset))) p).inbox = _
    rw [State.modPort_port_ne _ _ other.symm, State.modPort_port_same, ← Inbox.remove_leases (Inbox.clearDelivering_flags _), ← down]
    rfl
  · exact held

end

end Sys2Proof.Machine

/-- Settles O18: the port goes down by `Port.doReset` and the work of the other blocks keeps it so (`State.portReset_port`); the sweep finds no
record, one the port reads, or none once the recalled lease is gone. -/
theorem portResetLeavesThePortDown : Obligations.PortResetLeavesThePortDown := by
  unfold Obligations.PortResetLeavesThePortDown
  intro s p w c row
  refine ⟨_, exec_portReset row, ?_⟩
  intro P R
  obtain ⟨kept, events⟩ := State.portReset_port s p
  obtain ⟨slots, cmdState, cmdRun, cmdLoad, cmdHeld, cmdDeadline, lost, arrState, arrRun, arrLoad, arrStore, arrStop, arrDeadline⟩ :=
    kept.quiet
  obtain ⟨faultKind, faultInfo, faultSource, faultCount⟩ := kept.fault_reset
  obtain ⟨cmdBase, cmdSize, cmdNext, arrBase, arrSize, arrNext⟩ := Port.doReset_rings (s.port p)
  obtain ⟨rotation, recordTurn⟩ := Port.doReset_arbiter (s.port p)
  have urgent := kept.urgent
  have routine := kept.routine
  rw [Port.doReset_inbox] at urgent routine
  refine ⟨events.trans (Port.doReset_events _), kept.notDelivering, urgent, routine, ?_, ?_, ?_,
    kept.state.trans (Port.doReset_state _), slots, kept.rotation.trans rotation, kept.recordTurn.trans recordTurn,
    kept.mask.trans (Port.doReset_mask _), kept.attnRelease.trans (Port.doReset_attnRelease _),
    faultKind, faultInfo, faultSource, faultCount,
    cmdState, cmdRun, kept.cmdBase.trans cmdBase, kept.cmdSize.trans cmdSize, kept.cmdNext.trans cmdNext, cmdLoad, cmdHeld, cmdDeadline, lost,
    arrState, arrRun, kept.arrBase.trans arrBase, kept.arrSize.trans arrSize, kept.arrNext.trans arrNext, arrLoad, arrStore, arrStop,
    arrDeadline⟩
  · rintro ⟨asked, bursts, rest⟩ apart still
    exact State.portReset_inbox_unconcerned asked bursts rest apart still
  · rintro b o ⟨asked, bursts, rest⟩ others still owned holder reader unrecalled
    obtain ⟨inbox, custody⟩ := State.portReset_reader asked bursts rest others still owned holder reader unrecalled
    exact ⟨inbox, o.dropReader p, custody, rfl, rfl⟩
  · rintro b h x lane it ⟨asked, bursts, rest⟩ apart delivering lease buffer waits
    exact State.portReset_recalledLease asked bursts rest apart delivering lease buffer waits
end

