-- ==== Sys2Proof/Proofs/FaultRecords.lean ====
section
/-!
THEOREMS. The first-fault record: what recording a fault keeps and counts (R165), and the write that clears it (R167).
-/
open Sys2Proof Sys2Proof.Machine

namespace Sys2Proof.Machine

/-- A count of 8 bits rises by one up to 255. -/
theorem satInc_toNat (x : Byte) : (satInc x).toNat = min 255 (x.toNat + 1) := by
  unfold satInc
  split
  case isTrue full =>
    rw [full]
    rfl
  case isFalse room =>
    have below : x.toNat < 255 := by
      have differs : x.toNat ≠ 255 := fun e => room (BitVec.eq_of_toNat_eq e)
      have := x.isLt
      omega
    rw [BitVec.toNat_add, Nat.mod_eq_of_lt (by simp; omega), Nat.min_eq_right (by omega)]
    rfl

section
variable {F : FaultRecord} (k : FaultKind) (info : Addr) (src : UnsolSource)

/-- A clear record takes the fault's kind and info (R165). -/
theorem FaultRecord.record_clear (clear : F.kind = .none) :
    F.record k info src = { F with kind := k, info := info, source := src, count := satInc F.count } := if_pos clear

/-- Any other record keeps its first fault (R165). -/
theorem FaultRecord.record_later (taken : F.kind ≠ .none) : F.record k info src = { F with count := satInc F.count } := if_neg taken

/-- The count does not depend on whether the fault is the first (R165). -/
theorem FaultRecord.record_count (F : FaultRecord) : (F.record k info src).count = satInc F.count := by
  unfold FaultRecord.record
  split <;> rfl

/-- A fault is no discard (R165, R168). -/
theorem FaultRecord.record_discards (F : FaultRecord) : (F.record k info src).discards = F.discards := by
  unfold FaultRecord.record
  split <;> rfl

end

variable {P : Port}

/-- A write to FAULT on a port that is not FENCED clears its record (R167). -/
theorem Port.writeFault_unfenced (unfenced : P.state ≠ .fenced) : P.writeFault = { P with fault := .clear } := if_neg unfenced

/-- On a FENCED port the record takes the WINDOW_REFUSED of the write itself (R152, R167). -/
theorem Port.writeFault_refused (fenced : P.state = .fenced) :
    P.writeFault = { P with fault := P.fault.record .windowRefused 0x28 .yield } := Port.writeFault_fenced fenced

end Sys2Proof.Machine

/-- Settles O17: the record's two cases, first fault and later fault, and a count that both share. -/
theorem recordingAFaultKeepsTheFirst : Obligations.RecordingAFaultKeepsTheFirst := by
  unfold Obligations.RecordingAFaultKeepsTheFirst
  intro P k info F
  have recorded : F = P.fault.record k info .yield := rfl
  refine ⟨fun clear => ?_, fun taken => ?_, ?_, FaultRecord.record_discards k info .yield P.fault, rfl⟩
  · rw [recorded, FaultRecord.record_clear k info .yield clear]
    exact ⟨rfl, rfl⟩
  · rw [recorded, FaultRecord.record_later k info .yield taken]
    exact ⟨rfl, rfl⟩
  · rw [recorded, FaultRecord.record_count, satInc_toNat]

/-- Settles O15: unless the port is FENCED the write clears the record; there it is refused, and recorded as a first or a later fault. -/
theorem faultWriteClearsTheRecord : Obligations.FaultWriteClearsTheRecord := by
  unfold Obligations.FaultWriteClearsTheRecord
  intro s p w
  refine ⟨fun unfenced => ?_, fun fenced taken => ?_, fun fenced clear => ?_⟩
  · refine ⟨_, next_modPort (g := fun P => { P with fault := .clear }) (Port.writeFault_unfenced unfenced), ?_⟩
    rw [State.modPort_port_same]
    exact ⟨rfl, rfl, rfl, rfl, rfl⟩
  · refine ⟨_, next_modPort ?_, rfl⟩
    rw [Port.writeFault_refused fenced, FaultRecord.record_later _ _ _ taken]
  · refine ⟨_, next_modPort ?_, rfl⟩
    rw [Port.writeFault_refused fenced, FaultRecord.record_clear _ _ _ clear]
end

