-- ==== Sys2Proof/Proofs/DeviceReset.lean ====
section
/-!
THEOREMS. Device reset (R177): the values it puts the part at, and the invariants that hold there (R42, R128, R130).
-/
open Sys2Proof Sys2Proof.Machine

namespace Sys2Proof.Machine

/-! ### The state after reset -/

theorem State.reset_port (p : PortId) : State.reset.port p = .reset := Four.get_fill p _

/-- Until a map is READY every port runs with the fixed values (R9). -/
theorem State.cfg_unmapped {s : State} (unmapped : s.map = none) (p : PortId) : s.cfg p = .fixed := by
  have entry : s.theMap.ports.get p = .fixed := by
    rw [State.theMap, unmapped]
    exact Four.get_fill p _
  rw [State.cfg, entry]
  rfl

/-- After reset no custody of any kind is left (R10, R177). -/
theorem State.reset_closed : State.reset.closed :=
  ⟨rfl, rfl, rfl, rfl, rfl, rfl, rfl, rfl, fun p => by rw [State.reset_port]; rfl⟩

/-- With no job in the queue both channels are idle (R130). -/
theorem State.reset_atRest : State.reset.moverAtRest := ⟨rfl, rfl⟩

/-- The state after reset, but for the Time Base, the model's counter and the queue, which run on (logs 3 and 7). -/
def State.afterReset (s : State) : State := { State.reset with now := s.now, freeCount := s.freeCount, pending := s.pending }

theorem exec_deviceReset (s : State) : exec .deviceReset s = .next s.afterReset := rfl

theorem State.afterReset_port (s : State) (p : PortId) : s.afterReset.port p = .reset := State.reset_port p

section
variable {s : State} {p : PortId}

/-- A reset port presents nothing where the Yield Unit and the Mover hold nothing (R161, R177). -/
theorem State.presents_reset (port : s.port p = .reset) (yields : s.yields = .reset) (mover : s.mover = .reset) (x : Source) :
    s.presents p x = false := by
  cases x with
  | yield =>
    rw [State.presents, yields]
    rfl
  | record =>
    rw [State.presents, port]
    rfl
  | move =>
    rw [State.presents, mover]
    rfl

/-- INBOX of a reset port reads 0 (R111, R182). -/
theorem State.windowRead_inbox_reset (port : s.port p = .reset) : s.windowRead p 0x30 = some 0 := by
  show some (s.port p).inbox.word = _
  rw [port]
  rfl

/-- With every port DOWN none is FENCED (R153). -/
theorem State.fencedMask_reset (port : ∀ q, s.port q = .reset) : s.fencedMask = 0 := by
  have none : fourIds.filter (fun q => s.fenced q) = [] :=
    List.filter_eq_nil_iff.mpr (fun q _ => by rw [State.fenced, port q]; decide)
  rw [State.fencedMask, none]
  rfl

end

end Sys2Proof.Machine

/-- Settles O3: the next state is `State.reset` but for the three fields apart, and each value is read off it. -/
theorem deviceResetResetsEveryPort : Obligations.DeviceResetResetsEveryPort := by
  unfold Obligations.DeviceResetResetsEveryPort
  intro s
  have port := s.afterReset_port
  refine ⟨s.afterReset, exec_deviceReset s, fun p => ?_, State.fencedMask_reset port, rfl, rfl, rfl, rfl, rfl, rfl, rfl, rfl, rfl, rfl, rfl,
    rfl, rfl, rfl⟩
  have presents := State.presents_reset (port p) rfl rfl
  have inbox := State.windowRead_inbox_reset (port p)
  have values := State.cfg_unmapped (s := s.afterReset) rfl p
  rw [port p]
  exact ⟨rfl, fun k => Four.get_fill k _, rfl, rfl, presents, rfl, rfl, rfl, rfl, rfl, rfl, rfl, rfl, inbox, values⟩

/-- Settles O4: a port after reset is quiet and legal, nothing is in custody, and the channels are idle. -/
theorem resetMeetsTheInvariants : Obligations.ResetMeetsTheInvariants := by
  unfold Obligations.ResetMeetsTheInvariants
  refine ⟨.refl _, fun p _ => ?_, fun p => ?_, ⟨nofun, fun _ => State.reset_closed⟩, State.reset_atRest⟩
  · rw [State.reset_port]
    exact Port.quiet_deviceReset
  · rw [State.reset_port]
    exact Port.legal_deviceReset
end

