-- ==== Sys2Proof/Proofs/StepsAndRows.lean ====
section
/-!
THEOREMS. A step by the front of the queue (logs 1 and 2), and that every row answers a next state.
-/
open Sys2Proof Sys2Proof.Machine

namespace Sys2Proof.Machine

variable {s : State}

/-! ### A step by the front of the queue -/

theorem step_of_front {c : Instr} {rest : List Instr} (front : s.pending = c :: rest) : step s = exec c { s with pending := rest } := by
  rw [step, front]

theorem step_of_empty (empty : s.pending = []) : step s = .next s.tick := by
  rw [step, empty]

/-! ### The rows that write the map -/

/-- With the map not LOADING no load ends (log 11). -/
theorem exec_mapLoadEnd_notLoading (rom : List Byte) (ended : s.mapState ≠ .loading) : exec (.mapLoadEnd rom) s = .next s :=
  (mapLoadEndHandsOutTheMap.2 s rom).2 ended

end Sys2Proof.Machine

/-- Settles O1, by the two forms of the queue. -/
theorem stepRunsTheFrontCommand : Obligations.StepRunsTheFrontCommand := by
  unfold Obligations.StepRunsTheFrontCommand
  intro s c rest
  exact ⟨step_of_front rfl, step_of_empty rfl⟩

/-- Settles O2: DEVICE_RESET answers the state after reset, MAP_LOAD_END the end of the load under way or the state as it is, and every other
row a state it comes to by the writes of `exec_any`. -/
theorem everyCommandAnswersANextState : Obligations.EveryCommandAnswersANextState := by
  unfold Obligations.EveryCommandAnswersANextState
  intro c s
  by_cases reset : c = .deviceReset
  · subst reset
    exact ⟨s.afterReset, exec_deviceReset s⟩
  by_cases load : ∃ rom, c = .mapLoadEnd rom
  · obtain ⟨rom, rfl⟩ := load
    by_cases loading : s.mapState = .loading
    · exact ⟨s.endLoad rom, exec_mapLoadEnd rom loading⟩
    · exact ⟨s, exec_mapLoadEnd_notLoading rom loading⟩
  · obtain ⟨t, row, -⟩ := exec_any c s reset (fun rom same => load ⟨rom, same⟩)
    exact ⟨t, row⟩
end
